-- ==== Sys2Proof/Word.lean ====
section
/-! DEFINITION. The word types of FHP-CORE: a byte of a buffer, a nibble of a framing byte, a 32-bit register or command word. -/

namespace Sys2Proof

/-- One byte of a buffer memory or of the chunk stream (00_scope.md R14). -/
abbrev Byte := BitVec 8

/-- A nibble of a framing byte (30_encoding.md R127). -/
abbrev Nibble := BitVec 4

/-- A host register or a command word, REG_W = DATA_W = 32 bits (00_scope.md R10). -/
abbrev Word := BitVec 32

end Sys2Proof
end

