-- ==== Sys2Proof/Config.lean ====
section
/-! DEFINITION. The fixed parameters of FHP-CORE (00_scope.md R9, R10), and the free values: constants without a body, which
stand for what the spec leaves open. The hidden engine state's record stands here because one free value has its type. -/

namespace Sys2Proof

/-- N_PRESERVE: the encode length and decoder capacity when holes are preserved (R9). -/
@[simp] abbrev Config.nPreserve : Nat := 8192
/-- N_DROP: the encode length and decoder capacity otherwise (R9). -/
@[simp] abbrev Config.nDrop : Nat := 8184
/-- SRC_MIN (R9). -/
@[simp] abbrev Config.srcMin : Nat := 8184
/-- SRC_MAX (R9). -/
@[simp] abbrev Config.srcMax : Nat := 8192
/-- LIT_MAX: the longest literal run an encoder puts into one chunk (R9). -/
@[simp] abbrev Config.litMax : Nat := 255
/-- MATCH_MIN: the shortest usable match (R9). -/
@[simp] abbrev Config.matchMin : Nat := 4
/-- MATCH_MAX: the match finder's length cap (R9). -/
@[simp] abbrev Config.matchMax : Nat := 255
/-- SENT_NOMATCH (R9). -/
@[simp] abbrev Config.sentNoMatch : Byte := 253
/-- SENT_END (R9). -/
@[simp] abbrev Config.sentEnd : Byte := 254
/-- MAGIC, stream byte 0 (R9). -/
@[simp] abbrev Config.magic : Byte := 0x66
/-- HOLE_START (R9). -/
@[simp] abbrev Config.holeStart : Nat := 120
/-- HOLE_PERIOD (R9). -/
@[simp] abbrev Config.holePeriod : Nat := 128
/-- HOLE_LEN (R9). -/
@[simp] abbrev Config.holeLen : Nat := 8
/-- SRC_SIZE = WRK_SIZE = DEC_SIZE (R10). -/
@[simp] abbrev Config.bufSize : Nat := 8192
/-- The least CMP_CAP (R10): N_PRESERVE + EXPANSION_MAX. -/
@[simp] abbrev Config.cmpCapMin : Nat := 8292
/-- The greatest CMP_CAP (R10). -/
@[simp] abbrev Config.cmpCapMax : Nat := 65536
/-- The default of the parameter CMP_CAP (R10). -/
@[simp] abbrev Config.cmpCapDefault : Nat := 8448
/-- The hardwired value of ID (10_state.md R33). -/
@[simp] abbrev Config.idValue : Word := 0x46485043
/-- The hardwired value of VERSION (R34). -/
@[simp] abbrev Config.versionValue : Word := 0x00000007

/-- COST_W: the width of the OptNode totalCost field (R10). -/
abbrev Config.costW : Nat := 16

/-- One entry of the OptNode table, in the widths of its fields (10_state.md R59). -/
structure OptNode where
  totalCost        : BitVec Config.costW
  matchLength      : BitVec 8
  matchOffset      : BitVec 13
  literalRunLength : BitVec 8
deriving DecidableEq, Repr, Inhabited

/-- The hidden engine state (10_state.md R59 to R61): no host access reaches it. Each field is valid only while a command that uses
it runs. -/
structure Hidden where
  /-- The Decoder's input cursor into CMP (R60), the counter that plays the part of a program counter (R31). -/
  ip   : BitVec 17
  /-- The Decoder's output cursor into DEC (R60). -/
  op   : BitVec 14
  /-- The parsers' input position (R61). -/
  pos  : BitVec 14
  /-- The pending literal run (R61). -/
  pend : List Byte
  /-- The write cursor into CMP (R61). -/
  wp   : BitVec 17
  /-- The OptNode table (R59). -/
  opt  : List OptNode
deriving DecidableEq, Repr, Inhabited

/-- FREE VALUE (log 2). The byte a host read of an undefined byte returns (10_state.md R64), by number of the draw. -/
opaque Config.freeByte : Nat → Byte

/-- FREE VALUE (log 2). The word a refused read, a read of a result register while BUSY, or a read during reset returns
(10_state.md R52, 20_memory.md R93, 70_reset_and_hazards.md R400), by number of the draw. -/
opaque Config.freeWord : Nat → Word

/-- FREE VALUE (log 3). What the hidden engine state holds between commands (10_state.md R59 to R61, R65), by number of the draw. -/
opaque Config.freeHidden : Nat → Hidden

end Sys2Proof
end

