-- ==== Sys2Proof/Syntax.lean ====
section
/-! DEFINITION. The instructions of FHP-CORE as syntax: the nine commands of the command word and the four chunk kinds of the chunk
stream, one constructor per row of spec/opcode_table.json (30_encoding.md R121, R131). -/

namespace Sys2Proof

/-- What follows the literal run of a chunk (30_encoding.md R129, R131). -/
inductive Tail where
  /-- CHUNK_MATCH: the match class nibble MN and the offset. -/
  | matchShort (mn : Nibble) (off : BitVec 16)
  /-- CHUNK_MATCHX: the match extension byte MX and the offset. -/
  | matchLong (mx : Byte) (off : BitVec 16)
  /-- CHUNK_NOMATCH: MX = 253. -/
  | noMatch
  /-- CHUNK_END: MX = 254. -/
  | endOfData
deriving DecidableEq, Repr

/-- One framing unit of the stream (00_scope.md R19, 30_encoding.md R126): a literal run and a tail. LN and LX are not kept: the run's
length has exactly one form (R128). -/
structure Chunk where
  lits : List Byte
  tail : Tail
deriving DecidableEq, Repr

/-- The instructions: one constructor per row of spec/opcode_table.json. -/
inductive Instr where
  | nop
  | load
  | holeZero
  | holePattern
  | matchCmd
  | encGreedy
  | encOptimal
  | decode
  | compress
  | chunkMatch (lits : List Byte) (mn : Nibble) (off : BitVec 16)
  | chunkMatchX (lits : List Byte) (mx : Byte) (off : BitVec 16)
  | chunkNoMatch (lits : List Byte)
  | chunkEnd (lits : List Byte)
deriving DecidableEq, Repr

/-- What FHP-CORE decodes: a command word written to CMD, or the bytes of the chunk stream from the input cursor on. -/
inductive Code where
  | cmdw (w : Word)
  | chunk (bytes : List Byte)
deriving DecidableEq, Repr

/-- Why a code is no instruction, by name. For a truncated chunk the fields say where: `hdr` is the number of bytes of FB and LX, `run` the
literal length L, `missing` the index in the chunk of the byte that is not there. -/
inductive DecodeError where
  /-- A command word with bits 31..8 not zero (30_encoding.md R123). -/
  | rsvd
  /-- A reserved opcode, 0x09 to 0xFF (R122). -/
  | opcode
  /-- No framing byte. -/
  | frame
  /-- No literal extension byte. -/
  | litExt
  /-- Fewer literal bytes than L. -/
  | litIn (hdr run : Nat)
  /-- No match extension byte. -/
  | matchExt (hdr run : Nat)
  /-- An offset byte is not there. -/
  | offset (hdr run missing : Nat)
deriving DecidableEq, Repr

end Sys2Proof
end

