-- ==== Sys2Proof/WellFormed.lean ====
section
/-! DEFINITION. Which instructions the encodings can hold: the checks on the operands of a chunk (30_encoding.md R128, R129, R131). A
command has no operand, so every command is well formed (R120). -/

namespace Sys2Proof

/-- The literal length ranges over 0..270 (R128). -/
def litsOk (lits : List Byte) : Bool := decide (lits.length ≤ 270)

/-- MN is 0..14 in a CHUNK_MATCH, and MX is neither 253 nor 254 in a CHUNK_MATCHX (R131). -/
def Tail.wf : Tail → Bool
  | .matchShort mn _ => decide (mn ≠ 15)
  | .matchLong mx _  => decide (mx ≠ Config.sentNoMatch) && decide (mx ≠ Config.sentEnd)
  | .noMatch         => true
  | .endOfData       => true

/-- A chunk the encoding can hold. -/
def Chunk.wf (c : Chunk) : Bool := litsOk c.lits && c.tail.wf

/-- An instruction the encodings can hold. -/
def Instr.wf : Instr → Bool
  | .nop | .load | .holeZero | .holePattern | .matchCmd | .encGreedy | .encOptimal | .decode | .compress => true
  | .chunkMatch lits mn off  => Chunk.wf ⟨lits, .matchShort mn off⟩
  | .chunkMatchX lits mx off => Chunk.wf ⟨lits, .matchLong mx off⟩
  | .chunkNoMatch lits       => Chunk.wf ⟨lits, .noMatch⟩
  | .chunkEnd lits           => Chunk.wf ⟨lits, .endOfData⟩

end Sys2Proof
end

