-- ==== Sys2Proof/Decode.lean ====
section
/-! DEFINITION. The decoder of command words and of chunks, total on any bits and rejecting by name, and after it the encoder, both from
30_encoding.md R120 to R132. -/

namespace Sys2Proof

/-! ### Bit fields and byte order -/

/-- FB[7:4] (00_scope.md R12). -/
def hiNib (b : Byte) : Nibble := b.extractLsb' 4 4

/-- FB[3:0] (R12). -/
def loNib (b : Byte) : Nibble := b.extractLsb' 0 4

/-- OFF from its two bytes, the first the low one (30_encoding.md R130, 20_memory.md R81). -/
def offsetOf (b0 b1 : Byte) : BitVec 16 := b1 ++ b0

/-- OFF[7:0]. -/
def offsetLo (o : BitVec 16) : Byte := o.extractLsb' 0 8

/-- OFF[15:8]. -/
def offsetHi (o : BitVec 16) : Byte := o.extractLsb' 8 8

/-! ### Sizes and lengths of a chunk -/

/-- The length M of a match (R129): MN + 4, or MX + 19. -/
def Tail.matchLen : Tail → Nat
  | .matchShort mn _ => mn.toNat + 4
  | .matchLong mx _  => mx.toNat + 19
  | .noMatch         => 0
  | .endOfData       => 0

/-- The bytes of MX and OFF that are present (R132). -/
def Tail.size : Tail → Nat
  | .matchShort _ _ => 2
  | .matchLong _ _  => 3
  | .noMatch        => 1
  | .endOfData      => 1

/-- The bytes of FB and LX: LX is present iff LN = 15, that is, iff L is 15 or more (R126, R128). -/
def hdrSize (run : Nat) : Nat := if run < 15 then 1 else 2

/-- Chunk length (R132). -/
def Chunk.size (c : Chunk) : Nat := hdrSize c.lits.length + c.lits.length + c.tail.size

/-- The longest chunk: FB, LX, 270 literals, MX and OFF (R128, R132). -/
@[simp] abbrev maxChunkSize : Nat := 275

/-- The instruction a chunk is (R131). -/
def Chunk.toInstr (c : Chunk) : Instr :=
  match c.tail with
  | .matchShort mn off => .chunkMatch c.lits mn off
  | .matchLong mx off  => .chunkMatchX c.lits mx off
  | .noMatch           => .chunkNoMatch c.lits
  | .endOfData         => .chunkEnd c.lits

/-! ### The command word -/

/-- A command word (R120, R121): the reserved bits are checked before the opcode (40_control.md R173). -/
def decodeCommand (w : Word) : Except DecodeError Instr :=
  if w.extractLsb' 8 24 ≠ 0 then .error .rsvd
  else match (w.extractLsb' 0 8).toNat with
    | 0 => .ok .nop
    | 1 => .ok .load
    | 2 => .ok .holeZero
    | 3 => .ok .holePattern
    | 4 => .ok .matchCmd
    | 5 => .ok .encGreedy
    | 6 => .ok .encOptimal
    | 7 => .ok .decode
    | 8 => .ok .compress
    | _ => .error .opcode

/-! ### The chunk stream -/

/-- The literal length L from LN and, where LN = 15, from LX (R128): the bytes of FB and LX, L, and what follows. -/
def decodeRun (ln : Nibble) (bs : List Byte) : Except DecodeError (Nat × Nat × List Byte) :=
  if ln ≠ 15 then .ok (1, ln.toNat, bs)
  else match bs with
    | []         => .error .litExt
    | lx :: rest => .ok (2, 15 + lx.toNat, rest)

/-- The two offset bytes (R130); `index` is the index in the chunk of the first one. -/
def decodeOffset (hdr run index : Nat) : List Byte → Except DecodeError (BitVec 16 × List Byte)
  | []              => .error (.offset hdr run index)
  | [_]             => .error (.offset hdr run (index + 1))
  | b0 :: b1 :: rest => .ok (offsetOf b0 b1, rest)

/-- What follows the literal bytes (R129, R131): the match class, told by MN and, where MN = 15, by MX. -/
def decodeTail (mn : Nibble) (hdr run : Nat) (bs : List Byte) : Except DecodeError (Tail × List Byte) :=
  if mn ≠ 15 then
    match decodeOffset hdr run (hdr + run) bs with
    | .error e        => .error e
    | .ok (off, rest) => .ok (.matchShort mn off, rest)
  else match bs with
    | [] => .error (.matchExt hdr run)
    | mx :: rest =>
      if mx = Config.sentNoMatch then .ok (.noMatch, rest)
      else if mx = Config.sentEnd then .ok (.endOfData, rest)
      else match decodeOffset hdr run (hdr + run + 1) rest with
        | .error e         => .error e
        | .ok (off, rest') => .ok (.matchLong mx off, rest')

/-- One chunk from the bytes at the input cursor, in the stream order of R126, and the bytes after it. -/
def decodeChunk : List Byte → Except DecodeError (Chunk × List Byte)
  | [] => .error .frame
  | fb :: bs =>
    match decodeRun (hiNib fb) bs with
    | .error e => .error e
    | .ok (hdr, run, body) =>
      if (body.take run).length < run then .error (.litIn hdr run)
      else match decodeTail (loNib fb) hdr run (body.drop run) with
        | .error e      => .error e
        | .ok (t, rest) => .ok (⟨body.take run, t⟩, rest)

/-- Either code, and what follows it. -/
def decode : Code → Except DecodeError (Instr × List Byte)
  | .cmdw w =>
    match decodeCommand w with
    | .error e => .error e
    | .ok i    => .ok (i, [])
  | .chunk bs =>
    match decodeChunk bs with
    | .error e      => .error e
    | .ok (c, rest) => .ok (c.toInstr, rest)

/-! ### The encoder -/

/-- The nibble MN of a tail (R129): 15 where MX is present. -/
def Tail.mnField : Tail → Nibble
  | .matchShort mn _ => mn
  | .matchLong _ _   => 15
  | .noMatch         => 15
  | .endOfData       => 15

/-- The bytes MX and OFF of a tail, in stream order (R126). -/
def Tail.bytes : Tail → List Byte
  | .matchShort _ off => [offsetLo off, offsetHi off]
  | .matchLong mx off => [mx, offsetLo off, offsetHi off]
  | .noMatch          => [Config.sentNoMatch]
  | .endOfData        => [Config.sentEnd]

/-- The nibble LN of a literal length (R128). -/
def lnField (run : Nat) : Nibble := if run < 15 then BitVec.ofNat 4 run else 15

/-- LX, present iff L is 15 or more (R128). -/
def lxBytes (run : Nat) : List Byte := if run < 15 then [] else [BitVec.ofNat 8 (run - 15)]

/-- The bytes of a chunk (R126): FB, LX, the literal bytes, MX, OFF. -/
def encodeChunk (c : Chunk) : List Byte :=
  (lnField c.lits.length ++ c.tail.mnField) :: (lxBytes c.lits.length ++ c.lits ++ c.tail.bytes)

/-- The tail an encoder writes for a match of length m, 4..255, at offset o (R129, 45_token_writer.md R282). -/
def Tail.ofMatch (m o : Nat) : Tail :=
  if m < 19 then .matchShort (BitVec.ofNat 4 (m - 4)) (BitVec.ofNat 16 o)
  else .matchLong (BitVec.ofNat 8 (m - 19)) (BitVec.ofNat 16 o)

/-- The code of an instruction: a command's word (R121), a chunk's bytes (R126). -/
def encode : Instr → Code
  | .nop         => .cmdw 0x00000000
  | .load        => .cmdw 0x00000001
  | .holeZero    => .cmdw 0x00000002
  | .holePattern => .cmdw 0x00000003
  | .matchCmd    => .cmdw 0x00000004
  | .encGreedy   => .cmdw 0x00000005
  | .encOptimal  => .cmdw 0x00000006
  | .decode      => .cmdw 0x00000007
  | .compress    => .cmdw 0x00000008
  | .chunkMatch lits mn off  => .chunk (encodeChunk ⟨lits, .matchShort mn off⟩)
  | .chunkMatchX lits mx off => .chunk (encodeChunk ⟨lits, .matchLong mx off⟩)
  | .chunkNoMatch lits       => .chunk (encodeChunk ⟨lits, .noMatch⟩)
  | .chunkEnd lits           => .chunk (encodeChunk ⟨lits, .endOfData⟩)

/-! ### The opcode table's numbering -/

/-- The bytes of a number, the least significant first. -/
def bytesOfNat : Nat → Nat → List Byte
  | 0, _     => []
  | n + 1, w => BitVec.ofNat 8 w :: bytesOfNat n (w / 256)

/-- The bytes of a table chunk row of `nbits` bits, with zeros above, up to the longest chunk (log 14). -/
def tableChunkBytes (nbits w : Nat) : List Byte := bytesOfNat maxChunkSize (w % 2 ^ nbits)

/-- A table row of 32 bits is a command word, any other row a chunk (log 14). -/
def tableCode (nbits w : Nat) : Code :=
  if nbits = 32 then .cmdw (BitVec.ofNat 32 w) else .chunk (tableChunkBytes nbits w)

/-- The instruction the decoder reads from the bits of a row of spec/opcode_table.json. -/
def decodeTableWord (nbits w : Nat) : Option Instr :=
  match decode (tableCode nbits w) with
  | .error _     => none
  | .ok (i, _)   => some i

end Sys2Proof
end

