-- ==== Sys2Proof/Machine/State.lean ====
section
/-! DEFINITION. The state of FHP-CORE as plain data: the host registers, the four buffer memories, the engine, the reset pin, and what the
outside does next (10_state.md). Reserved register bits are not stored: they read 0 and writes to them are ignored (R35 to R49). -/

namespace Sys2Proof.Machine

open Sys2Proof

/-- An error of the hardware, by its cause: one name for each (class, detail) pair of 60_exceptions.md R362. No other pair is ever
written. Every one of them is a completion of the running command, a next state. -/
inductive HwError where
  | empty | magic
  | frame | litExt | litIn | litOut | matchExt | offset | ahead | mSrc | mDst | encFull
  | srcLen | wlen
  | decodeFail | length | data
  | opcode | rsvd
  | posRange | wlenMax | wlenMin | cmpLenMax | noSlot
deriving DecidableEq, Repr

/-- Why the model stops with a fault. -/
inductive Fault where
  /-- UNINIT_READ, raised by a command or a chunk that reads a buffer byte no agent has defined (20_memory.md R86, 60_exceptions.md R381).
  The spec prescribes this model-only outcome. SAFE: the silicon goes on with some byte the spec does not fix. -/
  | uninitRead
deriving DecidableEq, Repr

/-- Why the model has no meaning for an instruction. -/
inductive Refusal where
  /-- Raised by a refused arm of exec, by the instruction's mnemonic. SAFE. No arm is refused in this model. -/
  | notModelled (mnemonic : String)
deriving DecidableEq, Repr

/-- A buffer memory: the defined bytes by index, indices strictly rising. An index that is not listed is an undefined byte
(10_state.md R64), so reading it gives no value. -/
abbrev Memory := List Host.Cell

/-- The canonical form of a memory: indices strictly rise. An unlisted byte has no value, so no entry can equal it. -/
abbrev Memory.wf (m : Memory) : Prop := List.Pairwise (fun x y => x.1 < y.1) m

/-- The four buffer memories (10_state.md R55 to R58). -/
inductive Buf where
  | src | wrk | cmp | dec
deriving DecidableEq, Repr

/-- The fields of CTRL (10_state.md R35). -/
structure Ctrl where
  preserveHoles : Bool
  greedyEn      : Bool
  optimalEn     : Bool
  zeroEn        : Bool
  patternEn     : Bool
  irqEn         : Bool
deriving DecidableEq, Repr

/-- The fields of STATUS (R36). -/
structure Status where
  busy      : Bool
  done      : Bool
  err       : Bool
  errCode   : BitVec 4
  errDetail : Byte
  lastOpc   : Byte
deriving DecidableEq, Repr

/-- The fields of EVENTS (R38). -/
structure Events where
  doneEv  : Bool
  cmdRej  : Bool
  hostErr : Bool
deriving DecidableEq, Repr

/-- The fields of RESULT (R48). -/
structure RunResult where
  slot    : BitVec 2
  variant : BitVec 2
  parser  : Bool
  valid   : Bool
deriving DecidableEq, Repr

/-- The engine (R63): IDLE, or BUSY with the accepted command word (log 5). `decoding` is BUSY with a DECODE whose Decoder stands
between two chunks, its cursors in the hidden state (log 7). -/
inductive Engine where
  | idle
  | busy (w : Word)
  | decoding
deriving DecidableEq, Repr

/-- One host transaction (20_memory.md R80, R95): a 20-bit byte address, an access size in bytes, and 32 bits of data. -/
inductive HostOp where
  | read (addr : BitVec 20) (size : Nat)
  | write (addr : BitVec 20) (size : Nat) (data : Word)
deriving DecidableEq, Repr

/-- What happens next (log 6): the host's transactions, the engine's moves and the reset pin, in the order the list gives. -/
inductive Input where
  /-- A host transaction. -/
  | host (op : HostOp)
  /-- The engine completes the accepted command, or executes one chunk where it stands between two chunks. -/
  | engine
  /-- The engine takes up an accepted DECODE chunk by chunk (log 7). -/
  | beginDecode
  /-- A host transaction in the same cycle as the engine's move (10_state.md R38, 60_exceptions.md R367; log 16). -/
  | sameCycle (op : HostOp)
  /-- The reset pin takes this level (70_reset_and_hazards.md R400). -/
  | rst (level : Bool)
deriving DecidableEq, Repr

/-- The state of FHP-CORE. -/
structure State where
  /-- CTRL (R35). -/
  ctrl     : Ctrl
  /-- STATUS (R36). -/
  status   : Status
  /-- EVENTS (R38). -/
  events   : Events
  /-- SRC_LEN.LEN (R39). -/
  srcLen   : BitVec 14
  /-- WLEN.LEN (R40). -/
  wlen     : BitVec 14
  /-- CMP_LEN.LEN (R41). -/
  cmpLen   : BitVec 17
  /-- DEC_LEN.LEN (R42). -/
  decLen   : BitVec 14
  /-- POS.POS (R43). -/
  pos      : BitVec 14
  /-- MATCH_LEN.LEN (R44). -/
  matchLen : Byte
  /-- MATCH_OFF.OFF (R45). -/
  matchOff : BitVec 13
  /-- ERR_POS.POS (R46). -/
  errPos   : BitVec 17
  /-- IN_USED.N (R47). -/
  inUsed   : BitVec 17
  /-- RESULT (R48). -/
  result   : RunResult
  /-- ATT_SIZE0.SIZE (R49). -/
  attSize0 : BitVec 17
  /-- ATT_SIZE1.SIZE (R49). -/
  attSize1 : BitVec 17
  /-- ATT_SIZE2.SIZE (R49). -/
  attSize2 : BitVec 17
  /-- ATT_SIZE3.SIZE (R49). -/
  attSize3 : BitVec 17
  /-- The parameter CMP_CAP, hardwired in CMP_CAP_REG (R50); no step changes it (log 4). -/
  cmpCap   : Nat
  /-- SRC (R55). -/
  src      : Memory
  /-- WRK (R56). -/
  wrk      : Memory
  /-- CMP (R57). -/
  cmp      : Memory
  /-- DEC (R58). -/
  dec      : Memory
  /-- The engine (R63). -/
  engine   : Engine
  /-- The hidden engine state (R59 to R61). -/
  hid      : Hidden
  /-- The reset pin is asserted (70_reset_and_hazards.md R400). -/
  rst      : Bool
  /-- The model's own: what happens next (log 6). -/
  inputs   : List Input
  /-- The model's own: the data the last host read returned (log 12). -/
  rdata    : Word
  /-- The model's own: how many free values have been drawn (log 2). -/
  draws    : Nat
deriving DecidableEq, Repr

/-- CTRL after reset: 0x0000001E (R35). -/
def Ctrl.reset : Ctrl :=
  { preserveHoles := false, greedyEn := true, optimalEn := true, zeroEn := true, patternEn := true, irqEn := false }

/-- STATUS after reset: 0 (R36). -/
def Status.reset : Status :=
  { busy := false, done := false, err := false, errCode := 0, errDetail := 0, lastOpc := 0 }

/-- EVENTS after reset: 0 (R38). -/
def Events.reset : Events := { doneEv := false, cmdRej := false, hostErr := false }

/-- RESULT after reset: 0 (R48). -/
def RunResult.reset : RunResult := { slot := 0, variant := 0, parser := false, valid := false }

/-- DESIGN CHOICE (log 3): the hidden engine state after reset, which R65 leaves unspecified. -/
def resetHidden : Hidden := { ip := 0, op := 0, pos := 0, pend := [], wp := 0, opt := [] }

/-- The machine right after reset (10_state.md R65, 70_reset_and_hazards.md R401), with the default CMP_CAP (log 4). -/
def State.reset : State :=
  { ctrl := Ctrl.reset, status := Status.reset, events := Events.reset
    srcLen := 0, wlen := 0, cmpLen := 0, decLen := 0, pos := 0
    matchLen := 0, matchOff := 0, errPos := 0, inUsed := 0
    result := RunResult.reset, attSize0 := 0, attSize1 := 0, attSize2 := 0, attSize3 := 0
    cmpCap := Config.cmpCapDefault
    src := [], wrk := [], cmp := [], dec := []
    engine := .idle, hid := resetHidden
    rst := false, inputs := [], rdata := 0, draws := 0 }

end Sys2Proof.Machine
end

