-- ==== Sys2Proof/Machine/Flags.lean ====
section
/-! DEFINITION. The flags and status fields: the error classes and detail codes, the register images of CTRL, STATUS, EVENTS and RESULT,
the write-1-to-clear rule and the interrupt output (10_state.md R35 to R54, 60_exceptions.md R361, R362). -/

namespace Sys2Proof.Machine

open Sys2Proof

/-- The error class, STATUS.ERR_CODE (60_exceptions.md R361): FORMAT 1, OVERRUN 2, SIZE 3, VERIFY 4, BAD_CMD 5, BAD_ARG 6. -/
def HwError.code : HwError → BitVec 4
  | .empty | .magic => 1
  | .frame | .litExt | .litIn | .litOut | .matchExt | .offset | .ahead | .mSrc | .mDst | .encFull => 2
  | .srcLen | .wlen => 3
  | .decodeFail | .length | .data => 4
  | .opcode | .rsvd => 5
  | .posRange | .wlenMax | .wlenMin | .cmpLenMax | .noSlot => 6

/-- The detail code, STATUS.ERR_DETAIL (R362). -/
def HwError.detail : HwError → Byte
  | .empty => 1
  | .magic => 2
  | .frame => 1
  | .litExt => 2
  | .litIn => 3
  | .litOut => 4
  | .matchExt => 5
  | .offset => 6
  | .ahead => 7
  | .mSrc => 8
  | .mDst => 9
  | .encFull => 10
  | .srcLen => 1
  | .wlen => 2
  | .decodeFail => 1
  | .length => 2
  | .data => 3
  | .opcode => 1
  | .rsvd => 2
  | .posRange => 1
  | .wlenMax => 2
  | .wlenMin => 3
  | .cmpLenMax => 4
  | .noSlot => 5

/-- STATUS when a word is accepted (40_control.md R170): cleared, BUSY set, LAST_OPC = w[7:0]. -/
def Status.accepted (w : Word) : Status :=
  { busy := true, done := false, err := false, errCode := 0, errDetail := 0, lastOpc := w.extractLsb' 0 8 }

/-- STATUS at completion (60_exceptions.md R370); LAST_OPC keeps its value. -/
def Status.completed (e : Option HwError) (st : Status) : Status :=
  match e with
  | none   => { busy := false, done := true, err := false, errCode := 0, errDetail := 0, lastOpc := st.lastOpc }
  | some x => { busy := false, done := true, err := true, errCode := x.code, errDetail := x.detail, lastOpc := st.lastOpc }

/-- The register image of CTRL (10_state.md R35); reserved bits read 0. -/
def Ctrl.toWord (c : Ctrl) : Word :=
  BitVec.ofNat 32 (c.preserveHoles.toNat + 2 * c.greedyEn.toNat + 4 * c.optimalEn.toNat + 8 * c.zeroEn.toNat
    + 16 * c.patternEn.toNat + 256 * c.irqEn.toNat)

/-- The fields a host write of w to CTRL stores (R35); reserved bits are ignored. -/
def Ctrl.ofWord (w : Word) : Ctrl :=
  { preserveHoles := w.getLsbD 0, greedyEn := w.getLsbD 1, optimalEn := w.getLsbD 2, zeroEn := w.getLsbD 3
    patternEn := w.getLsbD 4, irqEn := w.getLsbD 8 }

/-- The register image of STATUS (R36). -/
def Status.toWord (st : Status) : Word :=
  BitVec.ofNat 32 (st.busy.toNat + 2 * st.done.toNat + 4 * st.err.toNat + 2 ^ 8 * st.errCode.toNat
    + 2 ^ 16 * st.errDetail.toNat + 2 ^ 24 * st.lastOpc.toNat)

/-- The register image of EVENTS (R38). -/
def Events.toWord (e : Events) : Word :=
  BitVec.ofNat 32 (e.doneEv.toNat + 2 * e.cmdRej.toNat + 4 * e.hostErr.toNat)

/-- A host write of w to EVENTS clears every defined bit i with w[i] = 1 (R38). -/
def Events.cleared (w : Word) (e : Events) : Events :=
  { doneEv := e.doneEv && !w.getLsbD 0, cmdRej := e.cmdRej && !w.getLsbD 1, hostErr := e.hostErr && !w.getLsbD 2 }

/-- The register image of RESULT (R48). -/
def RunResult.toWord (r : RunResult) : Word :=
  BitVec.ofNat 32 (r.slot.toNat + 16 * r.variant.toNat + 64 * r.parser.toNat + 256 * r.valid.toNat)

/-- The interrupt output (R54, 60_exceptions.md R371): CTRL.IRQ_EN and EVENTS.DONE_EV. -/
def State.irq (s : State) : Bool := s.ctrl.irqEn && s.events.doneEv

/-- The encode length and the Decoder's capacity CTRL.PRESERVE_HOLES selects (R35, 46_decoder.md R300, 40_control.md R172). -/
def Ctrl.capacity (c : Ctrl) : Nat := if c.preserveHoles then Config.nPreserve else Config.nDrop

end Sys2Proof.Machine
end

