-- ==== Sys2Proof/Machine/Ops.lean ====
section
/-! DEFINITION. The operations every meaning shares: reading, writing and undefining bytes of a buffer, the byte-wise copies, accepting a
command, and completing one with or without an error (the only exception this hardware has; there is no return from it, 60_exceptions.md
R369). -/

namespace Sys2Proof.Machine

open Sys2Proof

/-! ### Buffer memories -/

/-- M[a], no value where the byte is undefined (00_scope.md R14, 10_state.md R64). -/
def Memory.read (m : Memory) (a : Nat) : Option Byte :=
  match m with
  | [] => none
  | (k, v) :: rest => if k = a then some v else Memory.read rest a

/-- M[a] <- v, which defines the byte (R14, R64). -/
def Memory.write (m : Memory) (a : Nat) (v : Byte) : Memory :=
  match m with
  | [] => [(a, v)]
  | (k, x) :: rest =>
    if a < k then (a, v) :: (k, x) :: rest
    else if a = k then (a, v) :: rest
    else (k, x) :: Memory.write rest a v

/-- The cells of a block of bytes from index a on. -/
def cellsFrom (a : Nat) (bs : List Byte) : Memory :=
  match bs with
  | []       => []
  | b :: bs' => (a, b) :: cellsFrom (a + 1) bs'

/-- M[a..a+len(bs)) <- bs (R14). The indices differ, so the order of the writes shows nowhere. -/
def Memory.writeBytes (m : Memory) (a : Nat) (bs : List Byte) : Memory :=
  m.filter (fun c => decide (c.1 < a)) ++ (cellsFrom a bs ++ m.filter (fun c => decide (a + bs.length ≤ c.1)))

/-- The bytes M[a..a+n) become undefined (10_state.md R64). -/
def Memory.undefine (m : Memory) (a n : Nat) : Memory :=
  m.filter (fun c => !(decide (a ≤ c.1) && decide (c.1 < a + n)))

/-- M[a..a+n), each byte with or without a value. -/
def Memory.cells (m : Memory) (a n : Nat) : List (Option Byte) :=
  match n with
  | 0      => []
  | n' + 1 => m.read a :: Memory.cells m (a + 1) n'

/-- M[a..a+n) where every byte is defined; no value where one is not (20_memory.md R86). -/
def Memory.readBytes (m : Memory) (a n : Nat) : Option (List Byte) :=
  match n with
  | 0      => some []
  | n' + 1 =>
    match m.read a with
    | none   => none
    | some v =>
      match Memory.readBytes m (a + 1) n' with
      | none    => none
      | some bs => some (v :: bs)

/-- The bytes of M[a..a+n) up to the first undefined one. -/
def Memory.definedRun (m : Memory) (a n : Nat) : List Byte :=
  match n with
  | 0      => []
  | n' + 1 =>
    match m.read a with
    | none   => []
    | some v => v :: Memory.definedRun m (a + 1) n'

/-- The byte-wise forward copy of n bytes (46_decoder.md R311, and the forward loop of 41_hole_processor.md R194): each byte is read after
every earlier byte of the copy has been written. No value where a byte read is undefined. -/
def Memory.copyForward (m : Memory) (dst src n : Nat) : Option Memory :=
  match n with
  | 0      => some m
  | n' + 1 =>
    match m.read src with
    | none   => none
    | some v => Memory.copyForward (m.write dst v) (dst + 1) (src + 1) n'

/-- The downward copy of M[s+2..s+n+2) to M[s..s+n), from the highest index down (the backward loop of R194). -/
def Memory.copyDownTwo (m : Memory) (s n : Nat) : Option Memory :=
  match n with
  | 0      => some m
  | n' + 1 =>
    match m.read (s + n' + 2) with
    | none   => none
    | some v => Memory.copyDownTwo (m.write (s + n') v) s n'

/-- Every listed index is below the size. -/
def Memory.within (m : Memory) (size : Nat) : Bool := m.all (fun c => decide (c.1 < size))

/-! ### Accept and completion -/

/-- Acceptance of the word w (40_control.md R170): STATUS and the engine change, nothing else. -/
def State.accept (w : Word) (s : State) : State :=
  { s with status := Status.accepted w, engine := .busy w }

/-- finish(code, detail) for every command but DECODE (60_exceptions.md R370). What the hidden state holds between commands is free
(log 3). -/
def State.finish (e : Option HwError) (s : State) : State :=
  { s with status := s.status.completed e, events := { s.events with doneEv := true }, errPos := 0, inUsed := 0,
           engine := .idle, hid := Config.freeHidden s.draws, draws := s.draws + 1 }

/-- `complete()` (R370). -/
def complete (s : State) : Host.Outcome State Fault Refusal := .next (s.finish none)

/-- `raise E(d)` (00_scope.md R15, 60_exceptions.md R360, R370): the error a command ends with. -/
def raiseError (e : HwError) (s : State) : Host.Outcome State Fault Refusal := .next (s.finish (some e))

/-- An encoder input length outside [8184, 8192] (40_control.md R172, 47_compress.md R343, 43_greedy_parser.md R231). -/
def badInputLength (len : Nat) : Bool := decide (len < Config.srcMin) || decide (len > Config.srcMax)

/-- UNINIT_READ (20_memory.md R86). -/
def uninit : Host.Outcome State Fault Refusal := .fault .uninitRead

/-- EVENTS.HOST_ERR <- 1 (20_memory.md R93). -/
def State.flagHostErr (s : State) : State := { s with events := { s.events with hostErr := true } }

/-- A host read returned v. -/
def State.respond (v : Word) (s : State) : State := { s with rdata := v }

/-- A host read returned an unspecified value (log 2). -/
def State.respondFree (s : State) : State := { s with rdata := Config.freeWord s.draws, draws := s.draws + 1 }

/-- The reset input asserted (70_reset_and_hazards.md R400, R401): every piece of state takes its reset value. The parameter CMP_CAP, the
model's own fields, and the pin itself are not reset (log 20). -/
def State.assertReset (s : State) : State :=
  { State.reset with cmpCap := s.cmpCap, rst := true, inputs := s.inputs, rdata := s.rdata, draws := s.draws }

end Sys2Proof.Machine
end

