-- ==== Sys2Proof/Machine/Control.lean ====
section
/-! DEFINITION. The control commands NOP and LOAD, and the completion of a reserved command word (40_control.md R171 to R173). -/

namespace Sys2Proof.Machine

open Sys2Proof

/-- NOP (R171). -/
def execNop (s : State) : Host.Outcome State Fault Refusal := complete s

/-- The bytes LOAD puts into WRK[0..n) from a validated length L: SRC[p] for p < L, 0x00 from L on (R172). No value where one of the
bytes SRC[0..min(n, L)) is undefined. -/
def loadBytes (src : Memory) (len n : Nat) : Option (List Byte) :=
  match src.readBytes 0 (min n len) with
  | none    => none
  | some bs => some (bs ++ List.replicate (n - len) 0)

/-- LOAD (R172). -/
def execLoad (s : State) : Host.Outcome State Fault Refusal :=
  let len := s.srcLen.toNat
  if badInputLength len then raiseError .srcLen s
  else
    let n := s.ctrl.capacity
    match loadBytes s.src len n with
    | none    => uninit
    | some bs => complete { s with wrk := s.wrk.writeBytes 0 bs, wlen := BitVec.ofNat 14 n }

/-- The error a reserved command word completes with (R173): the reserved bits are checked first. -/
def reservedWordError : DecodeError → HwError
  | .rsvd => .rsvd
  | .opcode | .frame | .litExt | .litIn _ _ | .matchExt _ _ | .offset _ _ _ => .opcode

/-- A reserved command word completes at once with BAD_CMD (R173, 30_encoding.md R122, R123). -/
def execReservedWord (e : DecodeError) (s : State) : Host.Outcome State Fault Refusal := raiseError (reservedWordError e) s

end Sys2Proof.Machine
end

