-- ==== Sys2Proof/Machine/MatchFinder.lean ====
section
/-! DEFINITION. The MatchFinder: the search over a buffer of bytes, the same search over a buffer in which bytes may be undefined, and the
command MATCH (42_match_finder.md R210, R211, R216). -/

namespace Sys2Proof.Machine

open Sys2Proof

/-- The inner loop of R210: how many bytes two suffixes share, at most cap. -/
def commonLen : Nat → List Byte → List Byte → Nat
  | cap + 1, x :: xs, y :: ys => if x = y then commonLen cap xs ys + 1 else 0
  | _, _, _                   => 0

/-- The outer loop of R210 over `left` more candidates, the next one at offset `start` with the suffix given: strictly longer only, so
ties keep the earlier offset, with the early stop at cap. -/
def scanMatches (cap : Nat) (target : List Byte) : Nat → Nat → List Byte → Nat × Nat → Nat × Nat
  | 0, _, _, best => best
  | left + 1, start, suffix, best =>
    let l := commonLen cap suffix target
    if l > best.1 then
      if l = cap then (l, start) else scanMatches cap target left (start + 1) suffix.tail (l, start)
    else scanMatches cap target left (start + 1) suffix.tail best

/-- min(255, n - pos) (R210). -/
def matchCap (n pos : Nat) : Nat := min Config.matchMax (n - pos)

/-- findLongestMatch(b, n, pos) with n the length of b (R210): (length, offset), the offset 0 where the length is 0. -/
def findLongestMatch (b : List Byte) (pos : Nat) : Nat × Nat :=
  if pos = 0 then (0, 0) else scanMatches (matchCap b.length pos) (b.drop pos) pos 0 b (0, 0)

/-- The inner loop of R210 over bytes that may be undefined: no value where a comparison reads an undefined byte (R216). -/
def commonLenCells : Nat → List (Option Byte) → List (Option Byte) → Option Nat
  | cap + 1, c :: cs, d :: ds =>
    match c, d with
    | some x, some y =>
      if x = y then
        match commonLenCells cap cs ds with
        | none   => none
        | some l => some (l + 1)
      else some 0
    | _, _ => none
  | _, _, _ => some 0

/-- The outer loop of R210 over bytes that may be undefined. -/
def scanCells (cap : Nat) (target : List (Option Byte)) : Nat → Nat → List (Option Byte) → Nat × Nat → Option (Nat × Nat)
  | 0, _, _, best => some best
  | left + 1, start, suffix, best =>
    match commonLenCells cap suffix target with
    | none   => none
    | some l =>
      if l > best.1 then
        if l = cap then some (l, start) else scanCells cap target left (start + 1) suffix.tail (l, start)
      else scanCells cap target left (start + 1) suffix.tail best

/-- findLongestMatch on a buffer in which only the bytes the comparisons read need be defined (R216). On a defined buffer it is
findLongestMatch (Laws/MatchFinder.lean). -/
def findInCells (b : List (Option Byte)) (pos : Nat) : Option (Nat × Nat) :=
  if pos = 0 then some (0, 0) else scanCells (matchCap b.length pos) (b.drop pos) pos 0 b (0, 0)

/-- MATCH (R211). -/
def execMatch (s : State) : Host.Outcome State Fault Refusal :=
  let n := s.wlen.toNat
  let pos := s.pos.toNat
  if n > Config.bufSize then raiseError .wlenMax s
  else if pos ≥ n then raiseError .posRange s
  else
    match findInCells (s.wrk.cells 0 n) pos with
    | none        => uninit
    | some (l, o) => complete { s with matchLen := BitVec.ofNat 8 l, matchOff := BitVec.ofNat 13 o }

end Sys2Proof.Machine
end

