-- ==== Sys2Proof/Machine/Decoder.lean ====
section
/-! DEFINITION. The Decoder: the chunk kinds as operations on its cursors and DEC, the reads and checks in stream order, the whole decode,
the four chunk instructions, and the command DECODE (46_decoder.md R300 to R313). -/

namespace Sys2Proof.Machine

open Sys2Proof

/-- All that changes during a decode (R313): the cursors and DEC. -/
structure DecState where
  ip  : Nat
  op  : Nat
  dec : Memory
deriving DecidableEq, Repr

/-- What one chunk does: the next chunk follows, the decode stops with success, a check fails with ERR_POS (R310), or an undefined byte
is read. -/
inductive ChunkResult where
  | go (d : DecState)
  | stop (d : DecState)
  | raised (e : HwError) (at_ : Nat)
  | uninit
deriving DecidableEq, Repr

/-- How a decode ends. -/
inductive DecodeResult where
  | done (d : DecState)
  | raised (e : HwError) (at_ : Nat)
  | uninit
deriving DecidableEq, Repr

/-- The index of the first literal byte of a chunk at ip: after FB and LX (R310). -/
def litIndex (ip run : Nat) : Nat := ip + hdrSize run

/-- Literal (R302) of a run that lies inside the declared length: the output bound, then the bytes. -/
def copyLiterals (cap : Nat) (lits : List Byte) (d : DecState) : ChunkResult :=
  if d.op + lits.length > cap then .raised .litOut (litIndex d.ip lits.length)
  else .go { ip := litIndex d.ip lits.length + lits.length, op := d.op + lits.length, dec := d.dec.writeBytes d.op lits }

/-- Match (R309) of length m at off, the input cursor already after the offset bytes: the checks in order, then the byte-wise copy
(R311). -/
def copyMatch (cap m off : Nat) (d : DecState) : ChunkResult :=
  if off ≥ d.op then .raised .ahead d.ip
  else if off + m > cap then .raised .mSrc d.ip
  else if d.op + m > cap then .raised .mDst d.ip
  else match d.dec.copyForward d.op off m with
    | none   => .uninit
    | some x => .go { d with op := d.op + m, dec := x }

/-- What follows the literal run (R303 to R306), with MX and OFF read. -/
def runTail (cap : Nat) (t : Tail) (d : DecState) : ChunkResult :=
  let d' := { d with ip := d.ip + t.size }
  match t with
  | .matchShort _ off => copyMatch cap t.matchLen off.toNat d'
  | .matchLong _ off  => copyMatch cap t.matchLen off.toNat d'
  | .noMatch          => .go d'
  | .endOfData        => .stop d'

/-- One chunk at the cursors (R301, R302). -/
def runChunk (cap : Nat) (c : Chunk) (d : DecState) : ChunkResult :=
  match copyLiterals cap c.lits d with
  | .go d' => runTail cap c.tail d'
  | r      => r

/-- A chunk that cannot be read to its end, from the defined bytes of CMP[ip..inlen): the check that fails first in the stream order of
R301, R302 and R308 (R310, R366), or an undefined byte before it (20_memory.md R86). Where the literal length is known, its two bounds
come before every later read (log 13). -/
def shortChunk (inlen cap : Nat) (d : DecState) : DecodeError → ChunkResult
  | .frame  => if d.ip < inlen then .uninit else .raised .frame inlen
  | .litExt => if d.ip + 1 < inlen then .uninit else .raised .litExt inlen
  | .litIn hdr run =>
    if d.ip + hdr + run > inlen then .raised .litIn (d.ip + hdr)
    else if d.op + run > cap then .raised .litOut (d.ip + hdr)
    else .uninit
  | .matchExt hdr run =>
    if d.op + run > cap then .raised .litOut (d.ip + hdr)
    else if d.ip + hdr + run < inlen then .uninit
    else .raised .matchExt inlen
  | .offset hdr run missing =>
    if d.op + run > cap then .raised .litOut (d.ip + hdr)
    else if d.ip + missing < inlen then .uninit
    else .raised .offset inlen
  | .rsvd   => .uninit
  | .opcode => .uninit

/-- The chunk at the input cursor: what the decoder reads from the defined bytes of CMP[ip..inlen). -/
def fetchChunk (cmp : Memory) (inlen ip : Nat) : Except DecodeError Chunk :=
  match decodeChunk (cmp.definedRun ip (inlen - ip)) with
  | .error e   => .error e
  | .ok (c, _) => .ok c

/-- One iteration of the loop of R301. -/
def stepChunk (cmp : Memory) (inlen cap : Nat) (d : DecState) : ChunkResult :=
  match fetchChunk cmp inlen d.ip with
  | .error e => shortChunk inlen cap d e
  | .ok c    => runChunk cap c d

/-- The loop of R301. Every chunk moves ip forward (R315), so with as much fuel as bytes are left, no fuel means that ip has reached
inlen: the framing byte is past the declared length. -/
def decodeLoop (cmp : Memory) (inlen cap : Nat) : Nat → DecState → DecodeResult
  | 0, _ => .raised .frame inlen
  | fuel + 1, d =>
    match stepChunk cmp inlen cap d with
    | .go d'        => decodeLoop cmp inlen cap fuel d'
    | .stop d'      => .done d'
    | .raised e pos => .raised e pos
    | .uninit       => .uninit

/-- The checks before the loop of R301: a stream byte exists, and it is the magic byte. -/
def startDecode (cmp : Memory) (inlen : Nat) (dec : Memory) : ChunkResult :=
  if inlen = 0 then .raised .empty 0
  else match cmp.read 0 with
    | none   => .uninit
    | some b => if b ≠ Config.magic then .raised .magic 0 else .go { ip := 1, op := 0, dec := dec }

/-- Decode(inlen, cap) (R301). -/
def runDecode (cmp : Memory) (inlen cap : Nat) (dec : Memory) : DecodeResult :=
  match startDecode cmp inlen dec with
  | .go d         => decodeLoop cmp inlen cap inlen d
  | .stop d       => .done d
  | .raised e pos => .raised e pos
  | .uninit       => .uninit

/-! ### DECODE on the state -/

/-- The cursors and DEC of a state in a decode. -/
def State.decState (s : State) : DecState := { ip := s.hid.ip.toNat, op := s.hid.op.toNat, dec := s.dec }

/-- The state with the Decoder's cursors and DEC. -/
def State.setDecState (d : DecState) (s : State) : State :=
  { s with dec := d.dec, hid := { s.hid with ip := BitVec.ofNat 17 d.ip, op := BitVec.ofNat 14 d.op } }

/-- DECODE completes with success (R300, 60_exceptions.md R370). -/
def finishDecode (d : DecState) (s : State) : State :=
  { ({ s with dec := d.dec }).finish none with decLen := BitVec.ofNat 14 d.op, inUsed := BitVec.ofNat 17 d.ip }

/-- DECODE completes with a FORMAT or OVERRUN error (R300, R310, R312): DEC_LEN and IN_USED 0, ERR_POS, DEC[0..cap) undefined. -/
def failDecode (e : HwError) (pos : Nat) (s : State) : State :=
  { ({ s with dec := s.dec.undefine 0 s.ctrl.capacity }).finish (some e) with decLen := 0, errPos := BitVec.ofNat 17 pos }

/-- The outcome of one chunk of a DECODE. -/
def applyChunk (r : ChunkResult) (s : State) : Host.Outcome State Fault Refusal :=
  match r with
  | .go d         => .next (s.setDecState d)
  | .stop d       => .next (finishDecode d s)
  | .raised e pos => .next (failDecode e pos s)
  | .uninit       => uninit

/-- The outcome of a whole DECODE. -/
def applyDecode (r : DecodeResult) (s : State) : Host.Outcome State Fault Refusal :=
  match r with
  | .done d       => .next (finishDecode d s)
  | .raised e pos => .next (failDecode e pos s)
  | .uninit       => uninit

/-- DECODE (R300). -/
def execDecode (s : State) : Host.Outcome State Fault Refusal :=
  let inlen := s.cmpLen.toNat
  if inlen > s.cmpCap then raiseError .cmpLenMax s
  else applyDecode (runDecode s.cmp inlen s.ctrl.capacity s.dec) s

/-- CHUNK_MATCH (R302, R303, R309). -/
def execChunkMatch (lits : List Byte) (mn : Nibble) (off : BitVec 16) (s : State) : Host.Outcome State Fault Refusal :=
  applyChunk (runChunk s.ctrl.capacity ⟨lits, .matchShort mn off⟩ s.decState) s

/-- CHUNK_MATCHX (R302, R304, R309). -/
def execChunkMatchX (lits : List Byte) (mx : Byte) (off : BitVec 16) (s : State) : Host.Outcome State Fault Refusal :=
  applyChunk (runChunk s.ctrl.capacity ⟨lits, .matchLong mx off⟩ s.decState) s

/-- CHUNK_NOMATCH (R302, R305). -/
def execChunkNoMatch (lits : List Byte) (s : State) : Host.Outcome State Fault Refusal :=
  applyChunk (runChunk s.ctrl.capacity ⟨lits, .noMatch⟩ s.decState) s

/-- CHUNK_END (R302, R306): the literal run, then the decode, and with it DECODE, completes. -/
def execChunkEnd (lits : List Byte) (s : State) : Host.Outcome State Fault Refusal :=
  applyChunk (runChunk s.ctrl.capacity ⟨lits, .endOfData⟩ s.decState) s

end Sys2Proof.Machine
end

