-- ==== Sys2Proof/Machine/TokenWriter.lean ====
section
/-! DEFINITION. The TokenWriter: the parser state it works on and its primitives (45_token_writer.md R281 to R285). The check of TW_put
against CMP_CAP is made on the finished stream (R287; log 9). -/

namespace Sys2Proof.Machine

open Sys2Proof

/-- The parsers' state inside a command (10_state.md R61): pos, pend, and the stream CMP[0..wp) written so far. -/
structure Parser where
  pos  : Nat
  pend : List Byte
  out  : List Byte
deriving DecidableEq, Repr

/-- TW_begin (R285): the magic byte, an empty pending run. -/
def twBegin : Parser := { pos := 0, pend := [], out := [Config.magic] }

/-- TW_chunk (R282): the bytes of the chunk go to the end of the stream. -/
def twChunk (lits : List Byte) (t : Tail) (p : Parser) : Parser := { p with out := p.out ++ encodeChunk ⟨lits, t⟩ }

/-- TW_literal (R284): a full run of 255 goes out as a no-match chunk first. -/
def twLiteral (x : Byte) (p : Parser) : Parser :=
  if p.pend.length = Config.litMax then { twChunk p.pend .noMatch p with pend := [x] } else { p with pend := p.pend ++ [x] }

/-- TW_match (R284): the pending run, possibly empty, and the match as one chunk. -/
def twMatch (m o : Nat) (p : Parser) : Parser := { twChunk p.pend (Tail.ofMatch m o) p with pend := [] }

/-- TW_end (R284): the pending run with the end marker. -/
def twEnd (p : Parser) : Parser := { twChunk p.pend .endOfData p with pend := [] }

/-- The chunks of the pseudo-instruction `literals bytes, tail` (30_encoding.md R137), the expansion of R284; `fuel` bounds the number of
no-match chunks. -/
def literalChunks : Nat → List Byte → Tail → List Chunk
  | 0, bs, t        => [⟨bs, t⟩]
  | fuel + 1, bs, t =>
    if bs.length > Config.litMax then ⟨bs.take Config.litMax, .noMatch⟩ :: literalChunks fuel (bs.drop Config.litMax) t
    else [⟨bs, t⟩]

/-- The pseudo-instruction `literals` (30_encoding.md R137). -/
def literals (bs : List Byte) (t : Tail) : List Chunk := literalChunks bs.length bs t

/-- A stream from its chunks (30_encoding.md R125, R136): `magic`, then one chunk after the other. -/
def streamBytes (cs : List Chunk) : List Byte := Config.magic :: (cs.map encodeChunk).flatten

end Sys2Proof.Machine
end

