-- ==== Sys2Proof/Machine/Verify.lean ====
section
/-! DEFINITION. Self-verification and what every encode command does with a finished stream (47_compress.md R340, R341). -/

namespace Sys2Proof.Machine

open Sys2Proof

/-- How Verify(n) ends (R340). -/
inductive VerifyResult where
  | ok (dec : Memory)
  | failed (e : HwError)
  | uninit
deriving DecidableEq, Repr

/-- Verify(n) (R340): decode the stream with capacity n and compare with the encoder's input. -/
def verify (cmp : Memory) (len : Nat) (input : List Byte) (dec : Memory) : VerifyResult :=
  match runDecode cmp len input.length dec with
  | .uninit     => .uninit
  | .raised _ _ => .failed .decodeFail
  | .done d     =>
    if d.op ≠ input.length then .failed .length
    else match d.dec.readBytes 0 input.length with
      | none     => .uninit
      | some out => if out = input then .ok d.dec else .failed .data

/-- What an encode leaves in CMP and DEC, with the length of its stream. -/
structure Encoded where
  cmp  : Memory
  dec  : Memory
  size : Nat
deriving DecidableEq, Repr

/-- How an encode ends. -/
inductive EncodeResult where
  | ok (x : Encoded)
  | failed (e : HwError)
  | uninit
deriving DecidableEq, Repr

/-- The stream goes to CMP[0..len), unless it would pass CMP_CAP (45_token_writer.md R281, R287; log 9), and is verified against the
encoder's input (R340). -/
def emitAndVerify (cmpCap : Nat) (cmp dec : Memory) (input stream : List Byte) : EncodeResult :=
  if stream.length > cmpCap then .failed .encFull
  else
    let cmp' := cmp.writeBytes 0 stream
    match verify cmp' stream.length input dec with
    | .uninit   => .uninit
    | .failed e => .failed e
    | .ok dec'  => .ok { cmp := cmp', dec := dec', size := stream.length }

/-- A failed encode (R341): CMP_LEN = DEC_LEN = 0, CMP and DEC undefined. -/
def failEncode (e : HwError) (s : State) : State :=
  ({ s with cmpLen := 0, decLen := 0, cmp := [], dec := [] }).finish (some e)

/-- A successful encode of n bytes (43_greedy_parser.md R231, 44_optimal_parser.md R251). -/
def finishEncode (n : Nat) (x : Encoded) (s : State) : State :=
  ({ s with cmp := x.cmp, cmpLen := BitVec.ofNat 17 x.size, dec := x.dec, decLen := BitVec.ofNat 14 n }).finish none

/-- ENC_GREEDY and ENC_OPTIMAL (R231, R251) with the parser as an argument: WRK[0..n) must be defined (42_match_finder.md R216). -/
def encodeWith (parse : List Byte → List Byte) (s : State) : Host.Outcome State Fault Refusal :=
  let n := s.wlen.toNat
  if badInputLength n then raiseError .wlen s
  else
    match s.wrk.readBytes 0 n with
    | none       => uninit
    | some input =>
      match emitAndVerify s.cmpCap s.cmp s.dec input (parse input) with
      | .uninit   => uninit
      | .failed e => .next (failEncode e s)
      | .ok x     => .next (finishEncode n x s)

end Sys2Proof.Machine
end

