-- ==== Sys2Proof/Machine/GreedyParser.lean ====
section
/-! DEFINITION. The greedy single-pass encoder and the command ENC_GREEDY (43_greedy_parser.md R230, R231). -/

namespace Sys2Proof.Machine

open Sys2Proof

/-- One iteration of the loop of R230 at a position below n, where the byte is x. -/
def greedyStep (b : List Byte) (x : Byte) (p : Parser) : Parser :=
  let r := findLongestMatch b p.pos
  if r.1 ≥ Config.matchMin then { twMatch r.1 r.2 p with pos := p.pos + r.1 }
  else { twLiteral x p with pos := p.pos + 1 }

/-- The loop of R230: while pos < n. Each iteration advances pos, so n units of fuel reach the end. -/
def greedyLoop (b : List Byte) : Nat → Parser → Parser
  | 0, p        => p
  | fuel + 1, p =>
    match b[p.pos]? with
    | none   => p
    | some x => greedyLoop b fuel (greedyStep b x p)

/-- GreedyParse(b, n) with n the length of b (R230). -/
def greedyParse (b : List Byte) : List Byte := (twEnd (greedyLoop b b.length twBegin)).out

/-- ENC_GREEDY (R231). -/
def execEncGreedy (s : State) : Host.Outcome State Fault Refusal := encodeWith greedyParse s

end Sys2Proof.Machine
end

