-- ==== Sys2Proof/Machine/HoleProcessor.lean ====
section
/-! DEFINITION. The HoleProcessor: hole ranges, ZeroFill, PatternFill, and the commands HOLE_ZERO and HOLE_PATTERN
(41_hole_processor.md R190 to R194). -/

namespace Sys2Proof.Machine

open Sys2Proof

/-- s_k = 120 + 128 * k (R190). -/
def holeBegin (k : Nat) : Nat := Config.holeStart + Config.holePeriod * k

/-- t_k = min(s_k + 8, len) (R190). -/
def holeEnd (len k : Nat) : Nat := min (holeBegin k + Config.holeLen) len

/-- How many k have s_k < len (R190). -/
def holeCount (len : Nat) : Nat := (len + 7) / 128

/-- The index p is a hole byte of a buffer of length len (R190). -/
def isHoleByte (len p : Nat) : Bool := decide (p < len) && decide (Config.holeStart ≤ p % Config.holePeriod)

/-- ZeroFill (R192) on M[0..len), in place, the holes in increasing k. -/
def zeroFill (len : Nat) (m : Memory) : Memory :=
  (List.range (holeCount len)).foldl
    (fun acc k => acc.writeBytes (holeBegin k) (List.replicate (holeEnd len k - holeBegin k) 0)) m

/-- The 4 bytes after a hole ending at e exist and have period 2: the condition of R194. No value where one of the 4 is undefined
(R193). -/
def periodTwoAfter (len e : Nat) (m : Memory) : Option Bool :=
  if e + 3 < len then
    match m.readBytes e 4 with
    | some [b0, b1, b2, b3] => some (decide (b0 = b2) && decide (b1 = b3))
    | _                     => none
  else some false

/-- PatternFill of the one hole [b, t) (R194). The 2 bytes before the hole must be defined, and so must the 4 after it where they exist
(R193; log 8). -/
def patternHole (len b t : Nat) (m : Memory) : Option Memory :=
  match m.readBytes (b - 2) 2, periodTwoAfter len (b + Config.holeLen) m with
  | some _, some true  => m.copyDownTwo b Config.holeLen
  | some _, some false => m.copyForward b (b - 2) (t - b)
  | _, _               => none

/-- PatternFill (R194) on M[0..len), in place, the holes in increasing k. -/
def patternFill (len : Nat) (m : Memory) : Option Memory :=
  (List.range (holeCount len)).foldl
    (fun acc k => acc.bind (patternHole len (holeBegin k) (holeEnd len k))) (some m)

/-- The length check of the hole commands (R191, R193). -/
def holeLengthError (n : Nat) : Option HwError :=
  if n > Config.bufSize then some .wlenMax
  else if n < 128 then some .wlenMin
  else none

/-- HOLE_ZERO (R191). -/
def execHoleZero (s : State) : Host.Outcome State Fault Refusal :=
  let n := s.wlen.toNat
  match holeLengthError n with
  | some e => raiseError e s
  | none   => complete { s with wrk := zeroFill n s.wrk }

/-- HOLE_PATTERN (R193). -/
def execHolePattern (s : State) : Host.Outcome State Fault Refusal :=
  let n := s.wlen.toNat
  match holeLengthError n with
  | some e => raiseError e s
  | none   =>
    match patternFill n s.wrk with
    | none   => uninit
    | some m => complete { s with wrk := m }

end Sys2Proof.Machine
end

