-- ==== Sys2Proof/Machine/OptimalParser.lean ====
section
/-! DEFINITION. The optimal-parse cost-propagation engine and the command ENC_OPTIMAL (44_optimal_parser.md R250 to R256). -/

namespace Sys2Proof.Machine

open Sys2Proof

/-- The fields of a table entry as the numbers the recurrence computes: arithmetic is on unbounded numbers (00_scope.md R11). -/
structure OptEntry where
  totalCost        : Nat
  matchLength      : Nat
  matchOffset      : Nat
  literalRunLength : Nat
deriving DecidableEq, Repr, Inhabited

/-- The entry stored into the fields of the OptNode table (10_state.md R59). -/
def OptEntry.store (e : OptEntry) : OptNode :=
  { totalCost := BitVec.ofNat Config.costW e.totalCost, matchLength := BitVec.ofNat 8 e.matchLength
    matchOffset := BitVec.ofNat 13 e.matchOffset, literalRunLength := BitVec.ofNat 8 e.literalRunLength }

/-- The numbers the fields of a table entry hold. -/
def OptEntry.load (nd : OptNode) : OptEntry :=
  { totalCost := nd.totalCost.toNat, matchLength := nd.matchLength.toNat
    matchOffset := nd.matchOffset.toNat, literalRunLength := nd.literalRunLength.toNat }

/-- The sentinel OPT[n] (R252). -/
def optSentinel : OptEntry := { totalCost := 0, matchLength := 0, matchOffset := 0, literalRunLength := 0 }

/-- The literal branch against nx = OPT[i+1] (R254): the run length and the edge cost, the three cases in order. -/
def literalEdge (nx : OptEntry) : Nat × Nat :=
  if nx.matchLength > 0 then (1, 1)
  else if nx.literalRunLength = Config.litMax then (1, 3)
  else (nx.literalRunLength + 1, if nx.literalRunLength + 1 = 15 then 2 else 1)

/-- The literal entry of a position (R254, R255). -/
def literalNode (nx : OptEntry) : OptEntry :=
  { totalCost := nx.totalCost + (literalEdge nx).2, matchLength := 0, matchOffset := 0, literalRunLength := (literalEdge nx).1 }

/-- The match edge's cost (R253): framing byte and offset, and the extension byte of a match of 19 or more. -/
def matchEdge (l : Nat) : Nat := 3 + (if l ≥ 19 then 1 else 0)

/-- The match entry of a position (R253, R255): `target` is OPT[i+l]. -/
def matchNode (l o : Nat) (target : OptEntry) : OptEntry :=
  { totalCost := target.totalCost + matchEdge l, matchLength := l, matchOffset := o, literalRunLength := 0 }

/-- OPT[i] from the MatchFinder's result r at i, nx = OPT[i+1] and, where r is usable, target = OPT[i+l] (R250): a tie prefers the match
(R255). -/
def optNodeAt (r : Nat × Nat) (nx target : OptEntry) : OptEntry :=
  if r.1 ≥ Config.matchMin then
    let hit := matchNode r.1 r.2 target
    if hit.totalCost ≤ (literalNode nx).totalCost then hit else literalNode nx
  else literalNode nx

/-- The backward pass (R250) over entries kept in a form α: the last `count` entries before the sentinel, and the sentinel,
OPT[n - count..n]. `put` writes an entry and `get` reads one. -/
def backwardPass {α : Type} (put : OptEntry → α) (get : α → OptEntry) (b : List Byte) : Nat → List α
  | 0         => [put optSentinel]
  | count + 1 =>
    let later := backwardPass put get b count
    let r := findLongestMatch b (b.length - (count + 1))
    put (optNodeAt r (get (later.headD (put optSentinel))) (get (later.getD (r.1 - 1) (put optSentinel)))) :: later

/-- OptimalTable(b, n) with n the length of b (R250): OPT[0..n], the numbers of the recurrence. -/
def optimalTable (b : List Byte) : List OptEntry := backwardPass id id b b.length

/-- The table the engine builds: every entry is stored into, and read from, the fields of the OptNode table (10_state.md R59). For an
encoder's input it holds the numbers of optimalTable (Laws/OptimalParser.lean). -/
def storedTable (b : List Byte) : List OptNode := backwardPass OptEntry.store OptEntry.load b b.length

/-- One iteration of the forward pass (R256) at a position below n, where the byte is x and the entry is nd. -/
def optimalStep (x : Byte) (nd : OptEntry) (p : Parser) : Parser :=
  if nd.matchLength > 0 then { twMatch nd.matchLength nd.matchOffset p with pos := p.pos + nd.matchLength }
  else { twLiteral x p with pos := p.pos + 1 }

/-- The loop of R256: while i < n. Each iteration advances i, so n units of fuel reach the end. -/
def optimalLoop (b : List Byte) (opt : List OptEntry) : Nat → Parser → Parser
  | 0, p        => p
  | fuel + 1, p =>
    match b[p.pos]? with
    | none   => p
    | some x => optimalLoop b opt fuel (optimalStep x (opt.getD p.pos optSentinel) p)

/-- OptimalEmit(b, n, OPT) (R256). -/
def optimalEmit (b : List Byte) (opt : List OptEntry) : List Byte := (twEnd (optimalLoop b opt b.length twBegin)).out

/-- The backward and the forward pass (R251) on the numbers of the recurrence, for an input of any length. -/
def optimalParse (b : List Byte) : List Byte := optimalEmit b (optimalTable b)

/-- The backward and the forward pass (R251) over the table the engine stores. -/
def optimalEncode (b : List Byte) : List Byte := optimalEmit b ((storedTable b).map OptEntry.load)

/-- ENC_OPTIMAL (R251). -/
def execEncOptimal (s : State) : Host.Outcome State Fault Refusal := encodeWith optimalEncode s

end Sys2Proof.Machine
end

