-- ==== Sys2Proof/Machine/Compress.lean ====
section
/-! DEFINITION. The compress sequencer and the command COMPRESS (47_compress.md R342 to R347). -/

namespace Sys2Proof.Machine

open Sys2Proof

/-- An attempt slot (R342). -/
abbrev Slot := Fin 4

/-- The hole variant of a slot (R342), as RESULT.VARIANT codes it (10_state.md R48): 0 none, 1 ZeroFill, 2 PatternFill. -/
def slotVariant (c : Ctrl) (k : Slot) : BitVec 2 :=
  if c.preserveHoles then 0 else if k.val < 2 then 1 else 2

/-- The parser of a slot (R342): greedy when k is even, optimal when k is odd. -/
def slotOptimal (k : Slot) : Bool := decide (k.val % 2 = 1)

/-- A slot is enabled (R342). -/
def slotEnabled (c : Ctrl) (k : Slot) : Bool :=
  (if slotOptimal k then c.optimalEn else c.greedyEn) &&
    (if c.preserveHoles then decide (k.val < 2) else if k.val < 2 then c.zeroEn else c.patternEn)

/-- The enabled slots, in increasing k (R343). -/
def enabledSlots (c : Ctrl) : List Slot := [0, 1, 2, 3].filter (slotEnabled c)

/-- The hole variant applied to WRK[0..n) (R344). -/
def applyVariant (v : BitVec 2) (n : Nat) (m : Memory) : Option Memory :=
  if v = 1 then some (zeroFill n m) else if v = 2 then patternFill n m else some m

/-- The parser of a slot as a function (R344). -/
def slotParse (k : Slot) : List Byte → List Byte := if slotOptimal k then optimalEncode else greedyParse

/-- What an attempt leaves. -/
structure Attempt where
  wrk : Memory
  enc : Encoded
deriving DecidableEq, Repr

/-- How an attempt ends. -/
inductive AttemptResult where
  | ok (t : Attempt)
  | failed (e : HwError)
  | uninit
deriving DecidableEq, Repr

/-- Attempt(k, n) from the raw buffer, on the memories COMPRESS found (R344, R349; log 15). -/
def attempt (s : State) (len n : Nat) (k : Slot) : AttemptResult :=
  match loadBytes s.src len n with
  | none     => .uninit
  | some raw =>
    match applyVariant (slotVariant s.ctrl k) n (s.wrk.writeBytes 0 raw) with
    | none     => .uninit
    | some wrk =>
      match wrk.readBytes 0 n with
      | none       => .uninit
      | some input =>
        match emitAndVerify s.cmpCap s.cmp s.dec input (slotParse k input) with
        | .uninit   => .uninit
        | .failed e => .failed e
        | .ok x     => .ok { wrk := wrk, enc := x }

/-- The verified sizes of the slots run so far, and how the run of the slots ends. -/
inductive SlotsResult where
  | ok (sizes : List (Slot × Nat))
  | failed (e : HwError) (sizes : List (Slot × Nat))
  | uninit
deriving DecidableEq, Repr

/-- The attempts of the enabled slots in order (R343); the first failure ends them (R347). -/
def runSlots (s : State) (len n : Nat) : List Slot → List (Slot × Nat) → SlotsResult
  | [], sizes      => .ok sizes
  | k :: ks, sizes =>
    match attempt s len n k with
    | .uninit   => .uninit
    | .failed e => .failed e sizes
    | .ok t     => runSlots s len n ks (sizes ++ [(k, t.enc.size)])

/-- The slot with the smallest size, the earliest of equals (R345). -/
def pickBest : List (Slot × Nat) → Option (Slot × Nat) → Option (Slot × Nat)
  | [], best               => best
  | x :: xs, none          => pickBest xs (some x)
  | x :: xs, some b        => if x.2 < b.2 then pickBest xs (some x) else pickBest xs (some b)

/-- ATT_SIZEk (10_state.md R49): the verified size of a slot that was run, else 0. -/
def sizeOf (sizes : List (Slot × Nat)) (k : Slot) : BitVec 17 :=
  match sizes.find? (fun x => decide (x.1 = k)) with
  | none   => 0
  | some x => BitVec.ofNat 17 x.2

/-- RESULT <- r and ATT_SIZE0..3 from the sizes. -/
def State.setAttempts (r : RunResult) (sizes : List (Slot × Nat)) (s : State) : State :=
  { s with result := r, attSize0 := sizeOf sizes 0, attSize1 := sizeOf sizes 1, attSize2 := sizeOf sizes 2, attSize3 := sizeOf sizes 3 }

/-- COMPRESS fails in an attempt (R347). -/
def failCompress (e : HwError) (n : Nat) (sizes : List (Slot × Nat)) (s : State) : State :=
  ({ s.setAttempts RunResult.reset sizes with
      cmpLen := 0, decLen := 0, cmp := [], dec := [], wrk := s.wrk.undefine 0 n, wlen := BitVec.ofNat 14 n }).finish (some e)

/-- CMP after success (R346): past the winner's stream it is undefined where a losing attempt wrote past the winner's length, and
otherwise holds what it held before. -/
def losersErase (cmpCap : Nat) (sizes : List (Slot × Nat)) (size : Nat) (cmp : Memory) : Memory :=
  if sizes.any (fun x => decide (x.2 > size)) then cmp.undefine size (cmpCap - size) else cmp

/-- COMPRESS completes with slot k the winner (R346). -/
def finishCompress (k : Slot) (t : Attempt) (n : Nat) (sizes : List (Slot × Nat)) (s : State) : State :=
  ({ s.setAttempts { slot := BitVec.ofNat 2 k.val, variant := slotVariant s.ctrl k, parser := slotOptimal k, valid := true } sizes with
      wrk := t.wrk, wlen := BitVec.ofNat 14 n
      cmp := losersErase s.cmpCap sizes t.enc.size t.enc.cmp, cmpLen := BitVec.ofNat 17 t.enc.size
      dec := t.enc.dec, decLen := BitVec.ofNat 14 n }).finish none

/-- COMPRESS (R343). -/
def execCompress (s : State) : Host.Outcome State Fault Refusal :=
  let s0 := s.setAttempts RunResult.reset []
  let len := s.srcLen.toNat
  let n := s.ctrl.capacity
  if badInputLength len then raiseError .srcLen s0
  else if (enabledSlots s.ctrl).isEmpty then raiseError .noSlot s0
  else
    match runSlots s len n (enabledSlots s.ctrl) [] with
    | .uninit         => uninit
    | .failed e sizes => .next (failCompress e n sizes s)
    | .ok sizes       =>
      match pickBest sizes none with
      | none         => raiseError .noSlot s0
      | some (k, _)  =>
        match attempt s len n k with
        | .uninit   => uninit
        | .failed e => .next (failCompress e n sizes s)
        | .ok t     => .next (finishCompress k t n sizes s)

end Sys2Proof.Machine
end

