-- ==== Sys2Proof/Machine/Dispatch.lean ====
section
/-! DEFINITION. One arm per constructor of Instr, each a direct call of the instruction's meaning. -/

namespace Sys2Proof.Machine

open Sys2Proof

/-- The meaning of every instruction. -/
def exec (i : Instr) (s : State) : Host.Outcome State Fault Refusal :=
  match i with
  | .nop => Sys2Proof.Machine.execNop s
  | .load => Sys2Proof.Machine.execLoad s
  | .holeZero => Sys2Proof.Machine.execHoleZero s
  | .holePattern => Sys2Proof.Machine.execHolePattern s
  | .matchCmd => Sys2Proof.Machine.execMatch s
  | .encGreedy => Sys2Proof.Machine.execEncGreedy s
  | .encOptimal => Sys2Proof.Machine.execEncOptimal s
  | .decode => Sys2Proof.Machine.execDecode s
  | .compress => Sys2Proof.Machine.execCompress s
  | .chunkMatch lits mn off => Sys2Proof.Machine.execChunkMatch lits mn off s
  | .chunkMatchX lits mx off => Sys2Proof.Machine.execChunkMatchX lits mx off s
  | .chunkNoMatch lits => Sys2Proof.Machine.execChunkNoMatch lits s
  | .chunkEnd lits => Sys2Proof.Machine.execChunkEnd lits s

end Sys2Proof.Machine
end

