-- ==== Sys2Proof/Machine/Operands.lean ====
section
/-! DEFINITION. The operand forms: the register map and its current values, the memory windows of the host address map, the buffers by
name, and the bytes of a multi-byte host access (10_state.md R32 to R51, 20_memory.md R80 to R92). -/

namespace Sys2Proof.Machine

open Sys2Proof

/-- The host registers by name (10_state.md R32). -/
inductive Reg where
  | id | version | ctrl | status | cmd | events | srcLen | wlen | cmpLen | decLen | pos | matchLen | matchOff | errPos | inUsed
  | result | attSize0 | attSize1 | attSize2 | attSize3 | cmpCapReg
deriving DecidableEq, Repr

/-- The register at a word index (offset / 4) of the register window; none at a reserved offset (R32, R51). -/
def regAt : Nat → Option Reg
  | 0  => some .id
  | 1  => some .version
  | 2  => some .ctrl
  | 3  => some .status
  | 4  => some .cmd
  | 5  => some .events
  | 6  => some .srcLen
  | 7  => some .wlen
  | 8  => some .cmpLen
  | 9  => some .decLen
  | 10 => some .pos
  | 11 => some .matchLen
  | 12 => some .matchOff
  | 13 => some .errPos
  | 14 => some .inUsed
  | 15 => some .result
  | 16 => some .attSize0
  | 17 => some .attSize1
  | 18 => some .attSize2
  | 19 => some .attSize3
  | 20 => some .cmpCapReg
  | _  => none

/-- The byte offset of a register in the register window (R32). -/
def regOffset : Reg → Nat
  | .id        => 0x000
  | .version   => 0x004
  | .ctrl      => 0x008
  | .status    => 0x00C
  | .cmd       => 0x010
  | .events    => 0x014
  | .srcLen    => 0x018
  | .wlen      => 0x01C
  | .cmpLen    => 0x020
  | .decLen    => 0x024
  | .pos       => 0x028
  | .matchLen  => 0x02C
  | .matchOff  => 0x030
  | .errPos    => 0x034
  | .inUsed    => 0x038
  | .result    => 0x03C
  | .attSize0  => 0x040
  | .attSize1  => 0x044
  | .attSize2  => 0x048
  | .attSize3  => 0x04C
  | .cmpCapReg => 0x050

/-- The current value of a register as a word; reserved bits read 0, and CMD reads 0 (R33 to R50). -/
def regValue (s : State) : Reg → Word
  | .id        => Config.idValue
  | .version   => Config.versionValue
  | .ctrl      => s.ctrl.toWord
  | .status    => s.status.toWord
  | .cmd       => 0
  | .events    => s.events.toWord
  | .srcLen    => s.srcLen.setWidth 32
  | .wlen      => s.wlen.setWidth 32
  | .cmpLen    => s.cmpLen.setWidth 32
  | .decLen    => s.decLen.setWidth 32
  | .pos       => s.pos.setWidth 32
  | .matchLen  => s.matchLen.setWidth 32
  | .matchOff  => s.matchOff.setWidth 32
  | .errPos    => s.errPos.setWidth 32
  | .inUsed    => s.inUsed.setWidth 32
  | .result    => s.result.toWord
  | .attSize0  => s.attSize0.setWidth 32
  | .attSize1  => s.attSize1.setWidth 32
  | .attSize2  => s.attSize2.setWidth 32
  | .attSize3  => s.attSize3.setWidth 32
  | .cmpCapReg => BitVec.ofNat 32 s.cmpCap

/-- The registers a host read of which is not free while BUSY = 1: those of R52, which return the current value, and CMD, whose read
returns 0 always (R32, R37; log 10). The others are the result registers of 93_implementation_defined.md U4. -/
def readableWhileBusy : Reg → Bool
  | .id | .version | .ctrl | .status | .cmd | .events | .srcLen | .pos | .cmpCapReg => true
  | .wlen | .cmpLen | .decLen | .matchLen | .matchOff | .errPos | .inUsed | .result
  | .attSize0 | .attSize1 | .attSize2 | .attSize3 => false

/-- A buffer of the state. -/
def State.buf (s : State) : Buf → Memory
  | .src => s.src
  | .wrk => s.wrk
  | .cmp => s.cmp
  | .dec => s.dec

/-- The state with a buffer replaced. -/
def State.setBuf (b : Buf) (m : Memory) (s : State) : State :=
  match b with
  | .src => { s with src := m }
  | .wrk => { s with wrk := m }
  | .cmp => { s with cmp := m }
  | .dec => { s with dec := m }

/-- The size of a buffer (00_scope.md R10). -/
def State.bufSize (s : State) : Buf → Nat
  | .src | .wrk | .dec => Config.bufSize
  | .cmp => s.cmpCap

/-- The host address of byte 0 of a buffer (20_memory.md R91). -/
def bufBase : Buf → Nat
  | .src => 0x10000
  | .wrk => 0x20000
  | .cmp => 0x30000
  | .dec => 0x40000

/-- The memory window a host address falls into, with the byte index (R89, R91). The CMP window is 64 KiB, of which CMP_CAP bytes are
mapped. -/
def windowAt (a : Nat) : Option (Buf × Nat) :=
  if 0x10000 ≤ a ∧ a < 0x12000 then some (.src, a - 0x10000)
  else if 0x20000 ≤ a ∧ a < 0x22000 then some (.wrk, a - 0x20000)
  else if 0x30000 ≤ a ∧ a < 0x40000 then some (.cmp, a - 0x30000)
  else if 0x40000 ≤ a ∧ a < 0x42000 then some (.dec, a - 0x40000)
  else none

/-- A host access falls into the register window (R89, R90). -/
def inRegWindow (a : Nat) : Bool := decide (a < 0x100)

/-- A register-window access has size 4 and a multiple-of-4 address (R85). -/
def regAccessOk (a size : Nat) : Bool := decide (size = 4) && decide (a % 4 = 0)

/-- A memory-window access has size 1, 2 or 4 and a multiple-of-its-size address (R85), touches mapped bytes only (R91), and finds the
engine idle (R96). -/
def memAccessOk (s : State) (b : Buf) (a idx size : Nat) : Bool :=
  (decide (size = 1) || decide (size = 2) || decide (size = 4)) && decide (a % size = 0) && decide (idx + size ≤ s.bufSize b)
    && !s.status.busy

/-- The number whose little-endian bytes these are, as a word (00_scope.md R14, 20_memory.md R82; log 12). -/
def wordOfBytes : List Byte → Word
  | []      => 0
  | b :: bs => BitVec.ofNat 32 (b.toNat + 256 * (wordOfBytes bs).toNat)

/-- The first n little-endian bytes of a word: byte k is bits [8k+7:8k] (R82). -/
def bytesOfWord (n : Nat) (w : Word) : List Byte := bytesOfNat n w.toNat

/-- The bytes a host read returns: an undefined byte is a free value (10_state.md R64; log 2). -/
def fillFree (draw : Nat) : List (Option Byte) → List Byte
  | []           => []
  | some v :: cs => v :: fillFree (draw + 1) cs
  | none :: cs   => Config.freeByte draw :: fillFree (draw + 1) cs

end Sys2Proof.Machine
end

