-- ==== Sys2Proof/Machine/HostPort.lean ====
section
/-! DEFINITION. What a host transaction does: register and memory-window accesses, their refusals, command issue, and access during
BUSY and during reset (10_state.md R32 to R52, 20_memory.md R80 to R96, 40_control.md R170, 70_reset_and_hazards.md R400). -/

namespace Sys2Proof.Machine

open Sys2Proof

/-- A refused read returns a free value and sets HOST_ERR (20_memory.md R93). -/
def refuseRead (s : State) : State := s.respondFree.flagHostErr

/-- A refused write changes nothing but HOST_ERR (R93). -/
def refuseWrite (s : State) : State := s.flagHostErr

/-- A host read of a register (10_state.md R32, R52). -/
def readReg (r : Reg) (s : State) : State :=
  if s.status.busy && !readableWhileBusy r then s.respondFree else s.respond (regValue s r)

/-- A host write to a RW register: ignored, with HOST_ERR, while BUSY (R52). -/
def guardBusy (upd : State → State) (s : State) : State := if s.status.busy then refuseWrite s else upd s

/-- A host write of w to CMD (40_control.md R170). -/
def writeCmd (w : Word) (s : State) : State :=
  if s.status.busy then { s with events := { s.events with cmdRej := true } } else s.accept w

/-- A host write of w to a register (10_state.md R32, R52): a write to a read-only register is ignored and sets no flag; reserved bits are
ignored. -/
def writeReg (r : Reg) (w : Word) (s : State) : State :=
  match r with
  | .ctrl   => guardBusy (fun t => { t with ctrl := Ctrl.ofWord w }) s
  | .srcLen => guardBusy (fun t => { t with srcLen := w.setWidth 14 }) s
  | .wlen   => guardBusy (fun t => { t with wlen := w.setWidth 14 }) s
  | .cmpLen => guardBusy (fun t => { t with cmpLen := w.setWidth 17 }) s
  | .pos    => guardBusy (fun t => { t with pos := w.setWidth 14 }) s
  | .cmd    => writeCmd w s
  | .events => { s with events := s.events.cleared w }
  | .id | .version | .status | .decLen | .matchLen | .matchOff | .errPos | .inUsed | .result
  | .attSize0 | .attSize1 | .attSize2 | .attSize3 | .cmpCapReg => s

/-- A host read of a buffer: little-endian, an undefined byte a free value (20_memory.md R82, 10_state.md R64). -/
def readMem (b : Buf) (idx size : Nat) (s : State) : State :=
  { s with rdata := wordOfBytes (fillFree s.draws ((s.buf b).cells idx size)), draws := s.draws + size }

/-- A host write to a buffer: little-endian (R82). -/
def writeMem (b : Buf) (idx size : Nat) (w : Word) (s : State) : State :=
  s.setBuf b ((s.buf b).writeBytes idx (bytesOfWord size w))

/-- A host read (R85, R89 to R93). A reserved register offset reads 0 (10_state.md R51). -/
def hostRead (addr : BitVec 20) (size : Nat) (s : State) : State :=
  let a := addr.toNat
  if inRegWindow a then
    if regAccessOk a size then
      match regAt (a / 4) with
      | some r => readReg r s
      | none   => s.respond 0
    else refuseRead s
  else match windowAt a with
    | none          => refuseRead s
    | some (b, idx) => if memAccessOk s b a idx size then readMem b idx size s else refuseRead s

/-- A host write (R85, R89 to R93). A write to a reserved register offset is ignored and sets no flag (10_state.md R51). -/
def hostWrite (addr : BitVec 20) (size : Nat) (w : Word) (s : State) : State :=
  let a := addr.toNat
  if inRegWindow a then
    if regAccessOk a size then
      match regAt (a / 4) with
      | some r => writeReg r w s
      | none   => s
    else refuseWrite s
  else match windowAt a with
    | none          => refuseWrite s
    | some (b, idx) => if memAccessOk s b a idx size then writeMem b idx size w s else refuseWrite s

/-- One host transaction. While the reset pin is asserted a write is ignored and a read returns a free value (70_reset_and_hazards.md
R400). -/
def hostAccess (op : HostOp) (s : State) : State :=
  match op with
  | .read addr size    => if s.rst then s.respondFree else hostRead addr size s
  | .write addr size w => if s.rst then s else hostWrite addr size w s

end Sys2Proof.Machine
end

