-- ==== Sys2Proof/Machine/Engine.lean ====
section
/-! DEFINITION. The engine's moves and the inputs: fetching the instruction the engine stands before, running it, and what each element of
`inputs` does (40_control.md R170, R173, 46_decoder.md R301, 70_reset_and_hazards.md R400, R421). -/

namespace Sys2Proof.Machine

open Sys2Proof

/-- The accepted word is run: the check of R173, then the rule of its opcode (R170). -/
def runWord (w : Word) (s : State) : Host.Outcome State Fault Refusal :=
  match decodeCommand w with
  | .error e => execReservedWord e s
  | .ok i    => exec i s

/-- The Decoder runs the chunk at its input cursor (46_decoder.md R301). -/
def runNextChunk (s : State) : Host.Outcome State Fault Refusal :=
  match fetchChunk s.cmp s.cmpLen.toNat s.hid.ip.toNat with
  | .error e => applyChunk (shortChunk s.cmpLen.toNat s.ctrl.capacity s.decState e) s
  | .ok c    => exec c.toInstr s

/-- The engine's move (70_reset_and_hazards.md R421): the accepted command whole, or one chunk of a DECODE taken chunk by chunk. An idle
engine waits (R403). -/
def engineMove (s : State) : Host.Outcome State Fault Refusal :=
  match s.engine with
  | .idle     => .next s
  | .busy w   => runWord w s
  | .decoding => runNextChunk s

/-- The engine takes up an accepted DECODE chunk by chunk (log 7): what R300 and R301 do before the first chunk. Any other command is
run whole. -/
def beginDecode (s : State) : Host.Outcome State Fault Refusal :=
  match s.engine with
  | .idle     => .next s
  | .decoding => runNextChunk s
  | .busy w   =>
    match decodeCommand w with
    | .ok .decode =>
      if s.cmpLen.toNat > s.cmpCap then raiseError .cmpLenMax s
      else applyChunk (startDecode s.cmp s.cmpLen.toNat s.dec) { s with engine := .decoding }
    | _ => runWord w s

/-- What an element of `inputs` does (log 6). While the reset pin is asserted the engine does not move (70_reset_and_hazards.md R400). -/
def applyInput (x : Input) (s : State) : Host.Outcome State Fault Refusal :=
  match x with
  | .host op     => .next (hostAccess op s)
  | .engine      => if s.rst then .next s else engineMove s
  | .beginDecode => if s.rst then .next s else beginDecode s
  | .sameCycle op =>
    if s.rst then .next (hostAccess op s) else engineMove (hostAccess op s)
  | .rst true    => .next s.assertReset
  | .rst false   => .next { s with rst := false }

/-- With no input left, the engine moves if the reset pin lets it (70_reset_and_hazards.md R420: an accepted command completes). -/
def runUnattended (s : State) : Host.Outcome State Fault Refusal :=
  if s.rst then .next s else engineMove s

/-! ### Where the next instruction stands (log 14) -/

/-- A command word stands in the engine, accepted (40_control.md R170). -/
def placeCommand (w : Word) (s : State) : State := { s.accept w with rst := false, inputs := [] }

/-- A chunk stands in CMP[1..276), behind the magic byte's place, at the input cursor of a DECODE between two chunks. -/
def placeChunk (bs : List Byte) (s : State) : State :=
  { s.accept 7 with
      rst := false, inputs := [], engine := .decoding, hid := { s.hid with ip := 1 }
      cmp := s.cmp.writeBytes 1 bs, cmpLen := BitVec.ofNat 17 (1 + maxChunkSize) }

/-- A code stands where the next step fetches it. -/
def placeCode (c : Code) (s : State) : State :=
  match c with
  | .cmdw w   => placeCommand w s
  | .chunk bs => placeChunk bs s

end Sys2Proof.Machine
end

