-- ==== Sys2Proof/Machine/Step.lean ====
section
/-! DEFINITION. One step of the machine, and where it fetches its next instruction. -/

namespace Sys2Proof.Machine

open Sys2Proof

/-- One step: the next input, or, where no input is left, the engine's move (70_reset_and_hazards.md R421; log 6). -/
def step (s : State) : Host.Outcome State Fault Refusal :=
  match s.inputs with
  | []      => runUnattended s
  | x :: xs => applyInput x { s with inputs := xs }

/-- The state with an opcode-table word where step fetches its next instruction (log 14). -/
def State.withFetchWord (s : State) (nbits w : Nat) : State := placeCode (tableCode nbits w) s

end Sys2Proof.Machine
end

