-- ==== Sys2Proof/Safety.lean ====
section
/-! DEFINITION. The terms the claims use, written from the spec beside the machine and not through its operations: what completion leaves,
the invariant of the machine, the bytes a chunk list produces, the decisions of the parsers, the hole variants, and which operands each
command reads and writes. -/

namespace Sys2Proof.Machine

open Sys2Proof

/-! ### Buffers -/

/-- M[a..a+len(bs)) holds bs (00_scope.md R14). -/
def Memory.Holds (m : Memory) (a : Nat) (bs : List Byte) : Prop := ∀ k, k < bs.length → m.read (a + k) = bs[k]?

/-- Every byte of M[a..a+n) is defined (10_state.md R64). -/
def Memory.DefinedOn (m : Memory) (a n : Nat) : Prop := ∀ p, a ≤ p → p < a + n → (m.read p).isSome = true

/-- x is m with the bytes bs at the indices 0 to len(bs) - 1, and every other byte as it was. -/
def Memory.Overwritten (m : Memory) (bs : List Byte) (x : Memory) : Prop :=
  ∀ a, x.read a = if a < bs.length then bs[a]? else m.read a

/-- Every byte of every buffer is defined. -/
def State.AllDefined (s : State) : Prop :=
  s.src.DefinedOn 0 8192 ∧ s.wrk.DefinedOn 0 8192 ∧ s.cmp.DefinedOn 0 s.cmpCap ∧ s.dec.DefinedOn 0 8192

/-- CMP_CAP is in its range (00_scope.md R10). -/
def State.CapInRange (s : State) : Prop := 8292 ≤ s.cmpCap ∧ s.cmpCap ≤ 65536

/-! ### Completion -/

/-- What completion leaves (60_exceptions.md R370): STATUS with the class and the detail, DONE_EV set, ERR_POS and IN_USED 0, the engine
idle. `h` and `d` are the hidden engine state and the model's count of free values, on which no claim rests (log 2, log 3). -/
def State.finished (code : BitVec 4) (detail : Byte) (h : Hidden) (d : Nat) (s : State) : State :=
  { s with
    status := { busy := false, done := true, err := decide (code ≠ 0), errCode := code, errDetail := detail
                lastOpc := s.status.lastOpc }
    events := { doneEv := true, cmdRej := s.events.cmdRej, hostErr := s.events.hostErr }
    errPos := 0, inUsed := 0, engine := .idle, hid := h, draws := d }

/-- The values reset leaves (10_state.md R65, 70_reset_and_hazards.md R401). -/
structure State.AtReset (s : State) : Prop where
  engine  : s.engine = .idle
  ctrl    : s.ctrl = { preserveHoles := false, greedyEn := true, optimalEn := true, zeroEn := true, patternEn := true, irqEn := false }
  status  : s.status = { busy := false, done := false, err := false, errCode := 0, errDetail := 0, lastOpc := 0 }
  events  : s.events = { doneEv := false, cmdRej := false, hostErr := false }
  irq     : s.irq = false
  lengths : s.srcLen = 0 ∧ s.wlen = 0 ∧ s.cmpLen = 0 ∧ s.decLen = 0 ∧ s.pos = 0
  results : s.matchLen = 0 ∧ s.matchOff = 0 ∧ s.errPos = 0 ∧ s.inUsed = 0
  attempt : s.result = { slot := 0, variant := 0, parser := false, valid := false } ∧
    s.attSize0 = 0 ∧ s.attSize1 = 0 ∧ s.attSize2 = 0 ∧ s.attSize3 = 0
  buffers : ∀ a, s.src.read a = none ∧ s.wrk.read a = none ∧ s.cmp.read a = none ∧ s.dec.read a = none

/-- What a decode that fails leaves (46_decoder.md R300, R310): besides completion, ERR_POS, DEC_LEN 0, and DEC[0..cap) undefined, with
every later byte of DEC as it was. -/
def State.DecodeFailed (code : BitVec 4) (detail : Byte) (pos : Nat) (s t : State) : Prop :=
  ∃ h d m, t = { s.finished code detail h d with dec := m, decLen := 0, errPos := BitVec.ofNat 17 pos } ∧
    ∀ a, m.read a = if a < s.ctrl.capacity then none else s.dec.read a

/-- The pairs of error class and detail that exist (60_exceptions.md R362). -/
def errorPairs : List (Nat × Nat) :=
  [(1, 1), (1, 2), (2, 1), (2, 2), (2, 3), (2, 4), (2, 5), (2, 6), (2, 7), (2, 8), (2, 9), (2, 10), (3, 1), (3, 2)] ++
  [(4, 1), (4, 2), (4, 3), (5, 1), (5, 2), (6, 1), (6, 2), (6, 3), (6, 4), (6, 5)]

/-- The errors each instruction can complete with (60_exceptions.md R363). A chunk that has been read whole can fail only the four checks
of 46_decoder.md R302 and R309. -/
def errorsOf : Instr → List (Nat × Nat)
  | .nop => []
  | .load => [(3, 1)]
  | .holeZero | .holePattern => [(6, 2), (6, 3)]
  | .matchCmd => [(6, 2), (6, 1)]
  | .encGreedy | .encOptimal => [(3, 2), (2, 10), (4, 1), (4, 2), (4, 3)]
  | .decode => [(6, 4), (1, 1), (1, 2), (2, 1), (2, 2), (2, 3), (2, 4), (2, 5), (2, 6), (2, 7), (2, 8), (2, 9)]
  | .compress => [(3, 1), (6, 5), (2, 10), (4, 1), (4, 2), (4, 3)]
  | .chunkMatch _ _ _ | .chunkMatchX _ _ _ => [(2, 4), (2, 7), (2, 8), (2, 9)]
  | .chunkNoMatch _ | .chunkEnd _ => [(2, 4)]

/-- The instruction is a command (30_encoding.md R121); any other is a chunk kind (R131). -/
def isCommand : Instr → Bool
  | .nop | .load | .holeZero | .holePattern | .matchCmd | .encGreedy | .encOptimal | .decode | .compress => true
  | .chunkMatch _ _ _ | .chunkMatchX _ _ _ | .chunkNoMatch _ | .chunkEnd _ => false

/-! ### The invariant -/

/-- The legal states of STATUS (10_state.md R36), and the pairs it may record (60_exceptions.md R362). -/
structure Status.Legal (st : Status) : Prop where
  busy    : st.busy = true → st.done = false ∧ st.err = false
  error   : st.err = true → st.done = true ∧ (st.errCode.toNat, st.errDetail.toNat) ∈ errorPairs
  noError : st.err = false → st.errCode = 0 ∧ st.errDetail = 0

/-- The buffers hold their canonical form, inside their sizes (10_state.md R55 to R58). -/
structure State.BuffersOk (s : State) : Prop where
  srcForm : s.src.wf
  wrkForm : s.wrk.wf
  cmpForm : s.cmp.wf
  decForm : s.dec.wf
  srcSize : s.src.within 8192 = true
  wrkSize : s.wrk.within 8192 = true
  cmpSize : s.cmp.within s.cmpCap = true
  decSize : s.dec.within 8192 = true

/-- A Decoder between two chunks (46_decoder.md R301, R312, R315): its cursors are in range and DEC[0..op) is written. -/
structure State.DecodingOk (s : State) : Prop where
  started : 1 ≤ s.hid.ip.toNat
  input   : s.hid.ip.toNat ≤ s.cmpLen.toNat
  mapped  : s.cmpLen.toNat ≤ s.cmpCap
  output  : s.hid.op.toNat ≤ s.ctrl.capacity
  written : s.dec.DefinedOn 0 s.hid.op.toNat

/-- What the machine's rules keep true. -/
structure State.Inv (s : State) : Prop where
  buffers  : s.BuffersOk
  cap      : s.CapInRange
  status   : s.status.Legal
  /-- STATUS.BUSY = 1 exactly when the engine is BUSY (10_state.md R63). -/
  busy     : s.status.busy = true ↔ s.engine ≠ .idle
  /-- LAST_OPC is the opcode of the command that runs (R36). -/
  opcode   : ∀ w, s.engine = .busy w → s.status.lastOpc = w.extractLsb' 0 8
  decodeOp : s.engine = .decoding → s.status.lastOpc = 7
  decoding : s.engine = .decoding → s.DecodingOk
  /-- While the reset pin is asserted the engine is IDLE (70_reset_and_hazards.md R400). -/
  reset    : s.rst = true → s.engine = .idle
  /-- DEC_LEN holds 0..8192 (R42). -/
  decLen   : s.decLen.toNat ≤ 8192
  /-- MATCH_OFF is 0 whenever MATCH_LEN = 0 (R45). -/
  noMatch  : s.matchLen = 0 → s.matchOff = 0
  /-- The match reported lies inside the buffer (42_match_finder.md R215). -/
  inBuffer : s.matchOff.toNat + s.matchLen.toNat < 8192
  /-- ERR_POS is 0 unless the last command is a DECODE that failed in the Decoder (R46). -/
  errPos   : s.engine = .idle → s.errPos ≠ 0 → s.status.lastOpc = 7 ∧ (s.status.errCode = 1 ∨ s.status.errCode = 2)
  /-- IN_USED is 0 unless the last command is a DECODE that succeeded (R47). -/
  inUsed   : s.engine = .idle → s.inUsed ≠ 0 → s.status.lastOpc = 7 ∧ s.status.err = false
  /-- RESULT.VARIANT is never 3 (R48). -/
  variant  : s.result.variant ≠ 3
  /-- RESULT is 0 unless VALID = 1 (R48, 47_compress.md R343). -/
  valid    : s.result.valid = false → s.result = ⟨0, 0, false, false⟩

/-! ### The register map -/

/-- What the host reads at each register offset, as a number made of its fields (10_state.md R32 to R50). -/
def registerTable (s : State) : List (Nat × Nat) :=
  [ (0x000, 0x46485043), (0x004, 7)
  , (0x008, s.ctrl.preserveHoles.toNat + 2 * s.ctrl.greedyEn.toNat + 4 * s.ctrl.optimalEn.toNat + 8 * s.ctrl.zeroEn.toNat
      + 16 * s.ctrl.patternEn.toNat + 256 * s.ctrl.irqEn.toNat)
  , (0x00C, s.status.busy.toNat + 2 * s.status.done.toNat + 4 * s.status.err.toNat + 256 * s.status.errCode.toNat
      + 65536 * s.status.errDetail.toNat + 16777216 * s.status.lastOpc.toNat)
  , (0x010, 0)
  , (0x014, s.events.doneEv.toNat + 2 * s.events.cmdRej.toNat + 4 * s.events.hostErr.toNat)
  , (0x018, s.srcLen.toNat), (0x01C, s.wlen.toNat), (0x020, s.cmpLen.toNat), (0x024, s.decLen.toNat), (0x028, s.pos.toNat)
  , (0x02C, s.matchLen.toNat), (0x030, s.matchOff.toNat), (0x034, s.errPos.toNat), (0x038, s.inUsed.toNat) ] ++
  [ (0x03C, s.result.slot.toNat + 16 * s.result.variant.toNat + 64 * s.result.parser.toNat + 256 * s.result.valid.toNat)
  , (0x040, s.attSize0.toNat), (0x044, s.attSize1.toNat), (0x048, s.attSize2.toNat), (0x04C, s.attSize3.toNat)
  , (0x050, s.cmpCap) ]

/-- The registers whose value a host read returns while BUSY = 1, by offset (10_state.md R52). -/
def busyReadable : List Nat := [0x000, 0x004, 0x008, 0x00C, 0x014, 0x018, 0x028, 0x050]

/-- The host address a and the next ones up to size, all in the same window and mapped (20_memory.md R89, R91). -/
def mappedWindow (cmpCap a size : Nat) : Prop :=
  (0x10000 ≤ a ∧ a + size ≤ 0x12000) ∨ (0x20000 ≤ a ∧ a + size ≤ 0x22000) ∨
  (0x30000 ≤ a ∧ a + size ≤ 0x30000 + cmpCap) ∨ (0x40000 ≤ a ∧ a + size ≤ 0x42000)

/-- A host access that is allowed (20_memory.md R85, R91, R92, R96). -/
def accessAllowed (s : State) (a size : Nat) : Prop :=
  (a < 0x100 ∧ size = 4 ∧ a % 4 = 0) ∨
  ((size = 1 ∨ size = 2 ∨ size = 4) ∧ a % size = 0 ∧ mappedWindow s.cmpCap a size ∧ s.status.busy = false)

/-! ### Holes -/

/-- The index p of a buffer of length n is a hole byte: some hole [120 + 128 k, 128 + 128 k), cut at n, has it (41_hole_processor.md R190). -/
def InHole (n p : Nat) : Prop := ∃ k, 120 + 128 * k ≤ p ∧ p < 128 + 128 * k ∧ p < n

/-- The bytes HOLE_PATTERN reads are defined (41_hole_processor.md R193): of every hole, the 2 before it, and the 4 after it where the
buffer has 4 bytes there. -/
def PatternBytesDefined (m : Memory) (n : Nat) : Prop :=
  ∀ k, 120 + 128 * k < n → m.DefinedOn (118 + 128 * k) 2 ∧ (131 + 128 * k < n → m.DefinedOn (128 + 128 * k) 4)

/-- The byte PatternFill puts at the index p of hole k, by the closed form of R194, from the bytes `b` before it. -/
def patternByte {α : Type} [DecidableEq α] (n k p : Nat) (b : Nat → α) : α :=
  let e := 128 + 128 * k
  if e + 3 < n ∧ b e = b (e + 2) ∧ b (e + 1) = b (e + 3) then b (if p % 2 = 0 then e else e + 1)
  else b (if p % 2 = 0 then e - 10 else e - 9)

/-! ### The match finder -/

/-- l bytes at offset s and at pos agree, inside the buffer and the cap (42_match_finder.md R212). -/
def Agrees (b : List Byte) (pos s l : Nat) : Prop := l ≤ min 255 (b.length - pos) ∧ ∀ j, j < l → b[s + j]? = b[pos + j]?

/-- The closed form of R212: the greatest common length over all earlier offsets, at the smallest offset that has it. -/
structure LongestMatch (b : List Byte) (pos l o : Nat) : Prop where
  found    : 0 < l → o < pos ∧ Agrees b pos o l
  longest  : ∀ s l', s < pos → Agrees b pos s l' → l' ≤ l
  earliest : 0 < l → ∀ s, s < o → ¬ Agrees b pos s l
  nothing  : l = 0 → o = 0

/-! ### The stream and what it produces -/

/-- The length and the offset of a match (30_encoding.md R129, R130), none for a chunk without one. -/
def matchOf : Tail → Option (Nat × Nat)
  | .matchShort mn off => some (mn.toNat + 4, off.toNat)
  | .matchLong mx off  => some (mx.toNat + 19, off.toNat)
  | .noMatch           => none
  | .endOfData         => none

/-- The bytes of FB and LX before a run of that many literals (30_encoding.md R126, R128). -/
def headBytes (run : Nat) : Nat := if 15 ≤ run then 2 else 1

/-- The bytes a match copies (46_decoder.md R311): the period from off to the end of the output, repeated. -/
def copied (out : List Byte) (off m : Nat) : List Byte :=
  (List.range m).map (fun k => (out[off + k % (out.length - off)]?).getD 0)

/-- The output after a chunk list (46_decoder.md R302 to R306, R309, R311), none where a check fails or where CHUNK_END is not the last
chunk. -/
def replay (cap : Nat) : List Chunk → List Byte → Option (List Byte)
  | [], _ => none
  | c :: cs, out =>
    let run := out ++ c.lits
    if cap < run.length then none
    else match c.tail with
      | .endOfData => if cs = [] then some run else none
      | .noMatch => replay cap cs run
      | .matchShort mn off =>
        if off.toNat < run.length ∧ run.length + (mn.toNat + 4) ≤ cap then replay cap cs (run ++ copied run off.toNat (mn.toNat + 4))
        else none
      | .matchLong mx off =>
        if off.toNat < run.length ∧ run.length + (mx.toNat + 19) ≤ cap then replay cap cs (run ++ copied run off.toNat (mx.toNat + 19))
        else none

/-- The stream invariants of 45_token_writer.md R286, of the chunks after output position `op` of an encoding of n bytes: runs of at most
255 literals, matches of 4..255 with the offset below the output position and the source inside n, no-match chunks of 255 literals, and one
end chunk, the last. -/
def StreamOk (n : Nat) : Nat → List Chunk → Prop
  | _, [] => False
  | op, c :: cs =>
    c.wf = true ∧ c.lits.length ≤ 255 ∧
    match c.tail with
    | .endOfData => cs = [] ∧ op + c.lits.length = n
    | .noMatch => c.lits.length = 255 ∧ StreamOk n (op + 255) cs
    | .matchShort mn off => off.toNat < op + c.lits.length ∧ off.toNat ≤ 8191 ∧ off.toNat + (mn.toNat + 4) ≤ n ∧
        StreamOk n (op + c.lits.length + (mn.toNat + 4)) cs
    | .matchLong mx off => mx.toNat ≤ 236 ∧ off.toNat < op + c.lits.length ∧ off.toNat ≤ 8191 ∧ off.toNat + (mx.toNat + 19) ≤ n ∧
        StreamOk n (op + c.lits.length + (mx.toNat + 19)) cs

/-! ### The parsers' decisions -/

/-- A decision of a parser: a literal byte, or a match of length l at offset o. -/
inductive Token where
  | lit (x : Byte)
  | copy (l o : Nat)
deriving DecidableEq, Repr

/-- The input bytes a decision covers. -/
def Token.size : Token → Nat
  | .lit _    => 1
  | .copy l _ => l

/-- The chunks of a list of decisions: each maximal literal run is the pseudo-instruction `literals` of 30_encoding.md R137 with the tail
that follows it. -/
def chunksOf : List Byte → List Token → List Chunk
  | run, []               => literals run .endOfData
  | run, .lit x :: ts     => chunksOf (run ++ [x]) ts
  | run, .copy l o :: ts  => literals run (Tail.ofMatch l o) ++ chunksOf [] ts

/-- The decisions of the greedy parser from a position on (43_greedy_parser.md R230): a match wherever the longest one is usable. -/
def GreedyTokens (b : List Byte) : Nat → List Token → Prop
  | pos, []              => pos = b.length
  | pos, .lit x :: ts    => b[pos]? = some x ∧ (∀ l o, LongestMatch b pos l o → l < 4) ∧ GreedyTokens b (pos + 1) ts
  | pos, .copy l o :: ts => pos < b.length ∧ LongestMatch b pos l o ∧ 4 ≤ l ∧ GreedyTokens b (pos + l) ts

/-- The decisions of the forward pass from a position on (44_optimal_parser.md R256): what the table recorded. -/
def OptimalTokens (b : List Byte) (opt : List OptEntry) : Nat → List Token → Prop
  | pos, []              => pos = b.length
  | pos, .lit x :: ts    => b[pos]? = some x ∧ (∃ nd, opt[pos]? = some nd ∧ nd.matchLength = 0) ∧ OptimalTokens b opt (pos + 1) ts
  | pos, .copy l o :: ts => pos < b.length ∧ 0 < l ∧ (∃ nd, opt[pos]? = some nd ∧ nd.matchLength = l ∧ nd.matchOffset = o) ∧
      OptimalTokens b opt (pos + l) ts

/-- The literal branch of 44_optimal_parser.md R254: run length and edge cost, by the entry of the next position. -/
structure LiteralBranch (nx : OptEntry) (run edge : Nat) : Prop where
  afterMatch : 0 < nx.matchLength → run = 1 ∧ edge = 1
  fullRun    : nx.matchLength = 0 → nx.literalRunLength = 255 → run = 1 ∧ edge = 3
  extend     : nx.matchLength = 0 → nx.literalRunLength ≠ 255 → run = nx.literalRunLength + 1 ∧ edge = if run = 15 then 2 else 1

/-- The table of 44_optimal_parser.md R250: the sentinel, and at every position the cheaper of the two branches, the match on a tie. -/
structure OptTable (b : List Byte) (opt : List OptEntry) : Prop where
  size     : opt.length = b.length + 1
  sentinel : opt[b.length]? = some ⟨0, 0, 0, 0⟩
  entry    : ∀ i nd nx run edge l o, i < b.length → opt[i]? = some nd → opt[i + 1]? = some nx → LiteralBranch nx run edge →
    LongestMatch b i l o →
    (∀ target, 4 ≤ l → opt[i + l]? = some target →
      nd = (if target.totalCost + 3 + (if 19 ≤ l then 1 else 0) ≤ nx.totalCost + edge
        then ⟨target.totalCost + 3 + (if 19 ≤ l then 1 else 0), l, o, 0⟩ else ⟨nx.totalCost + edge, 0, 0, run⟩)) ∧
    (l < 4 → nd = ⟨nx.totalCost + edge, 0, 0, run⟩)

/-- No position has a usable match (45_token_writer.md R289). -/
def NoUsableMatch (b : List Byte) : Prop := ∀ pos l o, pos < b.length → LongestMatch b pos l o → l < 4

/-! ### COMPRESS -/

/-- The raw buffer an attempt starts from (47_compress.md R344): SRC[0..min(n, L)), zero-padded to n. -/
def RawBuffer (s : State) (raw : List Byte) : Prop :=
  raw.length = s.ctrl.capacity ∧
  ∀ p, p < raw.length → raw[p]? = if p < s.srcLen.toNat then s.src.read p else some 0

/-- The variant of slot k of a raw buffer (47_compress.md R342): unchanged, the holes zero, or the holes filled by R194. -/
def variantBytes (preserve : Bool) (k : Nat) (raw : List Byte) : List Byte :=
  raw.mapIdx (fun p x =>
    if preserve = true ∨ p % 128 < 120 then x
    else if k < 2 then 0
    else patternByte raw.length (p / 128) p (fun i => (raw[i]?).getD 0))

/-- The stream of slot k (47_compress.md R342, R344). -/
def slotStream (preserve : Bool) (raw : List Byte) (k : Nat) : List Byte :=
  if k % 2 = 0 then greedyParse (variantBytes preserve k raw) else optimalParse (variantBytes preserve k raw)

/-- Slot k is enabled (47_compress.md R342). -/
def SlotRuns (c : Ctrl) (k : Nat) : Prop :=
  (k = 0 ∧ c.greedyEn = true ∧ (c.preserveHoles = false → c.zeroEn = true)) ∨
  (k = 1 ∧ c.optimalEn = true ∧ (c.preserveHoles = false → c.zeroEn = true)) ∨
  (k = 2 ∧ c.greedyEn = true ∧ c.preserveHoles = false ∧ c.patternEn = true) ∨
  (k = 3 ∧ c.optimalEn = true ∧ c.preserveHoles = false ∧ c.patternEn = true)

/-- ATT_SIZEk. -/
def State.attSize (s : State) : Nat → BitVec 17
  | 0 => s.attSize0
  | 1 => s.attSize1
  | 2 => s.attSize2
  | 3 => s.attSize3
  | _ => 0

/-- One meaning after another, where the first answers a next state. -/
def andThen (o : Host.Outcome State Fault Refusal) (f : State → Host.Outcome State Fault Refusal) : Host.Outcome State Fault Refusal :=
  match o with
  | .next t    => f t
  | .fault r   => .fault r
  | .refused r => .refused r

/-- The host sequence of unit commands that stands for slot k (47_compress.md R349). -/
def unitSequence (k : Nat) (s : State) : Host.Outcome State Fault Refusal :=
  let enc := if k % 2 = 0 then Instr.encGreedy else Instr.encOptimal
  if s.ctrl.preserveHoles = true then andThen (exec .load s) (exec enc)
  else andThen (andThen (exec .load s) (exec (if k < 2 then .holeZero else .holePattern))) (exec enc)

/-! ### Operands (30_encoding.md R124) -/

/-- Two buffers hold the same bytes below n. -/
def SameBytes (n : Nat) (m x : Memory) : Prop := ∀ a, a < n → m.read a = x.read a

/-- Two states agree on the operands the command reads, CMP_CAP among them. A chunk reads the Decoder's
cursors and DEC below op; as it need not complete the command, STATUS and ERR_POS are the same before it. -/
def ReadsAgree (s t : State) : Instr → Prop
  | .nop => True
  | .load => s.ctrl.preserveHoles = t.ctrl.preserveHoles ∧ s.srcLen = t.srcLen ∧ SameBytes 8192 s.src t.src
  | .holeZero | .holePattern => s.wlen = t.wlen ∧ SameBytes 8192 s.wrk t.wrk
  | .matchCmd => s.wlen = t.wlen ∧ s.pos = t.pos ∧ SameBytes 8192 s.wrk t.wrk
  | .encGreedy | .encOptimal => s.wlen = t.wlen ∧ SameBytes 8192 s.wrk t.wrk ∧ s.cmpCap = t.cmpCap
  | .decode => s.ctrl.preserveHoles = t.ctrl.preserveHoles ∧ s.cmpLen = t.cmpLen ∧ SameBytes s.cmpCap s.cmp t.cmp ∧ s.cmpCap = t.cmpCap
  | .compress => s.ctrl = t.ctrl ∧ s.srcLen = t.srcLen ∧ SameBytes 8192 s.src t.src ∧ s.cmpCap = t.cmpCap
  | .chunkMatch _ _ _ | .chunkMatchX _ _ _ | .chunkNoMatch _ | .chunkEnd _ =>
    s.ctrl.preserveHoles = t.ctrl.preserveHoles ∧ s.hid.ip = t.hid.ip ∧ s.hid.op = t.hid.op ∧
    SameBytes s.hid.op.toNat s.dec t.dec ∧ s.status = t.status ∧ s.errPos = t.errPos

/-- Two states agree on how the command completed, and, where it completed without error, on the operands it writes. -/
def WritesAgree (s t : State) : Instr → Prop
  | .nop => True
  | .load => s.wlen = t.wlen ∧ SameBytes s.wlen.toNat s.wrk t.wrk
  | .holeZero | .holePattern => SameBytes s.wlen.toNat s.wrk t.wrk
  | .matchCmd => s.matchLen = t.matchLen ∧ s.matchOff = t.matchOff
  | .encGreedy | .encOptimal =>
    s.cmpLen = t.cmpLen ∧ SameBytes s.cmpLen.toNat s.cmp t.cmp ∧ s.decLen = t.decLen ∧ SameBytes s.decLen.toNat s.dec t.dec
  | .decode => s.decLen = t.decLen ∧ s.inUsed = t.inUsed ∧ SameBytes s.decLen.toNat s.dec t.dec
  | .compress =>
    s.wlen = t.wlen ∧ SameBytes s.wlen.toNat s.wrk t.wrk ∧ s.cmpLen = t.cmpLen ∧ SameBytes s.cmpLen.toNat s.cmp t.cmp ∧
    s.decLen = t.decLen ∧ SameBytes s.decLen.toNat s.dec t.dec ∧ s.result = t.result ∧
    s.attSize0 = t.attSize0 ∧ s.attSize1 = t.attSize1 ∧ s.attSize2 = t.attSize2 ∧ s.attSize3 = t.attSize3
  | .chunkMatch _ _ _ | .chunkMatchX _ _ _ | .chunkNoMatch _ =>
    s.hid.ip = t.hid.ip ∧ s.hid.op = t.hid.op ∧ SameBytes s.hid.op.toNat s.dec t.dec
  | .chunkEnd _ => s.decLen = t.decLen ∧ s.inUsed = t.inUsed ∧ SameBytes s.decLen.toNat s.dec t.dec

/-- Two outcomes of a command agree: the same stop, or two next states with the same completion and the same results. -/
def OutcomesAgree (i : Instr) : Host.Outcome State Fault Refusal → Host.Outcome State Fault Refusal → Prop
  | .next s, .next t =>
    s.status.err = t.status.err ∧ s.status.errCode = t.status.errCode ∧ s.status.errDetail = t.status.errDetail ∧
    s.errPos = t.errPos ∧ (s.status.err = false → WritesAgree s t i)
  | .fault r, .fault q => r = q
  | _, _ => False

/-- What an instruction may change besides STATUS, EVENTS, ERR_POS, IN_USED, the engine and the hidden state (30_encoding.md R124,
20_memory.md R88): everything else is as it was. -/
def OnlyItsOperands (i : Instr) (s t : State) : Prop :=
  (t.ctrl = s.ctrl ∧ t.srcLen = s.srcLen ∧ t.pos = s.pos ∧ t.src = s.src ∧ t.cmpCap = s.cmpCap ∧ t.rst = s.rst ∧
    t.inputs = s.inputs ∧ t.rdata = s.rdata ∧ t.status.lastOpc = s.status.lastOpc ∧
    t.events.cmdRej = s.events.cmdRej ∧ t.events.hostErr = s.events.hostErr) ∧
  (i ≠ .load → i ≠ .holeZero → i ≠ .holePattern → i ≠ .compress → t.wrk = s.wrk) ∧
  (i ≠ .load → i ≠ .compress → t.wlen = s.wlen) ∧
  (i ≠ .matchCmd → t.matchLen = s.matchLen ∧ t.matchOff = s.matchOff) ∧
  (i ≠ .encGreedy → i ≠ .encOptimal → i ≠ .compress → t.cmp = s.cmp ∧ t.cmpLen = s.cmpLen) ∧
  (i ≠ .encGreedy → i ≠ .encOptimal → i ≠ .compress → i ≠ .decode → isCommand i = true → t.dec = s.dec ∧ t.decLen = s.decLen) ∧
  (i ≠ .compress → t.result = s.result ∧ t.attSize0 = s.attSize0 ∧ t.attSize1 = s.attSize1 ∧ t.attSize2 = s.attSize2 ∧
    t.attSize3 = s.attSize3)

end Sys2Proof.Machine
end

