-- ==== Sys2Proof/Certificates/Slice0/Obligations.lean ====
section
/-! DEFINITION. The statements for the provers: what the rules of spec/ say the instructions and the machine do. A statement that rests on a
choice of the model names the log entry in its docstring. -/

open Sys2Proof Sys2Proof.Machine

/-! ### Encodings -/

/-- Words and chunks written out from 30_encoding.md R121, R126 and R131 decode to what they stand for, and a reserved word is rejected by
name (R122, R123). -/
def Obligations.DecodesHandWrittenCodes : Prop :=
  decode (.cmdw 0x00000000) = .ok (.nop, []) ∧ decode (.cmdw 0x00000001) = .ok (.load, []) ∧
  decode (.cmdw 0x00000002) = .ok (.holeZero, []) ∧ decode (.cmdw 0x00000003) = .ok (.holePattern, []) ∧
  decode (.cmdw 0x00000004) = .ok (.matchCmd, []) ∧ decode (.cmdw 0x00000005) = .ok (.encGreedy, []) ∧
  decode (.cmdw 0x00000006) = .ok (.encOptimal, []) ∧ decode (.cmdw 0x00000007) = .ok (.decode, []) ∧
  decode (.cmdw 0x00000008) = .ok (.compress, []) ∧
  decode (.cmdw 0x00000009) = .error .opcode ∧ decode (.cmdw 0x00000109) = .error .rsvd ∧
  decode (.chunk [0x23, 0x41, 0x42, 0x34, 0x12]) = .ok (.chunkMatch [0x41, 0x42] 3 0x1234, []) ∧
  decode (.chunk [0x1F, 0x00, 0xEC, 0x00, 0x00]) = .ok (.chunkMatchX [0x00] 0xEC 0, []) ∧
  decode (.chunk [0x0F, 0xFD, 0x99]) = .ok (.chunkNoMatch [], [0x99]) ∧
  decode (.chunk [0x2F, 0x41, 0x42, 0xFE]) = .ok (.chunkEnd [0x41, 0x42], [])

/-- Every well-formed instruction decodes from its encoding, whatever bytes follow a chunk (30_encoding.md R121, R126 to R131). -/
def Obligations.EncodeDecodeRoundTrip : Prop :=
  ∀ i : Instr, i.wf = true →
    (∀ w, encode i = .cmdw w → decode (.cmdw w) = .ok (i, [])) ∧
    (∀ bs rest, encode i = .chunk bs → decode (.chunk (bs ++ rest)) = .ok (i, rest))

/-- Whatever decodes is well formed, and its encoding is exactly the code read: no bit is ignored, no two codes mean one instruction
(30_encoding.md R120, R128, R129). -/
def Obligations.DecodeIsExact : Prop :=
  (∀ w i rest, decode (.cmdw w) = .ok (i, rest) → i.wf = true ∧ encode i = .cmdw w ∧ rest = []) ∧
  (∀ bs i rest, decode (.chunk bs) = .ok (i, rest) → i.wf = true ∧ ∃ front, encode i = .chunk front ∧ bs = front ++ rest)

/-- 30_encoding.md R132: the length of a chunk from its bytes, and what fixes it. -/
def Obligations.ChunkLength : Prop :=
  ∀ (fb : Byte) (bs rest : List Byte) (c : Chunk), decodeChunk (fb :: bs) = .ok (c, rest) →
    (fb :: bs).length = 1 + (if fb.toNat / 16 = 15 then 1 else 0) + c.lits.length + (if fb.toNat % 16 = 15 then 1 else 0)
      + (if (matchOf c.tail).isSome then 2 else 0) + rest.length ∧
    (fb.toNat / 16 < 15 → c.lits.length = fb.toNat / 16) ∧
    (fb.toNat / 16 = 15 → ∃ lx, bs[0]? = some lx ∧ c.lits.length = 15 + lx.toNat) ∧
    (fb.toNat % 16 < 15 → ∃ off, c.tail = .matchShort (BitVec.ofNat 4 (fb.toNat % 16)) off) ∧
    (fb.toNat % 16 = 15 → ∃ mx : Byte, bs[(if fb.toNat / 16 = 15 then 1 else 0) + c.lits.length]? = some mx ∧
      (mx = 253 → c.tail = .noMatch) ∧ (mx = 254 → c.tail = .endOfData) ∧
      (mx ≠ 253 → mx ≠ 254 → ∃ off, c.tail = .matchLong mx off))

/-! ### Steps -/

/-- 40_control.md R173, 30_encoding.md R122 and R123: a reserved word completes with BAD_CMD, the reserved bits first; any other word runs
its command. -/
def Obligations.ReservedCommandWords : Prop :=
  ∀ (s : State) (w : Word), s.rst = false → s.inputs = [] →
    (s.accept w).status.lastOpc = w.extractLsb' 0 8 ∧
    (w.extractLsb' 8 24 ≠ 0 → ∃ h d, step (s.accept w) = .next ((s.accept w).finished 5 2 h d)) ∧
    (w.extractLsb' 8 24 = 0 → 9 ≤ (w.extractLsb' 0 8).toNat →
      ∃ h d, step (s.accept w) = .next ((s.accept w).finished 5 1 h d)) ∧
    (w.extractLsb' 8 24 = 0 → (w.extractLsb' 0 8).toNat < 9 →
      ∃ i, encode i = .cmdw w ∧ step (s.accept w) = exec i (s.accept w))

/-- A step of a busy engine runs the command its word decodes to (40_control.md R170, R173). The choice of who moves is the model's
(log 6). -/
def Obligations.StepRunsCommand : Prop :=
  ∀ (s : State) (w : Word) (i : Instr) (rest : List Byte),
    decode (.cmdw w) = .ok (i, rest) → s.engine = .busy w → s.rst = false →
    (s.inputs = [] → step s = exec i s) ∧
    (∀ xs, s.inputs = .engine :: xs → step s = exec i { s with inputs := xs })

/-- A step of a Decoder that stands between two chunks runs the chunk that the bytes at its input cursor decode to (46_decoder.md R301).
The chunk-by-chunk view of DECODE is the model's (log 7). -/
def Obligations.StepRunsChunk : Prop :=
  ∀ (s : State) (bs : List Byte) (i : Instr),
    decode (.chunk bs) = .ok (i, []) → s.engine = .decoding → s.rst = false →
    s.cmp.Holds s.hid.ip.toNat bs → s.hid.ip.toNat + bs.length ≤ s.cmpLen.toNat →
    (s.inputs = [] → step s = exec i s) ∧
    (∀ xs, s.inputs = .engine :: xs → step s = exec i { s with inputs := xs })

/-- An idle engine waits. Both clauses are the model's choice: that an idle engine asked to move leaves the state as it is (log 22, inferred
from 70_reset_and_hazards.md R403), and what a step with no input does (log 6). -/
def Obligations.IdleEngineWaits : Prop :=
  ∀ s : State, s.engine = .idle →
    (s.inputs = [] → step s = .next s) ∧ (∀ xs, s.inputs = .engine :: xs → step s = .next { s with inputs := xs })

/-- A DECODE taken chunk by chunk ends exactly as the DECODE in one step (20_memory.md R96, 46_decoder.md R301, R312, R315). The
chunk-by-chunk view is the model's (log 7). -/
def Obligations.StepwiseDecodeIsDecode : Prop :=
  ∀ s : State, s.engine = .busy 7 → s.rst = false → s.inputs = [] →
    Host.Core.run Sys2Proof.core (s.cmpLen.toNat + 2) ({ s with inputs := [.beginDecode] } : State) = exec .decode s

/-- A host write to CMD is rejected while BUSY = 1 and accepted otherwise (40_control.md R170). -/
def Obligations.CommandIssue : Prop :=
  ∀ (s : State) (w : Word) (xs : List Input), s.rst = false → s.inputs = .host (.write 0x10 4 w) :: xs →
    (s.status.busy = true → step s = .next { s with inputs := xs, events := { s.events with cmdRej := true } }) ∧
    (s.status.busy = false → step s = .next { s with
      inputs := xs, engine := .busy w
      status := { busy := true, done := false, err := false, errCode := 0, errDetail := 0, lastOpc := w.extractLsb' 0 8 } })

/-! ### Reset and the host port -/

/-- 70_reset_and_hazards.md R401: the state after reset, from any state. -/
def Obligations.ResetValues : Prop :=
  State.reset.AtReset ∧ State.reset.rst = false ∧
  ∀ (s : State) (xs : List Input), s.inputs = .rst true :: xs →
    ∃ t, step s = .next t ∧ t.AtReset ∧ t.rst = true ∧ t.cmpCap = s.cmpCap ∧ t.inputs = xs

/-- While the reset pin is asserted, host writes are ignored, host reads return an unspecified value and the engine does not move; the pin's
release changes nothing else (70_reset_and_hazards.md R400). -/
def Obligations.ResetHeld : Prop :=
  ∀ (s : State) (x : Input) (xs : List Input), s.rst = true → s.inputs = x :: xs →
    (∀ addr size w, x = .host (.write addr size w) ∨ x = .sameCycle (.write addr size w) → step s = .next { s with inputs := xs }) ∧
    (∀ addr size, x = .host (.read addr size) ∨ x = .sameCycle (.read addr size) →
      ∃ v d, step s = .next { s with inputs := xs, rdata := v, draws := d }) ∧
    (x = .engine ∨ x = .beginDecode → step s = .next { s with inputs := xs }) ∧
    (x = .rst false → step s = .next { s with inputs := xs, rst := false })

/-- With the engine idle, a host read of a register returns the number its fields make, reserved bits 0, and changes nothing
(10_state.md R32 to R50, 20_memory.md R87); a read of CMD returns 0 while BUSY too (R32, R37). That R52 does not make it unspecified then
is the model's reading (log 10), and the field that holds the data read is the model's (log 12). -/
def Obligations.RegisterReads : Prop :=
  ∀ (s : State) (xs : List Input) (e : Nat × Nat), s.rst = false → s.status.busy = false ∨ e.1 = 0x010 → e ∈ registerTable s →
    s.inputs = .host (.read (BitVec.ofNat 20 e.1) 4) :: xs →
    step s = .next { s with inputs := xs, rdata := BitVec.ofNat 32 e.2 }

/-- With the engine idle, a host write to a RW register stores its defined bits, and a write to a read-only register does nothing
(10_state.md R32, R35, R39 to R41, R43). -/
def Obligations.RegisterWrites : Prop :=
  ∀ (s : State) (w : Word) (off : Nat) (xs : List Input), s.rst = false → s.status.busy = false →
    s.inputs = .host (.write (BitVec.ofNat 20 off) 4 w) :: xs →
    (off = 0x008 → step s = .next { s with inputs := xs
                                           ctrl := { preserveHoles := w.getLsbD 0, greedyEn := w.getLsbD 1, optimalEn := w.getLsbD 2
                                                     zeroEn := w.getLsbD 3, patternEn := w.getLsbD 4, irqEn := w.getLsbD 8 } }) ∧
    (off = 0x018 → step s = .next { s with inputs := xs, srcLen := w.extractLsb' 0 14 }) ∧
    (off = 0x01C → step s = .next { s with inputs := xs, wlen := w.extractLsb' 0 14 }) ∧
    (off = 0x020 → step s = .next { s with inputs := xs, cmpLen := w.extractLsb' 0 17 }) ∧
    (off = 0x028 → step s = .next { s with inputs := xs, pos := w.extractLsb' 0 14 }) ∧
    (off ∈ [0x000, 0x004, 0x00C, 0x024, 0x02C, 0x030, 0x034, 0x038, 0x03C, 0x040, 0x044, 0x048, 0x04C, 0x050] →
      step s = .next { s with inputs := xs })

/-- 10_state.md R52: register accesses while BUSY = 1. What a read of CMD returns then is in RegisterReads. -/
def Obligations.BusyRegisterAccess : Prop :=
  ∀ (s : State) (w : Word) (e : Nat × Nat) (xs : List Input), s.rst = false → s.status.busy = true → e ∈ registerTable s →
    (s.inputs = .host (.write (BitVec.ofNat 20 e.1) 4 w) :: xs →
      (e.1 ∈ [0x008, 0x018, 0x01C, 0x020, 0x028] → step s = .next { s with inputs := xs, events := { s.events with hostErr := true } }) ∧
      (e.1 = 0x010 → step s = .next { s with inputs := xs, events := { s.events with cmdRej := true } }) ∧
      (e.1 = 0x014 → step s = .next { s with inputs := xs, events := { doneEv := s.events.doneEv && !w.getLsbD 0
                                                                       cmdRej := s.events.cmdRej && !w.getLsbD 1
                                                                       hostErr := s.events.hostErr && !w.getLsbD 2 } }) ∧
      (e.1 ∉ [0x008, 0x018, 0x01C, 0x020, 0x028, 0x010, 0x014] → step s = .next { s with inputs := xs })) ∧
    (s.inputs = .host (.read (BitVec.ofNat 20 e.1) 4) :: xs →
      (e.1 ∈ busyReadable → step s = .next { s with inputs := xs, rdata := BitVec.ofNat 32 e.2 }) ∧
      (e.1 ∉ busyReadable → ∃ v d, step s = .next { s with inputs := xs, rdata := v, draws := d }))

/-- A host write of w to EVENTS clears every defined bit i with w[i] = 1 and no other, while BUSY or not (10_state.md R38, R52). -/
def Obligations.EventsAreWriteOneToClear : Prop :=
  ∀ (s : State) (w : Word) (xs : List Input), s.rst = false → s.inputs = .host (.write 0x14 4 w) :: xs →
    ∃ e : Events, step s = .next { s with inputs := xs, events := e } ∧
      (e.doneEv = true ↔ s.events.doneEv = true ∧ w.getLsbD 0 = false) ∧
      (e.cmdRej = true ↔ s.events.cmdRej = true ∧ w.getLsbD 1 = false) ∧
      (e.hostErr = true ↔ s.events.hostErr = true ∧ w.getLsbD 2 = false)

/-- 20_memory.md R93: what a refused access does; and an access that is not refused raises no HOST_ERR. -/
def Obligations.RefusedAccesses : Prop :=
  ∀ (s : State) (addr : BitVec 20) (size : Nat) (w : Word) (xs : List Input), s.rst = false → s.CapInRange →
    (s.inputs = .host (.write addr size w) :: xs →
      (¬ accessAllowed s addr.toNat size ∨
        (s.status.busy = true ∧ size = 4 ∧ addr.toNat ∈ [0x008, 0x018, 0x01C, 0x020, 0x028]) →
        step s = .next { s with inputs := xs, events := { s.events with hostErr := true } }) ∧
      (accessAllowed s addr.toNat size → s.status.busy = false →
        ∃ t, step s = .next t ∧ (t.events.hostErr = true → s.events.hostErr = true))) ∧
    (s.inputs = .host (.read addr size) :: xs →
      (¬ accessAllowed s addr.toNat size →
        ∃ v d, step s = .next { s with inputs := xs, rdata := v, draws := d, events := { s.events with hostErr := true } }) ∧
      (accessAllowed s addr.toNat size → ∃ v d, step s = .next { s with inputs := xs, rdata := v, draws := d }))

/-- Byte A + k of a memory window is bits [8k+7:8k] of the data, for every access size (20_memory.md R82). That the bits above a 1-byte or
2-byte read are zero is the model's choice (log 12). -/
def Obligations.MemoryByteOrder : Prop :=
  ∀ (s : State) (b : Buf) (base idx size : Nat) (w : Word) (bs : List Byte) (xs : List Input),
    s.rst = false → s.status.busy = false → s.CapInRange →
    (b, base) ∈ [(Buf.src, 0x10000), (Buf.wrk, 0x20000), (Buf.cmp, 0x30000), (Buf.dec, 0x40000)] →
    size = 1 ∨ size = 2 ∨ size = 4 → idx % size = 0 → idx + size ≤ (if b = .cmp then s.cmpCap else 8192) →
    (s.inputs = .host (.write (BitVec.ofNat 20 (base + idx)) size w) :: xs →
      ∃ m, step s = .next (State.setBuf b m { s with inputs := xs }) ∧
        ∀ a, m.read a = if idx ≤ a ∧ a < idx + size then some (w.extractLsb' (8 * (a - idx)) 8) else (s.buf b).read a) ∧
    (s.inputs = .host (.read (BitVec.ofNat 20 (base + idx)) size) :: xs → bs.length = size → (s.buf b).Holds idx bs →
      ∃ v d, step s = .next { s with inputs := xs, rdata := v, draws := d } ∧
        v.toNat < 256 ^ size ∧ ∀ k, k < size → bs[k]? = some (v.extractLsb' (8 * k) 8))

/-- A reserved register offset reads 0, and a write to it is ignored and sets no event flag (10_state.md R51). That this holds while BUSY = 1
too is the model's choice (log 11), against R52's words on any other register. -/
def Obligations.ReservedOffsets : Prop :=
  ∀ (s : State) (off : Nat) (w : Word) (xs : List Input), s.rst = false → 0x054 ≤ off → off ≤ 0x0FC → off % 4 = 0 →
    (s.inputs = .host (.read (BitVec.ofNat 20 off) 4) :: xs → step s = .next { s with inputs := xs, rdata := 0 }) ∧
    (s.inputs = .host (.write (BitVec.ofNat 20 off) 4 w) :: xs → step s = .next { s with inputs := xs })

/-- 10_state.md R54: the interrupt output. -/
def Obligations.InterruptOutput : Prop :=
  (∀ s : State, s.irq = true ↔ s.ctrl.irqEn = true ∧ s.events.doneEv = true) ∧
  (∀ (s : State) (c h : Bool), ({ s with events := { s.events with cmdRej := c, hostErr := h } } : State).irq = s.irq) ∧
  (∀ (s : State) (w : Word) (xs : List Input), s.rst = false → s.inputs = .host (.write 0x14 4 w) :: xs → w.getLsbD 0 = true →
    ∃ t, step s = .next t ∧ t.irq = false) ∧
  (∀ (s : State) (w : Word) (xs : List Input), s.rst = false → s.status.busy = false → s.inputs = .host (.write 0x8 4 w) :: xs →
    w.getLsbD 8 = false → ∃ t, step s = .next t ∧ t.irq = false) ∧
  State.reset.irq = false

/-- A host write against the completion of a command (60_exceptions.md R367, 10_state.md R38): a CMD write before it is rejected, one after
it is accepted, and a clear of DONE_EV in the same cycle leaves DONE_EV set. -/
def Obligations.HostAgainstCompletion : Prop :=
  ∀ (s : State) (w v : Word) (i : Instr) (rest : List Byte) (xs : List Input),
    decode (.cmdw w) = .ok (i, rest) → s.engine = .busy w → s.status.busy = true → s.rst = false →
    (s.inputs = .host (.write 0x10 4 v) :: .engine :: xs →
      ∃ t, step s = .next t ∧ t.events.cmdRej = true ∧ step t = exec i { s with inputs := xs, events := t.events }) ∧
    (∀ t, s.inputs = .engine :: .host (.write 0x10 4 v) :: xs → step s = .next t →
      ∃ u, step t = .next u ∧ u.engine = .busy v ∧ u.events = t.events ∧ u.inputs = xs) ∧
    (∀ t, s.inputs = .sameCycle (.write 0x14 4 v) :: xs → step s = .next t →
      t.events.doneEv = true ∧ (t.events.cmdRej = true ↔ s.events.cmdRej = true ∧ v.getLsbD 1 = false))

/-- While a command runs, no host transaction changes anything but EVENTS (20_memory.md R96, 70_reset_and_hazards.md R410, R418). -/
def Obligations.BusyHostDisturbsNothing : Prop :=
  ∀ (s : State) (op : HostOp) (xs : List Input), s.rst = false → s.status.busy = true → s.inputs = .host op :: xs →
    ∃ t, step s = .next t ∧
      t = { s with inputs := xs, events := t.events, rdata := t.rdata, draws := t.draws }

/-! ### NOP and LOAD -/

/-- 40_control.md R171. -/
def Obligations.NopCompletes : Prop :=
  decode (.cmdw 0x00000000) = .ok (.nop, []) ∧
  ∀ s : State, ∃ h d, exec .nop s = .next (s.finished 0 0 h d) ∧
    (s.status.lastOpc = 0 → (0x00C, 0x00000002) ∈ registerTable (s.finished 0 0 h d))

/-- 40_control.md R172: LOAD's result, its error, and the bytes that must be defined. -/
def Obligations.LoadMeaning : Prop :=
  decode (.cmdw 0x00000001) = .ok (.load, []) ∧
  ∀ s : State,
    let len := s.srcLen.toNat
    let n := if s.ctrl.preserveHoles = true then 8192 else 8184
    (len < 8184 ∨ 8192 < len → ∃ h d, exec .load s = .next (s.finished 3 1 h d)) ∧
    (8184 ≤ len → len ≤ 8192 →
      (s.src.DefinedOn 0 (min n len) → ∃ h d m, exec .load s = .next { s.finished 0 0 h d with wrk := m, wlen := BitVec.ofNat 14 n } ∧
        ∀ a, m.read a = if a < n then (if a < len then s.src.read a else some 0) else s.wrk.read a) ∧
      (¬ s.src.DefinedOn 0 (min n len) → exec .load s = .fault .uninitRead))

/-! ### The hole commands -/

/-- 41_hole_processor.md R191 and R192: HOLE_ZERO's result and errors. -/
def Obligations.HoleZeroMeaning : Prop :=
  decode (.cmdw 0x00000002) = .ok (.holeZero, []) ∧
  ∀ s : State,
    (8192 < s.wlen.toNat → ∃ h d, exec .holeZero s = .next (s.finished 6 2 h d)) ∧
    (s.wlen.toNat < 128 → ∃ h d, exec .holeZero s = .next (s.finished 6 3 h d)) ∧
    (128 ≤ s.wlen.toNat → s.wlen.toNat ≤ 8192 → ∃ h d m, exec .holeZero s = .next { s.finished 0 0 h d with wrk := m } ∧
      ∀ p, (InHole s.wlen.toNat p → m.read p = some 0) ∧ (¬ InHole s.wlen.toNat p → m.read p = s.wrk.read p))

/-- HOLE_PATTERN's result by the closed form, and its errors (41_hole_processor.md R193, R194). Which bytes must be defined, and so where it
stops, is the model's reading (log 8): the 2 before each hole, and the 4 after it where the buffer has 4 there, even where fewer settle the
test of R194. -/
def Obligations.HolePatternMeaning : Prop :=
  decode (.cmdw 0x00000003) = .ok (.holePattern, []) ∧
  ∀ s : State,
    (8192 < s.wlen.toNat → ∃ h d, exec .holePattern s = .next (s.finished 6 2 h d)) ∧
    (s.wlen.toNat < 128 → ∃ h d, exec .holePattern s = .next (s.finished 6 3 h d)) ∧
    (128 ≤ s.wlen.toNat → s.wlen.toNat ≤ 8192 →
      (PatternBytesDefined s.wrk s.wlen.toNat → ∃ h d m, exec .holePattern s = .next { s.finished 0 0 h d with wrk := m } ∧
        ∀ p, (InHole s.wlen.toNat p → m.read p = patternByte s.wlen.toNat (p / 128) p s.wrk.read) ∧
          (¬ InHole s.wlen.toNat p → m.read p = s.wrk.read p)) ∧
      (¬ PatternBytesDefined s.wrk s.wlen.toNat → exec .holePattern s = .fault .uninitRead))

/-- 41_hole_processor.md R196: a second application is a no-op. -/
def Obligations.HoleFillsAreIdempotent : Prop :=
  ∀ (n : Nat) (m x : Memory), m.wf →
    zeroFill n (zeroFill n m) = zeroFill n m ∧ (patternFill n m = some x → patternFill n x = some x)

/-- The holes may be processed in any order (41_hole_processor.md R195). -/
def Obligations.HolesInAnyOrder : Prop :=
  ∀ (n : Nat) (m : Memory) (order : List Nat), m.wf → order.Perm (List.range (holeCount n)) →
    order.foldl (fun acc k => acc.writeBytes (holeBegin k) (List.replicate (holeEnd n k - holeBegin k) 0)) m = zeroFill n m ∧
    order.foldl (fun acc k => acc.bind (patternHole n (holeBegin k) (holeEnd n k))) (some m) = patternFill n m

/-! ### MATCH -/

/-- 42_match_finder.md R211: MATCH's result, by the closed form of R212, and its errors. -/
def Obligations.MatchMeaning : Prop :=
  decode (.cmdw 0x00000004) = .ok (.matchCmd, []) ∧
  ∀ s : State,
    let n := s.wlen.toNat
    let pos := s.pos.toNat
    (8192 < n → ∃ h d, exec .matchCmd s = .next (s.finished 6 2 h d)) ∧
    (n ≤ 8192 → n ≤ pos → ∃ h d, exec .matchCmd s = .next (s.finished 6 1 h d)) ∧
    (n ≤ 8192 → pos < n → ∀ b : List Byte, b.length = n → s.wrk.Holds 0 b →
      ∃ h d l o, LongestMatch b pos l o ∧ l ≤ 255 ∧ o ≤ 8191 ∧
        exec .matchCmd s = .next { s.finished 0 0 h d with matchLen := BitVec.ofNat 8 l, matchOff := BitVec.ofNat 13 o }) ∧
    (n ≤ 8192 → 0 < n → pos = 0 → ∃ h d, exec .matchCmd s = .next { s.finished 0 0 h d with matchLen := 0, matchOff := 0 })

/-- A MATCH that completes on a buffer with undefined bytes gives what it would give whatever those bytes were, and it stops only where a
byte of WRK[0..n) is undefined (42_match_finder.md R216, 20_memory.md R86; log 21). -/
def Obligations.MatchReadsOnlyDefinedBytes : Prop :=
  ∀ s : State, s.wlen.toNat ≤ 8192 → s.pos.toNat < s.wlen.toNat →
    (∀ (t : State) (b : List Byte), exec .matchCmd s = .next t → b.length = s.wlen.toNat →
      (∀ a v, a < b.length → s.wrk.read a = some v → b[a]? = some v) →
      LongestMatch b s.pos.toNat t.matchLen.toNat t.matchOff.toNat) ∧
    (∀ r, exec .matchCmd s = .fault r → ¬ s.wrk.DefinedOn 0 s.wlen.toNat)

/-- 42_match_finder.md R212 and R215: the search gives the closed form, which fixes its result, and the ranges it lies in. -/
def Obligations.MatchFinderResult : Prop :=
  ∀ (b : List Byte) (pos : Nat), pos < b.length →
    LongestMatch b pos (findLongestMatch b pos).1 (findLongestMatch b pos).2 ∧
    ∀ l o, LongestMatch b pos l o →
      findLongestMatch b pos = (l, o) ∧ l ≤ min 255 (b.length - pos) ∧ (0 < l → o < pos) ∧ (l = 0 → o = 0) ∧ o + l < b.length

/-! ### The encoders -/

/-- ENC_GREEDY completes on every defined buffer of a legal length: CMP holds its stream, at most 100 bytes longer than the input, and the
verification has left the input in DEC (43_greedy_parser.md R231, R234, 45_token_writer.md R288, 47_compress.md R340). -/
def Obligations.EncGreedyCompletes : Prop :=
  ∀ (s : State) (b : List Byte), s.CapInRange → 8184 ≤ b.length → b.length ≤ 8192 → s.wlen.toNat = b.length → s.wrk.Holds 0 b →
    (greedyParse b).length ≤ b.length + 100 ∧
    ∃ h d c e, s.cmp.Overwritten (greedyParse b) c ∧ s.dec.Overwritten b e ∧
      exec .encGreedy s = .next { s.finished 0 0 h d with
        cmp := c, cmpLen := BitVec.ofNat 17 (greedyParse b).length, dec := e, decLen := BitVec.ofNat 14 b.length }

/-- The same of ENC_OPTIMAL (44_optimal_parser.md R251, R261). -/
def Obligations.EncOptimalCompletes : Prop :=
  ∀ (s : State) (b : List Byte), s.CapInRange → 8184 ≤ b.length → b.length ≤ 8192 → s.wlen.toNat = b.length → s.wrk.Holds 0 b →
    (optimalParse b).length ≤ b.length + 100 ∧
    ∃ h d c e, s.cmp.Overwritten (optimalParse b) c ∧ s.dec.Overwritten b e ∧
      exec .encOptimal s = .next { s.finished 0 0 h d with
        cmp := c, cmpLen := BitVec.ofNat 17 (optimalParse b).length, dec := e, decLen := BitVec.ofNat 14 b.length }

/-- An encoder refuses a length outside [8184, 8192] before any write, and stops where a byte of WRK[0..n) is undefined
(43_greedy_parser.md R231, 44_optimal_parser.md R251, 42_match_finder.md R216). -/
def Obligations.EncoderInputErrors : Prop :=
  ∀ (s : State) (i : Instr), i = .encGreedy ∨ i = .encOptimal →
    (s.wlen.toNat < 8184 ∨ 8192 < s.wlen.toNat → ∃ h d, exec i s = .next (s.finished 3 2 h d)) ∧
    (8184 ≤ s.wlen.toNat → s.wlen.toNat ≤ 8192 → ¬ s.wrk.DefinedOn 0 s.wlen.toNat → exec i s = .fault .uninitRead)

/-- The greedy stream is what the greedy decisions serialize to: the longest match wherever it is usable, a literal elsewhere, each literal
run as the pseudo-instruction `literals` (43_greedy_parser.md R230, 45_token_writer.md R284, 30_encoding.md R137). -/
def Obligations.GreedyDecisions : Prop :=
  ∀ b : List Byte, ∃ ts, GreedyTokens b 0 ts ∧ greedyParse b = streamBytes (chunksOf [] ts)

/-- The optimal table meets the recurrence, and the optimal stream is what its decisions serialize to (44_optimal_parser.md R250 to R256). -/
def Obligations.OptimalDecisions : Prop :=
  ∀ b : List Byte, OptTable b (optimalTable b) ∧
    ∃ ts, OptimalTokens b (optimalTable b) 0 ts ∧ optimalParse b = streamBytes (chunksOf [] ts)

/-- 44_optimal_parser.md R257: the stream's size is the cost of position 0, and 3. -/
def Obligations.CostEqualsSize : Prop :=
  ∀ b : List Byte, ∃ nd, (optimalTable b)[0]? = some nd ∧ (optimalParse b).length = nd.totalCost + 3

/-- The cost bound of 44_optimal_parser.md R255, and the ranges of 10_state.md R59, of the numbers the recurrence gives. -/
def Obligations.OptEntriesFit : Prop :=
  ∀ (b : List Byte) (i : Nat) (nd : OptEntry), i < b.length → (optimalTable b)[i]? = some nd →
    nd.totalCost ≤ (b.length - i) + 1 + 3 * ((b.length - i - 1) / 255) ∧
    (nd.matchLength = 0 → nd.matchOffset = 0 ∧ 1 ≤ nd.literalRunLength ∧ nd.literalRunLength ≤ 255) ∧
    (nd.matchLength ≠ 0 → 4 ≤ nd.matchLength ∧ nd.matchLength ≤ 255 ∧ nd.literalRunLength = 0 ∧ nd.matchOffset < i)

/-- 45_token_writer.md R288: the expansion bound, whatever the parser's choices. -/
def Obligations.ExpansionBound : Prop :=
  ∀ ts : List Token, (∀ l o, Token.copy l o ∈ ts → 4 ≤ l ∧ l ≤ 255) →
    let n := (ts.map Token.size).sum
    (n = 0 → (streamBytes (chunksOf [] ts)).length = 3) ∧
    (1 ≤ n → (streamBytes (chunksOf [] ts)).length ≤ n + 1 + 3 * ((n - 1) / 255) + 3) ∧
    (n = 8192 ∨ n = 8184 → (streamBytes (chunksOf [] ts)).length ≤ n + 100)

/-- 45_token_writer.md R289: the stream and its size where no position has a usable match. -/
def Obligations.NoUsableMatchStream : Prop :=
  ∀ b : List Byte, 1 ≤ b.length → NoUsableMatch b →
    let n := b.length
    let q := (n - 1) / 255
    let r := n - 255 * q
    greedyParse b = streamBytes (literals b .endOfData) ∧ optimalParse b = greedyParse b ∧
    1 ≤ r ∧ r ≤ 255 ∧
    (∃ last, literals b .endOfData = (List.range q).map (fun k => ⟨(b.drop (255 * k)).take 255, .noMatch⟩) ++ [⟨last, .endOfData⟩] ∧
      last.length = r) ∧
    (greedyParse b).length = 1 + 258 * q + (r + 2 + (if 15 ≤ r then 1 else 0)) ∧
    (greedyParse b).length = n + 3 * ((n + 254) / 255) + (if 15 ≤ r then 1 else 0)

/-- Both parsers' streams keep the stream invariants (45_token_writer.md R286, 43_greedy_parser.md R233, 44_optimal_parser.md R261). -/
def Obligations.ParserStreamInvariants : Prop :=
  ∀ b : List Byte, b.length ≤ 8192 →
    (∃ cs, greedyParse b = streamBytes cs ∧ StreamOk b.length 0 cs) ∧
    (∃ cs, optimalParse b = streamBytes cs ∧ StreamOk b.length 0 cs)

/-! ### The Decoder -/

/-- DECODE of a stream whose chunks replay to `out` completes with exactly that output, whatever stands in CMP behind the end chunk and in
DEC before (46_decoder.md R300 to R307, R311, R313). -/
def Obligations.DecodeReplaysChunks : Prop :=
  ∀ (s : State) (cs : List Chunk) (out : List Byte), (∀ c ∈ cs, c.wf = true) → replay s.ctrl.capacity cs [] = some out →
    s.cmp.Holds 0 (streamBytes cs) → (streamBytes cs).length ≤ s.cmpLen.toNat → s.cmpLen.toNat ≤ s.cmpCap →
    ∃ h d m, s.dec.Overwritten out m ∧
      exec .decode s = .next { s.finished 0 0 h d with
        dec := m, decLen := BitVec.ofNat 14 out.length, inUsed := BitVec.ofNat 17 (streamBytes cs).length }

/-- The checks of DECODE before its first chunk (46_decoder.md R300, R301, R310). -/
def Obligations.DecodeStartErrors : Prop :=
  ∀ s : State,
    (s.cmpCap < s.cmpLen.toNat → ∃ h d, exec .decode s = .next (s.finished 6 4 h d)) ∧
    (s.cmpLen.toNat = 0 → ∃ t, exec .decode s = .next t ∧ s.DecodeFailed 1 1 0 t) ∧
    (0 < s.cmpLen.toNat → s.cmpLen.toNat ≤ s.cmpCap →
      (∀ v, s.cmp.read 0 = some v → v ≠ 0x66 → ∃ t, exec .decode s = .next t ∧ s.DecodeFailed 1 2 0 t) ∧
      (s.cmp.read 0 = none → exec .decode s = .fault .uninitRead))

/-- 46_decoder.md R312: all or nothing. A DECODE that completes has either written DEC[0..DEC_LEN) in full and nothing above, or fails and
leaves DEC[0..cap) undefined; with CMP_LEN past CMP_CAP it leaves DEC and DEC_LEN alone. -/
def Obligations.DecodeAllOrNothing : Prop :=
  ∀ s t : State, exec .decode s = .next t →
    (t.status.err = false ∧ t.errPos = 0 ∧ t.decLen.toNat ≤ s.ctrl.capacity ∧ t.dec.DefinedOn 0 t.decLen.toNat ∧
      (∀ a, t.decLen.toNat ≤ a → t.dec.read a = s.dec.read a) ∧ 3 ≤ t.inUsed.toNat ∧ t.inUsed.toNat ≤ s.cmpLen.toNat) ∨
    (t.status.err = true ∧ t.status.errCode = 6 ∧ t.status.errDetail = 4 ∧ s.cmpCap < s.cmpLen.toNat ∧
      t.dec = s.dec ∧ t.decLen = s.decLen ∧ t.inUsed = 0 ∧ t.errPos = 0) ∨
    (t.status.err = true ∧ (t.status.errCode = 1 ∨ t.status.errCode = 2) ∧ t.errPos.toNat ≤ s.cmpLen.toNat ∧
      s.DecodeFailed t.status.errCode t.status.errDetail t.errPos.toNat t)

/-- DECODE completes on every defined stream, whatever its bytes (46_decoder.md R315, 70_reset_and_hazards.md R420). -/
def Obligations.DecodeAlwaysCompletes : Prop :=
  ∀ s : State, s.cmp.DefinedOn 0 s.cmpLen.toNat ∨ s.cmpCap < s.cmpLen.toNat →
    ∃ t, exec .decode s = .next t ∧ t.status.done = true ∧ t.engine = .idle ∧ t.inUsed.toNat ≤ s.cmpLen.toNat

/-- A chunk that the declared length cuts short: which read fails, and ERR_POS (46_decoder.md R302, R308, R310). -/
def Obligations.TruncatedChunk : Prop :=
  ∀ (s : State) (c : Chunk), c.wf = true → s.engine = .decoding → s.rst = false → s.inputs = [] →
    let ip := s.hid.ip.toNat
    let left := s.cmpLen.toNat - ip
    let run := c.lits.length
    let head := headBytes run
    ip ≤ s.cmpLen.toNat → left < (encodeChunk c).length → s.cmp.Holds ip ((encodeChunk c).take left) →
    (left = 0 → ∃ t, step s = .next t ∧ s.DecodeFailed 2 1 s.cmpLen.toNat t) ∧
    (left = 1 → 15 ≤ run → ∃ t, step s = .next t ∧ s.DecodeFailed 2 2 s.cmpLen.toNat t) ∧
    (head ≤ left → left < head + run → ∃ t, step s = .next t ∧ s.DecodeFailed 2 3 (ip + head) t) ∧
    (head + run ≤ left →
      (s.ctrl.capacity < s.hid.op.toNat + run → ∃ t, step s = .next t ∧ s.DecodeFailed 2 4 (ip + head) t) ∧
      (s.hid.op.toNat + run ≤ s.ctrl.capacity →
        ((∃ mn off, c.tail = .matchShort mn off) ∨ head + run < left → ∃ t, step s = .next t ∧ s.DecodeFailed 2 6 s.cmpLen.toNat t) ∧
        ((∀ mn off, c.tail ≠ .matchShort mn off) → left = head + run → ∃ t, step s = .next t ∧ s.DecodeFailed 2 5 s.cmpLen.toNat t)))

/-- The bounds checks of a chunk, in order, with ERR_POS (46_decoder.md R302, R309, R310). -/
def Obligations.ChunkBoundsChecks : Prop :=
  ∀ (s : State) (c : Chunk), c.wf = true →
    let ip := s.hid.ip.toNat
    let out := s.hid.op.toNat + c.lits.length
    (s.ctrl.capacity < out → ∃ t, exec c.toInstr s = .next t ∧ s.DecodeFailed 2 4 (ip + headBytes c.lits.length) t) ∧
    (out ≤ s.ctrl.capacity → ∀ m off, matchOf c.tail = some (m, off) →
      (out ≤ off → ∃ t, exec c.toInstr s = .next t ∧ s.DecodeFailed 2 7 (ip + (encodeChunk c).length) t) ∧
      (off < out → s.ctrl.capacity < off + m →
        ∃ t, exec c.toInstr s = .next t ∧ s.DecodeFailed 2 8 (ip + (encodeChunk c).length) t) ∧
      (off < out → off + m ≤ s.ctrl.capacity → s.ctrl.capacity < out + m →
        ∃ t, exec c.toInstr s = .next t ∧ s.DecodeFailed 2 9 (ip + (encodeChunk c).length) t))

/-- CHUNK_MATCH and CHUNK_MATCHX: the literal run, then the overlapping copy by its closed form, the cursors moved, nothing else changed
(46_decoder.md R302 to R304, R309, R311, R313). -/
def Obligations.ChunkMatchCompletes : Prop :=
  ∀ (s : State) (i : Instr) (lits : List Byte) (m off tailBytes : Nat),
    (∃ mn o, i = .chunkMatch lits mn o ∧ m = mn.toNat + 4 ∧ off = o.toNat ∧ tailBytes = 2) ∨
      (∃ mx o, i = .chunkMatchX lits mx o ∧ m = mx.toNat + 19 ∧ off = o.toNat ∧ tailBytes = 3) →
    let op := s.hid.op.toNat
    let out := op + lits.length
    off < out → out + m ≤ s.ctrl.capacity → s.dec.DefinedOn off (op - off) →
    ∃ x, exec i s = .next { s with
        dec := x
        hid := { s.hid with ip := BitVec.ofNat 17 (s.hid.ip.toNat + headBytes lits.length + lits.length + tailBytes)
                            op := BitVec.ofNat 14 (out + m) } } ∧
      (∀ a, a < op ∨ out + m ≤ a → x.read a = s.dec.read a) ∧
      (∀ k, k < lits.length → x.read (op + k) = lits[k]?) ∧
      (∀ k, k < m → x.read (out + k) = x.read (off + k % (out - off)))

/-- CHUNK_NOMATCH copies its literal run and goes on; CHUNK_END copies its run and completes DECODE (46_decoder.md R300, R302, R305, R306,
60_exceptions.md R370). -/
def Obligations.ChunkNoMatchAndEndComplete : Prop :=
  ∀ (s : State) (lits : List Byte), s.hid.op.toNat + lits.length ≤ s.ctrl.capacity →
    ∃ x, (∀ a, x.read a = if s.hid.op.toNat ≤ a ∧ a < s.hid.op.toNat + lits.length then lits[a - s.hid.op.toNat]? else s.dec.read a) ∧
      exec (.chunkNoMatch lits) s = .next { s with
        dec := x
        hid := { s.hid with ip := BitVec.ofNat 17 (s.hid.ip.toNat + headBytes lits.length + lits.length + 1)
                            op := BitVec.ofNat 14 (s.hid.op.toNat + lits.length) } } ∧
      ∃ h d, exec (.chunkEnd lits) s = .next { s.finished 0 0 h d with
        dec := x, decLen := BitVec.ofNat 14 (s.hid.op.toNat + lits.length)
        inUsed := BitVec.ofNat 17 (s.hid.ip.toNat + headBytes lits.length + lits.length + 1) }

/-- An encode followed at once by DECODE gives the encoder's input back where the capacity allows it, and fails with OVERRUN(4), (8) or (9)
where the mode is the shorter one (70_reset_and_hazards.md R417, R419, 46_decoder.md R314). -/
def Obligations.EncodeThenDecode : Prop :=
  ∀ (s : State) (i : Instr), i = .encGreedy ∨ i = .encOptimal → s.CapInRange → 8184 ≤ s.wlen.toNat → s.wlen.toNat ≤ 8192 →
    s.wrk.DefinedOn 0 s.wlen.toNat →
    ∃ t u, exec i s = .next t ∧ exec .decode t = .next u ∧
      (s.wlen.toNat ≤ s.ctrl.capacity →
        u.status.err = false ∧ u.decLen.toNat = s.wlen.toNat ∧ u.inUsed = t.cmpLen ∧ SameBytes s.wlen.toNat u.dec s.wrk) ∧
      (s.ctrl.capacity < s.wlen.toNat →
        u.status.errCode = 2 ∧ (u.status.errDetail = 4 ∨ u.status.errDetail = 8 ∨ u.status.errDetail = 9))

/-! ### COMPRESS -/

/-- COMPRESS completes on every defined buffer of a legal length with a slot enabled: the winner is the smallest stream, the earliest of
equals, and the final state is the winner's (47_compress.md R342 to R346, R350). -/
def Obligations.CompressCompletes : Prop :=
  ∀ (s : State) (raw : List Byte), s.CapInRange → 8184 ≤ s.srcLen.toNat → s.srcLen.toNat ≤ 8192 → RawBuffer s raw →
    (∃ k, SlotRuns s.ctrl k) →
    let n := s.ctrl.capacity
    let variant := fun k => variantBytes s.ctrl.preserveHoles k raw
    let stream := fun k => slotStream s.ctrl.preserveHoles raw k
    ∃ best h d w c e, ∃ z : Nat → BitVec 17,
      SlotRuns s.ctrl best ∧
      (∀ k, SlotRuns s.ctrl k → (stream best).length ≤ (stream k).length ∧ (k < best → (stream best).length < (stream k).length)) ∧
      (∀ k, (SlotRuns s.ctrl k → z k = BitVec.ofNat 17 (stream k).length) ∧ (¬ SlotRuns s.ctrl k → z k = 0)) ∧
      (stream best).length ≤ n + 100 ∧
      s.wrk.Overwritten (variant best) w ∧ s.dec.Overwritten (variant best) e ∧
      (∀ a, a < (stream best).length → c.read a = (stream best)[a]?) ∧
      (∀ a, (stream best).length ≤ a → a < s.cmpCap →
        ((∃ k, SlotRuns s.ctrl k ∧ (stream best).length < (stream k).length) → c.read a = none) ∧
        ((∀ k, SlotRuns s.ctrl k → (stream k).length = (stream best).length) → c.read a = s.cmp.read a)) ∧
      exec .compress s = .next { s.finished 0 0 h d with
        wrk := w, wlen := BitVec.ofNat 14 n, cmp := c, cmpLen := BitVec.ofNat 17 (stream best).length
        dec := e, decLen := BitVec.ofNat 14 n
        result := { slot := BitVec.ofNat 2 best
                    variant := if s.ctrl.preserveHoles = true then 0 else if best < 2 then 1 else 2
                    parser := decide (best % 2 = 1), valid := true }
        attSize0 := z 0, attSize1 := z 1, attSize2 := z 2, attSize3 := z 3 }

/-- 47_compress.md R349: a successful COMPRESS equals the unit commands of each slot it ran in size, and those of the winner in its final
state, apart from RESULT, ATT_SIZE0..3 and the undefined bytes of R346. -/
def Obligations.CompressIsUnitCommands : Prop :=
  ∀ (s : State) (raw : List Byte), s.CapInRange → 8184 ≤ s.srcLen.toNat → s.srcLen.toNat ≤ 8192 → RawBuffer s raw →
    (∃ k, SlotRuns s.ctrl k) →
    ∃ t, exec .compress s = .next t ∧
      (∀ k, SlotRuns s.ctrl k → ∃ u, unitSequence k s = .next u ∧ u.status.err = false ∧ t.attSize k = u.cmpLen) ∧
      ∃ u, SlotRuns s.ctrl t.result.slot.toNat ∧ unitSequence t.result.slot.toNat s = .next u ∧
        SameBytes t.cmpLen.toNat t.cmp u.cmp ∧
        t = { u with cmp := t.cmp, result := t.result, attSize0 := t.attSize0, attSize1 := t.attSize1, attSize2 := t.attSize2
                     attSize3 := t.attSize3, hid := t.hid, draws := t.draws }

/-- The argument errors of COMPRESS, which clear RESULT and ATT_SIZE0..3 and nothing else, and the bytes of SRC that must be defined
(47_compress.md R343, 60_exceptions.md R364, 20_memory.md R86). -/
def Obligations.CompressArgumentErrors : Prop :=
  ∀ s : State,
    (s.srcLen.toNat < 8184 ∨ 8192 < s.srcLen.toNat → ∃ h d, exec .compress s = .next { s.finished 3 1 h d with
      result := ⟨0, 0, false, false⟩, attSize0 := 0, attSize1 := 0, attSize2 := 0, attSize3 := 0 }) ∧
    (8184 ≤ s.srcLen.toNat → s.srcLen.toNat ≤ 8192 →
      ((∀ k, ¬ SlotRuns s.ctrl k) → ∃ h d, exec .compress s = .next { s.finished 6 5 h d with
        result := ⟨0, 0, false, false⟩, attSize0 := 0, attSize1 := 0, attSize2 := 0, attSize3 := 0 }) ∧
      ((∃ k, SlotRuns s.ctrl k) → ¬ s.src.DefinedOn 0 (min s.ctrl.capacity s.srcLen.toNat) →
        exec .compress s = .fault .uninitRead))

/-- 47_compress.md R348: DECODE after a successful COMPRESS gives the winner's variant, which is the raw buffer where holes are preserved
and equals it outside the holes where they are not. -/
def Obligations.CompressThenDecode : Prop :=
  ∀ (s : State) (raw : List Byte), s.CapInRange → 8184 ≤ s.srcLen.toNat → s.srcLen.toNat ≤ 8192 → RawBuffer s raw →
    (∃ k, SlotRuns s.ctrl k) →
    let n := s.ctrl.capacity
    ∃ t u, exec .compress s = .next t ∧ exec .decode t = .next u ∧
      u.status.err = false ∧ u.decLen.toNat = n ∧ u.inUsed = t.cmpLen ∧ SameBytes n u.dec t.wrk ∧
      t.wrk.Holds 0 (variantBytes s.ctrl.preserveHoles t.result.slot.toNat raw) ∧
      ∀ p, p < n → s.ctrl.preserveHoles = true ∨ ¬ InHole n p → t.wrk.read p = raw[p]?

/-! ### The whole machine -/

/-- Every step keeps the invariant, from every state that meets it: the buffers keep their canonical form and size, STATUS stays legal
(10_state.md R36) and agrees with the engine (R63), and the result registers keep the ranges of R42, R45 to R48. -/
def Obligations.StepKeepsInvariant : Prop :=
  ∀ s t : State, s.Inv → step s = .next t → t.Inv

/-- The reset state meets the invariant. -/
def Obligations.ResetMeetsInvariant : Prop := State.reset.Inv

/-- No instruction changes an operand that the operand table does not give it to write (30_encoding.md R124, 20_memory.md R88). -/
def Obligations.InstructionsWriteOnlyTheirOperands : Prop :=
  ∀ (i : Instr) (s t : State), exec i s = .next t → OnlyItsOperands i s t

/-- How an instruction completes, and with what, depends on nothing but the operands the operand table gives it to read
(30_encoding.md R124, 60_exceptions.md R380). -/
def Obligations.InstructionsReadOnlyTheirOperands : Prop :=
  ∀ (i : Instr) (s t : State), ReadsAgree s t i → OutcomesAgree i (exec i s) (exec i t)

/-- A command that answers a next state has completed (60_exceptions.md R370), with no error or with one of the errors of R363; no
instruction is refused, and the one fault is the model-only outcome of R381. -/
def Obligations.CommandsFinish : Prop :=
  ∀ (i : Instr) (s : State),
    (∀ t, isCommand i = true → exec i s = .next t →
      t.status.busy = false ∧ t.status.done = true ∧ t.status.lastOpc = s.status.lastOpc ∧ t.events.doneEv = true ∧ t.engine = .idle ∧
      (i ≠ .decode → t.errPos = 0 ∧ t.inUsed = 0) ∧
      ((t.status.err = false ∧ t.status.errCode = 0 ∧ t.status.errDetail = 0) ∨
        (t.status.err = true ∧ (t.status.errCode.toNat, t.status.errDetail.toNat) ∈ errorsOf i))) ∧
    (∀ t, isCommand i = false → exec i s = .next t →
      (t.status = s.status ∧ t.events = s.events ∧ t.engine = s.engine ∧ ∀ lits, i ≠ .chunkEnd lits) ∨
      (t.status.done = true ∧ t.status.err = false ∧ t.engine = .idle ∧ ∃ lits, i = .chunkEnd lits) ∨
      (t.status.done = true ∧ t.status.err = true ∧ t.engine = .idle ∧
        (t.status.errCode.toNat, t.status.errDetail.toNat) ∈ errorsOf i)) ∧
    (∀ r, exec i s ≠ .refused r) ∧ (∀ r, exec i s = .fault r → r = .uninitRead)

/-- With every byte of the buffers defined, every instruction answers a next state, and every encode succeeds in its verification
(60_exceptions.md R381, 46_decoder.md R314, 47_compress.md R340). -/
def Obligations.DefinedBuffersNeverStop : Prop :=
  ∀ (i : Instr) (s : State), s.AllDefined → s.CapInRange →
    ∃ t, exec i s = .next t ∧
      (isCommand i = true → t.status.errCode.toNat ≠ 4 ∧ (t.status.errCode.toNat, t.status.errDetail.toNat) ≠ (2, 10))
end

