-- ==== Sys2Proof/Laws/Memory.lean ====
section
/-! SUPPORT. The laws of the buffer memories: what a read gives after a write, a block write, an undefining and the byte-wise copies, and
that each of them keeps the canonical form and the size. -/

namespace Sys2Proof.Machine

open Sys2Proof

/-! ### Reading -/

@[simp] theorem Memory.read_nil (a : Nat) : Memory.read [] a = none := rfl

theorem Memory.read_cons (k : Nat) (v : Byte) (m : Memory) (a : Nat) :
    Memory.read ((k, v) :: m) a = if k = a then some v else m.read a := rfl

theorem Memory.read_append (m n : Memory) (a : Nat) :
    Memory.read (m ++ n) a = (m.read a).or (n.read a) := by
  induction m with
  | nil => simp
  | cons c m ih =>
    obtain ⟨k, v⟩ := c
    by_cases h : k = a <;> simp [Memory.read_cons, h, ih]

theorem Memory.read_filter (p : Nat → Bool) (m : Memory) (a : Nat) :
    Memory.read (m.filter (fun c => p c.1)) a = if p a then m.read a else none := by
  induction m with
  | nil => simp
  | cons c m ih =>
    obtain ⟨k, v⟩ := c
    by_cases hk : k = a
    · subst hk
      by_cases hp : p k <;> simp [Memory.read_cons, hp, ih]
    · by_cases hp : p k <;> simp [Memory.read_cons, hp, hk, ih]

/-- An index that is read is listed. -/
theorem Memory.mem_of_read {m : Memory} {a : Nat} {v : Byte} (h : m.read a = some v) : (a, v) ∈ m := by
  induction m with
  | nil => simp at h
  | cons c m ih =>
    obtain ⟨k, x⟩ := c
    rw [Memory.read_cons] at h
    split at h
    · next hk => cases h; subst hk; exact List.mem_cons_self
    · exact List.mem_cons_of_mem _ (ih h)

/-- A listed index has a value. -/
theorem Memory.read_isSome_of_mem {m : Memory} {a : Nat} {v : Byte} (h : (a, v) ∈ m) : (m.read a).isSome := by
  induction m with
  | nil => cases h
  | cons c m ih =>
    obtain ⟨k, x⟩ := c
    rw [Memory.read_cons]
    split
    · rfl
    · next hk =>
      rcases List.mem_cons.mp h with h | h
      · cases h; exact absurd rfl hk
      · exact ih h

/-! ### One byte written -/

theorem Memory.read_write (m : Memory) (a : Nat) (v : Byte) (b : Nat) :
    (m.write a v).read b = if b = a then some v else m.read b := by
  induction m with
  | nil => simp [Memory.write, Memory.read_cons, eq_comm]
  | cons c m ih =>
    obtain ⟨k, x⟩ := c
    unfold Memory.write
    split
    · simp [Memory.read_cons, eq_comm]
    · split
      · next h =>
        subst h
        rw [Memory.read_cons, Memory.read_cons]
        by_cases hb : a = b
        · simp [hb]
        · simp [hb, Ne.symm hb]
      · next h1 h2 =>
        rw [Memory.read_cons, Memory.read_cons, ih]
        by_cases hk : k = b
        · subst hk; simp [Ne.symm h2]
        · simp [hk]

theorem Memory.read_write_same (m : Memory) (a : Nat) (v : Byte) : (m.write a v).read a = some v := by
  simp [Memory.read_write]

theorem Memory.read_write_other (m : Memory) {a b : Nat} (v : Byte) (h : b ≠ a) : (m.write a v).read b = m.read b := by
  simp [Memory.read_write, h]

/-- The indices of a written memory. -/
theorem Memory.mem_write {m : Memory} {a : Nat} {v : Byte} {c : Host.Cell} (h : c ∈ m.write a v) : c.1 = a ∨ c ∈ m := by
  induction m with
  | nil => simp [Memory.write] at h; exact .inl (by rw [h])
  | cons d m ih =>
    obtain ⟨k, x⟩ := d
    unfold Memory.write at h
    split at h
    · rcases List.mem_cons.mp h with h | h
      · exact .inl (by rw [h])
      · exact .inr h
    · split at h
      · rcases List.mem_cons.mp h with h | h
        · exact .inl (by rw [h])
        · exact .inr (List.mem_cons_of_mem _ h)
      · rcases List.mem_cons.mp h with h | h
        · exact .inr (by rw [h]; exact List.mem_cons_self)
        · exact (ih h).imp id (List.mem_cons_of_mem _)

theorem Memory.wf_write {m : Memory} (h : m.wf) (a : Nat) (v : Byte) : (m.write a v).wf := by
  induction m with
  | nil => simp [Memory.write]
  | cons c m ih =>
    obtain ⟨k, x⟩ := c
    obtain ⟨hk, hm⟩ := List.pairwise_cons.mp h
    unfold Memory.write
    split
    · next hlt =>
      refine List.pairwise_cons.mpr ⟨?_, h⟩
      intro c hc
      rcases List.mem_cons.mp hc with hc | hc
      · rw [hc]; exact hlt
      · exact Nat.lt_trans hlt (hk c hc)
    · split
      · next heq => subst heq; exact List.pairwise_cons.mpr ⟨hk, hm⟩
      · next h1 h2 =>
        refine List.pairwise_cons.mpr ⟨?_, ih hm⟩
        intro c hc
        rcases Memory.mem_write hc with hc | hc
        · simp only [hc]; omega
        · exact hk c hc

/-! ### The size of a memory -/

theorem Memory.within_iff {m : Memory} {size : Nat} : m.within size = true ↔ ∀ c ∈ m, c.1 < size := by
  simp [Memory.within]

theorem Memory.within_write {m : Memory} {size a : Nat} (h : m.within size = true) (ha : a < size) (v : Byte) :
    (m.write a v).within size = true := by
  rw [Memory.within_iff] at *
  intro c hc
  rcases Memory.mem_write hc with hc | hc
  · omega
  · exact h c hc

theorem Memory.within_mono {m : Memory} {a b : Nat} (h : m.within a = true) (hab : a ≤ b) : m.within b = true := by
  rw [Memory.within_iff] at *
  exact fun c hc => Nat.lt_of_lt_of_le (h c hc) hab

/-- Past the size every byte is undefined. -/
theorem Memory.read_of_within {m : Memory} {size a : Nat} (h : m.within size = true) (ha : size ≤ a) : m.read a = none := by
  cases hr : m.read a with
  | none => rfl
  | some v => have := Memory.within_iff.mp h _ (Memory.mem_of_read hr); simp at this; omega

/-! ### Two canonical memories that read the same are the same -/

theorem Memory.read_eq_some_iff {m : Memory} (h : m.wf) {a : Nat} {v : Byte} : m.read a = some v ↔ (a, v) ∈ m := by
  refine ⟨Memory.mem_of_read, ?_⟩
  induction m with
  | nil => intro hm; cases hm
  | cons c m ih =>
    obtain ⟨k, x⟩ := c
    obtain ⟨hk, hm⟩ := List.pairwise_cons.mp h
    intro hmem
    rw [Memory.read_cons]
    rcases List.mem_cons.mp hmem with hc | hc
    · cases hc; simp
    · have := hk _ hc
      simp only at this
      rw [if_neg (by omega)]
      exact ih hm hc

theorem Memory.ext_of_read {m n : Memory} (hm : m.wf) (hn : n.wf) (h : ∀ a, m.read a = n.read a) : m = n := by
  induction m generalizing n with
  | nil =>
    cases n with
    | nil => rfl
    | cons c n => obtain ⟨k, v⟩ := c; have := h k; rw [Memory.read_cons, if_pos rfl] at this; cases this
  | cons c m ih =>
    cases n with
    | nil => obtain ⟨k, v⟩ := c; have := h k; rw [Memory.read_cons, if_pos rfl] at this; cases this
    | cons d n =>
      obtain ⟨k, x⟩ := c
      obtain ⟨l, y⟩ := d
      obtain ⟨hk, hm'⟩ := List.pairwise_cons.mp hm
      obtain ⟨hl, hn'⟩ := List.pairwise_cons.mp hn
      have h1 : (k, x) ∈ (l, y) :: n := (Memory.read_eq_some_iff hn).mp (by rw [← h k]; simp [Memory.read_cons])
      have h2 : (l, y) ∈ (k, x) :: m := (Memory.read_eq_some_iff hm).mp (by rw [h l]; simp [Memory.read_cons])
      have hkl : (k, x) = (l, y) := by
        rcases List.mem_cons.mp h1 with h1 | h1
        · exact h1
        · rcases List.mem_cons.mp h2 with h2 | h2
          · exact h2.symm
          · have a := hl _ h1; have b := hk _ h2; simp at a b; omega
      cases hkl
      congr 1
      refine ih hm' hn' fun a => ?_
      have := h a
      rw [Memory.read_cons, Memory.read_cons] at this
      split at this
      · next hka =>
        subst hka
        have hx : Memory.read m k = none := by
          cases hr : Memory.read m k with
          | none => rfl
          | some v => have := hk _ (Memory.mem_of_read hr); simp at this
        have hy : Memory.read n k = none := by
          cases hr : Memory.read n k with
          | none => rfl
          | some v => have := hl _ (Memory.mem_of_read hr); simp at this
        rw [hx, hy]
      · exact this

/-! ### A block of bytes written -/

theorem mem_cellsFrom {a : Nat} {bs : List Byte} {c : Host.Cell} (h : c ∈ cellsFrom a bs) : a ≤ c.1 ∧ c.1 < a + bs.length := by
  induction bs generalizing a with
  | nil => simp [cellsFrom] at h
  | cons b bs ih =>
    simp only [cellsFrom, List.mem_cons] at h
    rcases h with h | h
    · rw [h]; simp
    · have := ih h; simp only [List.length_cons]; omega

theorem wf_cellsFrom (a : Nat) (bs : List Byte) : Memory.wf (cellsFrom a bs) := by
  induction bs generalizing a with
  | nil => simp [cellsFrom]
  | cons b bs ih =>
    simp only [cellsFrom, List.pairwise_cons]
    exact ⟨fun c hc => by have := mem_cellsFrom hc; omega, ih _⟩

theorem read_cellsFrom (a : Nat) (bs : List Byte) (p : Nat) :
    Memory.read (cellsFrom a bs) p = if a ≤ p then bs[p - a]? else none := by
  induction bs generalizing a with
  | nil => simp [cellsFrom]
  | cons b bs ih =>
    rw [cellsFrom, Memory.read_cons, ih]
    by_cases h : a = p
    · subst h; simp
    · rw [if_neg h]
      by_cases h2 : a + 1 ≤ p
      · rw [if_pos h2, if_pos (by omega)]
        obtain ⟨k, rfl⟩ : ∃ k, p = a + 1 + k := ⟨p - (a + 1), by omega⟩
        have e1 : a + 1 + k - a = k + 1 := by omega
        have e2 : a + 1 + k - (a + 1) = k := by omega
        rw [e1, e2]; simp
      · rw [if_neg h2, if_neg (by omega)]

/-- A block write: the bytes of the block inside it, every other byte as before. -/
theorem Memory.read_writeBytes (m : Memory) (a : Nat) (bs : List Byte) (p : Nat) :
    (m.writeBytes a bs).read p = if a ≤ p ∧ p < a + bs.length then bs[p - a]? else m.read p := by
  have h1 := Memory.read_filter (fun k => decide (k < a)) m p
  have h2 := Memory.read_filter (fun k => decide (a + bs.length ≤ k)) m p
  unfold Memory.writeBytes
  rw [Memory.read_append, Memory.read_append, h1, h2, read_cellsFrom]
  by_cases hp : p < a
  · have hn1 : ¬ a ≤ p := by omega
    have hn2 : ¬ a + bs.length ≤ p := by omega
    simp [hp, hn1, hn2]
  · have h3 : a ≤ p := by omega
    by_cases h4 : p < a + bs.length
    · have h5 : ¬ a + bs.length ≤ p := by omega
      simp [hp, h3, h4, h5]
    · have h5 : a + bs.length ≤ p := by omega
      have h6 : bs[p - a]? = none := by simp; omega
      simp [hp, h3, h4, h5, h6]

theorem Memory.wf_writeBytes {m : Memory} (h : m.wf) (a : Nat) (bs : List Byte) : (m.writeBytes a bs).wf := by
  unfold Memory.writeBytes
  refine List.pairwise_append.mpr ⟨h.filter _, List.pairwise_append.mpr ⟨wf_cellsFrom a bs, h.filter _, ?_⟩, ?_⟩
  · intro x hx y hy
    have h1 := mem_cellsFrom hx
    have h2 := (List.mem_filter.mp hy).2
    simp at h2; omega
  · intro x hx y hy
    have h1 := (List.mem_filter.mp hx).2
    simp at h1
    rcases List.mem_append.mp hy with hy | hy
    · have := mem_cellsFrom hy; omega
    · have := (List.mem_filter.mp hy).2; simp at this; omega

theorem Memory.within_writeBytes {m : Memory} {size a : Nat} {bs : List Byte} (h : m.within size = true)
    (ha : a + bs.length ≤ size) : (m.writeBytes a bs).within size = true := by
  rw [Memory.within_iff] at *
  intro c hc
  unfold Memory.writeBytes at hc
  rcases List.mem_append.mp hc with hc | hc
  · exact h c (List.mem_filter.mp hc).1
  · rcases List.mem_append.mp hc with hc | hc
    · have := mem_cellsFrom hc; omega
    · exact h c (List.mem_filter.mp hc).1

/-! ### Bytes made undefined -/

theorem Memory.read_undefine (m : Memory) (a n p : Nat) :
    (m.undefine a n).read p = if a ≤ p ∧ p < a + n then none else m.read p := by
  have h := Memory.read_filter (fun k => !(decide (a ≤ k) && decide (k < a + n))) m p
  unfold Memory.undefine
  rw [h]
  by_cases h1 : a ≤ p ∧ p < a + n
  · simp [h1]
  · rw [if_neg h1, if_pos (by simp; omega)]

theorem Memory.wf_undefine {m : Memory} (h : m.wf) (a n : Nat) : (m.undefine a n).wf := h.filter _

theorem Memory.within_undefine {m : Memory} {size : Nat} (h : m.within size = true) (a n : Nat) :
    (m.undefine a n).within size = true := by
  rw [Memory.within_iff] at *
  exact fun c hc => h c (List.mem_filter.mp hc).1

/-! ### Several bytes read -/

@[simp] theorem Memory.cells_length (m : Memory) (a n : Nat) : (m.cells a n).length = n := by
  induction n generalizing a with
  | zero => rfl
  | succ n ih => simp [Memory.cells, ih]

theorem Memory.getElem?_cells (m : Memory) (a n k : Nat) :
    (m.cells a n)[k]? = if k < n then some (m.read (a + k)) else none := by
  induction n generalizing a k with
  | zero => simp [Memory.cells]
  | succ n ih =>
    cases k with
    | zero => simp [Memory.cells]
    | succ k =>
      simp only [Memory.cells, List.getElem?_cons_succ, ih]
      have : a + 1 + k = a + (k + 1) := by omega
      simp [this]

/-- Bytes all defined: each is read. -/
theorem Memory.readBytes_eq_some {m : Memory} {a n : Nat} {bs : List Byte} :
    m.readBytes a n = some bs ↔ bs.length = n ∧ ∀ k, k < n → m.read (a + k) = bs[k]? := by
  induction n generalizing a bs with
  | zero => cases bs <;> simp [Memory.readBytes]
  | succ n ih =>
    unfold Memory.readBytes
    constructor
    · intro h
      cases hr : m.read a with
      | none => simp [hr] at h
      | some v =>
        cases hb : m.readBytes (a + 1) n with
        | none => simp [hr, hb] at h
        | some tl =>
          simp only [hr, hb, Option.some.injEq] at h
          subst h
          obtain ⟨h1, h2⟩ := ih.mp hb
          refine ⟨by simp [h1], fun k hk => ?_⟩
          cases k with
          | zero => simpa using hr
          | succ k =>
            have := h2 k (by omega)
            have e : a + (k + 1) = a + 1 + k := by omega
            rw [e, this]; simp
    · rintro ⟨h1, h2⟩
      cases bs with
      | nil => simp at h1
      | cons v tl =>
        have h0 := h2 0 (by omega)
        simp at h0
        have ht : m.readBytes (a + 1) n = some tl := by
          refine ih.mpr ⟨by simpa using h1, fun k hk => ?_⟩
          have := h2 (k + 1) (by omega)
          have e : a + (k + 1) = a + 1 + k := by omega
          rw [e] at this; simpa using this
        simp [h0, ht]

/-- Bytes all defined is what makes readBytes answer. -/
theorem Memory.readBytes_isSome {m : Memory} {a n : Nat} :
    (m.readBytes a n).isSome = true ↔ ∀ k, k < n → (m.read (a + k)).isSome = true := by
  induction n generalizing a with
  | zero => simp [Memory.readBytes]
  | succ n ih =>
    unfold Memory.readBytes
    have e : ∀ k, a + 1 + k = a + (k + 1) := fun k => by omega
    constructor
    · intro h k hk
      cases hr : m.read a with
      | none => simp [hr] at h
      | some v =>
        cases hb : m.readBytes (a + 1) n with
        | none => simp [hr, hb] at h
        | some tl =>
          cases k with
          | zero => simp [hr]
          | succ k => rw [← e]; exact ih.mp (by rw [hb]; rfl) k (by omega)
    · intro h
      have h0 := h 0 (by omega)
      have ht : (m.readBytes (a + 1) n).isSome = true := ih.mpr fun k hk => by rw [e]; exact h (k + 1) (by omega)
      obtain ⟨v, hv⟩ := Option.isSome_iff_exists.mp h0
      obtain ⟨tl, htl⟩ := Option.isSome_iff_exists.mp ht
      simp at hv
      simp [hv, htl]

theorem Memory.cells_eq_map_some {m : Memory} {a n : Nat} {bs : List Byte} (h : m.readBytes a n = some bs) :
    m.cells a n = bs.map some := by
  obtain ⟨h1, h2⟩ := Memory.readBytes_eq_some.mp h
  apply List.ext_getElem?
  intro k
  rw [Memory.getElem?_cells]
  split
  · next hk =>
    rw [h2 k hk]
    have hk' : k < bs.length := by omega
    simp [List.getElem?_map, List.getElem?_eq_getElem hk']
  · next hk => simp; omega

theorem Memory.definedRun_length_le (m : Memory) (a n : Nat) : (m.definedRun a n).length ≤ n := by
  induction n generalizing a with
  | zero => simp [Memory.definedRun]
  | succ n ih =>
    unfold Memory.definedRun
    split
    · simp
    · have := ih (a + 1); simp; omega

/-- A run that is defined is read whole, and whatever follows it comes after it. -/
theorem Memory.definedRun_of_read {m : Memory} {a n : Nat} {bs : List Byte} (hn : bs.length ≤ n)
    (h : ∀ k, k < bs.length → m.read (a + k) = bs[k]?) :
    m.definedRun a n = bs ++ m.definedRun (a + bs.length) (n - bs.length) := by
  induction bs generalizing a n with
  | nil => simp
  | cons b bs ih =>
    cases n with
    | zero => simp at hn
    | succ n =>
      have h0 := h 0 (by simp)
      simp at h0
      have hb : ∀ k, k < bs.length → m.read (a + 1 + k) = bs[k]? := fun k hk => by
        have := h (k + 1) (by simpa using hk)
        have e : a + (k + 1) = a + 1 + k := by omega
        rw [e] at this; simpa using this
      have e0 : m.definedRun a (n + 1) = b :: m.definedRun (a + 1) n := by simp [Memory.definedRun, h0]
      have e1 : a + 1 + bs.length = a + (b :: bs).length := by simp only [List.length_cons]; omega
      have e2 : n - bs.length = n + 1 - (b :: bs).length := by simp only [List.length_cons]; omega
      rw [e0, ih (by simpa using hn) hb, e1, e2]
      rfl

/-- Every byte of a defined run is read at its place. -/
theorem Memory.read_of_definedRun {m : Memory} {a n k : Nat} (h : k < (m.definedRun a n).length) :
    m.read (a + k) = (m.definedRun a n)[k]? := by
  induction n generalizing a k with
  | zero => simp [Memory.definedRun] at h
  | succ n ih =>
    cases hr : m.read a with
    | none => simp [Memory.definedRun, hr] at h
    | some v =>
      have e : m.definedRun a (n + 1) = v :: m.definedRun (a + 1) n := by simp [Memory.definedRun, hr]
      rw [e] at h ⊢
      cases k with
      | zero => simpa using hr
      | succ k =>
        have := ih (a := a + 1) (k := k) (by simpa using h)
        have e2 : a + (k + 1) = a + 1 + k := by omega
        rw [e2, this]; simp

/-! ### The byte-wise copies -/

/-- All that a forward copy does: it keeps the canonical form and the size, writes only [dst, dst + n), and each byte of the destination is
what the byte of the source holds when it is read. -/
theorem Memory.copyForward_spec {m x : Memory} {dst src n : Nat} (h : m.copyForward dst src n = some x) :
    (m.wf → x.wf) ∧ (∀ size, m.within size = true → dst + n ≤ size → x.within size = true) ∧
    (∀ p, (p < dst ∨ dst + n ≤ p) → x.read p = m.read p) ∧
    (src < dst → ∀ k, k < n → x.read (dst + k) = x.read (src + k)) := by
  induction n generalizing m dst src with
  | zero =>
    cases h
    exact ⟨id, fun _ h _ => h, fun _ _ => rfl, fun _ k hk => absurd hk (by omega)⟩
  | succ n ih =>
    unfold Memory.copyForward at h
    cases hr : m.read src with
    | none => simp [hr] at h
    | some v =>
      simp only [hr] at h
      obtain ⟨h1, h2, h3, h4⟩ := ih h
      refine ⟨fun hw => h1 (Memory.wf_write hw _ _), fun size hs hd => h2 size (Memory.within_write hs (by omega) _) (by omega), ?_, ?_⟩
      · intro p hp
        rw [h3 p (by omega), Memory.read_write_other _ _ (by omega)]
      · intro hlt k hk
        cases k with
        | zero =>
          have a1 := h3 dst (by omega)
          have a2 := h3 src (by omega)
          simp only [Nat.add_zero]
          rw [a1, a2, Memory.read_write_same, Memory.read_write_other _ _ (by omega), hr]
        | succ k =>
          have := h4 (by omega) k (by omega)
          have e1 : dst + (k + 1) = dst + 1 + k := by omega
          have e2 : src + (k + 1) = src + 1 + k := by omega
          rw [e1, e2, this]

/-- A forward copy from below the destination answers when the bytes from the source to the destination are defined. -/
theorem Memory.copyForward_isSome {m : Memory} {dst src n : Nat} (hlt : src < dst)
    (h : ∀ p, src ≤ p → p < dst → (m.read p).isSome = true) : (m.copyForward dst src n).isSome = true := by
  induction n generalizing m dst src with
  | zero => rfl
  | succ n ih =>
    obtain ⟨v, hv⟩ := Option.isSome_iff_exists.mp (h src (Nat.le_refl _) hlt)
    unfold Memory.copyForward
    rw [hv]
    refine ih (by omega) fun p h1 h2 => ?_
    rw [Memory.read_write]
    split
    · rfl
    · exact h p (by omega) (by omega)

/-- All that the downward copy at distance two does. -/
theorem Memory.copyDownTwo_spec {m x : Memory} {b n : Nat} (h : m.copyDownTwo b n = some x) :
    (m.wf → x.wf) ∧ (∀ size, m.within size = true → b + n ≤ size → x.within size = true) ∧
    (∀ p, (p < b ∨ b + n ≤ p) → x.read p = m.read p) ∧ (∀ k, k < n → x.read (b + k) = x.read (b + k + 2)) := by
  induction n generalizing m with
  | zero =>
    cases h
    exact ⟨id, fun _ h _ => h, fun _ _ => rfl, fun k hk => absurd hk (by omega)⟩
  | succ n ih =>
    unfold Memory.copyDownTwo at h
    cases hr : m.read (b + n + 2) with
    | none => simp [hr] at h
    | some v =>
      simp only [hr] at h
      obtain ⟨h1, h2, h3, h4⟩ := ih h
      refine ⟨fun hw => h1 (Memory.wf_write hw _ _), fun size hs hd => h2 size (Memory.within_write hs (by omega) _) (by omega), ?_, ?_⟩
      · intro p hp
        rw [h3 p (by omega), Memory.read_write_other _ _ (by omega)]
      · intro k hk
        by_cases hkn : k = n
        · subst hkn
          rw [h3 (b + k) (by omega), h3 (b + k + 2) (by omega), Memory.read_write_same,
            Memory.read_write_other _ _ (by omega), hr]
        · exact h4 k (by omega)

/-! ### The hole functions keep the canonical form and the size -/

/-- Induction over the holes of a fill in increasing k. -/
theorem foldl_range_induction {α : Type} (P : α → Prop) (f : α → Nat → α) (n : Nat) (a : α)
    (h0 : P a) (hs : ∀ x k, k < n → P x → P (f x k)) : P ((List.range n).foldl f a) := by
  induction n with
  | zero => simpa using h0
  | succ n ih =>
    rw [List.range_succ, List.foldl_append]
    exact hs _ n (by omega) (ih fun x k hk => hs x k (by omega))

theorem holeEnd_le (len k : Nat) : holeEnd len k ≤ len := Nat.min_le_right _ _

theorem holeBegin_lt {len k : Nat} (h : k < holeCount len) : holeBegin k < len := by
  unfold holeCount at h; unfold holeBegin; simp only [Config.holeStart, Config.holePeriod]; omega

theorem zeroFill_wf {m : Memory} (h : m.wf) (len : Nat) : (zeroFill len m).wf :=
  foldl_range_induction (fun m : Memory => m.wf) _ _ _ h fun _ _ _ hx => Memory.wf_writeBytes hx _ _

theorem zeroFill_within {m : Memory} {size len : Nat} (h : m.within size = true) (hl : len ≤ size) :
    (zeroFill len m).within size = true := by
  refine foldl_range_induction (fun m : Memory => m.within size = true) _ _ _ h fun x k hk hx => Memory.within_writeBytes hx ?_
  have := holeEnd_le len k
  have := holeBegin_lt hk
  simp only [List.length_replicate]; omega

/-- All that PatternFill of one hole does to the form and the place: it writes only inside the hole. -/
theorem patternHole_spec {m x : Memory} {len k : Nat} (hk : k < holeCount len)
    (h : patternHole len (holeBegin k) (holeEnd len k) m = some x) :
    (m.wf → x.wf) ∧ (∀ size, len ≤ size → m.within size = true → x.within size = true) ∧
    (∀ p, (p < holeBegin k ∨ holeEnd len k ≤ p) → x.read p = m.read p) := by
  have hb := holeBegin_lt hk
  have he := holeEnd_le len k
  have hbe : holeBegin k ≤ holeEnd len k := by unfold holeEnd; omega
  unfold patternHole at h
  split at h
  · next hp =>
    have hfull : holeEnd len k = holeBegin k + 8 := by
      unfold periodTwoAfter at hp
      split at hp
      · next hlt => unfold holeEnd; simp only [Config.holeLen] at *; omega
      · simp at hp
    obtain ⟨h1, h2, h3, -⟩ := Memory.copyDownTwo_spec h
    simp only [Config.holeLen] at h2 h3
    exact ⟨h1, fun size hs hm => h2 size hm (by omega), fun p hp => h3 p (by omega)⟩
  · obtain ⟨h1, h2, h3, -⟩ := Memory.copyForward_spec h
    exact ⟨h1, fun size hs hm => h2 size hm (by omega), fun p hp => h3 p (by omega)⟩
  · cases h

/-- A property every PatternFill of one hole keeps is kept by PatternFill. -/
theorem patternFill_induction (P : Memory → Prop) {len : Nat} {m x : Memory} (h0 : P m)
    (hs : ∀ y z k, k < holeCount len → P y → patternHole len (holeBegin k) (holeEnd len k) y = some z → P z)
    (h : patternFill len m = some x) : P x := by
  have := foldl_range_induction (fun o : Option Memory => ∀ y, o = some y → P y)
    (fun acc k => acc.bind (patternHole len (holeBegin k) (holeEnd len k))) (holeCount len) (some m)
    (fun y hy => by cases hy; exact h0)
    (fun o k hk ho z hz => by
      cases o with
      | none => cases hz
      | some y => exact hs y z k hk (ho y rfl) hz)
  exact this x h

theorem patternFill_wf {m x : Memory} {len : Nat} (hm : m.wf) (h : patternFill len m = some x) : x.wf :=
  patternFill_induction (fun m => m.wf) hm (fun _ _ _ hk hy hz => (patternHole_spec hk hz).1 hy) h

theorem patternFill_within {m x : Memory} {size len : Nat} (hm : m.within size = true) (hl : len ≤ size)
    (h : patternFill len m = some x) : x.within size = true :=
  patternFill_induction (fun m => m.within size = true) hm (fun _ _ _ hk hy hz => (patternHole_spec hk hz).2.1 _ hl hy) h

end Sys2Proof.Machine
end

