-- ==== Sys2Proof/Laws/Buffers.lean ====
section
/-! SUPPORT. How the claims' terms on buffers (Holds, DefinedOn, Overwritten) meet the operations that read and write them. -/

namespace Sys2Proof.Machine

open Sys2Proof

theorem Memory.Holds.read {m : Memory} {a : Nat} {bs : List Byte} (h : m.Holds a bs) {k : Nat} (hk : k < bs.length) :
    m.read (a + k) = bs[k]? := h k hk

/-- Bytes that are held are defined. -/
theorem Memory.Holds.definedOn {m : Memory} {a : Nat} {bs : List Byte} (h : m.Holds a bs) : m.DefinedOn a bs.length := by
  intro p h1 h2
  have := h (p - a) (by omega)
  rw [show a + (p - a) = p by omega] at this
  rw [this, List.getElem?_eq_getElem (by omega)]
  rfl

theorem Memory.holds_iff_readBytes {m : Memory} {a : Nat} {bs : List Byte} :
    m.Holds a bs ↔ m.readBytes a bs.length = some bs := by
  rw [Memory.readBytes_eq_some]
  exact ⟨fun h => ⟨rfl, h⟩, fun h => h.2⟩

theorem Memory.definedOn_iff_readBytes {m : Memory} {a n : Nat} : m.DefinedOn a n ↔ (m.readBytes a n).isSome = true := by
  rw [Memory.readBytes_isSome]
  constructor
  · exact fun h k hk => h _ (by omega) (by omega)
  · intro h p h1 h2
    have := h (p - a) (by omega)
    rwa [show a + (p - a) = p by omega] at this

/-- A read of n bytes gives no value exactly where one of them is undefined. -/
theorem Memory.readBytes_eq_none {m : Memory} {a n : Nat} : m.readBytes a n = none ↔ ¬ m.DefinedOn a n := by
  rw [Memory.definedOn_iff_readBytes]
  cases m.readBytes a n <;> simp

/-- Defined bytes are some list of bytes. -/
theorem Memory.DefinedOn.exists_holds {m : Memory} {a n : Nat} (h : m.DefinedOn a n) : ∃ bs, bs.length = n ∧ m.Holds a bs := by
  obtain ⟨bs, hb⟩ := Option.isSome_iff_exists.mp (Memory.definedOn_iff_readBytes.mp h)
  obtain ⟨h1, h2⟩ := Memory.readBytes_eq_some.mp hb
  exact ⟨bs, h1, fun k hk => h2 k (by omega)⟩

theorem Memory.DefinedOn.mono {m : Memory} {a b n k : Nat} (h : m.DefinedOn a n) (h1 : a ≤ b) (h2 : b + k ≤ a + n) : m.DefinedOn b k :=
  fun p hp hp' => h p (by omega) (by omega)

theorem Memory.holds_cellsFrom (a : Nat) (bs : List Byte) : Memory.Holds (cellsFrom a bs) a bs := by
  intro k _
  rw [read_cellsFrom]
  simp

/-- A block written is held. -/
theorem Memory.holds_writeBytes (m : Memory) (a : Nat) (bs : List Byte) : (m.writeBytes a bs).Holds a bs := by
  intro k hk
  rw [Memory.read_writeBytes]
  simp [hk]

/-- A block written at 0 overwrites. -/
theorem Memory.overwritten_writeBytes (m : Memory) (bs : List Byte) : m.Overwritten bs (m.writeBytes 0 bs) := by
  intro a
  rw [Memory.read_writeBytes]
  simp

/-- What is left of an overwritten buffer: the block, and the bytes behind it. -/
theorem Memory.Overwritten.holds {m x : Memory} {bs : List Byte} (h : m.Overwritten bs x) : x.Holds 0 bs := by
  intro k hk
  rw [Nat.zero_add, h k, if_pos hk]

theorem Memory.Overwritten.above {m x : Memory} {bs : List Byte} (h : m.Overwritten bs x) {a : Nat} (ha : bs.length ≤ a) :
    x.read a = m.read a := by
  rw [h a, if_neg (by omega)]

/-- A run of defined bytes that the memory holds is what the decoder reads. -/
theorem Memory.definedRun_of_holds {m : Memory} {a n : Nat} {bs : List Byte} (h : m.Holds a bs) (hn : bs.length ≤ n) :
    m.definedRun a n = bs ++ m.definedRun (a + bs.length) (n - bs.length) :=
  Memory.definedRun_of_read hn h

/-- On a defined range the run of defined bytes is the whole range. -/
theorem Memory.definedRun_length_of_definedOn {m : Memory} {a n : Nat} (h : m.DefinedOn a n) : (m.definedRun a n).length = n := by
  obtain ⟨bs, h1, h2⟩ := h.exists_holds
  rw [Memory.definedRun_of_holds h2 (by omega)]
  simp [h1, Memory.definedRun]

end Sys2Proof.Machine
end

