-- ==== Sys2Proof/Laws/State.lean ====
section
/-! SUPPORT. One lemma per field per named update of State, each true by rfl, so that no proof unfolds a record update. -/

namespace Sys2Proof.Machine

open Sys2Proof

variable (s : State)

/-! ### accept: acceptance of a command word (40_control.md R170) -/

@[simp] theorem accept_ctrl (w : Word) : (s.accept w).ctrl = s.ctrl := rfl
@[simp] theorem accept_status (w : Word) : (s.accept w).status = Status.accepted w := rfl
@[simp] theorem accept_events (w : Word) : (s.accept w).events = s.events := rfl
@[simp] theorem accept_srcLen (w : Word) : (s.accept w).srcLen = s.srcLen := rfl
@[simp] theorem accept_wlen (w : Word) : (s.accept w).wlen = s.wlen := rfl
@[simp] theorem accept_cmpLen (w : Word) : (s.accept w).cmpLen = s.cmpLen := rfl
@[simp] theorem accept_decLen (w : Word) : (s.accept w).decLen = s.decLen := rfl
@[simp] theorem accept_pos (w : Word) : (s.accept w).pos = s.pos := rfl
@[simp] theorem accept_matchLen (w : Word) : (s.accept w).matchLen = s.matchLen := rfl
@[simp] theorem accept_matchOff (w : Word) : (s.accept w).matchOff = s.matchOff := rfl
@[simp] theorem accept_errPos (w : Word) : (s.accept w).errPos = s.errPos := rfl
@[simp] theorem accept_inUsed (w : Word) : (s.accept w).inUsed = s.inUsed := rfl
@[simp] theorem accept_result (w : Word) : (s.accept w).result = s.result := rfl
@[simp] theorem accept_attSize0 (w : Word) : (s.accept w).attSize0 = s.attSize0 := rfl
@[simp] theorem accept_attSize1 (w : Word) : (s.accept w).attSize1 = s.attSize1 := rfl
@[simp] theorem accept_attSize2 (w : Word) : (s.accept w).attSize2 = s.attSize2 := rfl
@[simp] theorem accept_attSize3 (w : Word) : (s.accept w).attSize3 = s.attSize3 := rfl
@[simp] theorem accept_cmpCap (w : Word) : (s.accept w).cmpCap = s.cmpCap := rfl
@[simp] theorem accept_src (w : Word) : (s.accept w).src = s.src := rfl
@[simp] theorem accept_wrk (w : Word) : (s.accept w).wrk = s.wrk := rfl
@[simp] theorem accept_cmp (w : Word) : (s.accept w).cmp = s.cmp := rfl
@[simp] theorem accept_dec (w : Word) : (s.accept w).dec = s.dec := rfl
@[simp] theorem accept_engine (w : Word) : (s.accept w).engine = .busy w := rfl
@[simp] theorem accept_hid (w : Word) : (s.accept w).hid = s.hid := rfl
@[simp] theorem accept_rst (w : Word) : (s.accept w).rst = s.rst := rfl
@[simp] theorem accept_inputs (w : Word) : (s.accept w).inputs = s.inputs := rfl
@[simp] theorem accept_rdata (w : Word) : (s.accept w).rdata = s.rdata := rfl
@[simp] theorem accept_draws (w : Word) : (s.accept w).draws = s.draws := rfl

/-! ### finish: completion (60_exceptions.md R370) -/

@[simp] theorem finish_ctrl (e : Option HwError) : (s.finish e).ctrl = s.ctrl := rfl
@[simp] theorem finish_status (e : Option HwError) : (s.finish e).status = s.status.completed e := rfl
@[simp] theorem finish_events (e : Option HwError) : (s.finish e).events = { s.events with doneEv := true } := rfl
@[simp] theorem finish_srcLen (e : Option HwError) : (s.finish e).srcLen = s.srcLen := rfl
@[simp] theorem finish_wlen (e : Option HwError) : (s.finish e).wlen = s.wlen := rfl
@[simp] theorem finish_cmpLen (e : Option HwError) : (s.finish e).cmpLen = s.cmpLen := rfl
@[simp] theorem finish_decLen (e : Option HwError) : (s.finish e).decLen = s.decLen := rfl
@[simp] theorem finish_pos (e : Option HwError) : (s.finish e).pos = s.pos := rfl
@[simp] theorem finish_matchLen (e : Option HwError) : (s.finish e).matchLen = s.matchLen := rfl
@[simp] theorem finish_matchOff (e : Option HwError) : (s.finish e).matchOff = s.matchOff := rfl
@[simp] theorem finish_errPos (e : Option HwError) : (s.finish e).errPos = 0 := rfl
@[simp] theorem finish_inUsed (e : Option HwError) : (s.finish e).inUsed = 0 := rfl
@[simp] theorem finish_result (e : Option HwError) : (s.finish e).result = s.result := rfl
@[simp] theorem finish_attSize0 (e : Option HwError) : (s.finish e).attSize0 = s.attSize0 := rfl
@[simp] theorem finish_attSize1 (e : Option HwError) : (s.finish e).attSize1 = s.attSize1 := rfl
@[simp] theorem finish_attSize2 (e : Option HwError) : (s.finish e).attSize2 = s.attSize2 := rfl
@[simp] theorem finish_attSize3 (e : Option HwError) : (s.finish e).attSize3 = s.attSize3 := rfl
@[simp] theorem finish_cmpCap (e : Option HwError) : (s.finish e).cmpCap = s.cmpCap := rfl
@[simp] theorem finish_src (e : Option HwError) : (s.finish e).src = s.src := rfl
@[simp] theorem finish_wrk (e : Option HwError) : (s.finish e).wrk = s.wrk := rfl
@[simp] theorem finish_cmp (e : Option HwError) : (s.finish e).cmp = s.cmp := rfl
@[simp] theorem finish_dec (e : Option HwError) : (s.finish e).dec = s.dec := rfl
@[simp] theorem finish_engine (e : Option HwError) : (s.finish e).engine = .idle := rfl
@[simp] theorem finish_hid (e : Option HwError) : (s.finish e).hid = Config.freeHidden s.draws := rfl
@[simp] theorem finish_rst (e : Option HwError) : (s.finish e).rst = s.rst := rfl
@[simp] theorem finish_inputs (e : Option HwError) : (s.finish e).inputs = s.inputs := rfl
@[simp] theorem finish_rdata (e : Option HwError) : (s.finish e).rdata = s.rdata := rfl
@[simp] theorem finish_draws (e : Option HwError) : (s.finish e).draws = s.draws + 1 := rfl

/-! ### flagHostErr: the HOST_ERR event (20_memory.md R93) -/

@[simp] theorem flagHostErr_ctrl : (s.flagHostErr).ctrl = s.ctrl := rfl
@[simp] theorem flagHostErr_status : (s.flagHostErr).status = s.status := rfl
@[simp] theorem flagHostErr_events : (s.flagHostErr).events = { s.events with hostErr := true } := rfl
@[simp] theorem flagHostErr_srcLen : (s.flagHostErr).srcLen = s.srcLen := rfl
@[simp] theorem flagHostErr_wlen : (s.flagHostErr).wlen = s.wlen := rfl
@[simp] theorem flagHostErr_cmpLen : (s.flagHostErr).cmpLen = s.cmpLen := rfl
@[simp] theorem flagHostErr_decLen : (s.flagHostErr).decLen = s.decLen := rfl
@[simp] theorem flagHostErr_pos : (s.flagHostErr).pos = s.pos := rfl
@[simp] theorem flagHostErr_matchLen : (s.flagHostErr).matchLen = s.matchLen := rfl
@[simp] theorem flagHostErr_matchOff : (s.flagHostErr).matchOff = s.matchOff := rfl
@[simp] theorem flagHostErr_errPos : (s.flagHostErr).errPos = s.errPos := rfl
@[simp] theorem flagHostErr_inUsed : (s.flagHostErr).inUsed = s.inUsed := rfl
@[simp] theorem flagHostErr_result : (s.flagHostErr).result = s.result := rfl
@[simp] theorem flagHostErr_attSize0 : (s.flagHostErr).attSize0 = s.attSize0 := rfl
@[simp] theorem flagHostErr_attSize1 : (s.flagHostErr).attSize1 = s.attSize1 := rfl
@[simp] theorem flagHostErr_attSize2 : (s.flagHostErr).attSize2 = s.attSize2 := rfl
@[simp] theorem flagHostErr_attSize3 : (s.flagHostErr).attSize3 = s.attSize3 := rfl
@[simp] theorem flagHostErr_cmpCap : (s.flagHostErr).cmpCap = s.cmpCap := rfl
@[simp] theorem flagHostErr_src : (s.flagHostErr).src = s.src := rfl
@[simp] theorem flagHostErr_wrk : (s.flagHostErr).wrk = s.wrk := rfl
@[simp] theorem flagHostErr_cmp : (s.flagHostErr).cmp = s.cmp := rfl
@[simp] theorem flagHostErr_dec : (s.flagHostErr).dec = s.dec := rfl
@[simp] theorem flagHostErr_engine : (s.flagHostErr).engine = s.engine := rfl
@[simp] theorem flagHostErr_hid : (s.flagHostErr).hid = s.hid := rfl
@[simp] theorem flagHostErr_rst : (s.flagHostErr).rst = s.rst := rfl
@[simp] theorem flagHostErr_inputs : (s.flagHostErr).inputs = s.inputs := rfl
@[simp] theorem flagHostErr_rdata : (s.flagHostErr).rdata = s.rdata := rfl
@[simp] theorem flagHostErr_draws : (s.flagHostErr).draws = s.draws := rfl

/-! ### respond: a host read's data -/

@[simp] theorem respond_ctrl (v : Word) : (s.respond v).ctrl = s.ctrl := rfl
@[simp] theorem respond_status (v : Word) : (s.respond v).status = s.status := rfl
@[simp] theorem respond_events (v : Word) : (s.respond v).events = s.events := rfl
@[simp] theorem respond_srcLen (v : Word) : (s.respond v).srcLen = s.srcLen := rfl
@[simp] theorem respond_wlen (v : Word) : (s.respond v).wlen = s.wlen := rfl
@[simp] theorem respond_cmpLen (v : Word) : (s.respond v).cmpLen = s.cmpLen := rfl
@[simp] theorem respond_decLen (v : Word) : (s.respond v).decLen = s.decLen := rfl
@[simp] theorem respond_pos (v : Word) : (s.respond v).pos = s.pos := rfl
@[simp] theorem respond_matchLen (v : Word) : (s.respond v).matchLen = s.matchLen := rfl
@[simp] theorem respond_matchOff (v : Word) : (s.respond v).matchOff = s.matchOff := rfl
@[simp] theorem respond_errPos (v : Word) : (s.respond v).errPos = s.errPos := rfl
@[simp] theorem respond_inUsed (v : Word) : (s.respond v).inUsed = s.inUsed := rfl
@[simp] theorem respond_result (v : Word) : (s.respond v).result = s.result := rfl
@[simp] theorem respond_attSize0 (v : Word) : (s.respond v).attSize0 = s.attSize0 := rfl
@[simp] theorem respond_attSize1 (v : Word) : (s.respond v).attSize1 = s.attSize1 := rfl
@[simp] theorem respond_attSize2 (v : Word) : (s.respond v).attSize2 = s.attSize2 := rfl
@[simp] theorem respond_attSize3 (v : Word) : (s.respond v).attSize3 = s.attSize3 := rfl
@[simp] theorem respond_cmpCap (v : Word) : (s.respond v).cmpCap = s.cmpCap := rfl
@[simp] theorem respond_src (v : Word) : (s.respond v).src = s.src := rfl
@[simp] theorem respond_wrk (v : Word) : (s.respond v).wrk = s.wrk := rfl
@[simp] theorem respond_cmp (v : Word) : (s.respond v).cmp = s.cmp := rfl
@[simp] theorem respond_dec (v : Word) : (s.respond v).dec = s.dec := rfl
@[simp] theorem respond_engine (v : Word) : (s.respond v).engine = s.engine := rfl
@[simp] theorem respond_hid (v : Word) : (s.respond v).hid = s.hid := rfl
@[simp] theorem respond_rst (v : Word) : (s.respond v).rst = s.rst := rfl
@[simp] theorem respond_inputs (v : Word) : (s.respond v).inputs = s.inputs := rfl
@[simp] theorem respond_rdata (v : Word) : (s.respond v).rdata = v := rfl
@[simp] theorem respond_draws (v : Word) : (s.respond v).draws = s.draws := rfl

/-! ### respondFree: a host read's free data -/

@[simp] theorem respondFree_ctrl : (s.respondFree).ctrl = s.ctrl := rfl
@[simp] theorem respondFree_status : (s.respondFree).status = s.status := rfl
@[simp] theorem respondFree_events : (s.respondFree).events = s.events := rfl
@[simp] theorem respondFree_srcLen : (s.respondFree).srcLen = s.srcLen := rfl
@[simp] theorem respondFree_wlen : (s.respondFree).wlen = s.wlen := rfl
@[simp] theorem respondFree_cmpLen : (s.respondFree).cmpLen = s.cmpLen := rfl
@[simp] theorem respondFree_decLen : (s.respondFree).decLen = s.decLen := rfl
@[simp] theorem respondFree_pos : (s.respondFree).pos = s.pos := rfl
@[simp] theorem respondFree_matchLen : (s.respondFree).matchLen = s.matchLen := rfl
@[simp] theorem respondFree_matchOff : (s.respondFree).matchOff = s.matchOff := rfl
@[simp] theorem respondFree_errPos : (s.respondFree).errPos = s.errPos := rfl
@[simp] theorem respondFree_inUsed : (s.respondFree).inUsed = s.inUsed := rfl
@[simp] theorem respondFree_result : (s.respondFree).result = s.result := rfl
@[simp] theorem respondFree_attSize0 : (s.respondFree).attSize0 = s.attSize0 := rfl
@[simp] theorem respondFree_attSize1 : (s.respondFree).attSize1 = s.attSize1 := rfl
@[simp] theorem respondFree_attSize2 : (s.respondFree).attSize2 = s.attSize2 := rfl
@[simp] theorem respondFree_attSize3 : (s.respondFree).attSize3 = s.attSize3 := rfl
@[simp] theorem respondFree_cmpCap : (s.respondFree).cmpCap = s.cmpCap := rfl
@[simp] theorem respondFree_src : (s.respondFree).src = s.src := rfl
@[simp] theorem respondFree_wrk : (s.respondFree).wrk = s.wrk := rfl
@[simp] theorem respondFree_cmp : (s.respondFree).cmp = s.cmp := rfl
@[simp] theorem respondFree_dec : (s.respondFree).dec = s.dec := rfl
@[simp] theorem respondFree_engine : (s.respondFree).engine = s.engine := rfl
@[simp] theorem respondFree_hid : (s.respondFree).hid = s.hid := rfl
@[simp] theorem respondFree_rst : (s.respondFree).rst = s.rst := rfl
@[simp] theorem respondFree_inputs : (s.respondFree).inputs = s.inputs := rfl
@[simp] theorem respondFree_rdata : (s.respondFree).rdata = Config.freeWord s.draws := rfl
@[simp] theorem respondFree_draws : (s.respondFree).draws = s.draws + 1 := rfl

/-! ### assertReset: the reset input (70_reset_and_hazards.md R400) -/

@[simp] theorem assertReset_ctrl : (s.assertReset).ctrl = Ctrl.reset := rfl
@[simp] theorem assertReset_status : (s.assertReset).status = Status.reset := rfl
@[simp] theorem assertReset_events : (s.assertReset).events = Events.reset := rfl
@[simp] theorem assertReset_srcLen : (s.assertReset).srcLen = 0 := rfl
@[simp] theorem assertReset_wlen : (s.assertReset).wlen = 0 := rfl
@[simp] theorem assertReset_cmpLen : (s.assertReset).cmpLen = 0 := rfl
@[simp] theorem assertReset_decLen : (s.assertReset).decLen = 0 := rfl
@[simp] theorem assertReset_pos : (s.assertReset).pos = 0 := rfl
@[simp] theorem assertReset_matchLen : (s.assertReset).matchLen = 0 := rfl
@[simp] theorem assertReset_matchOff : (s.assertReset).matchOff = 0 := rfl
@[simp] theorem assertReset_errPos : (s.assertReset).errPos = 0 := rfl
@[simp] theorem assertReset_inUsed : (s.assertReset).inUsed = 0 := rfl
@[simp] theorem assertReset_result : (s.assertReset).result = RunResult.reset := rfl
@[simp] theorem assertReset_attSize0 : (s.assertReset).attSize0 = 0 := rfl
@[simp] theorem assertReset_attSize1 : (s.assertReset).attSize1 = 0 := rfl
@[simp] theorem assertReset_attSize2 : (s.assertReset).attSize2 = 0 := rfl
@[simp] theorem assertReset_attSize3 : (s.assertReset).attSize3 = 0 := rfl
@[simp] theorem assertReset_cmpCap : (s.assertReset).cmpCap = s.cmpCap := rfl
@[simp] theorem assertReset_src : (s.assertReset).src = [] := rfl
@[simp] theorem assertReset_wrk : (s.assertReset).wrk = [] := rfl
@[simp] theorem assertReset_cmp : (s.assertReset).cmp = [] := rfl
@[simp] theorem assertReset_dec : (s.assertReset).dec = [] := rfl
@[simp] theorem assertReset_engine : (s.assertReset).engine = .idle := rfl
@[simp] theorem assertReset_hid : (s.assertReset).hid = resetHidden := rfl
@[simp] theorem assertReset_rst : (s.assertReset).rst = true := rfl
@[simp] theorem assertReset_inputs : (s.assertReset).inputs = s.inputs := rfl
@[simp] theorem assertReset_rdata : (s.assertReset).rdata = s.rdata := rfl
@[simp] theorem assertReset_draws : (s.assertReset).draws = s.draws := rfl

/-! ### setDecState: the Decoder's cursors and DEC -/

@[simp] theorem setDecState_ctrl (d : DecState) : (s.setDecState d).ctrl = s.ctrl := rfl
@[simp] theorem setDecState_status (d : DecState) : (s.setDecState d).status = s.status := rfl
@[simp] theorem setDecState_events (d : DecState) : (s.setDecState d).events = s.events := rfl
@[simp] theorem setDecState_srcLen (d : DecState) : (s.setDecState d).srcLen = s.srcLen := rfl
@[simp] theorem setDecState_wlen (d : DecState) : (s.setDecState d).wlen = s.wlen := rfl
@[simp] theorem setDecState_cmpLen (d : DecState) : (s.setDecState d).cmpLen = s.cmpLen := rfl
@[simp] theorem setDecState_decLen (d : DecState) : (s.setDecState d).decLen = s.decLen := rfl
@[simp] theorem setDecState_pos (d : DecState) : (s.setDecState d).pos = s.pos := rfl
@[simp] theorem setDecState_matchLen (d : DecState) : (s.setDecState d).matchLen = s.matchLen := rfl
@[simp] theorem setDecState_matchOff (d : DecState) : (s.setDecState d).matchOff = s.matchOff := rfl
@[simp] theorem setDecState_errPos (d : DecState) : (s.setDecState d).errPos = s.errPos := rfl
@[simp] theorem setDecState_inUsed (d : DecState) : (s.setDecState d).inUsed = s.inUsed := rfl
@[simp] theorem setDecState_result (d : DecState) : (s.setDecState d).result = s.result := rfl
@[simp] theorem setDecState_attSize0 (d : DecState) : (s.setDecState d).attSize0 = s.attSize0 := rfl
@[simp] theorem setDecState_attSize1 (d : DecState) : (s.setDecState d).attSize1 = s.attSize1 := rfl
@[simp] theorem setDecState_attSize2 (d : DecState) : (s.setDecState d).attSize2 = s.attSize2 := rfl
@[simp] theorem setDecState_attSize3 (d : DecState) : (s.setDecState d).attSize3 = s.attSize3 := rfl
@[simp] theorem setDecState_cmpCap (d : DecState) : (s.setDecState d).cmpCap = s.cmpCap := rfl
@[simp] theorem setDecState_src (d : DecState) : (s.setDecState d).src = s.src := rfl
@[simp] theorem setDecState_wrk (d : DecState) : (s.setDecState d).wrk = s.wrk := rfl
@[simp] theorem setDecState_cmp (d : DecState) : (s.setDecState d).cmp = s.cmp := rfl
@[simp] theorem setDecState_dec (d : DecState) : (s.setDecState d).dec = d.dec := rfl
@[simp] theorem setDecState_engine (d : DecState) : (s.setDecState d).engine = s.engine := rfl
@[simp] theorem setDecState_hid (d : DecState) : (s.setDecState d).hid = { s.hid with ip := BitVec.ofNat 17 d.ip, op := BitVec.ofNat 14 d.op } := rfl
@[simp] theorem setDecState_rst (d : DecState) : (s.setDecState d).rst = s.rst := rfl
@[simp] theorem setDecState_inputs (d : DecState) : (s.setDecState d).inputs = s.inputs := rfl
@[simp] theorem setDecState_rdata (d : DecState) : (s.setDecState d).rdata = s.rdata := rfl
@[simp] theorem setDecState_draws (d : DecState) : (s.setDecState d).draws = s.draws := rfl

/-! ### setAttempts: RESULT and ATT_SIZE0..3 -/

@[simp] theorem setAttempts_ctrl (r : RunResult) (sizes : List (Slot × Nat)) : (s.setAttempts r sizes).ctrl = s.ctrl := rfl
@[simp] theorem setAttempts_status (r : RunResult) (sizes : List (Slot × Nat)) : (s.setAttempts r sizes).status = s.status := rfl
@[simp] theorem setAttempts_events (r : RunResult) (sizes : List (Slot × Nat)) : (s.setAttempts r sizes).events = s.events := rfl
@[simp] theorem setAttempts_srcLen (r : RunResult) (sizes : List (Slot × Nat)) : (s.setAttempts r sizes).srcLen = s.srcLen := rfl
@[simp] theorem setAttempts_wlen (r : RunResult) (sizes : List (Slot × Nat)) : (s.setAttempts r sizes).wlen = s.wlen := rfl
@[simp] theorem setAttempts_cmpLen (r : RunResult) (sizes : List (Slot × Nat)) : (s.setAttempts r sizes).cmpLen = s.cmpLen := rfl
@[simp] theorem setAttempts_decLen (r : RunResult) (sizes : List (Slot × Nat)) : (s.setAttempts r sizes).decLen = s.decLen := rfl
@[simp] theorem setAttempts_pos (r : RunResult) (sizes : List (Slot × Nat)) : (s.setAttempts r sizes).pos = s.pos := rfl
@[simp] theorem setAttempts_matchLen (r : RunResult) (sizes : List (Slot × Nat)) : (s.setAttempts r sizes).matchLen = s.matchLen := rfl
@[simp] theorem setAttempts_matchOff (r : RunResult) (sizes : List (Slot × Nat)) : (s.setAttempts r sizes).matchOff = s.matchOff := rfl
@[simp] theorem setAttempts_errPos (r : RunResult) (sizes : List (Slot × Nat)) : (s.setAttempts r sizes).errPos = s.errPos := rfl
@[simp] theorem setAttempts_inUsed (r : RunResult) (sizes : List (Slot × Nat)) : (s.setAttempts r sizes).inUsed = s.inUsed := rfl
@[simp] theorem setAttempts_result (r : RunResult) (sizes : List (Slot × Nat)) : (s.setAttempts r sizes).result = r := rfl
@[simp] theorem setAttempts_attSize0 (r : RunResult) (sizes : List (Slot × Nat)) : (s.setAttempts r sizes).attSize0 = sizeOf sizes 0 := rfl
@[simp] theorem setAttempts_attSize1 (r : RunResult) (sizes : List (Slot × Nat)) : (s.setAttempts r sizes).attSize1 = sizeOf sizes 1 := rfl
@[simp] theorem setAttempts_attSize2 (r : RunResult) (sizes : List (Slot × Nat)) : (s.setAttempts r sizes).attSize2 = sizeOf sizes 2 := rfl
@[simp] theorem setAttempts_attSize3 (r : RunResult) (sizes : List (Slot × Nat)) : (s.setAttempts r sizes).attSize3 = sizeOf sizes 3 := rfl
@[simp] theorem setAttempts_cmpCap (r : RunResult) (sizes : List (Slot × Nat)) : (s.setAttempts r sizes).cmpCap = s.cmpCap := rfl
@[simp] theorem setAttempts_src (r : RunResult) (sizes : List (Slot × Nat)) : (s.setAttempts r sizes).src = s.src := rfl
@[simp] theorem setAttempts_wrk (r : RunResult) (sizes : List (Slot × Nat)) : (s.setAttempts r sizes).wrk = s.wrk := rfl
@[simp] theorem setAttempts_cmp (r : RunResult) (sizes : List (Slot × Nat)) : (s.setAttempts r sizes).cmp = s.cmp := rfl
@[simp] theorem setAttempts_dec (r : RunResult) (sizes : List (Slot × Nat)) : (s.setAttempts r sizes).dec = s.dec := rfl
@[simp] theorem setAttempts_engine (r : RunResult) (sizes : List (Slot × Nat)) : (s.setAttempts r sizes).engine = s.engine := rfl
@[simp] theorem setAttempts_hid (r : RunResult) (sizes : List (Slot × Nat)) : (s.setAttempts r sizes).hid = s.hid := rfl
@[simp] theorem setAttempts_rst (r : RunResult) (sizes : List (Slot × Nat)) : (s.setAttempts r sizes).rst = s.rst := rfl
@[simp] theorem setAttempts_inputs (r : RunResult) (sizes : List (Slot × Nat)) : (s.setAttempts r sizes).inputs = s.inputs := rfl
@[simp] theorem setAttempts_rdata (r : RunResult) (sizes : List (Slot × Nat)) : (s.setAttempts r sizes).rdata = s.rdata := rfl
@[simp] theorem setAttempts_draws (r : RunResult) (sizes : List (Slot × Nat)) : (s.setAttempts r sizes).draws = s.draws := rfl

/-! ### finishDecode: a DECODE that succeeds (46_decoder.md R300) -/

@[simp] theorem finishDecode_ctrl (d : DecState) : (finishDecode d s).ctrl = s.ctrl := rfl
@[simp] theorem finishDecode_status (d : DecState) : (finishDecode d s).status = s.status.completed none := rfl
@[simp] theorem finishDecode_events (d : DecState) : (finishDecode d s).events = { s.events with doneEv := true } := rfl
@[simp] theorem finishDecode_srcLen (d : DecState) : (finishDecode d s).srcLen = s.srcLen := rfl
@[simp] theorem finishDecode_wlen (d : DecState) : (finishDecode d s).wlen = s.wlen := rfl
@[simp] theorem finishDecode_cmpLen (d : DecState) : (finishDecode d s).cmpLen = s.cmpLen := rfl
@[simp] theorem finishDecode_decLen (d : DecState) : (finishDecode d s).decLen = BitVec.ofNat 14 d.op := rfl
@[simp] theorem finishDecode_pos (d : DecState) : (finishDecode d s).pos = s.pos := rfl
@[simp] theorem finishDecode_matchLen (d : DecState) : (finishDecode d s).matchLen = s.matchLen := rfl
@[simp] theorem finishDecode_matchOff (d : DecState) : (finishDecode d s).matchOff = s.matchOff := rfl
@[simp] theorem finishDecode_errPos (d : DecState) : (finishDecode d s).errPos = 0 := rfl
@[simp] theorem finishDecode_inUsed (d : DecState) : (finishDecode d s).inUsed = BitVec.ofNat 17 d.ip := rfl
@[simp] theorem finishDecode_result (d : DecState) : (finishDecode d s).result = s.result := rfl
@[simp] theorem finishDecode_attSize0 (d : DecState) : (finishDecode d s).attSize0 = s.attSize0 := rfl
@[simp] theorem finishDecode_attSize1 (d : DecState) : (finishDecode d s).attSize1 = s.attSize1 := rfl
@[simp] theorem finishDecode_attSize2 (d : DecState) : (finishDecode d s).attSize2 = s.attSize2 := rfl
@[simp] theorem finishDecode_attSize3 (d : DecState) : (finishDecode d s).attSize3 = s.attSize3 := rfl
@[simp] theorem finishDecode_cmpCap (d : DecState) : (finishDecode d s).cmpCap = s.cmpCap := rfl
@[simp] theorem finishDecode_src (d : DecState) : (finishDecode d s).src = s.src := rfl
@[simp] theorem finishDecode_wrk (d : DecState) : (finishDecode d s).wrk = s.wrk := rfl
@[simp] theorem finishDecode_cmp (d : DecState) : (finishDecode d s).cmp = s.cmp := rfl
@[simp] theorem finishDecode_dec (d : DecState) : (finishDecode d s).dec = d.dec := rfl
@[simp] theorem finishDecode_engine (d : DecState) : (finishDecode d s).engine = .idle := rfl
@[simp] theorem finishDecode_hid (d : DecState) : (finishDecode d s).hid = Config.freeHidden s.draws := rfl
@[simp] theorem finishDecode_rst (d : DecState) : (finishDecode d s).rst = s.rst := rfl
@[simp] theorem finishDecode_inputs (d : DecState) : (finishDecode d s).inputs = s.inputs := rfl
@[simp] theorem finishDecode_rdata (d : DecState) : (finishDecode d s).rdata = s.rdata := rfl
@[simp] theorem finishDecode_draws (d : DecState) : (finishDecode d s).draws = s.draws + 1 := rfl

/-! ### failDecode: a DECODE that fails (46_decoder.md R300) -/

@[simp] theorem failDecode_ctrl (e : HwError) (p : Nat) : (failDecode e p s).ctrl = s.ctrl := rfl
@[simp] theorem failDecode_status (e : HwError) (p : Nat) : (failDecode e p s).status = s.status.completed (some e) := rfl
@[simp] theorem failDecode_events (e : HwError) (p : Nat) : (failDecode e p s).events = { s.events with doneEv := true } := rfl
@[simp] theorem failDecode_srcLen (e : HwError) (p : Nat) : (failDecode e p s).srcLen = s.srcLen := rfl
@[simp] theorem failDecode_wlen (e : HwError) (p : Nat) : (failDecode e p s).wlen = s.wlen := rfl
@[simp] theorem failDecode_cmpLen (e : HwError) (p : Nat) : (failDecode e p s).cmpLen = s.cmpLen := rfl
@[simp] theorem failDecode_decLen (e : HwError) (p : Nat) : (failDecode e p s).decLen = 0 := rfl
@[simp] theorem failDecode_pos (e : HwError) (p : Nat) : (failDecode e p s).pos = s.pos := rfl
@[simp] theorem failDecode_matchLen (e : HwError) (p : Nat) : (failDecode e p s).matchLen = s.matchLen := rfl
@[simp] theorem failDecode_matchOff (e : HwError) (p : Nat) : (failDecode e p s).matchOff = s.matchOff := rfl
@[simp] theorem failDecode_errPos (e : HwError) (p : Nat) : (failDecode e p s).errPos = BitVec.ofNat 17 p := rfl
@[simp] theorem failDecode_inUsed (e : HwError) (p : Nat) : (failDecode e p s).inUsed = 0 := rfl
@[simp] theorem failDecode_result (e : HwError) (p : Nat) : (failDecode e p s).result = s.result := rfl
@[simp] theorem failDecode_attSize0 (e : HwError) (p : Nat) : (failDecode e p s).attSize0 = s.attSize0 := rfl
@[simp] theorem failDecode_attSize1 (e : HwError) (p : Nat) : (failDecode e p s).attSize1 = s.attSize1 := rfl
@[simp] theorem failDecode_attSize2 (e : HwError) (p : Nat) : (failDecode e p s).attSize2 = s.attSize2 := rfl
@[simp] theorem failDecode_attSize3 (e : HwError) (p : Nat) : (failDecode e p s).attSize3 = s.attSize3 := rfl
@[simp] theorem failDecode_cmpCap (e : HwError) (p : Nat) : (failDecode e p s).cmpCap = s.cmpCap := rfl
@[simp] theorem failDecode_src (e : HwError) (p : Nat) : (failDecode e p s).src = s.src := rfl
@[simp] theorem failDecode_wrk (e : HwError) (p : Nat) : (failDecode e p s).wrk = s.wrk := rfl
@[simp] theorem failDecode_cmp (e : HwError) (p : Nat) : (failDecode e p s).cmp = s.cmp := rfl
@[simp] theorem failDecode_dec (e : HwError) (p : Nat) : (failDecode e p s).dec = s.dec.undefine 0 s.ctrl.capacity := rfl
@[simp] theorem failDecode_engine (e : HwError) (p : Nat) : (failDecode e p s).engine = .idle := rfl
@[simp] theorem failDecode_hid (e : HwError) (p : Nat) : (failDecode e p s).hid = Config.freeHidden s.draws := rfl
@[simp] theorem failDecode_rst (e : HwError) (p : Nat) : (failDecode e p s).rst = s.rst := rfl
@[simp] theorem failDecode_inputs (e : HwError) (p : Nat) : (failDecode e p s).inputs = s.inputs := rfl
@[simp] theorem failDecode_rdata (e : HwError) (p : Nat) : (failDecode e p s).rdata = s.rdata := rfl
@[simp] theorem failDecode_draws (e : HwError) (p : Nat) : (failDecode e p s).draws = s.draws + 1 := rfl

/-! ### finishEncode: an encode that succeeds (43_greedy_parser.md R231) -/

@[simp] theorem finishEncode_ctrl (n : Nat) (x : Encoded) : (finishEncode n x s).ctrl = s.ctrl := rfl
@[simp] theorem finishEncode_status (n : Nat) (x : Encoded) : (finishEncode n x s).status = s.status.completed none := rfl
@[simp] theorem finishEncode_events (n : Nat) (x : Encoded) : (finishEncode n x s).events = { s.events with doneEv := true } := rfl
@[simp] theorem finishEncode_srcLen (n : Nat) (x : Encoded) : (finishEncode n x s).srcLen = s.srcLen := rfl
@[simp] theorem finishEncode_wlen (n : Nat) (x : Encoded) : (finishEncode n x s).wlen = s.wlen := rfl
@[simp] theorem finishEncode_cmpLen (n : Nat) (x : Encoded) : (finishEncode n x s).cmpLen = BitVec.ofNat 17 x.size := rfl
@[simp] theorem finishEncode_decLen (n : Nat) (x : Encoded) : (finishEncode n x s).decLen = BitVec.ofNat 14 n := rfl
@[simp] theorem finishEncode_pos (n : Nat) (x : Encoded) : (finishEncode n x s).pos = s.pos := rfl
@[simp] theorem finishEncode_matchLen (n : Nat) (x : Encoded) : (finishEncode n x s).matchLen = s.matchLen := rfl
@[simp] theorem finishEncode_matchOff (n : Nat) (x : Encoded) : (finishEncode n x s).matchOff = s.matchOff := rfl
@[simp] theorem finishEncode_errPos (n : Nat) (x : Encoded) : (finishEncode n x s).errPos = 0 := rfl
@[simp] theorem finishEncode_inUsed (n : Nat) (x : Encoded) : (finishEncode n x s).inUsed = 0 := rfl
@[simp] theorem finishEncode_result (n : Nat) (x : Encoded) : (finishEncode n x s).result = s.result := rfl
@[simp] theorem finishEncode_attSize0 (n : Nat) (x : Encoded) : (finishEncode n x s).attSize0 = s.attSize0 := rfl
@[simp] theorem finishEncode_attSize1 (n : Nat) (x : Encoded) : (finishEncode n x s).attSize1 = s.attSize1 := rfl
@[simp] theorem finishEncode_attSize2 (n : Nat) (x : Encoded) : (finishEncode n x s).attSize2 = s.attSize2 := rfl
@[simp] theorem finishEncode_attSize3 (n : Nat) (x : Encoded) : (finishEncode n x s).attSize3 = s.attSize3 := rfl
@[simp] theorem finishEncode_cmpCap (n : Nat) (x : Encoded) : (finishEncode n x s).cmpCap = s.cmpCap := rfl
@[simp] theorem finishEncode_src (n : Nat) (x : Encoded) : (finishEncode n x s).src = s.src := rfl
@[simp] theorem finishEncode_wrk (n : Nat) (x : Encoded) : (finishEncode n x s).wrk = s.wrk := rfl
@[simp] theorem finishEncode_cmp (n : Nat) (x : Encoded) : (finishEncode n x s).cmp = x.cmp := rfl
@[simp] theorem finishEncode_dec (n : Nat) (x : Encoded) : (finishEncode n x s).dec = x.dec := rfl
@[simp] theorem finishEncode_engine (n : Nat) (x : Encoded) : (finishEncode n x s).engine = .idle := rfl
@[simp] theorem finishEncode_hid (n : Nat) (x : Encoded) : (finishEncode n x s).hid = Config.freeHidden s.draws := rfl
@[simp] theorem finishEncode_rst (n : Nat) (x : Encoded) : (finishEncode n x s).rst = s.rst := rfl
@[simp] theorem finishEncode_inputs (n : Nat) (x : Encoded) : (finishEncode n x s).inputs = s.inputs := rfl
@[simp] theorem finishEncode_rdata (n : Nat) (x : Encoded) : (finishEncode n x s).rdata = s.rdata := rfl
@[simp] theorem finishEncode_draws (n : Nat) (x : Encoded) : (finishEncode n x s).draws = s.draws + 1 := rfl

/-! ### failEncode: an encode that fails (47_compress.md R341) -/

@[simp] theorem failEncode_ctrl (e : HwError) : (failEncode e s).ctrl = s.ctrl := rfl
@[simp] theorem failEncode_status (e : HwError) : (failEncode e s).status = s.status.completed (some e) := rfl
@[simp] theorem failEncode_events (e : HwError) : (failEncode e s).events = { s.events with doneEv := true } := rfl
@[simp] theorem failEncode_srcLen (e : HwError) : (failEncode e s).srcLen = s.srcLen := rfl
@[simp] theorem failEncode_wlen (e : HwError) : (failEncode e s).wlen = s.wlen := rfl
@[simp] theorem failEncode_cmpLen (e : HwError) : (failEncode e s).cmpLen = 0 := rfl
@[simp] theorem failEncode_decLen (e : HwError) : (failEncode e s).decLen = 0 := rfl
@[simp] theorem failEncode_pos (e : HwError) : (failEncode e s).pos = s.pos := rfl
@[simp] theorem failEncode_matchLen (e : HwError) : (failEncode e s).matchLen = s.matchLen := rfl
@[simp] theorem failEncode_matchOff (e : HwError) : (failEncode e s).matchOff = s.matchOff := rfl
@[simp] theorem failEncode_errPos (e : HwError) : (failEncode e s).errPos = 0 := rfl
@[simp] theorem failEncode_inUsed (e : HwError) : (failEncode e s).inUsed = 0 := rfl
@[simp] theorem failEncode_result (e : HwError) : (failEncode e s).result = s.result := rfl
@[simp] theorem failEncode_attSize0 (e : HwError) : (failEncode e s).attSize0 = s.attSize0 := rfl
@[simp] theorem failEncode_attSize1 (e : HwError) : (failEncode e s).attSize1 = s.attSize1 := rfl
@[simp] theorem failEncode_attSize2 (e : HwError) : (failEncode e s).attSize2 = s.attSize2 := rfl
@[simp] theorem failEncode_attSize3 (e : HwError) : (failEncode e s).attSize3 = s.attSize3 := rfl
@[simp] theorem failEncode_cmpCap (e : HwError) : (failEncode e s).cmpCap = s.cmpCap := rfl
@[simp] theorem failEncode_src (e : HwError) : (failEncode e s).src = s.src := rfl
@[simp] theorem failEncode_wrk (e : HwError) : (failEncode e s).wrk = s.wrk := rfl
@[simp] theorem failEncode_cmp (e : HwError) : (failEncode e s).cmp = [] := rfl
@[simp] theorem failEncode_dec (e : HwError) : (failEncode e s).dec = [] := rfl
@[simp] theorem failEncode_engine (e : HwError) : (failEncode e s).engine = .idle := rfl
@[simp] theorem failEncode_hid (e : HwError) : (failEncode e s).hid = Config.freeHidden s.draws := rfl
@[simp] theorem failEncode_rst (e : HwError) : (failEncode e s).rst = s.rst := rfl
@[simp] theorem failEncode_inputs (e : HwError) : (failEncode e s).inputs = s.inputs := rfl
@[simp] theorem failEncode_rdata (e : HwError) : (failEncode e s).rdata = s.rdata := rfl
@[simp] theorem failEncode_draws (e : HwError) : (failEncode e s).draws = s.draws + 1 := rfl

/-! ### finishCompress: a COMPRESS that succeeds (47_compress.md R346) -/

@[simp] theorem finishCompress_ctrl (k : Slot) (t : Attempt) (n : Nat) (sizes : List (Slot × Nat)) : (finishCompress k t n sizes s).ctrl = s.ctrl := rfl
@[simp] theorem finishCompress_status (k : Slot) (t : Attempt) (n : Nat) (sizes : List (Slot × Nat)) : (finishCompress k t n sizes s).status = s.status.completed none := rfl
@[simp] theorem finishCompress_events (k : Slot) (t : Attempt) (n : Nat) (sizes : List (Slot × Nat)) : (finishCompress k t n sizes s).events = { s.events with doneEv := true } := rfl
@[simp] theorem finishCompress_srcLen (k : Slot) (t : Attempt) (n : Nat) (sizes : List (Slot × Nat)) : (finishCompress k t n sizes s).srcLen = s.srcLen := rfl
@[simp] theorem finishCompress_wlen (k : Slot) (t : Attempt) (n : Nat) (sizes : List (Slot × Nat)) : (finishCompress k t n sizes s).wlen = BitVec.ofNat 14 n := rfl
@[simp] theorem finishCompress_cmpLen (k : Slot) (t : Attempt) (n : Nat) (sizes : List (Slot × Nat)) : (finishCompress k t n sizes s).cmpLen = BitVec.ofNat 17 t.enc.size := rfl
@[simp] theorem finishCompress_decLen (k : Slot) (t : Attempt) (n : Nat) (sizes : List (Slot × Nat)) : (finishCompress k t n sizes s).decLen = BitVec.ofNat 14 n := rfl
@[simp] theorem finishCompress_pos (k : Slot) (t : Attempt) (n : Nat) (sizes : List (Slot × Nat)) : (finishCompress k t n sizes s).pos = s.pos := rfl
@[simp] theorem finishCompress_matchLen (k : Slot) (t : Attempt) (n : Nat) (sizes : List (Slot × Nat)) : (finishCompress k t n sizes s).matchLen = s.matchLen := rfl
@[simp] theorem finishCompress_matchOff (k : Slot) (t : Attempt) (n : Nat) (sizes : List (Slot × Nat)) : (finishCompress k t n sizes s).matchOff = s.matchOff := rfl
@[simp] theorem finishCompress_errPos (k : Slot) (t : Attempt) (n : Nat) (sizes : List (Slot × Nat)) : (finishCompress k t n sizes s).errPos = 0 := rfl
@[simp] theorem finishCompress_inUsed (k : Slot) (t : Attempt) (n : Nat) (sizes : List (Slot × Nat)) : (finishCompress k t n sizes s).inUsed = 0 := rfl
@[simp] theorem finishCompress_result (k : Slot) (t : Attempt) (n : Nat) (sizes : List (Slot × Nat)) : (finishCompress k t n sizes s).result = { slot := BitVec.ofNat 2 k.val, variant := slotVariant s.ctrl k, parser := slotOptimal k, valid := true } := rfl
@[simp] theorem finishCompress_attSize0 (k : Slot) (t : Attempt) (n : Nat) (sizes : List (Slot × Nat)) : (finishCompress k t n sizes s).attSize0 = sizeOf sizes 0 := rfl
@[simp] theorem finishCompress_attSize1 (k : Slot) (t : Attempt) (n : Nat) (sizes : List (Slot × Nat)) : (finishCompress k t n sizes s).attSize1 = sizeOf sizes 1 := rfl
@[simp] theorem finishCompress_attSize2 (k : Slot) (t : Attempt) (n : Nat) (sizes : List (Slot × Nat)) : (finishCompress k t n sizes s).attSize2 = sizeOf sizes 2 := rfl
@[simp] theorem finishCompress_attSize3 (k : Slot) (t : Attempt) (n : Nat) (sizes : List (Slot × Nat)) : (finishCompress k t n sizes s).attSize3 = sizeOf sizes 3 := rfl
@[simp] theorem finishCompress_cmpCap (k : Slot) (t : Attempt) (n : Nat) (sizes : List (Slot × Nat)) : (finishCompress k t n sizes s).cmpCap = s.cmpCap := rfl
@[simp] theorem finishCompress_src (k : Slot) (t : Attempt) (n : Nat) (sizes : List (Slot × Nat)) : (finishCompress k t n sizes s).src = s.src := rfl
@[simp] theorem finishCompress_wrk (k : Slot) (t : Attempt) (n : Nat) (sizes : List (Slot × Nat)) : (finishCompress k t n sizes s).wrk = t.wrk := rfl
@[simp] theorem finishCompress_cmp (k : Slot) (t : Attempt) (n : Nat) (sizes : List (Slot × Nat)) : (finishCompress k t n sizes s).cmp = losersErase s.cmpCap sizes t.enc.size t.enc.cmp := rfl
@[simp] theorem finishCompress_dec (k : Slot) (t : Attempt) (n : Nat) (sizes : List (Slot × Nat)) : (finishCompress k t n sizes s).dec = t.enc.dec := rfl
@[simp] theorem finishCompress_engine (k : Slot) (t : Attempt) (n : Nat) (sizes : List (Slot × Nat)) : (finishCompress k t n sizes s).engine = .idle := rfl
@[simp] theorem finishCompress_hid (k : Slot) (t : Attempt) (n : Nat) (sizes : List (Slot × Nat)) : (finishCompress k t n sizes s).hid = Config.freeHidden s.draws := rfl
@[simp] theorem finishCompress_rst (k : Slot) (t : Attempt) (n : Nat) (sizes : List (Slot × Nat)) : (finishCompress k t n sizes s).rst = s.rst := rfl
@[simp] theorem finishCompress_inputs (k : Slot) (t : Attempt) (n : Nat) (sizes : List (Slot × Nat)) : (finishCompress k t n sizes s).inputs = s.inputs := rfl
@[simp] theorem finishCompress_rdata (k : Slot) (t : Attempt) (n : Nat) (sizes : List (Slot × Nat)) : (finishCompress k t n sizes s).rdata = s.rdata := rfl
@[simp] theorem finishCompress_draws (k : Slot) (t : Attempt) (n : Nat) (sizes : List (Slot × Nat)) : (finishCompress k t n sizes s).draws = s.draws + 1 := rfl

/-! ### failCompress: a COMPRESS that fails in an attempt (47_compress.md R347) -/

@[simp] theorem failCompress_ctrl (e : HwError) (n : Nat) (sizes : List (Slot × Nat)) : (failCompress e n sizes s).ctrl = s.ctrl := rfl
@[simp] theorem failCompress_status (e : HwError) (n : Nat) (sizes : List (Slot × Nat)) : (failCompress e n sizes s).status = s.status.completed (some e) := rfl
@[simp] theorem failCompress_events (e : HwError) (n : Nat) (sizes : List (Slot × Nat)) : (failCompress e n sizes s).events = { s.events with doneEv := true } := rfl
@[simp] theorem failCompress_srcLen (e : HwError) (n : Nat) (sizes : List (Slot × Nat)) : (failCompress e n sizes s).srcLen = s.srcLen := rfl
@[simp] theorem failCompress_wlen (e : HwError) (n : Nat) (sizes : List (Slot × Nat)) : (failCompress e n sizes s).wlen = BitVec.ofNat 14 n := rfl
@[simp] theorem failCompress_cmpLen (e : HwError) (n : Nat) (sizes : List (Slot × Nat)) : (failCompress e n sizes s).cmpLen = 0 := rfl
@[simp] theorem failCompress_decLen (e : HwError) (n : Nat) (sizes : List (Slot × Nat)) : (failCompress e n sizes s).decLen = 0 := rfl
@[simp] theorem failCompress_pos (e : HwError) (n : Nat) (sizes : List (Slot × Nat)) : (failCompress e n sizes s).pos = s.pos := rfl
@[simp] theorem failCompress_matchLen (e : HwError) (n : Nat) (sizes : List (Slot × Nat)) : (failCompress e n sizes s).matchLen = s.matchLen := rfl
@[simp] theorem failCompress_matchOff (e : HwError) (n : Nat) (sizes : List (Slot × Nat)) : (failCompress e n sizes s).matchOff = s.matchOff := rfl
@[simp] theorem failCompress_errPos (e : HwError) (n : Nat) (sizes : List (Slot × Nat)) : (failCompress e n sizes s).errPos = 0 := rfl
@[simp] theorem failCompress_inUsed (e : HwError) (n : Nat) (sizes : List (Slot × Nat)) : (failCompress e n sizes s).inUsed = 0 := rfl
@[simp] theorem failCompress_result (e : HwError) (n : Nat) (sizes : List (Slot × Nat)) : (failCompress e n sizes s).result = RunResult.reset := rfl
@[simp] theorem failCompress_attSize0 (e : HwError) (n : Nat) (sizes : List (Slot × Nat)) : (failCompress e n sizes s).attSize0 = sizeOf sizes 0 := rfl
@[simp] theorem failCompress_attSize1 (e : HwError) (n : Nat) (sizes : List (Slot × Nat)) : (failCompress e n sizes s).attSize1 = sizeOf sizes 1 := rfl
@[simp] theorem failCompress_attSize2 (e : HwError) (n : Nat) (sizes : List (Slot × Nat)) : (failCompress e n sizes s).attSize2 = sizeOf sizes 2 := rfl
@[simp] theorem failCompress_attSize3 (e : HwError) (n : Nat) (sizes : List (Slot × Nat)) : (failCompress e n sizes s).attSize3 = sizeOf sizes 3 := rfl
@[simp] theorem failCompress_cmpCap (e : HwError) (n : Nat) (sizes : List (Slot × Nat)) : (failCompress e n sizes s).cmpCap = s.cmpCap := rfl
@[simp] theorem failCompress_src (e : HwError) (n : Nat) (sizes : List (Slot × Nat)) : (failCompress e n sizes s).src = s.src := rfl
@[simp] theorem failCompress_wrk (e : HwError) (n : Nat) (sizes : List (Slot × Nat)) : (failCompress e n sizes s).wrk = s.wrk.undefine 0 n := rfl
@[simp] theorem failCompress_cmp (e : HwError) (n : Nat) (sizes : List (Slot × Nat)) : (failCompress e n sizes s).cmp = [] := rfl
@[simp] theorem failCompress_dec (e : HwError) (n : Nat) (sizes : List (Slot × Nat)) : (failCompress e n sizes s).dec = [] := rfl
@[simp] theorem failCompress_engine (e : HwError) (n : Nat) (sizes : List (Slot × Nat)) : (failCompress e n sizes s).engine = .idle := rfl
@[simp] theorem failCompress_hid (e : HwError) (n : Nat) (sizes : List (Slot × Nat)) : (failCompress e n sizes s).hid = Config.freeHidden s.draws := rfl
@[simp] theorem failCompress_rst (e : HwError) (n : Nat) (sizes : List (Slot × Nat)) : (failCompress e n sizes s).rst = s.rst := rfl
@[simp] theorem failCompress_inputs (e : HwError) (n : Nat) (sizes : List (Slot × Nat)) : (failCompress e n sizes s).inputs = s.inputs := rfl
@[simp] theorem failCompress_rdata (e : HwError) (n : Nat) (sizes : List (Slot × Nat)) : (failCompress e n sizes s).rdata = s.rdata := rfl
@[simp] theorem failCompress_draws (e : HwError) (n : Nat) (sizes : List (Slot × Nat)) : (failCompress e n sizes s).draws = s.draws + 1 := rfl

end Sys2Proof.Machine
end

