-- ==== Sys2Proof/Laws/Outcomes.lean ====
section
/-! SUPPORT. What the shared operations of the commands can answer: for each command one inversion lemma that says every way it can answer a
next state, the meanings cited instead of unfolded. -/

namespace Sys2Proof.Machine

open Sys2Proof

variable {s t : State}

/-! ### Completion -/

theorem complete_eq (s : State) : complete s = .next (s.finish none) := rfl
theorem raiseError_eq (e : HwError) (s : State) : raiseError e s = .next (s.finish (some e)) := rfl
theorem uninit_eq : uninit = .fault .uninitRead := rfl

@[simp] theorem complete_next : complete s = .next t ↔ t = s.finish none := by
  rw [complete_eq, Host.Outcome.next.injEq, eq_comm]

@[simp] theorem raiseError_next {e : HwError} : raiseError e s = .next t ↔ t = s.finish (some e) := by
  rw [raiseError_eq, Host.Outcome.next.injEq, eq_comm]

@[simp] theorem uninit_ne_next : uninit ≠ .next t := nofun
@[simp] theorem complete_ne_fault {r : Fault} : complete s ≠ .fault r := nofun
@[simp] theorem raiseError_ne_fault {e : HwError} {r : Fault} : raiseError e s ≠ .fault r := nofun
@[simp] theorem complete_ne_refused {r : Refusal} : complete s ≠ .refused r := nofun
@[simp] theorem raiseError_ne_refused {e : HwError} {r : Refusal} : raiseError e s ≠ .refused r := nofun
@[simp] theorem uninit_ne_refused {r : Refusal} : uninit ≠ .refused r := nofun

/-- Completion in the claims' terms (60_exceptions.md R370), without error. -/
theorem finish_none_eq (s : State) : s.finish none = s.finished 0 0 (Config.freeHidden s.draws) (s.draws + 1) := rfl

/-- An error's class is never 0. -/
theorem HwError.code_ne_zero (e : HwError) : e.code ≠ 0 := by cases e <;> decide

/-- Completion in the claims' terms, with an error. -/
theorem finish_some_eq (e : HwError) (s : State) :
    s.finish (some e) = s.finished e.code e.detail (Config.freeHidden s.draws) (s.draws + 1) := by
  have h : ¬ e.code = 0 := e.code_ne_zero
  simpa [State.finish, State.finished, Status.completed] using h

/-- The pair of every error exists (60_exceptions.md R362). -/
theorem HwError.pair_mem (e : HwError) : (e.code.toNat, e.detail.toNat) ∈ errorPairs := by cases e <;> decide

theorem badInputLength_eq_true {n : Nat} : badInputLength n = true ↔ n < 8184 ∨ 8192 < n := by
  simp [badInputLength]

theorem badInputLength_eq_false {n : Nat} : badInputLength n = false ↔ 8184 ≤ n ∧ n ≤ 8192 := by
  simp [badInputLength]

/-- The capacity is one of the two lengths. -/
theorem Ctrl.capacity_cases (c : Ctrl) :
    (c.preserveHoles = true ∧ c.capacity = 8192) ∨ (c.preserveHoles = false ∧ c.capacity = 8184) := by
  unfold Ctrl.capacity
  cases c.preserveHoles <;> simp

theorem Ctrl.capacity_le (c : Ctrl) : c.capacity ≤ 8192 := by
  rcases c.capacity_cases with ⟨_, h⟩ | ⟨_, h⟩ <;> omega

/-! ### LOAD -/

/-- The bytes of LOAD are as many as asked for. -/
theorem loadBytes_length {m : Memory} {len n : Nat} {bs : List Byte} (h : loadBytes m len n = some bs) : bs.length = n := by
  unfold loadBytes at h
  split at h
  · cases h
  · next raw hr =>
    cases h
    have := (Memory.readBytes_eq_some.mp hr).1
    simp [this]
    omega

/-- Each byte of LOAD (40_control.md R172). -/
theorem loadBytes_getElem? {m : Memory} {len n p : Nat} {bs : List Byte} (h : loadBytes m len n = some bs) (hp : p < n) :
    bs[p]? = if p < len then m.read p else some 0 := by
  unfold loadBytes at h
  split at h
  · cases h
  · next raw hr =>
    cases h
    obtain ⟨h1, h2⟩ := Memory.readBytes_eq_some.mp hr
    split
    · next hl =>
      rw [List.getElem?_append_left (by omega), ← h2 p (by omega), Nat.zero_add]
    · next hl =>
      rw [List.getElem?_append_right (by omega), List.getElem?_replicate, if_pos (by omega)]

/-- LOAD finds its bytes exactly where those of SRC it reads are defined. -/
theorem loadBytes_eq_none {m : Memory} {len n : Nat} : loadBytes m len n = none ↔ ¬ m.DefinedOn 0 (min n len) := by
  rw [← Memory.readBytes_eq_none]
  unfold loadBytes
  split <;> simp_all

theorem execLoad_next (h : execLoad s = .next t) :
    ((s.srcLen.toNat < 8184 ∨ 8192 < s.srcLen.toNat) ∧ t = s.finish (some .srcLen)) ∨
    (8184 ≤ s.srcLen.toNat ∧ s.srcLen.toNat ≤ 8192 ∧ ∃ bs, loadBytes s.src s.srcLen.toNat s.ctrl.capacity = some bs ∧
      t = ({ s with wrk := s.wrk.writeBytes 0 bs, wlen := BitVec.ofNat 14 s.ctrl.capacity } : State).finish none) := by
  simp only [execLoad] at h
  split at h
  · next hb => exact .inl ⟨badInputLength_eq_true.mp hb, raiseError_next.mp h⟩
  · next hb =>
    have hb := badInputLength_eq_false.mp (Bool.not_eq_true _ ▸ hb)
    split at h
    · exact absurd h uninit_ne_next
    · next bs hbs => exact .inr ⟨hb.1, hb.2, bs, hbs, complete_next.mp h⟩

/-! ### The hole commands -/

/-- The length check of the hole commands (41_hole_processor.md R191, R193). -/
theorem holeLengthError_cases (n : Nat) :
    (8192 < n ∧ holeLengthError n = some .wlenMax) ∨ (n < 128 ∧ holeLengthError n = some .wlenMin) ∨
    (128 ≤ n ∧ n ≤ 8192 ∧ holeLengthError n = none) := by
  unfold holeLengthError
  simp only [Config.bufSize]
  split
  · exact .inl ⟨by assumption, rfl⟩
  · split
    · exact .inr (.inl ⟨by assumption, rfl⟩)
    · exact .inr (.inr ⟨by omega, by omega, rfl⟩)

theorem execHoleZero_next (h : execHoleZero s = .next t) :
    (∃ e, holeLengthError s.wlen.toNat = some e ∧ t = s.finish (some e)) ∨
    (128 ≤ s.wlen.toNat ∧ s.wlen.toNat ≤ 8192 ∧ t = ({ s with wrk := zeroFill s.wlen.toNat s.wrk } : State).finish none) := by
  simp only [execHoleZero] at h
  split at h
  · next e he => exact .inl ⟨e, he, raiseError_next.mp h⟩
  · next he =>
    rcases holeLengthError_cases s.wlen.toNat with ⟨_, h'⟩ | ⟨_, h'⟩ | ⟨h1, h2, _⟩
    · rw [h'] at he; cases he
    · rw [h'] at he; cases he
    · exact .inr ⟨h1, h2, complete_next.mp h⟩

theorem execHolePattern_next (h : execHolePattern s = .next t) :
    (∃ e, holeLengthError s.wlen.toNat = some e ∧ t = s.finish (some e)) ∨
    (128 ≤ s.wlen.toNat ∧ s.wlen.toNat ≤ 8192 ∧ ∃ m, patternFill s.wlen.toNat s.wrk = some m ∧
      t = ({ s with wrk := m } : State).finish none) := by
  simp only [execHolePattern] at h
  split at h
  · next e he => exact .inl ⟨e, he, raiseError_next.mp h⟩
  · next he =>
    rcases holeLengthError_cases s.wlen.toNat with ⟨_, h'⟩ | ⟨_, h'⟩ | ⟨h1, h2, _⟩
    · rw [h'] at he; cases he
    · rw [h'] at he; cases he
    · split at h
      · exact absurd h uninit_ne_next
      · next m hm => exact .inr ⟨h1, h2, m, hm, complete_next.mp h⟩

/-! ### MATCH -/

theorem execMatch_next (h : execMatch s = .next t) :
    (8192 < s.wlen.toNat ∧ t = s.finish (some .wlenMax)) ∨
    (s.wlen.toNat ≤ 8192 ∧ s.wlen.toNat ≤ s.pos.toNat ∧ t = s.finish (some .posRange)) ∨
    (s.wlen.toNat ≤ 8192 ∧ s.pos.toNat < s.wlen.toNat ∧
      ∃ l o, findInCells (s.wrk.cells 0 s.wlen.toNat) s.pos.toNat = some (l, o) ∧
        t = ({ s with matchLen := BitVec.ofNat 8 l, matchOff := BitVec.ofNat 13 o } : State).finish none) := by
  simp only [execMatch, Config.bufSize] at h
  split at h
  · next h1 => exact .inl ⟨h1, raiseError_next.mp h⟩
  · next h1 =>
    split at h
    · next h2 => exact .inr (.inl ⟨by omega, h2, raiseError_next.mp h⟩)
    · next h2 =>
      split at h
      · exact absurd h uninit_ne_next
      · next l o hr => exact .inr (.inr ⟨by omega, by omega, l, o, hr, complete_next.mp h⟩)

/-! ### Encoding -/

/-- A verification that succeeds has decoded the input (47_compress.md R340). -/
theorem verify_ok {cmp dec x : Memory} {len : Nat} {input : List Byte} (h : verify cmp len input dec = .ok x) :
    ∃ d, runDecode cmp len input.length dec = .done d ∧ d.op = input.length ∧ d.dec = x ∧ x.Holds 0 input := by
  unfold verify at h
  split at h
  · cases h
  · cases h
  · next d hd =>
    split at h
    · cases h
    · next hop =>
      split at h
      · cases h
      · next out hout =>
        split at h
        · next heq =>
          cases h
          subst heq
          exact ⟨d, hd, by simpa using hop, rfl, Memory.holds_iff_readBytes.mpr hout⟩
        · cases h

/-- An encode that succeeds: the stream fits, stands in CMP[0..), and decodes to the input. -/
theorem emitAndVerify_ok {cap : Nat} {cmp dec : Memory} {input stream : List Byte} {x : Encoded}
    (h : emitAndVerify cap cmp dec input stream = .ok x) :
    stream.length ≤ cap ∧ x.size = stream.length ∧ x.cmp = cmp.writeBytes 0 stream ∧
    ∃ d, runDecode (cmp.writeBytes 0 stream) stream.length input.length dec = .done d ∧ d.op = input.length ∧ d.dec = x.dec ∧
      x.dec.Holds 0 input := by
  simp only [emitAndVerify] at h
  split at h
  · cases h
  · next hl =>
    split at h
    · cases h
    · cases h
    · next dec' hv =>
      cases h
      exact ⟨by omega, rfl, rfl, verify_ok hv⟩

/-- The errors of an encode (60_exceptions.md R363). -/
theorem emitAndVerify_failed {cap : Nat} {cmp dec : Memory} {input stream : List Byte} {e : HwError}
    (h : emitAndVerify cap cmp dec input stream = .failed e) :
    (e = .encFull ∧ cap < stream.length) ∨ e = .decodeFail ∨ e = .length ∨ e = .data := by
  simp only [emitAndVerify] at h
  split at h
  · next hl => cases h; exact .inl ⟨rfl, hl⟩
  · split at h
    · cases h
    · next e' hv =>
      cases h
      unfold verify at hv
      split at hv
      · cases hv
      · cases hv; exact .inr (.inl rfl)
      · split at hv
        · cases hv; exact .inr (.inr (.inl rfl))
        · split at hv
          · cases hv
          · split at hv
            · cases hv
            · cases hv; exact .inr (.inr (.inr rfl))
    · cases h

theorem encodeWith_next {parse : List Byte → List Byte} (h : encodeWith parse s = .next t) :
    ((s.wlen.toNat < 8184 ∨ 8192 < s.wlen.toNat) ∧ t = s.finish (some .wlen)) ∨
    (8184 ≤ s.wlen.toNat ∧ s.wlen.toNat ≤ 8192 ∧ ∃ input, s.wrk.readBytes 0 s.wlen.toNat = some input ∧
      ((∃ e, emitAndVerify s.cmpCap s.cmp s.dec input (parse input) = .failed e ∧ t = failEncode e s) ∨
       (∃ x, emitAndVerify s.cmpCap s.cmp s.dec input (parse input) = .ok x ∧ t = finishEncode s.wlen.toNat x s))) := by
  simp only [encodeWith] at h
  split at h
  · next hb => exact .inl ⟨badInputLength_eq_true.mp hb, raiseError_next.mp h⟩
  · next hb =>
    have hb := badInputLength_eq_false.mp (Bool.not_eq_true _ ▸ hb)
    split at h
    · exact absurd h uninit_ne_next
    · next input hi =>
      refine .inr ⟨hb.1, hb.2, input, hi, ?_⟩
      split at h
      · exact absurd h uninit_ne_next
      · next e he => cases h; exact .inl ⟨e, he, rfl⟩
      · next x hx => cases h; exact .inr ⟨x, hx, rfl⟩

/-! ### DECODE -/

theorem applyChunk_next {r : ChunkResult} (h : applyChunk r s = .next t) :
    (∃ d, r = .go d ∧ t = s.setDecState d) ∨ (∃ d, r = .stop d ∧ t = finishDecode d s) ∨
    (∃ e p, r = .raised e p ∧ t = failDecode e p s) := by
  cases r with
  | go d => cases h; exact .inl ⟨d, rfl, rfl⟩
  | stop d => cases h; exact .inr (.inl ⟨d, rfl, rfl⟩)
  | raised e p => cases h; exact .inr (.inr ⟨e, p, rfl, rfl⟩)
  | uninit => exact absurd h uninit_ne_next

theorem applyDecode_next {r : DecodeResult} (h : applyDecode r s = .next t) :
    (∃ d, r = .done d ∧ t = finishDecode d s) ∨ (∃ e p, r = .raised e p ∧ t = failDecode e p s) := by
  cases r with
  | done d => cases h; exact .inl ⟨d, rfl, rfl⟩
  | raised e p => cases h; exact .inr ⟨e, p, rfl, rfl⟩
  | uninit => exact absurd h uninit_ne_next

theorem execDecode_next (h : execDecode s = .next t) :
    (s.cmpCap < s.cmpLen.toNat ∧ t = s.finish (some .cmpLenMax)) ∨
    (s.cmpLen.toNat ≤ s.cmpCap ∧
      ((∃ d, runDecode s.cmp s.cmpLen.toNat s.ctrl.capacity s.dec = .done d ∧ t = finishDecode d s) ∨
       (∃ e p, runDecode s.cmp s.cmpLen.toNat s.ctrl.capacity s.dec = .raised e p ∧ t = failDecode e p s))) := by
  simp only [execDecode] at h
  split at h
  · next hl => exact .inl ⟨hl, raiseError_next.mp h⟩
  · next hl => exact .inr ⟨by omega, applyDecode_next h⟩

/-- A failed decode in the claims' terms (46_decoder.md R300, R310). -/
theorem failDecode_decodeFailed (e : HwError) (p : Nat) (s : State) : s.DecodeFailed e.code e.detail p (failDecode e p s) := by
  refine ⟨Config.freeHidden s.draws, s.draws + 1, s.dec.undefine 0 s.ctrl.capacity, ?_, ?_⟩
  · unfold failDecode
    rw [finish_some_eq]
    rfl
  · intro a
    rw [Memory.read_undefine]
    simp

end Sys2Proof.Machine
end

