-- ==== Sys2Proof/Laws/Compress.lean ====
section
/-! SUPPORT. The slots and the selection of COMPRESS: which slots run, what an attempt answers, what the run of the slots collects, and
which slot is picked (47_compress.md R342 to R347). -/

namespace Sys2Proof.Machine

open Sys2Proof

/-- The enabled slots are those of 47_compress.md R342. -/
theorem mem_enabledSlots {c : Ctrl} {k : Slot} : k ∈ enabledSlots c ↔ SlotRuns c k.val := by
  obtain ⟨p, g, o, z, t, q⟩ := c
  unfold SlotRuns
  revert p g o z t q k
  decide

/-- Only the slots 0 to 3 run. -/
theorem SlotRuns.lt {c : Ctrl} {k : Nat} (h : SlotRuns c k) : k < 4 := by
  rcases h with ⟨rfl, _⟩ | ⟨rfl, _⟩ | ⟨rfl, _⟩ | ⟨rfl, _⟩ <;> decide

/-- The enabled slots come in increasing order. -/
theorem enabledSlots_sorted (c : Ctrl) : (enabledSlots c).Pairwise (fun x y => x.val < y.val) := by
  unfold enabledSlots
  exact List.Pairwise.filter _ (by decide)

/-- What an attempt that succeeds has done (47_compress.md R344). -/
theorem attempt_ok {s : State} {len n : Nat} {k : Slot} {a : Attempt} (h : attempt s len n k = .ok a) :
    ∃ raw input, loadBytes s.src len n = some raw ∧
      applyVariant (slotVariant s.ctrl k) n (s.wrk.writeBytes 0 raw) = some a.wrk ∧
      a.wrk.readBytes 0 n = some input ∧
      emitAndVerify s.cmpCap s.cmp s.dec input (slotParse k input) = .ok a.enc := by
  unfold attempt at h
  split at h
  · cases h
  · next raw hraw =>
    split at h
    · cases h
    · next wrk hw =>
      split at h
      · cases h
      · next input hi =>
        split at h
        · cases h
        · cases h
        · next x hx => cases h; exact ⟨raw, input, hraw, hw, hi, hx⟩

/-- An attempt fails only in its encode (47_compress.md R347). -/
theorem attempt_failed {s : State} {len n : Nat} {k : Slot} {e : HwError} (h : attempt s len n k = .failed e) :
    ∃ input, emitAndVerify s.cmpCap s.cmp s.dec input (slotParse k input) = .failed e := by
  unfold attempt at h
  split at h
  · cases h
  · split at h
    · cases h
    · split at h
      · cases h
      · next input _ =>
        split at h
        · cases h
        · next e' he => cases h; exact ⟨input, he⟩
        · cases h

/-- The sizes the run of the slots collects, each that of a successful attempt (47_compress.md R343). -/
theorem runSlots_ok {s : State} {len n : Nat} {ks : List Slot} {acc sizes : List (Slot × Nat)}
    (h : runSlots s len n ks acc = .ok sizes) :
    ∃ new, sizes = acc ++ new ∧ new.map Prod.fst = ks ∧ ∀ x ∈ new, ∃ a, attempt s len n x.1 = .ok a ∧ a.enc.size = x.2 := by
  induction ks generalizing acc with
  | nil => cases h; exact ⟨[], by simp, rfl, by simp⟩
  | cons k ks ih =>
    simp only [runSlots] at h
    split at h
    · cases h
    · cases h
    · next a ha =>
      obtain ⟨new, h1, h2, h3⟩ := ih h
      refine ⟨(k, a.enc.size) :: new, by rw [h1]; simp, by simp [h2], ?_⟩
      intro x hx
      rcases List.mem_cons.mp hx with rfl | hx
      · exact ⟨a, ha, rfl⟩
      · exact h3 x hx

/-- The run of the slots fails with the error of the first attempt that fails. -/
theorem runSlots_failed {s : State} {len n : Nat} {ks : List Slot} {acc sizes : List (Slot × Nat)} {e : HwError}
    (h : runSlots s len n ks acc = .failed e sizes) : ∃ k ∈ ks, attempt s len n k = .failed e := by
  induction ks generalizing acc with
  | nil => cases h
  | cons k ks ih =>
    simp only [runSlots] at h
    split at h
    · cases h
    · next e' he => cases h; exact ⟨k, List.mem_cons_self, he⟩
    · obtain ⟨j, hj, hj'⟩ := ih h
      exact ⟨j, List.mem_cons_of_mem _ hj, hj'⟩

/-- The slot picked: the smallest size, the first of equals (47_compress.md R345). -/
theorem pickBest_spec (xs : List (Slot × Nat)) (best : Option (Slot × Nat)) :
    (pickBest xs best = none ↔ xs = [] ∧ best = none) ∧
    ∀ r, pickBest xs best = some r →
      (r ∈ xs ∨ best = some r) ∧ (∀ x ∈ xs, r.2 ≤ x.2) ∧ (∀ b, best = some b → r.2 ≤ b.2) ∧
      (best ≠ some r → ∀ b, best = some b → r.2 < b.2) := by
  induction xs generalizing best with
  | nil => cases best <;> simp [pickBest]
  | cons x xs ih =>
    cases best with
    | none =>
      obtain ⟨h1, h2⟩ := ih (some x)
      refine ⟨by simp [pickBest, h1], ?_⟩
      intro r hr
      obtain ⟨m1, m2, m3, m4⟩ := h2 r hr
      refine ⟨.inl ?_, ?_, by simp, by simp⟩
      · rcases m1 with m1 | m1
        · exact List.mem_cons_of_mem _ m1
        · cases m1; exact List.mem_cons_self
      · intro y hy
        rcases List.mem_cons.mp hy with rfl | hy
        · exact m3 _ rfl
        · exact m2 y hy
    | some b =>
      simp only [pickBest]
      split
      · next hlt =>
        obtain ⟨h1, h2⟩ := ih (some x)
        refine ⟨by simp [h1], ?_⟩
        intro r hr
        obtain ⟨m1, m2, m3, m4⟩ := h2 r hr
        have hx := m3 x rfl
        refine ⟨.inl ?_, ?_, ?_, ?_⟩
        · rcases m1 with m1 | m1
          · exact List.mem_cons_of_mem _ m1
          · cases m1; exact List.mem_cons_self
        · intro y hy
          rcases List.mem_cons.mp hy with rfl | hy
          · exact hx
          · exact m2 y hy
        · intro c hc; cases hc; omega
        · intro _ c hc; cases hc; omega
      · next hlt =>
        obtain ⟨h1, h2⟩ := ih (some b)
        refine ⟨by simp [h1], ?_⟩
        intro r hr
        obtain ⟨m1, m2, m3, m4⟩ := h2 r hr
        have hb := m3 b rfl
        refine ⟨m1.imp (List.mem_cons_of_mem _) id, ?_, m3, m4⟩
        intro y hy
        rcases List.mem_cons.mp hy with rfl | hy
        · omega
        · exact m2 y hy

/-- Every way COMPRESS can answer a next state (47_compress.md R343, R346, R347). -/
theorem execCompress_next {s t : State} (h : execCompress s = .next t) :
    ((s.srcLen.toNat < 8184 ∨ 8192 < s.srcLen.toNat) ∧ t = (s.setAttempts RunResult.reset []).finish (some .srcLen)) ∨
    (8184 ≤ s.srcLen.toNat ∧ s.srcLen.toNat ≤ 8192 ∧
      (enabledSlots s.ctrl = [] ∧ t = (s.setAttempts RunResult.reset []).finish (some .noSlot) ∨
       (∃ e sizes k, attempt s s.srcLen.toNat s.ctrl.capacity k = .failed e ∧ t = failCompress e s.ctrl.capacity sizes s) ∨
       (∃ k a sizes, runSlots s s.srcLen.toNat s.ctrl.capacity (enabledSlots s.ctrl) [] = .ok sizes ∧
          pickBest sizes none = some (k, a.enc.size) ∧ attempt s s.srcLen.toNat s.ctrl.capacity k = .ok a ∧
          t = finishCompress k a s.ctrl.capacity sizes s))) := by
  simp only [execCompress] at h
  split at h
  · next hb => exact .inl ⟨badInputLength_eq_true.mp hb, raiseError_next.mp h⟩
  · next hb =>
    have hb := badInputLength_eq_false.mp (Bool.not_eq_true _ ▸ hb)
    refine .inr ⟨hb.1, hb.2, ?_⟩
    split at h
    · next he => exact .inl ⟨List.isEmpty_iff.mp he, raiseError_next.mp h⟩
    · next he =>
      have he : enabledSlots s.ctrl ≠ [] := fun h0 => he (by rw [h0]; rfl)
      refine .inr ?_
      split at h
      · exact absurd h uninit_ne_next
      · next e sizes hf =>
        obtain ⟨k, _, hk⟩ := runSlots_failed hf
        cases h
        exact .inl ⟨e, sizes, k, hk, rfl⟩
      · next sizes hs =>
        obtain ⟨new, h1, h2, h3⟩ := runSlots_ok hs
        obtain rfl : sizes = new := by simpa using h1
        split at h
        · next hn =>
          exact absurd (by rw [← h2, ((pickBest_spec sizes none).1.mp hn).1]; rfl) he
        · next k sz hp =>
          have hm := ((pickBest_spec sizes none).2 _ hp).1
          have hm : (k, sz) ∈ sizes := by simpa using hm
          obtain ⟨a, ha, hsz⟩ := h3 _ hm
          simp only at ha hsz
          rw [ha] at h
          simp only at h
          cases h
          exact .inr ⟨k, a, sizes, hs, by rw [hp, hsz], ha, rfl⟩

end Sys2Proof.Machine
end

