-- ==== Sys2Proof/Laws/Decoder.lean ====
section
/-! SUPPORT. What each Decoder operation can answer: one lemma per operation and outcome, and the induction over the loop of
46_decoder.md R301. -/

namespace Sys2Proof.Machine

open Sys2Proof

/-! ### Reading a chunk -/

theorem hdrSize_pos (run : Nat) : 1 ≤ hdrSize run := by
  unfold hdrSize
  split <;> omega

theorem tailSize_pos (t : Tail) : 1 ≤ t.size := by cases t <;> simp [Tail.size]

theorem chunkSize_pos (c : Chunk) : 2 ≤ c.size := by
  have h1 := hdrSize_pos c.lits.length
  have h2 := tailSize_pos c.tail
  unfold Chunk.size
  omega

/-- FB and LX: the header's size is fixed by the run's length, and the body is what follows. -/
theorem decodeRun_ok {ln : Nibble} {bs body : List Byte} {hdr run : Nat} (h : decodeRun ln bs = .ok (hdr, run, body)) :
    hdr = hdrSize run ∧ 1 + bs.length = hdr + body.length := by
  unfold decodeRun at h
  split at h
  · next hl =>
    cases h
    have : ln.toNat < 15 := by
      have := ln.isLt
      have : ln.toNat ≠ 15 := fun h15 => hl (BitVec.eq_of_toNat_eq h15)
      omega
    exact ⟨by unfold hdrSize; rw [if_pos this], rfl⟩
  · cases bs with
    | nil => cases h
    | cons lx rest =>
      cases h
      exact ⟨by unfold hdrSize; rw [if_neg (by omega)], by simp; omega⟩

theorem decodeOffset_ok {hdr run index : Nat} {bs rest : List Byte} {off : BitVec 16}
    (h : decodeOffset hdr run index bs = .ok (off, rest)) : bs.length = 2 + rest.length := by
  match bs, h with
  | [], h => cases h
  | [_], h => cases h
  | _ :: _ :: r, h =>
    simp only [decodeOffset, Except.ok.injEq, Prod.mk.injEq] at h
    rw [← h.2]
    simp
    omega

theorem decodeTail_ok {mn : Nibble} {hdr run : Nat} {bs rest : List Byte} {t : Tail} (h : decodeTail mn hdr run bs = .ok (t, rest)) :
    bs.length = t.size + rest.length := by
  unfold decodeTail at h
  split at h
  · split at h
    · cases h
    · next off r ho =>
      cases h
      exact decodeOffset_ok ho
  · cases bs with
    | nil => cases h
    | cons mx r =>
      simp only at h
      split at h
      · cases h; simp [Tail.size]; omega
      · split at h
        · cases h; simp [Tail.size]; omega
        · split at h
          · cases h
          · next off r' ho =>
            cases h
            have := decodeOffset_ok ho
            simp [Tail.size]
            omega

/-- A decoded chunk takes its size from the bytes. -/
theorem decodeChunk_length {bs rest : List Byte} {c : Chunk} (h : decodeChunk bs = .ok (c, rest)) :
    bs.length = c.size + rest.length := by
  cases bs with
  | nil => cases h
  | cons fb bs =>
    simp only [decodeChunk] at h
    split at h
    · cases h
    · next hdr run body hr =>
      split at h
      · cases h
      · next hl =>
        split at h
        · cases h
        · next t r ht =>
          cases h
          obtain ⟨h1, h2⟩ := decodeRun_ok hr
          have h3 := decodeTail_ok ht
          simp only [List.length_drop] at h3
          simp only [List.length_take] at hl
          have hlen : (body.take run).length = run := by simp; omega
          unfold Chunk.size
          simp only [hlen, List.length_cons]
          omega

/-- The chunk fetched lies inside the declared length. -/
theorem fetchChunk_size {cmp : Memory} {inlen ip : Nat} {c : Chunk} (h : fetchChunk cmp inlen ip = .ok c) : ip + c.size ≤ inlen := by
  unfold fetchChunk at h
  split at h
  · cases h
  · next c' rest hd =>
    cases h
    have h1 := decodeChunk_length hd
    have h2 := Memory.definedRun_length_le cmp ip (inlen - ip)
    have h3 := chunkSize_pos c
    omega

/-! ### Running a chunk -/

/-- How a chunk that goes on, or stops, moves the Decoder: the input cursor by its size, the output cursor forward inside the capacity,
DEC changed between the two output cursors only, and written there. -/
structure Advance (cap size : Nat) (d d' : DecState) : Prop where
  ip      : d'.ip = d.ip + size
  opLe    : d.op ≤ d'.op
  opCap   : d'.op ≤ cap
  wf      : d.dec.wf → d'.dec.wf
  within  : ∀ n, cap ≤ n → d.dec.within n = true → d'.dec.within n = true
  outside : ∀ a, a < d.op ∨ d'.op ≤ a → d'.dec.read a = d.dec.read a
  written : d.dec.DefinedOn 0 d.op → d'.dec.DefinedOn 0 d'.op

/-- The literal run (46_decoder.md R302): what it answers. -/
theorem copyLiterals_cases (cap : Nat) (lits : List Byte) (d : DecState) :
    (cap < d.op + lits.length ∧ copyLiterals cap lits d = .raised .litOut (d.ip + hdrSize lits.length)) ∨
    (d.op + lits.length ≤ cap ∧ copyLiterals cap lits d = .go
      { ip := d.ip + hdrSize lits.length + lits.length, op := d.op + lits.length, dec := d.dec.writeBytes d.op lits }) := by
  unfold copyLiterals litIndex
  split
  · exact .inl ⟨by omega, rfl⟩
  · exact .inr ⟨by omega, rfl⟩

/-- The literal run as a move of the Decoder. -/
theorem copyLiterals_advance {cap : Nat} {lits : List Byte} {d d' : DecState} (h : copyLiterals cap lits d = .go d') :
    Advance cap (hdrSize lits.length + lits.length) d d' ∧ d'.op = d.op + lits.length := by
  rcases copyLiterals_cases cap lits d with ⟨_, h'⟩ | ⟨hc, h'⟩
  · rw [h'] at h; cases h
  · rw [h'] at h
    cases h
    refine ⟨⟨by simp; omega, by simp, hc, fun hw => Memory.wf_writeBytes hw _ _, fun n hn hw => Memory.within_writeBytes hw (by omega),
      ?_, ?_⟩, rfl⟩
    · intro a ha
      rw [Memory.read_writeBytes, if_neg (by simp only at ha; omega)]
    · intro hd p h1 h2
      simp only at h2
      rw [Memory.read_writeBytes]
      split
      · rw [List.getElem?_eq_getElem (by omega)]; rfl
      · exact hd p h1 (by omega)

/-- The match (46_decoder.md R309): what it answers. -/
theorem copyMatch_cases (cap m off : Nat) (d : DecState) :
    (d.op ≤ off ∧ copyMatch cap m off d = .raised .ahead d.ip) ∨
    (off < d.op ∧ cap < off + m ∧ copyMatch cap m off d = .raised .mSrc d.ip) ∨
    (off < d.op ∧ off + m ≤ cap ∧ cap < d.op + m ∧ copyMatch cap m off d = .raised .mDst d.ip) ∨
    (off < d.op ∧ d.op + m ≤ cap ∧ d.dec.copyForward d.op off m = none ∧ copyMatch cap m off d = .uninit) ∨
    (off < d.op ∧ d.op + m ≤ cap ∧ ∃ x, d.dec.copyForward d.op off m = some x ∧
      copyMatch cap m off d = .go { d with op := d.op + m, dec := x }) := by
  unfold copyMatch
  split
  · exact .inl ⟨by omega, rfl⟩
  · split
    · exact .inr (.inl ⟨by omega, by omega, rfl⟩)
    · split
      · exact .inr (.inr (.inl ⟨by omega, by omega, by omega, rfl⟩))
      · split
        · next h => exact .inr (.inr (.inr (.inl ⟨by omega, by omega, h, rfl⟩)))
        · next x h => exact .inr (.inr (.inr (.inr ⟨by omega, by omega, x, h, rfl⟩)))

/-- The match as a move of the Decoder, with the copy by its closed form (46_decoder.md R311). -/
theorem copyMatch_advance {cap m off : Nat} {d d' : DecState} (h : copyMatch cap m off d = .go d') :
    Advance cap 0 d d' ∧ d'.op = d.op + m ∧ off < d.op ∧ ∀ k, k < m → d'.dec.read (d.op + k) = d'.dec.read (off + k) := by
  rcases copyMatch_cases cap m off d with ⟨_, h'⟩ | ⟨_, _, h'⟩ | ⟨_, _, _, h'⟩ | ⟨_, _, _, h'⟩ | ⟨ho, hc, x, hx, h'⟩ <;> rw [h'] at h
  · cases h
  · cases h
  · cases h
  · cases h
  · cases h
    obtain ⟨s1, s2, s3, s4⟩ := Memory.copyForward_spec hx
    have s4 := s4 ho
    refine ⟨⟨rfl, by simp, hc, s1, fun n hn hw => s2 n hw (by omega), s3, ?_⟩, rfl, ho, s4⟩
    intro hd
    simp only
    have key : ∀ j, j < m → (x.read (d.op + j)).isSome = true := by
      intro j
      induction j using Nat.strongRecOn with
      | ind j ih =>
        intro hj
        rw [s4 j hj]
        by_cases hlt : off + j < d.op
        · rw [s3 _ (.inl hlt)]
          exact hd _ (Nat.zero_le _) (by omega)
        · have := ih (off + j - d.op) (by omega) (by omega)
          rwa [show d.op + (off + j - d.op) = off + j by omega] at this
    intro p h1 h2
    by_cases hp : p < d.op
    · rw [s3 _ (.inl hp)]
      exact hd p h1 (by omega)
    · have := key (p - d.op) (by omega)
      rwa [show d.op + (p - d.op) = p by omega] at this

/-- Two moves in a row. -/
theorem Advance.trans {cap n k : Nat} {d e f : DecState} (h1 : Advance cap n d e) (h2 : Advance cap k e f) : Advance cap (n + k) d f where
  ip := by rw [h2.ip, h1.ip, Nat.add_assoc]
  opLe := Nat.le_trans h1.opLe h2.opLe
  opCap := h2.opCap
  wf hw := h2.wf (h1.wf hw)
  within m hm hw := h2.within m hm (h1.within m hm hw)
  outside a ha := by
    have := h1.opLe
    have := h2.opLe
    rw [h2.outside a (by omega), h1.outside a (by omega)]
  written hd := h2.written (h1.written hd)

/-- Reading MX and OFF moves the input cursor only. -/
theorem advance_ip {cap n : Nat} {d : DecState} (h : d.op ≤ cap) : Advance cap n d { d with ip := d.ip + n } :=
  ⟨rfl, Nat.le_refl _, h, id, fun _ _ => id, fun _ _ => rfl, id⟩

/-- A chunk that goes on (46_decoder.md R302 to R305). -/
theorem runChunk_go {cap : Nat} {c : Chunk} {d d' : DecState} (h : runChunk cap c d = .go d') : Advance cap c.size d d' := by
  unfold runChunk at h
  split at h
  · next d1 h1 =>
    obtain ⟨a1, _⟩ := copyLiterals_advance h1
    have a2 : Advance cap c.tail.size d1 d' := by
      have ai := advance_ip (n := c.tail.size) a1.opCap
      unfold runTail at h
      split at h
      · simpa using ai.trans (copyMatch_advance h).1
      · simpa using ai.trans (copyMatch_advance h).1
      · cases h; exact ai
      · cases h
    exact a1.trans a2
  · next h1 =>
    exact (h1 _ h).elim

/-- A chunk that stops is an end chunk: its literal run, then the byte MX (46_decoder.md R306). -/
theorem runChunk_stop {cap : Nat} {c : Chunk} {d d' : DecState} (h : runChunk cap c d = .stop d') :
    c.tail = .endOfData ∧ Advance cap c.size d d' := by
  unfold runChunk at h
  split at h
  · next d1 h1 =>
    obtain ⟨a1, _⟩ := copyLiterals_advance h1
    have ai := advance_ip (n := c.tail.size) a1.opCap
    unfold runTail at h
    split at h
    · rcases copyMatch_cases cap _ _ _ with ⟨_, h'⟩ | ⟨_, _, h'⟩ | ⟨_, _, _, h'⟩ | ⟨_, _, _, h'⟩ | ⟨_, _, _, _, h'⟩ <;>
        rw [h'] at h <;> cases h
    · rcases copyMatch_cases cap _ _ _ with ⟨_, h'⟩ | ⟨_, _, h'⟩ | ⟨_, _, _, h'⟩ | ⟨_, _, _, h'⟩ | ⟨_, _, _, _, h'⟩ <;>
        rw [h'] at h <;> cases h
    · cases h
    · next ht =>
      cases h
      rw [ht] at ai
      exact ⟨ht, by unfold Chunk.size; rw [ht]; exact a1.trans ai⟩
  · rcases copyLiterals_cases cap c.lits d with ⟨_, h'⟩ | ⟨_, h'⟩ <;> rw [h'] at h <;> cases h

/-- A chunk that fails: which checks can fail, and that ERR_POS is inside the chunk (46_decoder.md R302, R309, R310). -/
theorem runChunk_raised {cap p : Nat} {c : Chunk} {d : DecState} {e : HwError} (h : runChunk cap c d = .raised e p) :
    (e = .litOut ∨ e = .ahead ∨ e = .mSrc ∨ e = .mDst) ∧ p ≤ d.ip + c.size := by
  unfold runChunk at h
  have hs : c.size = hdrSize c.lits.length + c.lits.length + c.tail.size := rfl
  rcases copyLiterals_cases cap c.lits d with ⟨_, h'⟩ | ⟨_, h'⟩
  · rw [h'] at h
    cases h
    exact ⟨.inl rfl, by omega⟩
  · rw [h'] at h
    simp only [runTail] at h
    split at h
    · rcases copyMatch_cases cap _ _ _ with ⟨_, h'⟩ | ⟨_, _, h'⟩ | ⟨_, _, _, h'⟩ | ⟨_, _, _, h'⟩ | ⟨_, _, _, _, h'⟩ <;>
        rw [h'] at h <;> cases h <;> simp <;> omega
    · rcases copyMatch_cases cap _ _ _ with ⟨_, h'⟩ | ⟨_, _, h'⟩ | ⟨_, _, _, h'⟩ | ⟨_, _, _, h'⟩ | ⟨_, _, _, _, h'⟩ <;>
        rw [h'] at h <;> cases h <;> simp <;> omega
    · cases h
    · cases h

/-- A chunk reads an undefined byte of DEC only where a byte below the output cursor is undefined. -/
theorem runChunk_uninit {cap : Nat} {c : Chunk} {d : DecState} (h : runChunk cap c d = .uninit) : ¬ d.dec.DefinedOn 0 d.op := by
  intro hd
  unfold runChunk at h
  split at h
  · next d1 h1 =>
    obtain ⟨a1, _⟩ := copyLiterals_advance h1
    have hd1 := a1.written hd
    have key : ∀ m off n, copyMatch cap m off { d1 with ip := n } ≠ .uninit := by
      intro m off n hn
      rcases copyMatch_cases cap m off { d1 with ip := n } with ⟨_, h'⟩ | ⟨_, _, h'⟩ | ⟨_, _, _, h'⟩ | ⟨ho, _, hc, _⟩ | ⟨_, _, _, _, h'⟩
      · rw [h'] at hn; cases hn
      · rw [h'] at hn; cases hn
      · rw [h'] at hn; cases hn
      · have := Memory.copyForward_isSome (n := m) ho (fun p _ hp => hd1 p (Nat.zero_le _) (by simp only at hp; omega))
        rw [hc] at this
        cases this
      · rw [h'] at hn; cases hn
    unfold runTail at h
    split at h
    · exact key _ _ _ h
    · exact key _ _ _ h
    · cases h
    · cases h
  · rcases copyLiterals_cases cap c.lits d with ⟨_, h'⟩ | ⟨_, h'⟩ <;> rw [h'] at h <;> cases h

/-! ### A chunk that is cut short -/

/-- A chunk that cannot be read neither goes on nor stops. -/
theorem shortChunk_cases (inlen cap : Nat) (d : DecState) (e : DecodeError) :
    shortChunk inlen cap d e = .uninit ∨ ∃ x p, shortChunk inlen cap d e = .raised x p ∧ x.code = 2 := by
  cases e <;> simp only [shortChunk]
  · exact .inl trivial
  · exact .inl trivial
  · split
    · exact .inl rfl
    · exact .inr ⟨_, _, rfl, rfl⟩
  · split
    · exact .inl rfl
    · exact .inr ⟨_, _, rfl, rfl⟩
  · split
    · exact .inr ⟨_, _, rfl, rfl⟩
    · split
      · exact .inr ⟨_, _, rfl, rfl⟩
      · exact .inl rfl
  · split
    · exact .inr ⟨_, _, rfl, rfl⟩
    · split
      · exact .inl rfl
      · exact .inr ⟨_, _, rfl, rfl⟩
  · split
    · exact .inr ⟨_, _, rfl, rfl⟩
    · split
      · exact .inl rfl
      · exact .inr ⟨_, _, rfl, rfl⟩

/-! ### One iteration of the loop -/

theorem stepChunk_go {cmp : Memory} {inlen cap : Nat} {d d' : DecState} (h : stepChunk cmp inlen cap d = .go d') :
    ∃ c, fetchChunk cmp inlen d.ip = .ok c ∧ Advance cap c.size d d' ∧ d'.ip ≤ inlen := by
  unfold stepChunk at h
  split at h
  · rcases shortChunk_cases inlen cap d _ with h' | ⟨x, p, h', _⟩ <;> rw [h'] at h <;> cases h
  · next c hc =>
    have ha := runChunk_go h
    exact ⟨c, hc, ha, by have := fetchChunk_size hc; rw [ha.ip]; omega⟩

theorem stepChunk_stop {cmp : Memory} {inlen cap : Nat} {d d' : DecState} (h : stepChunk cmp inlen cap d = .stop d') :
    ∃ c, fetchChunk cmp inlen d.ip = .ok c ∧ c.tail = .endOfData ∧ Advance cap c.size d d' ∧ d'.ip ≤ inlen := by
  unfold stepChunk at h
  split at h
  · rcases shortChunk_cases inlen cap d _ with h' | ⟨x, p, h', _⟩ <;> rw [h'] at h <;> cases h
  · next c hc =>
    obtain ⟨ht, ha⟩ := runChunk_stop h
    exact ⟨c, hc, ht, ha, by have := fetchChunk_size hc; rw [ha.ip]; omega⟩

/-- Every error of the loop is an OVERRUN. -/
theorem stepChunk_raised {cmp : Memory} {inlen cap p : Nat} {d : DecState} {e : HwError} (h : stepChunk cmp inlen cap d = .raised e p) :
    e.code = 2 := by
  unfold stepChunk at h
  split at h
  · rcases shortChunk_cases inlen cap d _ with h' | ⟨x, q, h', hx⟩ <;> rw [h'] at h <;> cases h
    exact hx
  · rcases (runChunk_raised h).1 with rfl | rfl | rfl | rfl <;> rfl

/-! ### The loop -/

/-- What holds at the start of the loop and is kept by every chunk that goes on holds where the loop stops. -/
theorem decodeLoop_done {P : DecState → Prop} {cmp : Memory} {inlen cap fuel : Nat} {d d' : DecState}
    (hgo : ∀ x y, P x → stepChunk cmp inlen cap x = .go y → P y) (hd : P d) (h : decodeLoop cmp inlen cap fuel d = .done d') :
    ∃ x, P x ∧ stepChunk cmp inlen cap x = .stop d' := by
  induction fuel generalizing d with
  | zero => cases h
  | succ fuel ih =>
    simp only [decodeLoop] at h
    split at h
    · next y hy => exact ih (hgo d y hd hy) h
    · next y hy => cases h; exact ⟨d, hd, hy⟩
    · cases h
    · cases h

/-- The same where the loop fails: a chunk fails, or the fuel is used up. -/
theorem decodeLoop_raised {P : DecState → Prop} {cmp : Memory} {inlen cap fuel p : Nat} {d : DecState} {e : HwError}
    (hgo : ∀ x y, P x → stepChunk cmp inlen cap x = .go y → P y) (hd : P d) (h : decodeLoop cmp inlen cap fuel d = .raised e p) :
    (∃ x, P x ∧ stepChunk cmp inlen cap x = .raised e p) ∨ (e = .frame ∧ p = inlen) := by
  induction fuel generalizing d with
  | zero => cases h; exact .inr ⟨rfl, rfl⟩
  | succ fuel ih =>
    simp only [decodeLoop] at h
    split at h
    · next y hy => exact ih (hgo d y hd hy) h
    · cases h
    · next q z hz => cases h; exact .inl ⟨d, hd, hz⟩
    · cases h

/-- The same where the loop reads an undefined byte. -/
theorem decodeLoop_uninit {P : DecState → Prop} {cmp : Memory} {inlen cap fuel : Nat} {d : DecState}
    (hgo : ∀ x y, P x → stepChunk cmp inlen cap x = .go y → P y) (hd : P d) (h : decodeLoop cmp inlen cap fuel d = .uninit) :
    ∃ x, P x ∧ stepChunk cmp inlen cap x = .uninit := by
  induction fuel generalizing d with
  | zero => cases h
  | succ fuel ih =>
    simp only [decodeLoop] at h
    split at h
    · next y hy => exact ih (hgo d y hd hy) h
    · cases h
    · cases h
    · next hz => exact ⟨d, hd, hz⟩

/-- The checks before the loop (46_decoder.md R301): what they answer. -/
theorem startDecode_cases (cmp : Memory) (inlen : Nat) (dec : Memory) :
    (inlen = 0 ∧ startDecode cmp inlen dec = .raised .empty 0) ∨
    (0 < inlen ∧ cmp.read 0 = none ∧ startDecode cmp inlen dec = .uninit) ∨
    (0 < inlen ∧ (∃ b, cmp.read 0 = some b ∧ b ≠ 0x66) ∧ startDecode cmp inlen dec = .raised .magic 0) ∨
    (0 < inlen ∧ cmp.read 0 = some 0x66 ∧ startDecode cmp inlen dec = .go { ip := 1, op := 0, dec := dec }) := by
  unfold startDecode
  split
  · exact .inl ⟨by assumption, rfl⟩
  · next h0 =>
    split
    · next h => exact .inr (.inl ⟨by omega, h, rfl⟩)
    · next b h =>
      split
      · next hb => exact .inr (.inr (.inl ⟨by omega, ⟨b, h, hb⟩, rfl⟩))
      · next hb => exact .inr (.inr (.inr ⟨by omega, by rw [h]; simpa using hb, rfl⟩))

/-- The Decoder inside its loop, from a DEC it started on: cursors in range, DEC changed below the output cursor only, and written
there (46_decoder.md R312, R313, R315). -/
structure Decoding (inlen cap : Nat) (start : Memory) (d : DecState) : Prop where
  started : 1 ≤ d.ip
  input   : d.ip ≤ inlen
  output  : d.op ≤ cap
  wf      : start.wf → d.dec.wf
  within  : ∀ n, cap ≤ n → start.within n = true → d.dec.within n = true
  above   : ∀ a, d.op ≤ a → d.dec.read a = start.read a
  written : d.dec.DefinedOn 0 d.op

theorem Decoding.start {inlen cap : Nat} (h : 1 ≤ inlen) (dec : Memory) : Decoding inlen cap dec { ip := 1, op := 0, dec := dec } :=
  ⟨Nat.le_refl _, h, Nat.zero_le _, id, fun _ _ => id, fun _ _ => rfl, fun p _ h2 => absurd h2 (by simp)⟩

theorem Decoding.advance {inlen cap size : Nat} {start : Memory} {d d' : DecState} (h : Decoding inlen cap start d)
    (ha : Advance cap size d d') (hi : d'.ip ≤ inlen) : Decoding inlen cap start d' where
  started := by have := h.started; have := ha.ip; omega
  input := hi
  output := ha.opCap
  wf hw := ha.wf (h.wf hw)
  within n hn hw := ha.within n hn (h.within n hn hw)
  above a h' := by have := ha.opLe; rw [ha.outside a (.inr h'), h.above a (by omega)]
  written := ha.written h.written

/-- The loop keeps the Decoder in range. -/
theorem Decoding.step {cmp : Memory} {inlen cap : Nat} {start : Memory} (x y : DecState) (h : Decoding inlen cap start x)
    (hy : stepChunk cmp inlen cap x = .go y) : Decoding inlen cap start y := by
  obtain ⟨c, _, ha, hi⟩ := stepChunk_go hy
  exact h.advance ha hi

/-- A decode that succeeds has the Decoder in range at its end. -/
theorem runDecode_done {cmp dec : Memory} {inlen cap : Nat} {d : DecState} (h : runDecode cmp inlen cap dec = .done d) :
    Decoding inlen cap dec d ∧ 3 ≤ d.ip ∧ 0 < inlen ∧ cmp.read 0 = some 0x66 := by
  unfold runDecode at h
  rcases startDecode_cases cmp inlen dec with ⟨_, h'⟩ | ⟨_, _, h'⟩ | ⟨_, _, h'⟩ | ⟨h0, hm, h'⟩ <;> rw [h'] at h
  · cases h
  · cases h
  · cases h
  · obtain ⟨x, hx, hs⟩ := decodeLoop_done (P := Decoding inlen cap dec) Decoding.step (Decoding.start h0 dec) h
    obtain ⟨c, _, _, ha, hi⟩ := stepChunk_stop hs
    have := chunkSize_pos c
    have := hx.started
    exact ⟨hx.advance ha hi, by rw [ha.ip]; omega, h0, hm⟩

/-- A decode that fails does so with FORMAT or OVERRUN. -/
theorem runDecode_raised {cmp dec : Memory} {inlen cap p : Nat} {e : HwError} (h : runDecode cmp inlen cap dec = .raised e p) :
    e.code = 1 ∨ e.code = 2 := by
  unfold runDecode at h
  rcases startDecode_cases cmp inlen dec with ⟨_, h'⟩ | ⟨_, _, h'⟩ | ⟨_, _, h'⟩ | ⟨h0, hm, h'⟩ <;> rw [h'] at h
  · cases h; exact .inl rfl
  · cases h
  · cases h; exact .inl rfl
  · rcases decodeLoop_raised (P := fun _ => True) (fun _ _ _ _ => trivial) trivial h with ⟨x, _, hs⟩ | ⟨rfl, _⟩
    · exact .inr (stepChunk_raised hs)
    · exact .inr rfl

end Sys2Proof.Machine
end

