-- ==== Sys2Proof/Laws/HostPort.lean ====
section
/-! SUPPORT. What a host transaction can change: every way it can end, said once. -/

namespace Sys2Proof.Machine

open Sys2Proof

/-- Each register stands at its own offset. -/
theorem regAt_regOffset (r : Reg) : regAt (regOffset r / 4) = some r := by cases r <;> rfl

theorem regOffset_lt (r : Reg) : regOffset r < 0x100 := by cases r <;> decide

theorem regOffset_mod (r : Reg) : regOffset r % 4 = 0 := by cases r <;> decide

/-- A register offset is a 20-bit address in the register window. -/
theorem toNat_regOffset (r : Reg) : (BitVec.ofNat 20 (regOffset r)).toNat = regOffset r := by cases r <;> rfl

/-- A word access at a register's offset reaches that register (20_memory.md R90). -/
theorem hostRead_reg (r : Reg) (s : State) : hostRead (BitVec.ofNat 20 (regOffset r)) 4 s = readReg r s := by
  unfold hostRead
  simp only [toNat_regOffset, inRegWindow, regAccessOk, regOffset_lt, regOffset_mod, regAt_regOffset, decide_true, Bool.and_self,
    if_true]

theorem hostWrite_reg (r : Reg) (w : Word) (s : State) : hostWrite (BitVec.ofNat 20 (regOffset r)) 4 w s = writeReg r w s := by
  unfold hostWrite
  simp only [toNat_regOffset, inRegWindow, regAccessOk, regOffset_lt, regOffset_mod, regAt_regOffset, decide_true, Bool.and_self,
    if_true]

/-- Every way a host transaction can end, the reset pin not asserted. -/
inductive HostEffect (s : State) : State → Prop where
  /-- Nothing changes: a write to a read-only register or to a reserved offset. -/
  | nothing : HostEffect s s
  /-- A read changes the data returned, and draws free values. -/
  | read (v : Word) (d : Nat) : HostEffect s { s with rdata := v, draws := d }
  /-- A refused read. -/
  | refusedRead (v : Word) (d : Nat) : HostEffect s { s with rdata := v, draws := d, events := { s.events with hostErr := true } }
  /-- A refused write. -/
  | refusedWrite : HostEffect s { s with events := { s.events with hostErr := true } }
  /-- A write to EVENTS. -/
  | clear (w : Word) : HostEffect s { s with events := s.events.cleared w }
  /-- A write to CMD while BUSY. -/
  | rejected : s.status.busy = true → HostEffect s { s with events := { s.events with cmdRej := true } }
  /-- A write to CMD with the engine idle. -/
  | accepted (w : Word) : s.status.busy = false → HostEffect s (s.accept w)
  /-- A write to a RW register with the engine idle. -/
  | ctrl (c : Ctrl) : s.status.busy = false → HostEffect s { s with ctrl := c }
  | srcLen (v : BitVec 14) : s.status.busy = false → HostEffect s { s with srcLen := v }
  | wlen (v : BitVec 14) : s.status.busy = false → HostEffect s { s with wlen := v }
  | cmpLen (v : BitVec 17) : s.status.busy = false → HostEffect s { s with cmpLen := v }
  | pos (v : BitVec 14) : s.status.busy = false → HostEffect s { s with pos := v }
  /-- A write to a buffer, inside its size, with the engine idle. -/
  | memory (b : Buf) (idx : Nat) (bs : List Byte) : s.status.busy = false → idx + bs.length ≤ s.bufSize b →
      HostEffect s (s.setBuf b ((s.buf b).writeBytes idx bs))

theorem bytesOfNat_length (n w : Nat) : (bytesOfNat n w).length = n := by
  induction n generalizing w with
  | zero => rfl
  | succ n ih => simp [bytesOfNat, ih]

theorem bytesOfWord_length (n : Nat) (w : Word) : (bytesOfWord n w).length = n := bytesOfNat_length n _

/-- Byte k of a number's bytes is its bits [8k+7:8k] (20_memory.md R82). -/
theorem bytesOfNat_getElem? {n k : Nat} (w : Nat) (h : k < n) : (bytesOfNat n w)[k]? = some (BitVec.ofNat 8 (w / 256 ^ k)) := by
  induction n generalizing w k with
  | zero => omega
  | succ n ih =>
    cases k with
    | zero => simp [bytesOfNat]
    | succ k =>
      simp only [bytesOfNat, List.getElem?_cons_succ]
      rw [ih _ (by omega), Nat.div_div_eq_div_mul, Nat.pow_succ, Nat.mul_comm]

theorem guardBusy_cases (upd : State → State) (s : State) :
    (s.status.busy = true ∧ guardBusy upd s = { s with events := { s.events with hostErr := true } }) ∨
    (s.status.busy = false ∧ guardBusy upd s = upd s) := by
  unfold guardBusy
  cases h : s.status.busy
  · exact .inr ⟨rfl, rfl⟩
  · exact .inl ⟨rfl, rfl⟩

/-- What a register write can do (10_state.md R32, R52). -/
theorem writeReg_effect (r : Reg) (w : Word) (s : State) : HostEffect s (writeReg r w s) := by
  have guard : ∀ upd : State → State, (s.status.busy = false → HostEffect s (upd s)) → HostEffect s (guardBusy upd s) := by
    intro upd hu
    rcases guardBusy_cases upd s with ⟨_, h⟩ | ⟨hb, h⟩ <;> rw [h]
    · exact .refusedWrite
    · exact hu hb
  cases r <;> simp only [writeReg]
  case ctrl => exact guard _ (.ctrl _)
  case srcLen => exact guard _ (.srcLen _)
  case wlen => exact guard _ (.wlen _)
  case cmpLen => exact guard _ (.cmpLen _)
  case pos => exact guard _ (.pos _)
  case events => exact .clear w
  case cmd =>
    unfold writeCmd
    cases hb : s.status.busy
    · exact .accepted w hb
    · exact .rejected hb
  all_goals exact .nothing

theorem readReg_effect (r : Reg) (s : State) : HostEffect s (readReg r s) := by
  unfold readReg
  split
  · exact .read _ _
  · exact .read _ s.draws

theorem hostRead_effect (addr : BitVec 20) (size : Nat) (s : State) : HostEffect s (hostRead addr size s) := by
  unfold hostRead
  simp only
  split
  · split
    · split
      · exact readReg_effect _ s
      · exact .read _ s.draws
    · exact .refusedRead _ _
  · split
    · exact .refusedRead _ _
    · split
      · exact .read _ _
      · exact .refusedRead _ _

/-- A memory access that is let through is inside the buffer, and the engine is idle (20_memory.md R85, R91, R96). -/
theorem memAccessOk_spec {s : State} {b : Buf} {a idx size : Nat} (h : memAccessOk s b a idx size = true) :
    (size = 1 ∨ size = 2 ∨ size = 4) ∧ a % size = 0 ∧ idx + size ≤ s.bufSize b ∧ s.status.busy = false := by
  simp only [memAccessOk, Bool.and_eq_true, Bool.or_eq_true, decide_eq_true_eq, Bool.not_eq_true'] at h
  exact ⟨by tauto, h.1.1.2, h.1.2, h.2⟩

theorem hostWrite_effect (addr : BitVec 20) (size : Nat) (w : Word) (s : State) : HostEffect s (hostWrite addr size w s) := by
  unfold hostWrite
  simp only
  split
  · split
    · split
      · exact writeReg_effect _ w s
      · exact .nothing
    · exact .refusedWrite
  · split
    · exact .refusedWrite
    · next b idx _ =>
      split
      · next hok =>
        obtain ⟨_, _, h3, h4⟩ := memAccessOk_spec hok
        exact .memory b idx _ h4 (by rw [bytesOfWord_length]; exact h3)
      · exact .refusedWrite

/-- Every host transaction, the reset pin not asserted. -/
theorem hostAccess_effect (op : HostOp) {s : State} (h : s.rst = false) : HostEffect s (hostAccess op s) := by
  cases op with
  | read addr size => simp only [hostAccess, h]; exact hostRead_effect addr size s
  | write addr size w => simp only [hostAccess, h]; exact hostWrite_effect addr size w s

/-- While the reset pin is asserted a host transaction changes only the data returned (70_reset_and_hazards.md R400). -/
theorem hostAccess_in_reset (op : HostOp) {s : State} (h : s.rst = true) :
    hostAccess op s = s ∨ ∃ v d, hostAccess op s = { s with rdata := v, draws := d } := by
  cases op with
  | read addr size => exact .inr ⟨Config.freeWord s.draws, s.draws + 1, if_pos h⟩
  | write addr size w => exact .inl (if_pos h)

end Sys2Proof.Machine
end

