-- ==== Sys2Proof/Laws/Engine.lean ====
section
/-! SUPPORT. What a step can do: every way it can answer a next state, said once, in terms of the meanings and of the host transactions. -/

namespace Sys2Proof.Machine

open Sys2Proof

/-- What the decoder of command words answers is a command, with that code. -/
theorem decodeCommand_ok {w : Word} {i : Instr} (h : decodeCommand w = .ok i) : isCommand i = true ∧ i.wf = true := by
  unfold decodeCommand at h
  split at h
  · cases h
  · split at h <;> cases h <;> exact ⟨rfl, rfl⟩

/-- A reserved word fails with one of the two errors of BAD_CMD (40_control.md R173). -/
theorem reservedWordError_cases (e : DecodeError) : reservedWordError e = .rsvd ∨ reservedWordError e = .opcode := by
  cases e <;> simp [reservedWordError]

theorem runWord_of_ok {w : Word} {i : Instr} (s : State) (h : decodeCommand w = .ok i) : runWord w s = exec i s := by
  unfold runWord
  rw [h]

/-- The accepted word is run (40_control.md R170, R173): what it answers. -/
theorem runWord_next {w : Word} {s t : State} (h : runWord w s = .next t) :
    (∃ i, decodeCommand w = .ok i ∧ exec i s = .next t) ∨
    (∃ e, decodeCommand w = .error e ∧ t = s.finish (some (reservedWordError e))) := by
  unfold runWord at h
  split at h
  · next e he => exact .inr ⟨e, he, raiseError_next.mp h⟩
  · next i hi => exact .inl ⟨i, hi, h⟩

/-- A chunk as an instruction is the chunk run at the cursors. -/
theorem exec_toInstr (c : Chunk) (s : State) : exec c.toInstr s = applyChunk (runChunk s.ctrl.capacity c s.decState) s := by
  obtain ⟨lits, t⟩ := c
  cases t <;> rfl

/-- The Decoder's step is one iteration of the loop of 46_decoder.md R301 at the cursors. -/
theorem runNextChunk_eq (s : State) :
    runNextChunk s = applyChunk (stepChunk s.cmp s.cmpLen.toNat s.ctrl.capacity s.decState) s := by
  unfold runNextChunk stepChunk
  change (match fetchChunk s.cmp s.cmpLen.toNat s.hid.ip.toNat with
    | .error e => _
    | .ok c => _) = applyChunk (match fetchChunk s.cmp s.cmpLen.toNat s.hid.ip.toNat with
    | .error e => _
    | .ok c => _) s
  cases fetchChunk s.cmp s.cmpLen.toNat s.hid.ip.toNat with
  | error e => rfl
  | ok c => exact exec_toInstr c s

/-- A move of the engine: what it answers. -/
theorem engineMove_next {s t : State} (h : engineMove s = .next t) :
    (s.engine = .idle ∧ t = s) ∨ (∃ w, s.engine = .busy w ∧ runWord w s = .next t) ∨
    (s.engine = .decoding ∧ applyChunk (stepChunk s.cmp s.cmpLen.toNat s.ctrl.capacity s.decState) s = .next t) := by
  unfold engineMove at h
  split at h
  · next he => cases h; exact .inl ⟨he, rfl⟩
  · next w he => exact .inr (.inl ⟨w, he, h⟩)
  · next he => exact .inr (.inr ⟨he, by rw [← runNextChunk_eq]; exact h⟩)

/-- The start of a DECODE chunk by chunk: what it answers. -/
theorem beginDecode_next {s t : State} (h : beginDecode s = .next t) :
    engineMove s = .next t ∨
    (∃ w, s.engine = .busy w ∧ decodeCommand w = .ok .decode ∧
      ((s.cmpCap < s.cmpLen.toNat ∧ t = s.finish (some .cmpLenMax)) ∨
       (s.cmpLen.toNat ≤ s.cmpCap ∧
        applyChunk (startDecode s.cmp s.cmpLen.toNat s.dec) ({ s with engine := .decoding } : State) = .next t))) := by
  unfold beginDecode at h
  unfold engineMove
  split at h
  · next he => exact .inl (by rw [he]; exact h)
  · next he => exact .inl (by rw [he]; exact h)
  · next w he =>
    split at h
    · next hd =>
      refine .inr ⟨w, he, hd, ?_⟩
      split at h
      · next hl => exact .inl ⟨hl, raiseError_next.mp h⟩
      · next hl => exact .inr ⟨by omega, h⟩
    · exact .inl (by rw [he]; exact h)

/-- Every way a step can answer a next state, from the state with its first input taken. -/
theorem step_next {s t : State} (h : step s = .next t) :
    ∃ u : State, u = { s with inputs := s.inputs.tail } ∧
      (t = u ∨ (s.rst = true ∧ ∃ v d, t = { u with rdata := v, draws := d }) ∨ (s.rst = false ∧ HostEffect u t) ∨
       (s.rst = false ∧ engineMove u = .next t) ∨ (s.rst = false ∧ beginDecode u = .next t) ∨
       (s.rst = false ∧ ∃ v, HostEffect u v ∧ engineMove v = .next t) ∨ t = u.assertReset ∨ t = { u with rst := false }) := by
  refine ⟨_, rfl, ?_⟩
  unfold step at h
  cases hi : s.inputs with
  | nil =>
    rw [hi] at h
    have hu : ({ s with inputs := [] } : State) = s := by rw [← hi]
    simp only [runUnattended] at h
    simp only [List.tail_nil, hu]
    split at h
    · cases h; exact .inl rfl
    · next hr => exact .inr (.inr (.inr (.inl ⟨by simpa using hr, h⟩)))
  | cons x xs =>
    rw [hi] at h
    simp only [List.tail_cons]
    have host : ∀ op, hostAccess op ({ s with inputs := xs } : State) = t →
        t = ({ s with inputs := xs } : State) ∨
        (s.rst = true ∧ ∃ v d, t = ({ s with inputs := xs, rdata := v, draws := d } : State)) ∨
        (s.rst = false ∧ HostEffect ({ s with inputs := xs } : State) t) := by
      intro op he
      subst he
      by_cases hr : s.rst = true
      · rcases hostAccess_in_reset op (s := { s with inputs := xs }) hr with h' | ⟨v, d, h'⟩
        · exact .inl h'
        · exact .inr (.inl ⟨hr, v, d, h'⟩)
      · have hr : s.rst = false := by simpa using hr
        exact .inr (.inr ⟨hr, hostAccess_effect op (s := { s with inputs := xs }) hr⟩)
    cases x with
    | host op =>
      simp only [applyInput, Host.Outcome.next.injEq] at h
      rcases host op h with h' | h' | h'
      · exact .inl h'
      · exact .inr (.inl h')
      · exact .inr (.inr (.inl h'))
    | engine =>
      simp only [applyInput] at h
      split at h
      · cases h; exact .inl rfl
      · next hr => exact .inr (.inr (.inr (.inl ⟨by simpa using hr, h⟩)))
    | beginDecode =>
      simp only [applyInput] at h
      split at h
      · cases h; exact .inl rfl
      · next hr => exact .inr (.inr (.inr (.inr (.inl ⟨by simpa using hr, h⟩))))
    | sameCycle op =>
      simp only [applyInput] at h
      split at h
      · simp only [Host.Outcome.next.injEq] at h
        rcases host op h with h' | h' | h'
        · exact .inl h'
        · exact .inr (.inl h')
        · exact .inr (.inr (.inl h'))
      · next hr =>
        have hr : s.rst = false := by simpa using hr
        exact .inr (.inr (.inr (.inr (.inr (.inl
          ⟨hr, _, hostAccess_effect op (s := { s with inputs := xs }) hr, h⟩)))))
    | rst b =>
      cases b with
      | true => cases h; exact .inr (.inr (.inr (.inr (.inr (.inr (.inl rfl))))))
      | false => cases h; exact .inr (.inr (.inr (.inr (.inr (.inr (.inr rfl))))))

/-- No instruction is refused. -/
theorem exec_ne_refused (i : Instr) (s : State) (r : Refusal) : exec i s ≠ .refused r := by
  have chunk : ∀ c, applyChunk c s ≠ .refused r := by intro c; cases c <;> exact nofun
  have enc : ∀ parse, encodeWith parse s ≠ .refused r := by
    intro parse
    simp only [encodeWith]
    split
    · exact nofun
    · split
      · exact nofun
      · split <;> exact nofun
  cases i <;> simp only [exec]
  case nop => exact nofun
  case load => simp only [execLoad]; split <;> [exact nofun; (split <;> exact nofun)]
  case holeZero => simp only [execHoleZero]; split <;> exact nofun
  case holePattern => simp only [execHolePattern]; split <;> [exact nofun; (split <;> exact nofun)]
  case matchCmd => simp only [execMatch]; split <;> [exact nofun; (split <;> [exact nofun; (split <;> exact nofun)])]
  case encGreedy => exact enc _
  case encOptimal => exact enc _
  case decode =>
    simp only [execDecode]
    split
    · exact nofun
    · cases runDecode s.cmp s.cmpLen.toNat s.ctrl.capacity s.dec <;> exact nofun
  case compress =>
    simp only [execCompress]
    split
    · exact nofun
    · split
      · exact nofun
      · split
        · exact nofun
        · exact nofun
        · split
          · exact nofun
          · split <;> exact nofun
  all_goals exact chunk _

end Sys2Proof.Machine
end

