-- ==== Sys2Proof/Laws/MatchFinder.lean ====
section
/-! SUPPORT. What the two loops of the match search do (42_match_finder.md R210), and that the search over cells is the search over bytes
where every byte is defined. -/

namespace Sys2Proof.Machine

open Sys2Proof

/-! ### The inner loop -/

theorem commonLen_le (cap : Nat) (xs ys : List Byte) : commonLen cap xs ys ≤ cap := by
  induction cap generalizing xs ys with
  | zero => simp [commonLen]
  | succ cap ih =>
    cases xs with
    | nil => simp [commonLen]
    | cons x xs =>
      cases ys with
      | nil => simp [commonLen]
      | cons y ys =>
        simp only [commonLen]
        split
        · have := ih xs ys; omega
        · omega

/-- Below the common length the bytes agree. -/
theorem commonLen_agrees {cap j : Nat} {xs ys : List Byte} (h : j < commonLen cap xs ys) : xs[j]? = ys[j]? := by
  induction cap generalizing xs ys j with
  | zero => simp [commonLen] at h
  | succ cap ih =>
    cases xs with
    | nil => simp [commonLen] at h
    | cons x xs =>
      cases ys with
      | nil => simp [commonLen] at h
      | cons y ys =>
        simp only [commonLen] at h
        split at h
        · next hxy =>
          cases j with
          | zero => simp [hxy]
          | succ j => simpa using ih (by omega : j < commonLen cap xs ys)
        · omega

/-- No longer run of agreeing bytes exists under the cap. -/
theorem le_commonLen {cap l : Nat} {xs ys : List Byte} (hl : l ≤ cap) (hy : l ≤ ys.length) (h : ∀ j, j < l → xs[j]? = ys[j]?) :
    l ≤ commonLen cap xs ys := by
  induction cap generalizing xs ys l with
  | zero => omega
  | succ cap ih =>
    cases l with
    | zero => omega
    | succ l =>
      cases ys with
      | nil => simp at hy
      | cons y ys =>
        cases xs with
        | nil => simpa using h 0 (by omega)
        | cons x xs =>
          have h0 : x = y := by simpa using h 0 (by omega)
          simp only [commonLen, if_pos h0]
          have := ih (l := l) (xs := xs) (ys := ys) (by omega) (by simpa using hy) (fun j hj => by simpa using h (j + 1) (by omega))
          omega

/-! ### The outer loop -/

/-- What the outer loop answers: the best so far, or the first candidate that is longer than every one before it and at least as long as
every one after it. -/
theorem scanMatches_spec {cap : Nat} {target : List Byte} (left start : Nat) (suffix : List Byte) (best : Nat × Nat) (hb : best.1 ≤ cap) :
    let r := scanMatches cap target left start suffix best
    best.1 ≤ r.1 ∧ r.1 ≤ cap ∧ (∀ k, k < left → commonLen cap (suffix.drop k) target ≤ r.1) ∧
    (r = best ∨ ∃ k, k < left ∧ r = (commonLen cap (suffix.drop k) target, start + k) ∧ best.1 < r.1 ∧
      ∀ j, j < k → commonLen cap (suffix.drop j) target < r.1) := by
  induction left generalizing start suffix best with
  | zero => exact ⟨Nat.le_refl _, hb, by intro k hk; omega, .inl rfl⟩
  | succ left ih =>
    have hcap := commonLen_le cap suffix target
    simp only [scanMatches]
    split
    · next hl =>
      split
      · next hc =>
        refine ⟨Nat.le_of_lt hl, hcap, ?_, .inr ⟨0, by omega, by simp, hl, by intro j hj; omega⟩⟩
        intro k _
        simp only [hc]
        exact commonLen_le _ _ _
      · obtain ⟨h1, h2, h3, h4⟩ := ih (start + 1) suffix.tail (commonLen cap suffix target, start) hcap
        have hd : ∀ k, suffix.tail.drop k = suffix.drop (k + 1) := by intro k; cases suffix <;> simp
        refine ⟨by omega, h2, ?_, .inr ?_⟩
        · intro k hk
          cases k with
          | zero => simpa using h1
          | succ k => rw [← hd]; exact h3 k (by omega)
        · rcases h4 with h4 | ⟨k, hk, h5, h6, h7⟩
          · refine ⟨0, by omega, ?_, ?_, by intro j hj; omega⟩
            · rw [h4]; simp
            · rw [h4]; exact hl
          · refine ⟨k + 1, by omega, ?_, by simp only at h6; omega, ?_⟩
            · rw [h5, hd]
              simp only [Prod.mk.injEq, true_and]
              omega
            · intro j hj
              cases j with
              | zero => simpa using h6
              | succ j => rw [← hd]; exact h7 j (by omega)
    · next hl =>
      obtain ⟨h1, h2, h3, h4⟩ := ih (start + 1) suffix.tail best hb
      have hd : ∀ k, suffix.tail.drop k = suffix.drop (k + 1) := by intro k; cases suffix <;> simp
      refine ⟨h1, h2, ?_, ?_⟩
      · intro k hk
        cases k with
        | zero => simp only [List.drop_zero]; omega
        | succ k => rw [← hd]; exact h3 k (by omega)
      · rcases h4 with h4 | ⟨k, hk, h5, h6, h7⟩
        · exact .inl h4
        · refine .inr ⟨k + 1, by omega, ?_, h6, ?_⟩
          · rw [h5, hd]
            simp only [Prod.mk.injEq, true_and]
            omega
          · intro j hj
            cases j with
            | zero => simp only [List.drop_zero]; omega
            | succ j => rw [← hd]; exact h7 j (by omega)

/-! ### Cells and bytes -/

/-- On defined cells the inner loop is that over bytes. -/
theorem commonLenCells_map_some (cap : Nat) (xs ys : List Byte) :
    commonLenCells cap (xs.map some) (ys.map some) = some (commonLen cap xs ys) := by
  induction cap generalizing xs ys with
  | zero => simp [commonLenCells, commonLen]
  | succ cap ih =>
    cases xs with
    | nil => simp [commonLenCells, commonLen]
    | cons x xs =>
      cases ys with
      | nil => simp [commonLenCells, commonLen]
      | cons y ys =>
        simp only [List.map_cons, commonLenCells, commonLen, ih]
        split <;> rfl

/-- On defined cells the outer loop is that over bytes. -/
theorem scanCells_map_some (cap : Nat) (target : List Byte) (left start : Nat) (suffix : List Byte) (best : Nat × Nat) :
    scanCells cap (target.map some) left start (suffix.map some) best = some (scanMatches cap target left start suffix best) := by
  induction left generalizing start suffix best with
  | zero => rfl
  | succ left ih =>
    have ht : (suffix.map some).tail = suffix.tail.map some := by cases suffix <;> rfl
    simp only [scanCells, scanMatches, commonLenCells_map_some, ht, ih]
    split
    · split <;> rfl
    · rfl

/-- On a defined buffer the search over cells is findLongestMatch. -/
theorem findInCells_map_some (b : List Byte) (pos : Nat) : findInCells (b.map some) pos = some (findLongestMatch b pos) := by
  unfold findInCells findLongestMatch
  split
  · rfl
  · rw [← List.map_drop, List.length_map]
    exact scanCells_map_some _ _ _ _ _ _

/-- MATCH's search on a buffer whose bytes are held (42_match_finder.md R216). -/
theorem findInCells_of_holds {m : Memory} {b : List Byte} (h : m.Holds 0 b) (pos : Nat) :
    findInCells (m.cells 0 b.length) pos = some (findLongestMatch b pos) := by
  rw [Memory.cells_eq_map_some (Memory.holds_iff_readBytes.mp h), findInCells_map_some]

end Sys2Proof.Machine
end

