-- ==== Sys2Proof/Laws/OptimalParser.lean ====
section
/-! SUPPORT. For an input of at most N_PRESERVE bytes every number of the backward pass fits its field of the OptNode table
(10_state.md R59), so the table the engine stores holds the numbers of the recurrence and the stream is that of the recurrence. -/

namespace Sys2Proof.Machine

open Sys2Proof

/-! ### One entry in its fields -/

/-- The entry fits the fields of the OptNode table. -/
def OptEntry.Fits (e : OptEntry) : Prop :=
  e.totalCost < 2 ^ Config.costW ∧ e.matchLength < 2 ^ 8 ∧ e.matchOffset < 2 ^ 13 ∧ e.literalRunLength < 2 ^ 8

/-- An entry that fits reads back as it was stored. -/
theorem load_store {e : OptEntry} (h : e.Fits) : OptEntry.load e.store = e := by
  obtain ⟨h1, h2, h3, h4⟩ := h
  cases e
  simp only [OptEntry.load, OptEntry.store, BitVec.toNat_ofNat, Nat.mod_eq_of_lt, h1, h2, h3, h4]

/-! ### The range of the search -/

/-- The match is at most MATCH_MAX long and starts at or before the position. -/
theorem findLongestMatch_bounds (b : List Byte) (pos : Nat) :
    (findLongestMatch b pos).1 ≤ 255 ∧ (findLongestMatch b pos).2 ≤ pos := by
  unfold findLongestMatch
  split
  · simp
  · obtain ⟨-, hcap, -, h⟩ := scanMatches_spec (cap := matchCap b.length pos) (target := b.drop pos) pos 0 b (0, 0) (Nat.zero_le _)
    refine ⟨hcap.trans (Nat.min_le_left _ _), ?_⟩
    obtain h | ⟨k, hk, h, -⟩ := h
    · simp [h]
    · simp only [h]; omega

/-! ### The recurrence -/

/-- An entry of which `count` positions follow to the end of the input: a cost of at most 3 for each, fields in range. -/
def OptEntry.Bounded (count : Nat) (e : OptEntry) : Prop :=
  e.totalCost ≤ 3 * count ∧ e.matchLength ≤ 255 ∧ e.matchOffset ≤ 8191 ∧ e.literalRunLength ≤ 255

theorem OptEntry.Bounded.fits {count : Nat} {e : OptEntry} (h : e.Bounded count) (hc : count ≤ 8192) : e.Fits := by
  obtain ⟨h1, h2, h3, h4⟩ := h
  simp only [OptEntry.Fits, Config.costW]; omega

theorem literalNode_bounded {count : Nat} {nx : OptEntry} (h : nx.Bounded count) : (literalNode nx).Bounded (count + 1) := by
  obtain ⟨h1, -, -, h4⟩ := h
  simp only [literalNode, literalEdge, OptEntry.Bounded, Config.litMax]
  split
  · simp; omega
  · split
    · simp; omega
    · split <;> simp <;> omega

/-- Whatever entry the match branch reads, the entry is bounded: it costs no more than the literal. -/
theorem optNodeAt_bounded {count : Nat} {r : Nat × Nat} {nx : OptEntry} (target : OptEntry) (h : nx.Bounded count) (hl : r.1 ≤ 255)
    (ho : r.2 ≤ 8191) : (optNodeAt r nx target).Bounded (count + 1) := by
  have hlit := literalNode_bounded h
  simp only [optNodeAt]
  split
  · split
    · next hle => exact ⟨hle.trans hlit.1, hl, ho, Nat.zero_le _⟩
    · exact hlit
  · exact hlit

theorem backwardPass_ne_nil {α : Type} (put : OptEntry → α) (get : α → OptEntry) (b : List Byte) (count : Nat) :
    backwardPass put get b count ≠ [] := by
  cases count <;> simp [backwardPass]

/-- Every entry of the recurrence is bounded. -/
theorem backwardPass_bounded {b : List Byte} (hb : b.length ≤ 8192) (count : Nat) :
    ∀ e ∈ backwardPass id id b count, e.Bounded count := by
  induction count with
  | zero => simp [backwardPass, optSentinel, OptEntry.Bounded]
  | succ count ih =>
    obtain ⟨hl, ho⟩ := findLongestMatch_bounds b (b.length - (count + 1))
    have hnx : ((backwardPass id id b count).headD optSentinel).Bounded count := by
      cases hc : backwardPass id id b count with
      | nil => exact absurd hc (backwardPass_ne_nil _ _ _ _)
      | cons x xs => exact ih x (by simp [hc])
    intro e he
    simp only [backwardPass, id_eq, List.mem_cons] at he
    obtain rfl | he := he
    · exact optNodeAt_bounded _ hnx hl (by omega)
    · obtain ⟨h1, h2⟩ := ih e he
      exact ⟨by omega, h2⟩

/-- The stored pass holds the recurrence's entries in their fields. -/
theorem backwardPass_store {b : List Byte} (hb : b.length ≤ 8192) {count : Nat} (hc : count ≤ 8192) :
    backwardPass OptEntry.store OptEntry.load b count = (backwardPass id id b count).map OptEntry.store := by
  induction count with
  | zero => rfl
  | succ count ih =>
    have hback : ∀ e ∈ backwardPass id id b count, OptEntry.load e.store = e :=
      fun e he => load_store ((backwardPass_bounded hb count e he).fits (by omega))
    have hget : ∀ k, OptEntry.load (((backwardPass id id b count).map OptEntry.store).getD k optSentinel.store) =
        (backwardPass id id b count).getD k optSentinel := by
      intro k
      rw [List.getD_map]
      by_cases hk : k < (backwardPass id id b count).length
      · rw [List.getD_eq_getElem _ _ hk]; exact hback _ (List.getElem_mem hk)
      · rw [List.getD_eq_default _ _ (by omega)]; rfl
    have hhead : ∀ {α : Type} (l : List α) (d : α), l.headD d = l.getD 0 d := by intro α l d; cases l <;> rfl
    simp only [backwardPass, ih (by omega), List.map_cons, id_eq, hhead, hget]

/-- The table the engine stores reads back as the numbers of the recurrence. -/
theorem storedTable_load {b : List Byte} (hb : b.length ≤ 8192) : (storedTable b).map OptEntry.load = optimalTable b := by
  rw [storedTable, optimalTable, backwardPass_store hb hb, List.map_map]
  refine (List.map_congr_left fun e he => ?_).trans (List.map_id _)
  exact load_store ((backwardPass_bounded hb _ e he).fits hb)

/-- The stream over the stored table is the stream of the recurrence. -/
theorem optimalEncode_eq {b : List Byte} (hb : b.length ≤ 8192) : optimalEncode b = optimalParse b := by
  rw [optimalEncode, optimalParse, storedTable_load hb]

end Sys2Proof.Machine
end

