-- ==== Sys2Proof/Laws/PerInstr.lean ====
section
/-! SUPPORT. Statements made of every instruction as syntax, one lemma per constructor. -/

namespace Sys2Proof.Laws

open Sys2Proof

/-- The size of an instruction's code in bytes: 4 for a command word (30_encoding.md R120), and for a chunk the length of R132. -/
def codeSize : Code → Nat
  | .cmdw _   => 4
  | .chunk bs => bs.length

/-- The size R120 and R132 give an instruction. -/
def instrSize : Instr → Nat
  | .nop | .load | .holeZero | .holePattern | .matchCmd | .encGreedy | .encOptimal | .decode | .compress => 4
  | .chunkMatch lits _ _  => 1 + (if lits.length < 15 then 0 else 1) + lits.length + 0 + 2
  | .chunkMatchX lits _ _ => 1 + (if lits.length < 15 then 0 else 1) + lits.length + 1 + 2
  | .chunkNoMatch lits    => 1 + (if lits.length < 15 then 0 else 1) + lits.length + 1
  | .chunkEnd lits        => 1 + (if lits.length < 15 then 0 else 1) + lits.length + 1

/-- The bytes of FB, LX and the literals of an encoded chunk. -/
theorem length_encodeChunk (c : Chunk) :
    (encodeChunk c).length = 1 + (if c.lits.length < 15 then 0 else 1) + c.lits.length + c.tail.bytes.length := by
  unfold encodeChunk lxBytes
  split <;> simp <;> omega

/-- The encoded length of a chunk is its length by R132. -/
theorem length_encodeChunk_size (c : Chunk) : (encodeChunk c).length = c.size := by
  rw [length_encodeChunk]
  unfold Chunk.size hdrSize
  cases c.tail <;> simp [Tail.bytes, Tail.size] <;> split <;> omega

namespace EncodedSize

/-- The code of an instruction has the size R120 and R132 give it. -/
def Statement (i : Instr) : Prop := codeSize (encode i) = instrSize i

theorem nop : Statement .nop := rfl
theorem load : Statement .load := rfl
theorem holeZero : Statement .holeZero := rfl
theorem holePattern : Statement .holePattern := rfl
theorem matchCmd : Statement .matchCmd := rfl
theorem encGreedy : Statement .encGreedy := rfl
theorem encOptimal : Statement .encOptimal := rfl
theorem decode : Statement .decode := rfl
theorem compress : Statement .compress := rfl
theorem chunkMatch (lits : List Byte) (mn : Nibble) (off : BitVec 16) : Statement (.chunkMatch lits mn off) := length_encodeChunk _
theorem chunkMatchX (lits : List Byte) (mx : Byte) (off : BitVec 16) : Statement (.chunkMatchX lits mx off) := length_encodeChunk _
theorem chunkNoMatch (lits : List Byte) : Statement (.chunkNoMatch lits) := length_encodeChunk _
theorem chunkEnd (lits : List Byte) : Statement (.chunkEnd lits) := length_encodeChunk _

end EncodedSize

end Sys2Proof.Laws
end

