-- ==== Sys2Proof/Laws/TokenWriter.lean ====
section
/-! SUPPORT. What the TokenWriter primitives do to the parser's state and the stream (45_token_writer.md R282 to R285). -/

namespace Sys2Proof.Machine

open Sys2Proof

@[simp] theorem twBegin_out : twBegin.out = [Config.magic] := rfl
@[simp] theorem twBegin_pos : twBegin.pos = 0 := rfl
@[simp] theorem twBegin_pend : twBegin.pend = [] := rfl

@[simp] theorem twChunk_out (lits : List Byte) (t : Tail) (p : Parser) : (twChunk lits t p).out = p.out ++ encodeChunk ⟨lits, t⟩ := rfl
@[simp] theorem twChunk_pos (lits : List Byte) (t : Tail) (p : Parser) : (twChunk lits t p).pos = p.pos := rfl
@[simp] theorem twChunk_pend (lits : List Byte) (t : Tail) (p : Parser) : (twChunk lits t p).pend = p.pend := rfl

@[simp] theorem twMatch_out (m o : Nat) (p : Parser) : (twMatch m o p).out = p.out ++ encodeChunk ⟨p.pend, Tail.ofMatch m o⟩ := rfl
@[simp] theorem twMatch_pos (m o : Nat) (p : Parser) : (twMatch m o p).pos = p.pos := rfl
@[simp] theorem twMatch_pend (m o : Nat) (p : Parser) : (twMatch m o p).pend = [] := rfl

@[simp] theorem twEnd_out (p : Parser) : (twEnd p).out = p.out ++ encodeChunk ⟨p.pend, .endOfData⟩ := rfl

/-- TW_literal extends the run, or sends a full run of 255 out first (R284). -/
theorem twLiteral_cases (x : Byte) (p : Parser) :
    (p.pend.length = 255 ∧ twLiteral x p = { p with out := p.out ++ encodeChunk ⟨p.pend, .noMatch⟩, pend := [x] }) ∨
    (p.pend.length ≠ 255 ∧ twLiteral x p = { p with pend := p.pend ++ [x] }) := by
  unfold twLiteral
  simp only [Config.litMax]
  split
  · exact .inl ⟨by assumption, rfl⟩
  · exact .inr ⟨by assumption, rfl⟩

@[simp] theorem twLiteral_pos (x : Byte) (p : Parser) : (twLiteral x p).pos = p.pos := by
  rcases twLiteral_cases x p with ⟨_, h⟩ | ⟨_, h⟩ <;> rw [h]

/-- The pending run never passes 255 bytes (10_state.md R61). -/
theorem twLiteral_pend_le {x : Byte} {p : Parser} (h : p.pend.length ≤ 255) : (twLiteral x p).pend.length ≤ 255 := by
  rcases twLiteral_cases x p with ⟨_, h'⟩ | ⟨_, h'⟩
  · rw [h']; simp
  · rw [h']; simp; omega

/-- The tail of a match has the length and the offset it was made from (30_encoding.md R129, R130). -/
theorem ofMatch_matchLen {m : Nat} (h1 : 4 ≤ m) (h2 : m ≤ 255) (o : Nat) : (Tail.ofMatch m o).matchLen = m := by
  unfold Tail.ofMatch
  split
  · simp only [Tail.matchLen, BitVec.toNat_ofNat]; omega
  · simp only [Tail.matchLen, BitVec.toNat_ofNat]; omega

/-- The tail of a match of 4..255 is well formed. -/
theorem ofMatch_wf {m : Nat} (h1 : 4 ≤ m) (h2 : m ≤ 255) (o : Nat) : (Tail.ofMatch m o).wf = true := by
  unfold Tail.ofMatch
  split
  · simp only [Tail.wf, decide_eq_true_eq, ne_eq]
    intro h
    have := congrArg BitVec.toNat h
    rw [BitVec.toNat_ofNat, show (15 : Nibble).toNat = 15 from rfl] at this
    omega
  · simp only [Tail.wf, Config.sentNoMatch, Config.sentEnd, Bool.and_eq_true, decide_eq_true_eq, ne_eq]
    constructor
    · intro h
      have := congrArg BitVec.toNat h
      rw [BitVec.toNat_ofNat, show (253 : Byte).toNat = 253 from rfl] at this
      omega
    · intro h
      have := congrArg BitVec.toNat h
      rw [BitVec.toNat_ofNat, show (254 : Byte).toNat = 254 from rfl] at this
      omega

/-- Its bytes: 2 for a length below 19, else 3 (45_token_writer.md R282). -/
theorem ofMatch_bytes_length (m o : Nat) : (Tail.ofMatch m o).bytes.length = if m < 19 then 2 else 3 := by
  unfold Tail.ofMatch
  split <;> rfl

/-- The size of a chunk the TokenWriter writes for a match (R282). -/
theorem length_encodeChunk_ofMatch (lits : List Byte) (m o : Nat) :
    (encodeChunk ⟨lits, Tail.ofMatch m o⟩).length =
      1 + (if lits.length < 15 then 0 else 1) + lits.length + (if m < 19 then 2 else 3) := by
  rw [Laws.length_encodeChunk, ofMatch_bytes_length]

/-! ### The pseudo-instruction `literals` (30_encoding.md R137) -/

theorem literals_of_le {bs : List Byte} (t : Tail) (h : bs.length ≤ 255) : literals bs t = [⟨bs, t⟩] := by
  unfold literals
  cases hl : bs.length with
  | zero => rfl
  | succ n =>
    unfold literalChunks
    rw [if_neg (by simp only [Config.litMax]; omega)]

/-- More fuel than bytes changes nothing. -/
theorem literalChunks_fuel (fuel k : Nat) (bs : List Byte) (t : Tail) (h : bs.length ≤ fuel) :
    literalChunks (fuel + k) bs t = literalChunks fuel bs t := by
  induction fuel generalizing bs with
  | zero =>
    cases k with
    | zero => rfl
    | succ k =>
      obtain rfl : bs = [] := List.length_eq_zero_iff.mp (by omega)
      rfl
  | succ fuel ih =>
    rw [Nat.add_right_comm]
    simp only [literalChunks, Config.litMax]
    split
    · rw [ih _ (by simp; omega)]
    · rfl

/-- A run of more than 255 bytes starts with a no-match chunk of 255. -/
theorem literals_of_gt {bs : List Byte} (t : Tail) (h : 255 < bs.length) :
    literals bs t = ⟨bs.take 255, .noMatch⟩ :: literals (bs.drop 255) t := by
  unfold literals
  obtain ⟨n, hn⟩ : ∃ n, bs.length = n + 1 := ⟨bs.length - 1, by omega⟩
  rw [hn]
  simp only [literalChunks, Config.litMax, if_pos h]
  congr 1
  have h2 := literalChunks_fuel (bs.drop 255).length (n - (bs.drop 255).length) (bs.drop 255) t (Nat.le_refl _)
  rw [show (bs.drop 255).length + (n - (bs.drop 255).length) = n by simp; omega] at h2
  exact h2

/-- The stream of two chunk lists, one after the other. -/
theorem streamBytes_append (cs ds : List Chunk) : streamBytes (cs ++ ds) = streamBytes cs ++ (ds.map encodeChunk).flatten := by
  simp [streamBytes]

theorem streamBytes_length_pos (cs : List Chunk) : 1 ≤ (streamBytes cs).length := by simp [streamBytes]

end Sys2Proof.Machine
end

