-- ==== Sys2Proof/Machine/HostProgram.lean ====
section
/-! DEFINITION. Host programs in the command syntax of 30_encoding.md R135, as the inputs they give the machine. None of it changes
behaviour: it is notation for host transactions. -/

namespace Sys2Proof.Machine

open Sys2Proof

/-- A line of a host program (R135). -/
inductive HostLine where
  /-- `WR <REG>, <value>` -/
  | wr (r : Reg) (v : Word)
  /-- `WRB <MEM>[<index>], <byte>...` -/
  | wrb (b : Buf) (index : Nat) (bytes : List Byte)
  /-- `CMD <MNEMONIC>` -/
  | cmd (i : Instr)
  /-- `WAIT`: STATUS is read until DONE = 1; the engine completes before the read that finds it. -/
  | wait
  /-- `RD <REG>` -/
  | rd (r : Reg)
  /-- `RDB <MEM>[<index>], <count>` -/
  | rdb (b : Buf) (index count : Nat)
deriving DecidableEq, Repr

/-- A host write of the word v to a register (20_memory.md R90). -/
def regWrite (r : Reg) (v : Word) : Input := .host (.write (BitVec.ofNat 20 (regOffset r)) 4 v)

/-- A host read of a register (R90). -/
def regRead (r : Reg) : Input := .host (.read (BitVec.ofNat 20 (regOffset r)) 4)

/-- Host writes of consecutive bytes from a host address on (R91). -/
def byteWrites (addr : Nat) : List Byte → List Input
  | []      => []
  | b :: bs => .host (.write (BitVec.ofNat 20 addr) 1 (b.setWidth 32)) :: byteWrites (addr + 1) bs

/-- Host reads of `count` consecutive bytes from a host address on (R91). -/
def byteReads (addr : Nat) : Nat → List Input
  | 0         => []
  | count + 1 => .host (.read (BitVec.ofNat 20 addr) 1) :: byteReads (addr + 1) count

/-- The inputs of one line. `CMD` of a chunk kind is no host line and gives none. -/
def lineInputs : HostLine → List Input
  | .wr r v           => [regWrite r v]
  | .wrb b idx bs     => byteWrites (bufBase b + idx) bs
  | .cmd i            => match encode i with
    | .cmdw w  => [regWrite .cmd w]
    | .chunk _ => []
  | .wait             => [.engine, regRead .status]
  | .rd r             => [regRead r]
  | .rdb b idx count  => byteReads (bufBase b + idx) count

/-- The inputs of a host program. -/
def programInputs (p : List HostLine) : List Input := (p.map lineInputs).flatten

end Sys2Proof.Machine
end

