-- ==== Sys2Proof/Tests/Slice0.lean ====
section
/-! SUPPORT. The model's own tests: the checks of WellFormed on ill-formed terms, words written out from spec/30_encoding.md, small steps
whose expected results are worked out by hand from the rules named, and for every statement with hypotheses a theorem `witness_<Name>` that
meets them. -/

namespace Sys2Proof.Tests

open Sys2Proof Sys2Proof.Machine

/-! ### Helpers -/

/-- The outcome is a next state that meets p. -/
def onNext (o : Host.Outcome State Fault Refusal) (p : State → Bool) : Bool :=
  match o with
  | .next s    => p s
  | .fault _   => false
  | .refused _ => false

/-- The outcome is UNINIT_READ. -/
def isUninit (o : Host.Outcome State Fault Refusal) : Bool :=
  match o with
  | .next _    => false
  | .fault _   => true
  | .refused _ => false

/-- The pair of class and detail that a next state records. -/
def errorIs (o : Host.Outcome State Fault Refusal) (code : BitVec 4) (detail : Byte) : Bool :=
  onNext o (fun t => t.status.done && t.status.err && decide (t.status.errCode = code) && decide (t.status.errDetail = detail))

/-- After reset, with WRK[0..) and WLEN given. -/
def withWrk (bs : List Byte) : State := { State.reset with wrk := cellsFrom 0 bs, wlen := BitVec.ofNat 14 bs.length }

/-- After reset, with CMP[0..) and CMP_LEN given. -/
def withCmp (bs : List Byte) : State := { State.reset with cmp := cellsFrom 0 bs, cmpLen := BitVec.ofNat 17 bs.length }

/-- A Decoder between two chunks: CMP[1..), the bytes of DEC so far, CMP_LEN at the end of the bytes given. -/
def midDecode (out bs : List Byte) : State :=
  { State.reset.accept 7 with
    engine := .decoding, cmp := cellsFrom 1 bs, cmpLen := BitVec.ofNat 17 (1 + bs.length), dec := cellsFrom 0 out
    hid := { resetHidden with ip := 1, op := BitVec.ofNat 14 out.length } }

/-- The inputs of a state replaced. -/
def giving (xs : List Input) (s : State) : State := { s with inputs := xs }

/-- One step of a host transaction after reset. -/
def hostStep (op : HostOp) (s : State) : Host.Outcome State Fault Refusal := step (giving [.host op] s)

theorem reset_capInRange : State.reset.CapInRange := by
  unfold State.CapInRange
  decide

/-! ### WellFormed: each check refuses an ill-formed term -/

theorem test_wf_refuses_long_run_match : (Instr.chunkMatch (List.replicate 271 0) 0 0).wf = false := by decide +kernel
theorem test_wf_refuses_long_run_end : (Instr.chunkEnd (List.replicate 271 0)).wf = false := by decide +kernel
theorem test_wf_refuses_nibble_15 : (Instr.chunkMatch [] 15 0).wf = false := by decide
theorem test_wf_refuses_sentinel_253 : (Instr.chunkMatchX [] 253 0).wf = false := by decide
theorem test_wf_refuses_sentinel_254 : (Instr.chunkMatchX [] 254 0).wf = false := by decide
theorem test_wf_accepts_longest : (Instr.chunkMatchX (List.replicate 270 0) 255 0xFFFF).wf = true := by decide +kernel

/-! ### Decoding words written out bit by bit (30_encoding.md R121, R126, R131) -/

theorem test_decode_nop : decodeTableWord 32 0b00000000 = some .nop := by decide
theorem test_decode_load : decodeTableWord 32 0b00000001 = some .load := by decide
theorem test_decode_holeZero : decodeTableWord 32 0b00000010 = some .holeZero := by decide
theorem test_decode_holePattern : decodeTableWord 32 0b00000011 = some .holePattern := by decide
theorem test_decode_matchCmd : decodeTableWord 32 0b00000100 = some .matchCmd := by decide
theorem test_decode_encGreedy : decodeTableWord 32 0b00000101 = some .encGreedy := by decide
theorem test_decode_encOptimal : decodeTableWord 32 0b00000110 = some .encOptimal := by decide
theorem test_decode_decode : decodeTableWord 32 0b00000111 = some .decode := by decide
theorem test_decode_compress : decodeTableWord 32 0b00001000 = some .compress := by decide
/-- FB = 0010 0011: L = 2, M = 7; literals 41 42; OFF = 34 + 256 * 12 (hex). -/
theorem test_decode_chunkMatch :
    decode (.chunk [0b00100011, 0x41, 0x42, 0x34, 0x12]) = .ok (.chunkMatch [0x41, 0x42] 3 0x1234, []) := by decide
/-- FB = 0001 1111: L = 1, MX follows; MX = 236. -/
theorem test_decode_chunkMatchX :
    decode (.chunk [0b00011111, 0x00, 0b11101100, 0x00, 0x01]) = .ok (.chunkMatchX [0x00] 236 0x0100, []) := by decide
/-- FB = 1111 1111, LX = 0: L = 15; MX = 253; the byte behind the chunk is left. -/
theorem test_decode_chunkNoMatch :
    decode (.chunk ([0b11111111, 0x00] ++ List.replicate 15 0x7F ++ [0b11111101, 0x99]))
      = .ok (.chunkNoMatch (List.replicate 15 0x7F), [0x99]) := by decide
/-- FB = 0000 1111: L = 0; MX = 254 (45_token_writer.md R288: the end of `66 0F FE`). -/
theorem test_decode_chunkEnd : decode (.chunk [0b00001111, 0b11111110]) = .ok (.chunkEnd [], []) := by decide
theorem test_decode_refuses_reserved_opcode : decode (.cmdw 0x00000009) = .error .opcode := by decide
theorem test_decode_refuses_reserved_bit : decode (.cmdw 0x80000000) = .error .rsvd := by decide
theorem test_decode_cut_offset : decode (.chunk [0x10, 0x41, 0x00]) = .error (.offset 1 1 3) := by decide

/-! ### Steps, one command each -/

/-- The entries of one literal and of the sentinel, in their fields (44_optimal_parser.md R252, R254, 10_state.md R59). -/
theorem test_opt_table_is_stored_in_fields :
    storedTable [0x41] = [⟨1#16, 0#8, 0#13, 1#8⟩, ⟨0#16, 0#8, 0#13, 0#8⟩] := by decide

/-- 40_control.md R171, example: STATUS reads 0x00000002 after NOP. -/
theorem test_nop_status : onNext (exec .nop State.reset) (fun t => decide (regValue t .status = 0x00000002)) = true := by decide
/-- R173, example: the word 0x00000109 gives BAD_CMD, detail 2, LAST_OPC 9. -/
theorem test_reserved_bits_first :
    (errorIs (step (State.reset.accept 0x109)) 5 2 && onNext (step (State.reset.accept 0x109)) (fun t => decide (t.status.lastOpc = 9)))
      = true := by decide
/-- R172: SRC_LEN = 8183 is refused, WLEN stays. -/
theorem test_load_short :
    (errorIs (exec .load { State.reset with srcLen := 8183, wlen := 5 }) 3 1 &&
      onNext (exec .load { State.reset with srcLen := 8183, wlen := 5 }) (fun t => decide (t.wlen = 5))) = true := by decide
/-- R172 (b): a length of 2 in a buffer of 4 is padded with zeros. -/
theorem test_load_pads : loadBytes (cellsFrom 0 [0x11, 0x22]) 2 4 = some [0x11, 0x22, 0, 0] := by decide
/-- 41_hole_processor.md R190: in 128 bytes the hole is [120, 128), and a byte before it is not read. -/
theorem test_holeZero_defines :
    onNext (exec .holeZero { State.reset with wlen := 128 })
      (fun t => decide (t.wrk = cellsFrom 120 [0, 0, 0, 0, 0, 0, 0, 0])) = true := by decide
theorem test_holeZero_short : errorIs (exec .holeZero { State.reset with wlen := 127 }) 6 3 = true := by decide
/-- R193, example: 11 22 before the hole, AA BB AA BB after it. -/
theorem test_holePattern_backward :
    onNext (exec .holePattern { State.reset with wlen := 132, wrk := cellsFrom 118 [0x11, 0x22] ++ cellsFrom 128 [0xAA, 0xBB, 0xAA, 0xBB] })
      (fun t => decide (t.wrk.readBytes 120 8 = some [0xAA, 0xBB, 0xAA, 0xBB, 0xAA, 0xBB, 0xAA, 0xBB])) = true := by decide
/-- R194: with 3 bytes behind the hole the condition is false, and the bytes before it are projected. -/
theorem test_holePattern_forward :
    onNext (exec .holePattern { State.reset with wlen := 131, wrk := cellsFrom 118 [0x11, 0x22] ++ cellsFrom 128 [0xAA, 0xBB, 0xAA] })
      (fun t => decide (t.wrk.readBytes 120 8 = some [0x11, 0x22, 0x11, 0x22, 0x11, 0x22, 0x11, 0x22])) = true := by decide
/-- 42_match_finder.md R211, example: "ABCABCABCX", POS = 3 gives (6, 0). -/
theorem test_match_example :
    onNext (exec .matchCmd { withWrk [0x41, 0x42, 0x43, 0x41, 0x42, 0x43, 0x41, 0x42, 0x43, 0x58] with pos := 3 })
      (fun t => decide (t.matchLen = 6) && decide (t.matchOff = 0)) = true := by decide
/-- R211: POS = WLEN is BAD_ARG(1). -/
theorem test_match_pos_at_end : errorIs (exec .matchCmd { withWrk [0x41, 0x41] with pos := 2 }) 6 1 = true := by decide
/-- R230, R282 by hand: "ABCABCABCX" is three literals with the match 6 @ 0, then one literal with the end marker. -/
theorem test_greedy_by_hand :
    greedyParse [0x41, 0x42, 0x43, 0x41, 0x42, 0x43, 0x41, 0x42, 0x43, 0x58]
      = [0x66, 0x32, 0x41, 0x42, 0x43, 0x00, 0x00, 0x1F, 0x58, 0xFE] := by decide
theorem test_encGreedy_wlen : errorIs (exec .encGreedy { State.reset with wlen := 8193 }) 3 2 = true := by decide
/-- R250, R256 by hand: the same input has OPT[0].totalCost = 7 and the same stream (R257: 7 + 3 bytes). -/
theorem test_optimal_by_hand :
    (optimalTable [0x41, 0x42, 0x43, 0x41, 0x42, 0x43, 0x41, 0x42, 0x43, 0x58])[0]? = some ⟨7, 0, 0, 3⟩ ∧
      optimalParse [0x41, 0x42, 0x43, 0x41, 0x42, 0x43, 0x41, 0x42, 0x43, 0x58]
        = [0x66, 0x32, 0x41, 0x42, 0x43, 0x00, 0x00, 0x1F, 0x58, 0xFE] := by decide
theorem test_encOptimal_uninit : isUninit (exec .encOptimal { State.reset with wlen := 8184 }) = true := by decide
/-- 46_decoder.md R300, example (95_test_vectors.md V-D1). -/
theorem test_decode_example :
    onNext (exec .decode (withCmp [0x66, 0xFF, 0x01, 0x00, 0x01, 0x02, 0x03, 0x04, 0x05, 0x06, 0x07, 0x08, 0x09, 0x0A, 0x0B, 0x0C,
        0x0D, 0x0E, 0x0F, 0x00, 0x00, 0x00, 0x0F, 0xFE]))
      (fun t => decide (t.decLen = 35) && decide (t.inUsed = 24) && decide (t.errPos = 0) &&
        decide (t.dec.readBytes 16 19 = some [0, 1, 2, 3, 4, 5, 6, 7, 8, 9, 10, 11, 12, 13, 14, 15, 0, 1, 2])) = true := by decide +kernel
/-- R301: a wrong magic byte is FORMAT(2). -/
theorem test_decode_magic : errorIs (exec .decode (withCmp [0x67, 0x0F, 0xFE])) 1 2 = true := by decide
/-- 47_compress.md R343: no slot enabled is BAD_ARG(5), and RESULT is cleared. -/
theorem test_compress_no_slot :
    (errorIs (exec .compress { State.reset with srcLen := 8184, ctrl := { Ctrl.reset with greedyEn := false, optimalEn := false }
                                                result := ⟨1, 1, true, true⟩ }) 6 5 &&
      onNext (exec .compress { State.reset with srcLen := 8184, ctrl := { Ctrl.reset with greedyEn := false, optimalEn := false }
                                                result := ⟨1, 1, true, true⟩ }) (fun t => decide (t.result = RunResult.reset))) = true := by
  decide
/-- R345: of equal sizes the earliest slot wins. -/
theorem test_compress_tie : pickBest [(0, 9), (1, 7), (2, 7), (3, 8)] none = some (1, 7) := by decide
/-- R303, example: output 41 42, then FB = 00 and offset 00 00. -/
theorem test_chunkMatch_overlap :
    onNext (exec (.chunkMatch [] 0 0) (midDecode [0x41, 0x42] []))
      (fun t => decide (t.dec.readBytes 0 6 = some [0x41, 0x42, 0x41, 0x42, 0x41, 0x42]) && decide (t.hid.op = 6) && decide (t.hid.ip = 4))
      = true := by decide
/-- R309: an offset equal to the output cursor is OVERRUN(7), after the offset bytes. -/
theorem test_chunkMatch_ahead :
    (errorIs (exec (.chunkMatch [] 0 2) (midDecode [0x41, 0x42] [])) 2 7 &&
      onNext (exec (.chunkMatch [] 0 2) (midDecode [0x41, 0x42] [])) (fun t => decide (t.errPos = 4))) = true := by decide
/-- R304: literal 05 and MX = 0 copy it 19 times. -/
theorem test_chunkMatchX_run :
    onNext (exec (.chunkMatchX [0x05] 0 0) (midDecode [] []))
      (fun t => decide (t.dec = cellsFrom 0 (List.replicate 20 0x05)) && decide (t.hid.ip = 6)) = true := by decide +kernel
/-- R305: the Decoder accepts a no-match chunk with no literals. -/
theorem test_chunkNoMatch_empty :
    onNext (exec (.chunkNoMatch []) (midDecode [0x41] [])) (fun t => decide (t.hid.ip = 3) && decide (t.hid.op = 1) && t.status.busy)
      = true := by decide
/-- R306, example: `66 2F 41 42 FE` decodes to 41 42 with IN_USED = 5. -/
theorem test_chunkEnd_completes :
    onNext (exec (.chunkEnd [0x41, 0x42]) (midDecode [] []))
      (fun t => decide (t.decLen = 2) && decide (t.inUsed = 5) && t.status.done && !t.status.busy) = true := by decide

/-! ### Host transactions -/

/-- 10_state.md R35: CTRL reads 0x0000001E after reset. -/
theorem test_read_ctrl : onNext (hostStep (.read 0x8 4) State.reset) (fun t => decide (t.rdata = 0x1E)) = true := by decide
/-- R33: the four bytes of ID. -/
theorem test_read_id : onNext (hostStep (.read 0x0 4) State.reset) (fun t => decide (t.rdata = 0x46485043)) = true := by decide
/-- 20_memory.md R82: a 4-byte write to SRC is little-endian. -/
theorem test_write_src :
    onNext (hostStep (.write 0x10004 4 0x44332211) State.reset) (fun t => decide (t.src = cellsFrom 4 [0x11, 0x22, 0x33, 0x44])) = true := by
  decide
/-- R91, R93: the first CMP byte at CMP_CAP (8448 = 0x2100) is refused. -/
theorem test_cmp_past_cap :
    onNext (hostStep (.write 0x32100 1 0xFF) State.reset) (fun t => t.events.hostErr && decide (t.cmp = [])) = true := by decide
/-- R170: a CMD write while BUSY only sets CMD_REJ. -/
theorem test_cmd_rejected :
    onNext (hostStep (.write 0x10 4 1) (State.reset.accept 0)) (fun t => t.events.cmdRej && decide (t.status.lastOpc = 0)) = true := by decide

/-! ### Witnesses: concrete states and operands that meet the hypotheses of the statements -/

theorem witness_EncodeDecodeRoundTrip :
    Instr.compress.wf = true ∧ encode .compress = .cmdw 8 ∧ (Instr.chunkMatchX (List.replicate 270 7) 255 0xFFFF).wf = true ∧
    (∃ bs, encode (.chunkMatchX (List.replicate 270 7) 255 0xFFFF) = .chunk bs) := by
  refine ⟨by decide, by decide, by decide +kernel, ⟨_, rfl⟩⟩

theorem witness_DecodeIsExact :
    decode (.cmdw 8) = .ok (.compress, []) ∧ decode (.chunk [0x0F, 0xFD, 0x99]) = .ok (.chunkNoMatch [], [0x99]) := by decide

/-- One chunk per clause: LN below 15 and LN = 15, MN below 15, MX = 253, 254 and another. -/
theorem witness_ChunkLength :
    decodeChunk [0xE0, 1, 2, 3, 4, 5, 6, 7, 8, 9, 10, 11, 12, 13, 14, 0, 0] = .ok (⟨[1, 2, 3, 4, 5, 6, 7, 8, 9, 10, 11, 12, 13, 14], .matchShort 0 0⟩, []) ∧
    decodeChunk ([0xFF, 0] ++ List.replicate 15 1 ++ [253]) = .ok (⟨List.replicate 15 1, .noMatch⟩, []) ∧
    decodeChunk [0x0F, 254] = .ok (⟨[], .endOfData⟩, []) ∧ decodeChunk [0x0F, 255, 0, 0] = .ok (⟨[], .matchLong 255 0⟩, []) := by decide

theorem witness_ReservedCommandWords :
    State.reset.rst = false ∧ State.reset.inputs = [] ∧ (0x100 : Word).extractLsb' 8 24 ≠ 0 ∧
    ((9 : Word).extractLsb' 8 24 = 0 ∧ 9 ≤ ((9 : Word).extractLsb' 0 8).toNat) ∧
    ((8 : Word).extractLsb' 8 24 = 0 ∧ ((8 : Word).extractLsb' 0 8).toNat < 9) := by decide

theorem witness_StepRunsCommand :
    decode (.cmdw 0) = .ok (.nop, []) ∧ (State.reset.accept 0).engine = .busy 0 ∧ (State.reset.accept 0).rst = false ∧
    (State.reset.accept 0).inputs = [] ∧ (giving [.engine] (State.reset.accept 0)).inputs = [.engine] := by decide

theorem witness_StepRunsChunk :
    decode (.chunk [0x1F, 0x41, 0xFE]) = .ok (.chunkEnd [0x41], []) ∧
    (midDecode [] [0x1F, 0x41, 0xFE]).engine = .decoding ∧ (midDecode [] [0x1F, 0x41, 0xFE]).rst = false ∧
    (midDecode [] [0x1F, 0x41, 0xFE]).cmp.Holds (midDecode [] [0x1F, 0x41, 0xFE]).hid.ip.toNat [0x1F, 0x41, 0xFE] ∧
    (midDecode [] [0x1F, 0x41, 0xFE]).hid.ip.toNat + 3 ≤ (midDecode [] [0x1F, 0x41, 0xFE]).cmpLen.toNat ∧
    (midDecode [] [0x1F, 0x41, 0xFE]).inputs = [] ∧ (giving [.engine] (midDecode [] [0x1F, 0x41, 0xFE])).inputs = [.engine] :=
  ⟨by decide, by decide, by decide, Memory.holds_cellsFrom _ _, by decide, by decide, by decide⟩

theorem witness_IdleEngineWaits :
    State.reset.engine = .idle ∧ State.reset.inputs = [] ∧ (giving [.engine] State.reset).inputs = [.engine] := by decide

theorem witness_StepwiseDecodeIsDecode :
    (State.reset.accept 7).engine = .busy 7 ∧ (State.reset.accept 7).rst = false ∧ (State.reset.accept 7).inputs = [] := by decide

theorem witness_CommandIssue :
    (giving [.host (.write 0x10 4 1)] State.reset).rst = false ∧ (giving [.host (.write 0x10 4 1)] State.reset).status.busy = false ∧
    (giving [.host (.write 0x10 4 1)] (State.reset.accept 0)).status.busy = true ∧
    (giving [.host (.write 0x10 4 1)] State.reset).inputs = [.host (.write 0x10 4 1)] := by decide

theorem witness_ResetValues : (giving [.rst true] (State.reset.accept 1)).inputs = [.rst true] := by decide

/-- One input per clause. -/
theorem witness_ResetHeld :
    State.reset.assertReset.rst = true ∧
    (∀ x ∈ [Input.host (.write 0x8 4 0), .sameCycle (.read 0x8 4), .engine, .beginDecode, .rst false],
      (giving [x] State.reset.assertReset).inputs = [x]) := by decide

theorem witness_RegisterReads :
    (giving [.host (.read 0x50 4)] State.reset).rst = false ∧ (giving [.host (.read 0x50 4)] State.reset).status.busy = false ∧
    (0x50, 8448) ∈ registerTable (giving [.host (.read 0x50 4)] State.reset) ∧
    (giving [.host (.read 0x50 4)] State.reset).inputs = [.host (.read (BitVec.ofNat 20 0x50) 4)] := by decide

/-- The clause of CMD, with the engine BUSY. -/
theorem witness_RegisterReads_cmd_while_busy :
    (giving [.host (.read 0x10 4)] (State.reset.accept 1)).rst = false ∧
    (giving [.host (.read 0x10 4)] (State.reset.accept 1)).status.busy = true ∧
    (0x010, 0) ∈ registerTable (giving [.host (.read 0x10 4)] (State.reset.accept 1)) ∧
    (giving [.host (.read 0x10 4)] (State.reset.accept 1)).inputs = [.host (.read (BitVec.ofNat 20 0x10) 4)] := by decide

/-- R37: the data read from CMD is 0 while BUSY too, whatever the last read returned. -/
theorem test_cmd_reads_zero_while_busy :
    onNext (step (giving [.host (.read 0x10 4)] { State.reset.accept 1 with rdata := 5 })) (fun t => decide (t.rdata = 0)) = true := by decide

theorem witness_RegisterWrites :
    State.reset.rst = false ∧ State.reset.status.busy = false ∧
    ∀ off ∈ [0x008, 0x018, 0x01C, 0x020, 0x028, 0x000, 0x050],
      (giving [.host (.write (BitVec.ofNat 20 off) 4 0xFFFFFFFF)] State.reset).inputs = [.host (.write (BitVec.ofNat 20 off) 4 0xFFFFFFFF)] := by
  decide

theorem witness_BusyRegisterAccess :
    (State.reset.accept 1).rst = false ∧ (State.reset.accept 1).status.busy = true ∧
    (∀ off ∈ [0x008, 0x010, 0x014, 0x000, 0x024], off ∈ (registerTable (State.reset.accept 1)).map Prod.fst) ∧
    0x000 ∈ busyReadable ∧ 0x024 ∉ busyReadable ∧
    (giving [.host (.read 0x24 4)] (State.reset.accept 1)).inputs = [.host (.read (BitVec.ofNat 20 0x24) 4)] ∧
    (giving [.host (.write 0x8 4 0)] (State.reset.accept 1)).inputs = [.host (.write (BitVec.ofNat 20 0x8) 4 0)] := by decide

theorem witness_EventsAreWriteOneToClear :
    (giving [.host (.write 0x14 4 7)] State.reset).rst = false ∧
    (giving [.host (.write 0x14 4 7)] State.reset).inputs = [.host (.write 0x14 4 7)] := by decide

/-- Refused: a byte access to a register, the byte at CMP_CAP, an unmapped address, and SRC while BUSY. Allowed: the last word of SRC. -/
theorem witness_RefusedAccesses :
    State.reset.rst = false ∧ State.reset.CapInRange ∧ ¬ accessAllowed State.reset 0x8 1 ∧ ¬ accessAllowed State.reset 0x32100 1 ∧
    ¬ accessAllowed State.reset 0x100 4 ∧ ¬ accessAllowed (State.reset.accept 0) 0x10000 4 ∧ accessAllowed State.reset 0x11FFC 4 ∧
    accessAllowed State.reset 0x320FF 1 := by
  refine ⟨rfl, reset_capInRange, ?_, ?_, ?_, ?_, ?_, ?_⟩ <;> unfold accessAllowed mappedWindow <;> decide

theorem witness_MemoryByteOrder :
    State.reset.rst = false ∧ State.reset.status.busy = false ∧ State.reset.CapInRange ∧
    ((Buf.cmp, 0x30000) ∈ [(Buf.src, 0x10000), (Buf.wrk, 0x20000), (Buf.cmp, 0x30000), (Buf.dec, 0x40000)]) ∧
    8444 % 4 = 0 ∧ 8444 + 4 ≤ State.reset.cmpCap ∧ (State.reset.setBuf .cmp (cellsFrom 8444 [1, 2, 3, 4])).cmp.Holds 8444 [1, 2, 3, 4] :=
  ⟨by decide, by decide, by unfold State.CapInRange; decide, by decide, by decide, by decide, Memory.holds_cellsFrom _ _⟩

theorem witness_ReservedOffsets :
    State.reset.rst = false ∧ 0x054 ≤ 0x0FC ∧ 0x0FC % 4 = 0 ∧
    (giving [.host (.read 0xFC 4)] State.reset).inputs = [.host (.read (BitVec.ofNat 20 0xFC) 4)] := by decide

theorem witness_InterruptOutput :
    (giving [.host (.write 0x14 4 1)] State.reset).inputs = [.host (.write 0x14 4 1)] ∧ (1 : Word).getLsbD 0 = true ∧
    (giving [.host (.write 0x8 4 0)] State.reset).inputs = [.host (.write 0x8 4 0)] ∧ (0 : Word).getLsbD 8 = false := by decide

/-- The three orders, with NOP running; in the second the first step answers a next state. -/
theorem witness_HostAgainstCompletion :
    decode (.cmdw 0) = .ok (.nop, []) ∧ (State.reset.accept 0).engine = .busy 0 ∧ (State.reset.accept 0).status.busy = true ∧
    (State.reset.accept 0).rst = false ∧ onNext (step (giving [.engine, .host (.write 0x10 4 1)] (State.reset.accept 0))) (fun _ => true) = true ∧
    onNext (step (giving [.sameCycle (.write 0x14 4 1)] (State.reset.accept 0))) (fun t => t.events.doneEv) = true := by decide

theorem witness_BusyHostDisturbsNothing :
    (State.reset.accept 1).rst = false ∧ (State.reset.accept 1).status.busy = true ∧
    (giving [.host (.write 0x20000 4 1)] (State.reset.accept 1)).inputs = [.host (.write 0x20000 4 1)] := by decide

/-- SRC_LEN at both ends of the legal range, with every byte defined and with none. -/
theorem witness_LoadMeaning :
    ({ State.reset with srcLen := 8183 } : State).srcLen.toNat < 8184 ∧ 8192 < ({ State.reset with srcLen := 8193 } : State).srcLen.toNat ∧
    (∀ len ∈ [8184, 8192], (cellsFrom 0 (List.replicate 8192 0)).DefinedOn 0 (min 8192 len)) ∧
    ¬ State.reset.src.DefinedOn 0 (min 8184 8184) := by
  refine ⟨by decide, by decide, ?_, fun h => absurd (h 0 (by decide) (by decide)) (by decide)⟩
  intro len _
  refine (Memory.holds_cellsFrom 0 _).definedOn.mono (Nat.le_refl _) ?_
  rw [List.length_replicate]
  omega

/-- The lengths 127, 128, 8192 and 8193; in 128 bytes, 119 is outside the hole and 127 inside. -/
theorem witness_HoleZeroMeaning :
    (127 : BitVec 14).toNat < 128 ∧ 128 ≤ (128 : BitVec 14).toNat ∧ (8192 : BitVec 14).toNat ≤ 8192 ∧ 8192 < (8193 : BitVec 14).toNat ∧
    InHole 128 127 ∧ ¬ InHole 128 119 := by
  refine ⟨by decide, by decide, by decide, by decide, ⟨0, by decide⟩, ?_⟩
  rintro ⟨k, h1, h2, _⟩
  omega

theorem witness_HolePatternMeaning :
    PatternBytesDefined (cellsFrom 118 [0x11, 0x22]) 128 ∧ ¬ PatternBytesDefined [] 128 ∧
    PatternBytesDefined (cellsFrom 0 (List.replicate 8192 0)) 8192 ∧ InHole 128 120 ∧ ¬ InHole 128 128 := by
  refine ⟨?_, ?_, ?_, ⟨0, by decide⟩, ?_⟩
  · intro k hk
    obtain rfl : k = 0 := by omega
    exact ⟨(Memory.holds_cellsFrom 118 [0x11, 0x22]).definedOn, fun h => absurd h (by decide)⟩
  · intro h
    exact absurd ((h 0 (by decide)).1 118 (by decide) (by decide)) (by decide)
  · intro k hk
    have h := (Memory.holds_cellsFrom 0 (List.replicate 8192 (0 : Byte))).definedOn
    rw [List.length_replicate] at h
    exact ⟨h.mono (by omega) (by omega), fun h4 => h.mono (by omega) (by omega)⟩
  · rintro ⟨k, h1, h2, h3⟩
    omega

theorem witness_HoleFillsAreIdempotent :
    (cellsFrom 118 [0x11, 0x22]).wf ∧ ∃ x, patternFill 128 (cellsFrom 118 [0x11, 0x22]) = some x := by
  exact ⟨by decide, ⟨cellsFrom 118 [0x11, 0x22, 0x11, 0x22, 0x11, 0x22, 0x11, 0x22, 0x11, 0x22], by decide⟩⟩

theorem witness_HolesInAnyOrder :
    Memory.wf (cellsFrom 118 [0x11, 0x22]) ∧ ([1, 0] : List Nat).Perm (List.range (holeCount 256)) := by decide

/-- Each clause: n too large, pos = n, a defined buffer of one byte, and pos = 0 with no byte defined. -/
theorem witness_MatchMeaning :
    8192 < (8193 : BitVec 14).toNat ∧ (withWrk []).wlen.toNat ≤ (withWrk []).pos.toNat ∧
    ((withWrk [0x41]).pos.toNat < (withWrk [0x41]).wlen.toNat ∧ (withWrk [0x41]).wrk.Holds 0 [0x41]) ∧
    (({ State.reset with wlen := 8192 } : State).wlen.toNat ≤ 8192 ∧ State.reset.pos.toNat = 0) :=
  ⟨by decide, by decide, ⟨by decide, Memory.holds_cellsFrom _ _⟩, by decide⟩

/-- A MATCH that completes with WRK[2] undefined, a buffer that fills it, and one that stops. -/
theorem witness_MatchReadsOnlyDefinedBytes :
    (∃ t, exec .matchCmd { State.reset with wlen := 3, pos := 1, wrk := cellsFrom 0 [0x41, 0x42] } = .next t) ∧
    (∀ a v, a < 3 → (cellsFrom 0 [0x41, 0x42] : Memory).read a = some v → ([0x41, 0x42, 0x99] : List Byte)[a]? = some v) ∧
    exec .matchCmd { State.reset with wlen := 2, pos := 1 } = .fault .uninitRead := by
  refine ⟨⟨_, rfl⟩, ?_, rfl⟩
  intro a v ha h
  rw [read_cellsFrom, if_pos (Nat.zero_le a), Nat.sub_zero] at h
  match a, ha with
  | 0, _ => simpa using h
  | 1, _ => simpa using h
  | 2, _ => simp at h

theorem witness_MatchFinderResult : LongestMatch [0x41, 0x41] 1 1 0 := by
  refine ⟨fun _ => ⟨by decide, by decide, ?_⟩, ?_, ?_, fun h => absurd h (by decide)⟩
  · intro j hj
    obtain rfl : j = 0 := by omega
    rfl
  · intro s l' _ h
    exact h.1
  · intro _ s hs
    exact absurd hs (by omega)

/-- The zero buffer of either legal length, in WRK. -/
theorem witness_EncGreedyCompletes :
    ∀ n ∈ [8184, 8192], ∃ (s : State) (b : List Byte), s.CapInRange ∧ 8184 ≤ b.length ∧ b.length ≤ 8192 ∧ s.wlen.toNat = b.length ∧
      s.wrk.Holds 0 b := by
  intro n hn
  refine ⟨{ State.reset with wlen := BitVec.ofNat 14 n, wrk := cellsFrom 0 (List.replicate n 0) }, List.replicate n 0,
    reset_capInRange, ?_, ?_, ?_, Memory.holds_cellsFrom _ _⟩
  all_goals
    rw [List.length_replicate]
    simp only [List.mem_cons, List.not_mem_nil, or_false] at hn
    rcases hn with rfl | rfl <;> decide

theorem witness_EncOptimalCompletes :
    ∃ (s : State) (b : List Byte), s.CapInRange ∧ 8184 ≤ b.length ∧ b.length ≤ 8192 ∧ s.wlen.toNat = b.length ∧ s.wrk.Holds 0 b :=
  witness_EncGreedyCompletes 8192 (by decide)

theorem witness_EncoderInputErrors :
    (8183 : BitVec 14).toNat < 8184 ∧ 8192 < (8193 : BitVec 14).toNat ∧ 8184 ≤ (8184 : BitVec 14).toNat ∧
    ¬ State.reset.wrk.DefinedOn 0 8184 :=
  ⟨by decide, by decide, by decide, fun h => absurd (h 0 (by decide) (by decide)) (by decide)⟩

theorem witness_OptEntriesFit :
    (optimalTable [0x41, 0x41, 0x41, 0x41, 0x41])[1]? = some ⟨3, 4, 0, 0⟩ ∧ (optimalTable [0x41])[0]? = some ⟨1, 0, 0, 1⟩ := by decide

/-- No decision, one literal, and a match of either extreme length. -/
theorem witness_ExpansionBound :
    (∀ l o, Token.copy l o ∈ ([Token.lit 0x41, .copy 4 0, .copy 255 0] : List Token) → 4 ≤ l ∧ l ≤ 255) ∧
    (([] : List Token).map Token.size).sum = 0 ∧ 1 ≤ (([Token.lit 0x41] : List Token).map Token.size).sum := by
  refine ⟨?_, by decide, by decide⟩
  intro l o h
  simp only [List.mem_cons, Token.copy.injEq, List.not_mem_nil, or_false, reduceCtorEq, false_or] at h
  omega

theorem witness_NoUsableMatchStream : 1 ≤ ([0x41] : List Byte).length ∧ NoUsableMatch [0x41] := by
  refine ⟨by decide, ?_⟩
  intro pos l o hp h
  by_cases hl : 0 < l
  · have := (h.found hl).2.1
    simp only [List.length_singleton] at this hp
    omega
  · omega

/-- `magic`, one literal with a match of 4, the end. -/
theorem witness_DecodeReplaysChunks :
    (∀ c ∈ [(⟨[0x41], .matchShort 0 0⟩ : Chunk), ⟨[], .endOfData⟩], c.wf = true) ∧
    replay State.reset.ctrl.capacity [⟨[0x41], .matchShort 0 0⟩, ⟨[], .endOfData⟩] [] = some (List.replicate 5 0x41) ∧
    (withCmp [0x66, 0x10, 0x41, 0x00, 0x00, 0x0F, 0xFE]).cmp.Holds 0 (streamBytes [⟨[0x41], .matchShort 0 0⟩, ⟨[], .endOfData⟩]) ∧
    (streamBytes [⟨[0x41], .matchShort 0 0⟩, ⟨[], .endOfData⟩]).length ≤ (withCmp [0x66, 0x10, 0x41, 0x00, 0x00, 0x0F, 0xFE]).cmpLen.toNat ∧
    (withCmp [0x66, 0x10, 0x41, 0x00, 0x00, 0x0F, 0xFE]).cmpLen.toNat ≤ (withCmp [0x66, 0x10, 0x41, 0x00, 0x00, 0x0F, 0xFE]).cmpCap :=
  ⟨by decide, by decide, Memory.holds_cellsFrom _ _, by decide, by decide⟩

theorem witness_DecodeStartErrors :
    ({ State.reset with cmpLen := 8449 } : State).cmpCap < ({ State.reset with cmpLen := 8449 } : State).cmpLen.toNat ∧
    (withCmp []).cmpLen.toNat = 0 ∧ (0 < (withCmp [0x67]).cmpLen.toNat ∧ (withCmp [0x67]).cmp.read 0 = some 0x67) ∧
    (({ State.reset with cmpLen := 8448 } : State).cmpLen.toNat ≤ State.reset.cmpCap ∧ State.reset.cmp.read 0 = none) := by decide

/-- A success, a failure, and a CMP_LEN past CMP_CAP. -/
theorem witness_DecodeAllOrNothing :
    (∃ t, exec .decode (withCmp [0x66, 0x0F, 0xFE]) = .next t) ∧ (∃ t, exec .decode (withCmp [0x66]) = .next t) ∧
    (∃ t, exec .decode { State.reset with cmpLen := 8449 } = .next t) :=
  ⟨⟨_, rfl⟩, ⟨_, rfl⟩, ⟨_, rfl⟩⟩

theorem witness_DecodeAlwaysCompletes :
    (withCmp [0x66, 0x00]).cmp.DefinedOn 0 (withCmp [0x66, 0x00]).cmpLen.toNat ∧
    ({ State.reset with cmpLen := 8449 } : State).cmpCap < ({ State.reset with cmpLen := 8449 } : State).cmpLen.toNat :=
  ⟨(Memory.holds_cellsFrom 0 [0x66, 0x00]).definedOn, by decide⟩

/-- A chunk cut at each place: before FB, before LX, in the run, before MX, in the offset. -/
theorem witness_TruncatedChunk :
    (⟨List.replicate 15 1, .matchLong 0 0⟩ : Chunk).wf = true ∧ (encodeChunk ⟨List.replicate 15 1, .matchLong 0 0⟩).length = 20 ∧
    ∀ n ∈ [0, 1, 16, 17, 19],
      let s := midDecode [] ((encodeChunk ⟨List.replicate 15 1, .matchLong 0 0⟩).take n)
      s.engine = .decoding ∧ s.rst = false ∧ s.inputs = [] ∧ s.cmpLen.toNat - s.hid.ip.toNat = n ∧
      s.cmp = cellsFrom s.hid.ip.toNat ((encodeChunk ⟨List.replicate 15 1, .matchLong 0 0⟩).take n) := by decide +kernel

/-- The output cursor at the capacity, the offset at the cursor, and a source and a destination that pass the capacity by one. -/
theorem witness_ChunkBoundsChecks :
    let s : State := { State.reset with hid := { resetHidden with op := 8184 } }
    let t : State := { State.reset with hid := { resetHidden with op := 8183 } }
    (s.ctrl.capacity < s.hid.op.toNat + [(0x41 : Byte)].length) ∧
    (s.hid.op.toNat ≤ s.ctrl.capacity ∧ matchOf (.matchShort 0 8184) = some (4, 8184) ∧ s.hid.op.toNat ≤ 8184) ∧
    (8181 < t.hid.op.toNat ∧ t.ctrl.capacity < 8181 + 4) ∧ (8180 < t.hid.op.toNat ∧ 8180 + 4 ≤ t.ctrl.capacity ∧
      t.ctrl.capacity < t.hid.op.toNat + 4) := by decide

theorem witness_ChunkMatchCompletes :
    (midDecode [0x41, 0x42] []).dec.DefinedOn 1 ((midDecode [0x41, 0x42] []).hid.op.toNat - 1) ∧
    1 < (midDecode [0x41, 0x42] []).hid.op.toNat ∧ (midDecode [0x41, 0x42] []).hid.op.toNat + 274 ≤ (midDecode [0x41, 0x42] []).ctrl.capacity :=
  ⟨(Memory.holds_cellsFrom 0 [0x41, 0x42]).definedOn.mono (by decide) (by decide), by decide, by decide⟩

theorem witness_ChunkNoMatchAndEndComplete :
    (midDecode [] []).hid.op.toNat + (List.replicate 270 (0 : Byte)).length ≤ (midDecode [] []).ctrl.capacity := by decide +kernel

/-- Lengths at the capacity of PRESERVE_HOLES = 0 and past it. -/
theorem witness_EncodeThenDecode :
    ∀ n ∈ [8184, 8192], ∃ s : State, s.CapInRange ∧ s.wlen.toNat = n ∧ 8184 ≤ n ∧ n ≤ 8192 ∧ s.wrk.DefinedOn 0 s.wlen.toNat ∧
      s.ctrl.capacity = 8184 := by
  intro n hn
  have h : ∀ k : Nat, (cellsFrom 0 (List.replicate k (0 : Byte)) : Memory).DefinedOn 0 k := fun k => by
    simpa using (Memory.holds_cellsFrom 0 (List.replicate k (0 : Byte))).definedOn
  simp only [List.mem_cons, List.not_mem_nil, or_false] at hn
  rcases hn with rfl | rfl
  · exact ⟨{ State.reset with wlen := 8184, wrk := cellsFrom 0 (List.replicate 8184 0) }, reset_capInRange, rfl, by decide, by decide,
      h 8184, rfl⟩
  · exact ⟨{ State.reset with wlen := 8192, wrk := cellsFrom 0 (List.replicate 8192 0) }, reset_capInRange, rfl, by decide, by decide,
      h 8192, rfl⟩

/-- The zero buffer in SRC, with the reset CTRL: every slot runs. -/
theorem witness_CompressCompletes :
    ∃ s : State, s.CapInRange ∧ s.srcLen.toNat = 8184 ∧ RawBuffer s (List.replicate 8184 0) ∧ SlotRuns s.ctrl 0 ∧ SlotRuns s.ctrl 3 := by
  refine ⟨{ State.reset with srcLen := 8184, src := cellsFrom 0 (List.replicate 8184 0) }, reset_capInRange, rfl, ⟨?_, ?_⟩, ?_, ?_⟩
  · rw [List.length_replicate]
    rfl
  · intro p hp
    have h := Memory.holds_cellsFrom 0 (List.replicate 8184 (0 : Byte)) p hp
    rw [Nat.zero_add] at h
    rw [List.length_replicate] at hp
    exact h.symm.trans (if_pos (show p < 8184 from hp)).symm
  · exact .inl (by decide)
  · exact .inr (.inr (.inr (by decide)))

theorem witness_CompressIsUnitCommands :
    ∃ (s : State) (raw : List Byte), s.CapInRange ∧ s.srcLen.toNat = 8184 ∧ RawBuffer s raw ∧ ∃ k, SlotRuns s.ctrl k :=
  let ⟨s, h1, h2, h3, h4, _⟩ := witness_CompressCompletes
  ⟨s, _, h1, h2, h3, 0, h4⟩

/-- A hole byte and a byte outside the holes. -/
theorem witness_CompressThenDecode :
    (∃ (s : State) (raw : List Byte), s.CapInRange ∧ s.srcLen.toNat = 8184 ∧ RawBuffer s raw ∧ ∃ k, SlotRuns s.ctrl k) ∧
    InHole 8184 8063 ∧ ¬ InHole 8184 8064 := by
  refine ⟨witness_CompressIsUnitCommands, ⟨62, by decide⟩, ?_⟩
  rintro ⟨k, h1, h2, _⟩
  omega

theorem witness_CompressArgumentErrors :
    (8183 : BitVec 14).toNat < 8184 ∧ 8192 < (8193 : BitVec 14).toNat ∧
    (∀ k, ¬ SlotRuns { Ctrl.reset with greedyEn := false, optimalEn := false } k) ∧ SlotRuns Ctrl.reset 0 ∧
    ¬ State.reset.src.DefinedOn 0 (min 8184 8184) := by
  refine ⟨by decide, by decide, ?_, .inl (by decide), fun h => absurd (h 0 (by decide) (by decide)) (by decide)⟩
  rintro k (⟨_, h, _⟩ | ⟨_, h, _⟩ | ⟨_, h, _⟩ | ⟨_, h, _⟩) <;> exact absurd h (by decide)

/-- A step from a state that meets the invariant: NOP, accepted, completes. -/
theorem witness_StepKeepsInvariant : ∃ t, step (State.reset.accept 0) = .next t := ⟨_, rfl⟩

theorem witness_InstructionsWriteOnlyTheirOperands :
    (∃ t, exec .nop State.reset = .next t) ∧ (∃ t, exec (.chunkMatch [0x41] 0 0) (midDecode [] []) = .next t) := ⟨⟨_, rfl⟩, ⟨_, rfl⟩⟩

/-- Two states that differ in SRC, WRK, DEC and RESULT agree on what DECODE reads. -/
theorem witness_InstructionsReadOnlyTheirOperands :
    ReadsAgree (withCmp [0x66, 0x0F, 0xFE])
      { withCmp [0x66, 0x0F, 0xFE] with src := [(0, 1)], wrk := [(0, 1)], dec := [(0, 1)], result := ⟨1, 1, true, true⟩ } .decode :=
  ⟨rfl, rfl, fun _ _ => rfl, rfl⟩

theorem witness_CommandsFinish :
    isCommand .decode = true ∧ (∃ t, exec .decode (withCmp [0x66, 0x0F, 0xFE]) = .next t) ∧ isCommand (.chunkEnd []) = false ∧
    (∃ t, exec (.chunkEnd []) (midDecode [] []) = .next t) := ⟨rfl, ⟨_, rfl⟩, rfl, ⟨_, rfl⟩⟩

/-- Every buffer filled with zeros. -/
theorem witness_DefinedBuffersNeverStop : ∃ s : State, s.AllDefined ∧ s.CapInRange := by
  have h : ∀ n : Nat, (cellsFrom 0 (List.replicate n (0 : Byte)) : Memory).DefinedOn 0 n := by
    intro n
    have := (Memory.holds_cellsFrom 0 (List.replicate n (0 : Byte))).definedOn
    rwa [List.length_replicate] at this
  refine ⟨{ State.reset with
    src := cellsFrom 0 (List.replicate 8192 0), wrk := cellsFrom 0 (List.replicate 8192 0)
    cmp := cellsFrom 0 (List.replicate 8448 0), dec := cellsFrom 0 (List.replicate 8192 0) }, ⟨h _, h _, h _, h _⟩, reset_capInRange⟩

end Sys2Proof.Tests
end

section
/-! The machine's invariant. Its clauses on the buffers and the result registers are kept apart from those on STATUS and the engine, so that a
completion needs only the first of the state it completes. -/

namespace Sys2Proof.Machine

open Sys2Proof

/-! ### STATUS -/

theorem Status.completed_legal (e : Option HwError) (st : Status) : (st.completed e).Legal := by
  cases e with
  | none => exact ⟨nofun, nofun, fun _ => ⟨rfl, rfl⟩⟩
  | some x => exact ⟨nofun, fun _ => ⟨rfl, x.pair_mem⟩, nofun⟩

theorem Status.accepted_legal (w : Word) : (Status.accepted w).Legal := ⟨fun _ => ⟨rfl, rfl⟩, nofun, fun _ => ⟨rfl, rfl⟩⟩

@[simp] theorem Status.completed_busy (e : Option HwError) (st : Status) : (st.completed e).busy = false := by
  cases e <;> rfl

/-! ### The invariant without STATUS and the engine -/

/-- The buffers are in their form and the result registers in their ranges: the clauses of State.Inv in which neither STATUS, the engine nor the
cursors occur. -/
structure State.DataOk (s : State) : Prop where
  buffers  : s.BuffersOk
  cap      : s.CapInRange
  decLen   : s.decLen.toNat ≤ 8192
  noMatch  : s.matchLen = 0 → s.matchOff = 0
  inBuffer : s.matchOff.toNat + s.matchLen.toNat < 8192
  variant  : s.result.variant ≠ 3
  valid    : s.result.valid = false → s.result = ⟨0, 0, false, false⟩

theorem State.Inv.dataOk {s : State} (h : s.Inv) : s.DataOk :=
  ⟨h.buffers, h.cap, h.decLen, h.noMatch, h.inBuffer, h.variant, h.valid⟩

/-- An idle engine meets every clause on the Decoder and on the running opcode. -/
theorem State.DataOk.idle_inv {t : State} (hd : t.DataOk) (hs : t.status.Legal) (hb : t.status.busy = false) (he : t.engine = .idle)
    (hp : t.errPos ≠ 0 → t.status.lastOpc = 7 ∧ (t.status.errCode = 1 ∨ t.status.errCode = 2))
    (hu : t.inUsed ≠ 0 → t.status.lastOpc = 7 ∧ t.status.err = false) : t.Inv :=
  { hd with
    status := hs
    busy := by simp [hb, he]
    opcode := fun w h => by simp [he] at h
    decodeOp := fun h => by simp [he] at h
    decoding := fun h => by simp [he] at h
    reset := fun _ => he
    errPos := fun _ => hp
    inUsed := fun _ => hu }

/-- Completion, with or without an error (60_exceptions.md R370). -/
theorem State.DataOk.finish_inv {s : State} (h : s.DataOk) (e : Option HwError) : (s.finish e).Inv :=
  have hd : (s.finish e).DataOk := { h with buffers := { h.buffers with } }
  hd.idle_inv (Status.completed_legal e _) (Status.completed_busy e _) rfl (fun h => absurd rfl h) (fun h => absurd rfl h)

theorem reset_dataOk : State.reset.DataOk where
  buffers := ⟨.nil, .nil, .nil, .nil, rfl, rfl, rfl, rfl⟩
  cap := ⟨by decide, by decide⟩
  decLen := by decide
  noMatch _ := rfl
  inBuffer := by decide
  variant := by decide
  valid _ := rfl

/-- Settles O56: the reset state is idle, with empty buffers and result registers 0. -/
theorem resetMeetsInvariant : Obligations.ResetMeetsInvariant :=
  reset_dataOk.idle_inv ⟨nofun, nofun, fun _ => ⟨rfl, rfl⟩⟩ rfl rfl (fun h => absurd rfl h) (fun h => absurd rfl h)

/-! ### One buffer replaced -/

theorem State.DataOk.setWrk {s : State} (h : s.DataOk) {m : Memory} (hf : m.wf) (hw : m.within 8192 = true) (n : BitVec 14) :
    ({ s with wrk := m, wlen := n } : State).DataOk :=
  { h with buffers := { h.buffers with wrkForm := hf, wrkSize := hw } }

/-- What an encode writes: CMP, DEC and their lengths. -/
theorem State.DataOk.setStream {s : State} (h : s.DataOk) {c d : Memory} (hc : c.wf) (hcw : c.within s.cmpCap = true) (hd : d.wf)
    (hdw : d.within 8192 = true) (cl : BitVec 17) {dl : BitVec 14} (hdl : dl.toNat ≤ 8192) :
    ({ s with cmp := c, cmpLen := cl, dec := d, decLen := dl } : State).DataOk :=
  { h with buffers := { h.buffers with cmpForm := hc, cmpSize := hcw, decForm := hd, decSize := hdw }, decLen := hdl }

theorem State.DataOk.setAttempts {s : State} (h : s.DataOk) {r : RunResult} (hv : r.variant ≠ 3)
    (hr : r.valid = false → r = ⟨0, 0, false, false⟩) (sizes : List (Slot × Nat)) : (s.setAttempts r sizes).DataOk :=
  { h with buffers := { h.buffers with }, variant := hv, valid := hr }

/-! ### The match finder's ranges on cells -/

theorem commonLenCells_le {cap l : Nat} {cs ds : List (Option Byte)} (h : commonLenCells cap cs ds = some l) : l ≤ cap := by
  fun_induction commonLenCells cap cs ds generalizing l with
  | case1 cap cs ds x hn ih => cases h
  | case2 cap cs ds x k hk ih => cases h; have := ih hk; omega
  | case3 => cases h; omega
  | case4 => cases h
  | case5 => cases h; omega

/-- The outer loop answers the best so far, or a longer candidate among those it looks at. -/
theorem scanCells_range {cap : Nat} {target : List (Option Byte)} {left start : Nat} {suffix : List (Option Byte)} {best r : Nat × Nat}
    (h : scanCells cap target left start suffix best = some r) :
    r = best ∨ (0 < r.1 ∧ r.1 ≤ cap ∧ r.2 < start + left) := by
  induction left generalizing start suffix best with
  | zero => cases h; exact .inl rfl
  | succ left ih =>
    simp only [scanCells] at h
    split at h
    · cases h
    · next l hl =>
      have hcap := commonLenCells_le hl
      split at h
      · next hgt =>
        have hnew : 0 < l ∧ l ≤ cap ∧ start < start + (left + 1) := by omega
        split at h
        · cases h; exact .inr hnew
        · rcases ih h with rfl | ⟨h1, h2, h3⟩
          · exact .inr hnew
          · exact .inr ⟨h1, h2, by omega⟩
      · rcases ih h with rfl | ⟨h1, h2, h3⟩
        · exact .inl rfl
        · exact .inr ⟨h1, h2, by omega⟩

/-- The match found in a buffer of cells is at most 255 long, inside the buffer, before the position; none is (0, 0)
(42_match_finder.md R215). -/
theorem findInCells_range {b : List (Option Byte)} {pos l o : Nat} (h : findInCells b pos = some (l, o)) :
    (l = 0 ∧ o = 0) ∨ (0 < l ∧ l ≤ 255 ∧ l ≤ b.length - pos ∧ o < pos) := by
  unfold findInCells at h
  split at h
  · cases h; exact .inl ⟨rfl, rfl⟩
  · rcases scanCells_range h with h | ⟨h1, h2, h3⟩
    · cases h; exact .inl ⟨rfl, rfl⟩
    · simp only [matchCap, Config.matchMax] at h2
      exact .inr ⟨h1, by omega, by omega, by simpa using h3⟩

/-- What MATCH stores keeps the clauses on MATCH_LEN and MATCH_OFF (10_state.md R45). -/
theorem State.DataOk.setMatch {s : State} (h : s.DataOk) {b : List (Option Byte)} {pos l o : Nat} (hb : b.length ≤ 8192)
    (hm : findInCells b pos = some (l, o)) :
    ({ s with matchLen := BitVec.ofNat 8 l, matchOff := BitVec.ofNat 13 o } : State).DataOk := by
  have hl : (BitVec.ofNat 8 l).toNat = l := by
    rcases findInCells_range hm with ⟨rfl, -⟩ | ⟨-, _, -⟩
    · rfl
    · rw [BitVec.toNat_ofNat]; omega
  have ho : (BitVec.ofNat 13 o).toNat = o := by
    rcases findInCells_range hm with ⟨-, rfl⟩ | ⟨_, _, _, _⟩
    · rfl
    · rw [BitVec.toNat_ofNat]; omega
  refine { h with buffers := { h.buffers with }, noMatch := fun h0 => ?_, inBuffer := ?_ }
  · have h0 : BitVec.ofNat 8 l = 0 := h0
    have h0 : l = 0 := by rw [← hl, h0]; rfl
    rcases findInCells_range hm with ⟨-, rfl⟩ | ⟨_, -⟩
    · rfl
    · omega
  · simp only [hl, ho]
    rcases findInCells_range hm with ⟨_, _⟩ | ⟨_, _, _, _⟩ <;> omega

/-! ### Encoding -/

theorem toNat_ofNat_le {w n k : Nat} (h : n ≤ k) : (BitVec.ofNat w n).toNat ≤ k := by
  rw [BitVec.toNat_ofNat]
  exact (Nat.mod_le _ _).trans h

/-- A verified encode leaves CMP and DEC in their form and inside their sizes. -/
theorem emitAndVerify_buffers {s : State} {input stream : List Byte} {x : Encoded} (h : s.BuffersOk) (hn : input.length ≤ 8192)
    (hx : emitAndVerify s.cmpCap s.cmp s.dec input stream = .ok x) :
    x.cmp.wf ∧ x.cmp.within s.cmpCap = true ∧ x.dec.wf ∧ x.dec.within 8192 = true := by
  obtain ⟨hfit, -, hcmp, d, hrun, -, hdec, -⟩ := emitAndVerify_ok hx
  obtain ⟨hd, -⟩ := runDecode_done hrun
  rw [hcmp, ← hdec]
  exact ⟨Memory.wf_writeBytes h.cmpForm _ _, Memory.within_writeBytes h.cmpSize (by omega), hd.wf h.decForm, hd.within _ hn h.decSize⟩

theorem State.DataOk.finishEncode_inv {s : State} (h : s.DataOk) {input stream : List Byte} {x : Encoded} {n : Nat}
    (hn : input.length ≤ 8192) (hn' : n ≤ 8192) (hx : emitAndVerify s.cmpCap s.cmp s.dec input stream = .ok x) :
    (finishEncode n x s).Inv := by
  obtain ⟨h1, h2, h3, h4⟩ := emitAndVerify_buffers h.buffers hn hx
  exact (h.setStream h1 h2 h3 h4 _ (toNat_ofNat_le hn')).finish_inv none

theorem State.DataOk.failEncode_inv {s : State} (h : s.DataOk) (e : HwError) : (failEncode e s).Inv :=
  (h.setStream (c := []) (d := []) (dl := 0) .nil rfl .nil rfl 0 (by decide)).finish_inv (some e)

theorem State.DataOk.encodeWith_inv {s t : State} {parse : List Byte → List Byte} (h : s.DataOk) (ht : encodeWith parse s = .next t) :
    t.Inv := by
  rcases encodeWith_next ht with ⟨-, rfl⟩ | ⟨-, hle, input, hin, ⟨e, -, rfl⟩ | ⟨x, hx, rfl⟩⟩
  · exact h.finish_inv _
  · exact h.failEncode_inv e
  · have hlen := (Memory.readBytes_eq_some.mp hin).1
    exact h.finishEncode_inv (by omega) hle hx

/-! ### COMPRESS -/

/-- A property of WRK that the two fills keep is kept by the variant of a slot (47_compress.md R344). -/
theorem applyVariant_keeps {v : BitVec 2} {n : Nat} {m x : Memory} (hn : n ≤ 8192) (hf : m.wf) (hw : m.within 8192 = true)
    (h : applyVariant v n m = some x) : x.wf ∧ x.within 8192 = true := by
  unfold applyVariant at h
  split at h
  · cases h; exact ⟨zeroFill_wf hf n, zeroFill_within hw hn⟩
  · split at h
    · exact ⟨patternFill_wf hf h, patternFill_within hw hn h⟩
    · cases h; exact ⟨hf, hw⟩

theorem slotVariant_ne_three (c : Ctrl) (k : Slot) : slotVariant c k ≠ 3 := by
  unfold slotVariant
  split
  · decide
  · split <;> decide

/-- What is left of CMP after success keeps its form and its size. -/
theorem losersErase_keeps {cap size n : Nat} {sizes : List (Slot × Nat)} {m : Memory} (hf : m.wf) (hw : m.within n = true) :
    (losersErase cap sizes size m).wf ∧ (losersErase cap sizes size m).within n = true := by
  unfold losersErase
  split
  · exact ⟨Memory.wf_undefine hf _ _, Memory.within_undefine hw _ _⟩
  · exact ⟨hf, hw⟩

theorem State.DataOk.finishCompress_inv {s : State} (h : s.DataOk) {k : Slot} {a : Attempt} {n : Nat} (hn : n ≤ 8192)
    (sizes : List (Slot × Nat)) (ha : attempt s s.srcLen.toNat n k = .ok a) : (finishCompress k a n sizes s).Inv := by
  obtain ⟨raw, input, hraw, hwrk, hin, hx⟩ := attempt_ok ha
  have hrlen := loadBytes_length hraw
  have hilen := (Memory.readBytes_eq_some.mp hin).1
  obtain ⟨hwf, hww⟩ := applyVariant_keeps hn (Memory.wf_writeBytes h.buffers.wrkForm _ _)
    (Memory.within_writeBytes h.buffers.wrkSize (by omega)) hwrk
  obtain ⟨h1, h2, h3, h4⟩ := emitAndVerify_buffers h.buffers (by omega) hx
  obtain ⟨h5, h6⟩ := losersErase_keeps (cap := s.cmpCap) (size := a.enc.size) (sizes := sizes) h1 h2
  have hatt := h.setAttempts (r := ⟨BitVec.ofNat 2 k.val, slotVariant s.ctrl k, slotOptimal k, true⟩) (slotVariant_ne_three s.ctrl k)
    nofun sizes
  exact ((hatt.setWrk hwf hww _).setStream h5 h6 h3 h4 _ (toNat_ofNat_le hn)).finish_inv none

theorem State.DataOk.failCompress_inv {s : State} (h : s.DataOk) (e : HwError) (n : Nat) (sizes : List (Slot × Nat)) :
    (failCompress e n sizes s).Inv :=
  (((h.setAttempts (r := RunResult.reset) (by decide) (fun _ => rfl) sizes).setWrk (Memory.wf_undefine h.buffers.wrkForm 0 n)
    (Memory.within_undefine h.buffers.wrkSize 0 n) _).setStream (c := []) (d := []) (dl := 0) .nil rfl .nil rfl 0
    (by decide)).finish_inv (some e)

theorem State.DataOk.execCompress_inv {s t : State} (h : s.DataOk) (ht : execCompress s = .next t) : t.Inv := by
  have h0 := h.setAttempts (r := RunResult.reset) (by decide) (fun _ => rfl) []
  rcases execCompress_next ht with ⟨-, rfl⟩ | ⟨-, -, ⟨-, rfl⟩ | ⟨e, sizes, k, -, rfl⟩ | ⟨k, a, sizes, -, -, ha, rfl⟩⟩
  · exact h0.finish_inv _
  · exact h0.finish_inv _
  · exact h.failCompress_inv _ _ _
  · exact h.finishCompress_inv s.ctrl.capacity_le sizes ha

/-! ### DECODE -/

/-- DECODE completes with success: DEC and DEC_LEN come from the Decoder, and IN_USED is its input cursor (46_decoder.md R300). -/
theorem State.DataOk.finishDecode_inv {s : State} (h : s.DataOk) (hop : s.status.lastOpc = 7) {d : DecState} {inlen cap : Nat}
    (hd : Decoding inlen cap s.dec d) (hcap : cap ≤ 8192) : (finishDecode d s).Inv := by
  have hdata : (finishDecode d s).DataOk :=
    { h with
      buffers := { h.buffers with decForm := hd.wf h.buffers.decForm, decSize := hd.within _ hcap h.buffers.decSize }
      decLen := toNat_ofNat_le (hd.output.trans hcap) }
  exact hdata.idle_inv (Status.completed_legal none _) rfl rfl (fun h => absurd rfl h) (fun _ => ⟨hop, rfl⟩)

/-- DECODE completes with a FORMAT or OVERRUN error: DEC_LEN is 0 and ERR_POS is free (R310). -/
theorem State.DataOk.failDecode_inv {s : State} (h : s.DataOk) (hop : s.status.lastOpc = 7) {e : HwError} (he : e.code = 1 ∨ e.code = 2)
    (p : Nat) : (failDecode e p s).Inv := by
  have hdata : (failDecode e p s).DataOk :=
    { h with
      buffers := { h.buffers with
        decForm := Memory.wf_undefine h.buffers.decForm _ _, decSize := Memory.within_undefine h.buffers.decSize _ _ }
      decLen := by simp }
  exact hdata.idle_inv (Status.completed_legal (some e) _) rfl rfl (fun _ => ⟨hop, he⟩) (fun h => absurd rfl h)

theorem State.DataOk.execDecode_inv {s t : State} (h : s.DataOk) (hop : s.status.lastOpc = 7) (ht : execDecode s = .next t) : t.Inv := by
  rcases execDecode_next ht with ⟨-, rfl⟩ | ⟨-, ⟨d, hd, rfl⟩ | ⟨e, p, he, rfl⟩⟩
  · exact h.finish_inv _
  · exact h.finishDecode_inv hop (runDecode_done hd).1 s.ctrl.capacity_le
  · exact h.failDecode_inv hop (runDecode_raised he) p

/-- A DECODE is taken chunk by chunk: the invariant without its clauses on the cursors, which the chunk that runs sets. -/
structure State.InDecode (s : State) : Prop where
  data   : s.DataOk
  status : s.status.Legal
  busy   : s.status.busy = true
  opcode : s.status.lastOpc = 7
  engine : s.engine = .decoding
  rst    : s.rst = false
  mapped : s.cmpLen.toNat ≤ s.cmpCap

theorem State.Inv.rst_eq_false {s : State} (h : s.Inv) (he : s.engine ≠ .idle) : s.rst = false := by
  cases hr : s.rst with
  | false => rfl
  | true => exact absurd (h.reset hr) he

theorem State.Inv.inDecode {s : State} (h : s.Inv) (he : s.engine = .decoding) : s.InDecode where
  data := h.dataOk
  status := h.status
  busy := h.busy.mpr (by simp [he])
  opcode := h.decodeOp he
  engine := he
  rst := h.rst_eq_false (by simp [he])
  mapped := (h.decoding he).mapped

/-- The Decoder between two chunks, as the state of the loop of 46_decoder.md R301. -/
theorem State.DecodingOk.decState {s : State} (h : s.DecodingOk) : Decoding s.cmpLen.toNat s.ctrl.capacity s.dec s.decState where
  started := h.started
  input := h.input
  output := h.output
  wf := id
  within _ _ := id
  above _ _ := rfl
  written := h.written

/-- Back between two chunks, with the Decoder in range. -/
theorem State.InDecode.setDecState_inv {s : State} (h : s.InDecode) {d : DecState}
    (hd : Decoding s.cmpLen.toNat s.ctrl.capacity s.dec d) : (s.setDecState d).Inv := by
  have hcap := s.ctrl.capacity_le
  have hip : (BitVec.ofNat 17 d.ip).toNat = d.ip := by
    have := hd.input; have := s.cmpLen.isLt; rw [BitVec.toNat_ofNat]; omega
  have hop : (BitVec.ofNat 14 d.op).toNat = d.op := by
    have := hd.output; rw [BitVec.toNat_ofNat]; omega
  have hok : (s.setDecState d).DecodingOk := by
    refine ⟨?_, ?_, h.mapped, ?_, ?_⟩ <;> simp only [setDecState_hid, setDecState_cmpLen, setDecState_ctrl, setDecState_dec, hip, hop]
    · exact hd.started
    · exact hd.input
    · exact hd.output
    · exact hd.written
  have hbuf : (s.setDecState d).BuffersOk :=
    { h.data.buffers with decForm := hd.wf h.data.buffers.decForm, decSize := hd.within _ hcap h.data.buffers.decSize }
  exact
    { h.data with
      buffers := hbuf
      status := h.status
      busy := by simp [h.busy, h.engine]
      opcode := fun w hw => by simp [h.engine] at hw
      decodeOp := fun _ => h.opcode
      decoding := fun _ => hok
      reset := fun hr => by simp [h.rst] at hr
      errPos := fun hi => by simp [h.engine] at hi
      inUsed := fun hi => by simp [h.engine] at hi }

/-- The outcome of a chunk, or of what comes before the first one, that leaves the Decoder in range. -/
theorem State.InDecode.applyChunk_inv {s t : State} (h : s.InDecode) {r : ChunkResult}
    (hgo : ∀ d, r = .go d ∨ r = .stop d → Decoding s.cmpLen.toNat s.ctrl.capacity s.dec d)
    (herr : ∀ e p, r = .raised e p → e.code = 1 ∨ e.code = 2) (ht : applyChunk r s = .next t) : t.Inv := by
  rcases applyChunk_next ht with ⟨d, hr, rfl⟩ | ⟨d, hr, rfl⟩ | ⟨e, p, hr, rfl⟩
  · exact h.setDecState_inv (hgo d (.inl hr))
  · exact h.data.finishDecode_inv h.opcode (hgo d (.inr hr)) s.ctrl.capacity_le
  · exact h.data.failDecode_inv h.opcode (herr e p hr) p

/-! ### The engine's moves -/

/-- The word of DECODE is 7 (30_encoding.md R121). -/
theorem decodeCommand_decode {w : Word} (h : decodeCommand w = .ok .decode) : w.extractLsb' 0 8 = 7 := by
  unfold decodeCommand at h
  split at h
  · cases h
  · split at h <;> cases h
    exact BitVec.eq_of_toNat_eq (by assumption)

/-- Every command keeps the invariant when it completes. -/
theorem State.Inv.exec_inv {s t : State} {i : Instr} (h : s.Inv) (hi : isCommand i = true) (hop : i = .decode → s.status.lastOpc = 7)
    (ht : exec i s = .next t) : t.Inv := by
  have hd := h.dataOk
  have hwf := hd.buffers.wrkForm
  have hw := hd.buffers.wrkSize
  cases i with
  | nop => obtain rfl := complete_next.mp ht; exact hd.finish_inv none
  | load =>
    rcases execLoad_next ht with ⟨-, rfl⟩ | ⟨-, -, bs, hbs, rfl⟩
    · exact hd.finish_inv _
    · have := loadBytes_length hbs
      have := s.ctrl.capacity_le
      exact (hd.setWrk (Memory.wf_writeBytes hwf 0 bs) (Memory.within_writeBytes hw (by omega)) _).finish_inv none
  | holeZero =>
    rcases execHoleZero_next ht with ⟨e, -, rfl⟩ | ⟨-, hle, rfl⟩
    · exact hd.finish_inv _
    · exact (hd.setWrk (zeroFill_wf hwf _) (zeroFill_within hw hle) s.wlen).finish_inv none
  | holePattern =>
    rcases execHolePattern_next ht with ⟨e, -, rfl⟩ | ⟨-, hle, m, hm, rfl⟩
    · exact hd.finish_inv _
    · exact (hd.setWrk (patternFill_wf hwf hm) (patternFill_within hw hle hm) s.wlen).finish_inv none
  | matchCmd =>
    rcases execMatch_next ht with ⟨-, rfl⟩ | ⟨-, -, rfl⟩ | ⟨hle, -, l, o, hm, rfl⟩
    · exact hd.finish_inv _
    · exact hd.finish_inv _
    · exact (hd.setMatch (by simpa using hle) hm).finish_inv none
  | encGreedy => exact hd.encodeWith_inv ht
  | encOptimal => exact hd.encodeWith_inv ht
  | decode => exact hd.execDecode_inv (hop rfl) ht
  | compress => exact hd.execCompress_inv ht
  | chunkMatch | chunkMatchX | chunkNoMatch | chunkEnd => cases hi

theorem State.Inv.engineMove_inv {s t : State} (h : s.Inv) (ht : engineMove s = .next t) : t.Inv := by
  rcases engineMove_next ht with ⟨-, rfl⟩ | ⟨w, he, hw⟩ | ⟨he, hc⟩
  · exact h
  · rcases runWord_next hw with ⟨i, hi, hx⟩ | ⟨e, -, rfl⟩
    · refine h.exec_inv (decodeCommand_ok hi).1 (fun hdec => ?_) hx
      rw [h.opcode w he]
      exact decodeCommand_decode (hdec ▸ hi)
    · exact h.dataOk.finish_inv _
  · have hdec := (h.decoding he).decState
    refine (h.inDecode he).applyChunk_inv (fun d hr => ?_) (fun e p hr => .inr (stepChunk_raised hr)) hc
    rcases hr with hr | hr
    · exact hdec.step _ _ hr
    · obtain ⟨c, -, -, ha, hi⟩ := stepChunk_stop hr
      exact hdec.advance ha hi

/-- What comes before the first chunk leaves the cursors at 1 and 0, and DEC as it is (46_decoder.md R301). -/
theorem startDecode_state {cmp dec : Memory} {inlen : Nat} {d : DecState}
    (h : startDecode cmp inlen dec = .go d ∨ startDecode cmp inlen dec = .stop d) : 1 ≤ inlen ∧ d = { ip := 1, op := 0, dec := dec } := by
  rcases startDecode_cases cmp inlen dec with ⟨-, h'⟩ | ⟨-, -, h'⟩ | ⟨-, -, h'⟩ | ⟨h0, -, h'⟩ <;> simp [h'] at h
  exact ⟨h0, h.symm⟩

/-- Its errors are those of FORMAT. -/
theorem startDecode_raised {cmp dec : Memory} {inlen p : Nat} {e : HwError} (h : startDecode cmp inlen dec = .raised e p) : e.code = 1 := by
  rcases startDecode_cases cmp inlen dec with ⟨-, h'⟩ | ⟨-, -, h'⟩ | ⟨-, -, h'⟩ | ⟨-, -, h'⟩ <;> rw [h'] at h <;> cases h <;> rfl

theorem State.Inv.beginDecode_inv {s t : State} (h : s.Inv) (ht : beginDecode s = .next t) : t.Inv := by
  rcases beginDecode_next ht with hm | ⟨w, he, hw, ⟨-, rfl⟩ | ⟨hle, hc⟩⟩
  · exact h.engineMove_inv hm
  · exact h.dataOk.finish_inv _
  · have hin : ({ s with engine := .decoding } : State).InDecode :=
      { data := { h.dataOk with buffers := { h.buffers with } }
        status := h.status
        busy := h.busy.mpr (by simp [he])
        opcode := by rw [h.opcode w he]; exact decodeCommand_decode hw
        engine := rfl
        rst := h.rst_eq_false (by simp [he])
        mapped := hle }
    refine hin.applyChunk_inv (fun d hr => ?_) (fun e p hr => .inl (startDecode_raised hr)) hc
    obtain ⟨h0, rfl⟩ := startDecode_state hr
    exact Decoding.start h0 _

/-! ### The host's moves -/

/-- No clause speaks of EVENTS or of the model's own fields. -/
theorem State.Inv.unobserved {s : State} (h : s.Inv) (e : Events) (xs : List Input) (v : Word) (n : Nat) :
    ({ s with events := e, inputs := xs, rdata := v, draws := n } : State).Inv :=
  { h with buffers := { h.buffers with }, decoding := fun he => { h.decoding he with } }

theorem State.Inv.idle {s : State} (h : s.Inv) (hb : s.status.busy = false) : s.engine = .idle := by
  by_contra he
  rw [h.busy.mpr he] at hb
  cases hb

/-- With the engine idle no clause speaks of the registers the host writes. -/
theorem State.Inv.setRegs {s : State} (h : s.Inv) (hb : s.status.busy = false) (c : Ctrl) (sl wl p : BitVec 14) (cl : BitVec 17) :
    ({ s with ctrl := c, srcLen := sl, wlen := wl, pos := p, cmpLen := cl } : State).Inv :=
  { h with buffers := { h.buffers with }, decoding := fun he => by simp [h.idle hb] at he }

/-- A block written inside a buffer keeps the form and the size of every buffer. -/
theorem State.BuffersOk.setBuf {s : State} (h : s.BuffersOk) {b : Buf} {idx : Nat} {bs : List Byte}
    (hle : idx + bs.length ≤ s.bufSize b) : (s.setBuf b ((s.buf b).writeBytes idx bs)).BuffersOk := by
  cases b with
  | src => exact { h with srcForm := Memory.wf_writeBytes h.srcForm _ _, srcSize := Memory.within_writeBytes h.srcSize hle }
  | wrk => exact { h with wrkForm := Memory.wf_writeBytes h.wrkForm _ _, wrkSize := Memory.within_writeBytes h.wrkSize hle }
  | cmp => exact { h with cmpForm := Memory.wf_writeBytes h.cmpForm _ _, cmpSize := Memory.within_writeBytes h.cmpSize hle }
  | dec => exact { h with decForm := Memory.wf_writeBytes h.decForm _ _, decSize := Memory.within_writeBytes h.decSize hle }

/-- With the engine idle a buffer may take any contents of its form and size. -/
theorem State.Inv.setBuf {s : State} (h : s.Inv) (hb : s.status.busy = false) {b : Buf} {m : Memory} (hm : (s.setBuf b m).BuffersOk) :
    (s.setBuf b m).Inv := by
  have hi := h.idle hb
  cases b <;> exact { h with buffers := hm, decoding := fun he => by simp [State.setBuf, hi] at he }

/-- Every host transaction keeps the invariant. -/
theorem HostEffect.keeps_inv {s t : State} (ht : HostEffect s t) (h : s.Inv) (hr : s.rst = false) : t.Inv := by
  cases ht with
  | nothing => exact h
  | read v d => exact h.unobserved s.events s.inputs v d
  | refusedRead v d => exact h.unobserved _ s.inputs v d
  | refusedWrite => exact h.unobserved _ s.inputs s.rdata s.draws
  | clear w => exact h.unobserved _ s.inputs s.rdata s.draws
  | rejected _ => exact h.unobserved _ s.inputs s.rdata s.draws
  | accepted w hb =>
    exact
      { h with
        buffers := { h.buffers with }
        status := Status.accepted_legal w
        busy := by simp [Status.accepted]
        opcode := fun v hv => by cases hv; rfl
        decodeOp := nofun
        decoding := nofun
        reset := fun hr' => by simp [hr] at hr'
        errPos := nofun
        inUsed := nofun }
  | ctrl c hb => exact h.setRegs hb c s.srcLen s.wlen s.pos s.cmpLen
  | srcLen v hb => exact h.setRegs hb s.ctrl v s.wlen s.pos s.cmpLen
  | wlen v hb => exact h.setRegs hb s.ctrl s.srcLen v s.pos s.cmpLen
  | cmpLen v hb => exact h.setRegs hb s.ctrl s.srcLen s.wlen s.pos v
  | pos v hb => exact h.setRegs hb s.ctrl s.srcLen s.wlen v s.cmpLen
  | memory b idx bs hb hle => exact h.setBuf hb (h.buffers.setBuf hle)

/-- The reset pin asserted (70_reset_and_hazards.md R400): the reset values, with CMP_CAP kept. -/
theorem State.Inv.assertReset_inv {s : State} (h : s.Inv) : s.assertReset.Inv :=
  have hd : s.assertReset.DataOk := { reset_dataOk with buffers := { reset_dataOk.buffers with cmpSize := rfl }, cap := h.cap }
  hd.idle_inv ⟨nofun, nofun, fun _ => ⟨rfl, rfl⟩⟩ rfl rfl (fun h => absurd rfl h) (fun h => absurd rfl h)

/-- The reset pin released. -/
theorem State.Inv.releaseReset {s : State} (h : s.Inv) : ({ s with rst := false } : State).Inv :=
  { h with buffers := { h.buffers with }, decoding := fun he => { h.decoding he with }, reset := nofun }

/-- Settles O55: the invariant is kept by each way step_next says a step can answer. -/
theorem stepKeepsInvariant : Obligations.StepKeepsInvariant := by
  intro s t h ht
  obtain ⟨u, hu, hcases⟩ := step_next ht
  have hinv : u.Inv := hu ▸ h.unobserved s.events _ s.rdata s.draws
  have hrst : u.rst = s.rst := hu ▸ rfl
  rcases hcases with rfl | ⟨-, v, d, rfl⟩ | ⟨hr, he⟩ | ⟨-, hm⟩ | ⟨-, hm⟩ | ⟨hr, v, he, hm⟩ | rfl | rfl
  · exact hinv
  · exact hinv.unobserved u.events u.inputs v d
  · exact he.keeps_inv hinv (hrst.trans hr)
  · exact hinv.engineMove_inv hm
  · exact hinv.beginDecode_inv hm
  · exact (he.keeps_inv hinv (hrst.trans hr)).engineMove_inv hm
  · exact hinv.assertReset_inv
  · exact hinv.releaseReset

end Sys2Proof.Machine
end

section
/-! What the buffer operations, the Decoder and the encoders answer on two states that hold the same bytes where they read (30_encoding.md R124):
the same values, and buffers that hold the same bytes where they write. -/

namespace Sys2Proof.Machine

open Sys2Proof

/-! ### Buffers with the same bytes -/

theorem SameBytes.mono {n k : Nat} {m x : Memory} (h : SameBytes n m x) (hk : k ≤ n) : SameBytes k m x := fun a ha => h a (by omega)

theorem cells_congr {n a k : Nat} {m x : Memory} (h : SameBytes n m x) (hk : a + k ≤ n) : m.cells a k = x.cells a k := by
  apply List.ext_getElem?
  intro j
  rw [Memory.getElem?_cells, Memory.getElem?_cells]
  split
  · rw [h _ (by omega)]
  · rfl

theorem readBytes_congr {n a k : Nat} {m x : Memory} (h : SameBytes n m x) (hk : a + k ≤ n) : m.readBytes a k = x.readBytes a k := by
  have hread : ∀ j, j < k → m.read (a + j) = x.read (a + j) := fun j hj => h _ (by omega)
  ext bs
  rw [Memory.readBytes_eq_some, Memory.readBytes_eq_some]
  exact and_congr_right fun _ => forall₂_congr fun j hj => by rw [hread j hj]

theorem definedRun_congr {n a : Nat} {m x : Memory} (h : SameBytes n m x) : m.definedRun a (n - a) = x.definedRun a (n - a) := by
  generalize hk : n - a = k
  induction k generalizing a with
  | zero => rfl
  | succ k ih => simp only [Memory.definedRun, h a (by omega), ih (by omega : n - (a + 1) = k)]

theorem SameBytes.write {n : Nat} {m x : Memory} (h : SameBytes n m x) (a : Nat) (v : Byte) : SameBytes n (m.write a v) (x.write a v) := by
  intro p hp
  rw [Memory.read_write, Memory.read_write, h p hp]

/-- A byte written behind the same bytes is one more same byte. -/
theorem SameBytes.write_next {n : Nat} {m x : Memory} (h : SameBytes n m x) (v : Byte) : SameBytes (n + 1) (m.write n v) (x.write n v) := by
  intro p hp
  rw [Memory.read_write, Memory.read_write]
  split
  · rfl
  · exact h p (by omega)

theorem SameBytes.writeBytes {n : Nat} {m x : Memory} (h : SameBytes n m x) (a : Nat) (bs : List Byte) :
    SameBytes n (m.writeBytes a bs) (x.writeBytes a bs) := by
  intro p hp
  rw [Memory.read_writeBytes, Memory.read_writeBytes, h p hp]

/-- A block written behind the same bytes is more same bytes. -/
theorem SameBytes.writeBytes_next {n : Nat} {m x : Memory} (h : SameBytes n m x) (bs : List Byte) :
    SameBytes (n + bs.length) (m.writeBytes n bs) (x.writeBytes n bs) := by
  intro p hp
  rw [Memory.read_writeBytes, Memory.read_writeBytes]
  split
  · rfl
  · exact h p (by omega)

/-- A block written at 0 is the same bytes, whatever the buffers hold. -/
theorem sameBytes_writeBytes_zero (m x : Memory) (bs : List Byte) : SameBytes bs.length (m.writeBytes 0 bs) (x.writeBytes 0 bs) := by
  have h : SameBytes 0 m x := fun a ha => absurd ha (by omega)
  simpa using h.writeBytes_next bs

/-- A forward copy from below the same bytes to their end. -/
theorem SameBytes.copyForward_next {dst src n : Nat} {m x : Memory} (h : SameBytes dst m x) (hlt : src < dst) :
    Option.Rel (SameBytes (dst + n)) (m.copyForward dst src n) (x.copyForward dst src n) := by
  induction n generalizing m x dst src with
  | zero => exact .some h
  | succ n ih =>
    simp only [Memory.copyForward, ← h src hlt]
    cases m.read src with
    | none => exact .none
    | some v =>
      rw [← Nat.add_assoc, Nat.add_right_comm]
      exact ih (h.write_next v) (by omega)

/-- A forward copy that reads inside the same bytes. -/
theorem SameBytes.copyForward {k dst src n : Nat} {m x : Memory} (h : SameBytes k m x) (hk : src + n ≤ k) :
    Option.Rel (SameBytes k) (m.copyForward dst src n) (x.copyForward dst src n) := by
  induction n generalizing m x dst src with
  | zero => exact .some h
  | succ n ih =>
    simp only [Memory.copyForward, ← h src (by omega)]
    cases m.read src with
    | none => exact .none
    | some v => exact ih (h.write dst v) (by omega)

theorem SameBytes.copyDownTwo {k b n : Nat} {m x : Memory} (h : SameBytes k m x) (hk : b + n + 2 ≤ k) :
    Option.Rel (SameBytes k) (m.copyDownTwo b n) (x.copyDownTwo b n) := by
  induction n generalizing m x with
  | zero => exact .some h
  | succ n ih =>
    simp only [Memory.copyDownTwo, ← h (b + n + 2) (by omega)]
    cases m.read (b + n + 2) with
    | none => exact .none
    | some v => exact ih (h.write (b + n) v) (by omega)

/-! ### The hole fills and LOAD -/

theorem SameBytes.zeroFill {k n : Nat} {m x : Memory} (h : SameBytes k m x) : SameBytes k (zeroFill n m) (zeroFill n x) :=
  List.foldl_rel (r := SameBytes k) h fun _ _ _ _ hc => hc.writeBytes _ _

/-- PatternFill of one hole reads inside the buffer (41_hole_processor.md R193). -/
theorem SameBytes.patternHole {n k : Nat} {m x : Memory} (h : SameBytes n m x) (hk : k < holeCount n) :
    Option.Rel (SameBytes n) (patternHole n (holeBegin k) (holeEnd n k) m) (patternHole n (holeBegin k) (holeEnd n k) x) := by
  have hb := holeBegin_lt hk
  have he := holeEnd_le n k
  have h120 : 120 ≤ holeBegin k := Nat.le_add_right _ _
  have hbefore : m.readBytes (holeBegin k - 2) 2 = x.readBytes (holeBegin k - 2) 2 := readBytes_congr h (by omega)
  have hafter : periodTwoAfter n (holeBegin k + Config.holeLen) m = periodTwoAfter n (holeBegin k + Config.holeLen) x := by
    unfold periodTwoAfter
    split
    · rw [readBytes_congr h (by omega)]
    · rfl
  unfold Machine.patternHole
  rw [← hbefore, ← hafter]
  split
  · next hp =>
    have hlong : holeBegin k + 8 + 3 < n := by
      unfold periodTwoAfter at hp
      split at hp
      · assumption
      · cases hp
    exact h.copyDownTwo (by simp only [Config.holeLen]; omega)
  · exact h.copyForward (by omega)
  · exact .none

theorem SameBytes.patternFill {n : Nat} {m x : Memory} (h : SameBytes n m x) :
    Option.Rel (SameBytes n) (patternFill n m) (patternFill n x) := by
  refine List.foldl_rel (r := Option.Rel (SameBytes n)) (.some h) fun k hk c c' hc => ?_
  cases hc with
  | none => exact .none
  | some hm => exact hm.patternHole (List.mem_range.mp hk)

theorem loadBytes_congr {m x : Memory} {len n : Nat} (h : SameBytes n m x) : loadBytes m len n = loadBytes x len n := by
  unfold loadBytes
  rw [readBytes_congr h (by omega)]

theorem SameBytes.applyVariant {n : Nat} {m x : Memory} (h : SameBytes n m x) (v : BitVec 2) :
    Option.Rel (SameBytes n) (applyVariant v n m) (applyVariant v n x) := by
  unfold Machine.applyVariant
  split
  · exact .some h.zeroFill
  · split
    · exact h.patternFill
    · exact .some h

/-! ### The Decoder -/

/-- Two Decoders at the same cursors, with the same output so far. -/
structure DecState.Same (d e : DecState) : Prop where
  ip  : d.ip = e.ip
  op  : d.op = e.op
  dec : SameBytes d.op d.dec e.dec

/-- Two chunks that end alike. -/
inductive ChunkResult.Same : ChunkResult → ChunkResult → Prop where
  | go {d e : DecState} : d.Same e → Same (.go d) (.go e)
  | stop {d e : DecState} : d.Same e → Same (.stop d) (.stop e)
  | raised (x : HwError) (p : Nat) : Same (.raised x p) (.raised x p)
  | uninit : Same .uninit .uninit

/-- Two decodes that end alike. -/
inductive DecodeResult.Same : DecodeResult → DecodeResult → Prop where
  | done {d e : DecState} : d.Same e → Same (.done d) (.done e)
  | raised (x : HwError) (p : Nat) : Same (.raised x p) (.raised x p)
  | uninit : Same .uninit .uninit

theorem copyLiterals_same {d e : DecState} (h : d.Same e) (cap : Nat) (lits : List Byte) :
    (copyLiterals cap lits d).Same (copyLiterals cap lits e) := by
  unfold copyLiterals
  rw [← h.ip, ← h.op]
  split
  · exact .raised _ _
  · exact .go ⟨rfl, rfl, h.dec.writeBytes_next lits⟩

theorem copyMatch_same {d e : DecState} (h : d.Same e) (cap m off : Nat) : (copyMatch cap m off d).Same (copyMatch cap m off e) := by
  unfold copyMatch
  rw [← h.ip, ← h.op]
  split
  · exact .raised _ _
  · split
    · exact .raised _ _
    · split
      · exact .raised _ _
      · have hc := h.dec.copyForward_next (n := m) (by omega : off < d.op)
        generalize d.dec.copyForward d.op off m = y at hc
        generalize e.dec.copyForward d.op off m = z at hc
        cases hc with
        | none => exact .uninit
        | some hm => exact .go ⟨rfl, rfl, hm⟩

theorem runTail_same {d e : DecState} (h : d.Same e) (cap : Nat) (t : Tail) : (runTail cap t d).Same (runTail cap t e) := by
  have h' : DecState.Same { d with ip := d.ip + t.size } { e with ip := e.ip + t.size } := ⟨by rw [h.ip], h.op, h.dec⟩
  cases t with
  | matchShort mn off => exact copyMatch_same h' cap _ _
  | matchLong mx off => exact copyMatch_same h' cap _ _
  | noMatch => exact .go h'
  | endOfData => exact .stop h'

theorem runChunk_same {d e : DecState} (h : d.Same e) (cap : Nat) (c : Chunk) : (runChunk cap c d).Same (runChunk cap c e) := by
  have hl := copyLiterals_same h cap c.lits
  unfold runChunk
  generalize copyLiterals cap c.lits d = y at hl
  generalize copyLiterals cap c.lits e = z at hl
  cases hl with
  | go hd => exact runTail_same hd cap c.tail
  | stop hd => exact .stop hd
  | raised x p => exact .raised x p
  | uninit => exact .uninit

theorem shortChunk_same {d e : DecState} (h : d.Same e) (inlen cap : Nat) (x : DecodeError) :
    (shortChunk inlen cap d x).Same (shortChunk inlen cap e x) := by
  have heq : shortChunk inlen cap d x = shortChunk inlen cap e x := by cases x <;> simp only [shortChunk, h.ip, h.op]
  rw [← heq]
  rcases shortChunk_cases inlen cap d x with h' | ⟨y, p, h', -⟩ <;> rw [h']
  · exact .uninit
  · exact .raised y p

theorem stepChunk_same {cmp cmp' : Memory} {d e : DecState} {inlen : Nat} (hc : SameBytes inlen cmp cmp') (h : d.Same e) (cap : Nat) :
    (stepChunk cmp inlen cap d).Same (stepChunk cmp' inlen cap e) := by
  have hf : fetchChunk cmp inlen d.ip = fetchChunk cmp' inlen e.ip := by
    unfold fetchChunk
    rw [← h.ip, definedRun_congr hc]
  unfold stepChunk
  rw [← hf]
  cases fetchChunk cmp inlen d.ip with
  | error x => exact shortChunk_same h inlen cap x
  | ok c => exact runChunk_same h cap c

theorem decodeLoop_same {cmp cmp' : Memory} {d e : DecState} {inlen : Nat} (hc : SameBytes inlen cmp cmp') (h : d.Same e) (cap fuel : Nat) :
    (decodeLoop cmp inlen cap fuel d).Same (decodeLoop cmp' inlen cap fuel e) := by
  induction fuel generalizing d e with
  | zero => exact .raised _ _
  | succ fuel ih =>
    have hs := stepChunk_same hc h cap
    simp only [decodeLoop]
    generalize stepChunk cmp inlen cap d = y at hs
    generalize stepChunk cmp' inlen cap e = z at hs
    cases hs with
    | go hd => exact ih hd
    | stop hd => exact .done hd
    | raised x p => exact .raised x p
    | uninit => exact .uninit

/-- A decode depends on the stream only: what DEC held before shows nowhere below the output cursor (46_decoder.md R313). -/
theorem runDecode_same {cmp cmp' : Memory} {inlen : Nat} (hc : SameBytes inlen cmp cmp') (cap : Nat) (dec dec' : Memory) :
    (runDecode cmp inlen cap dec).Same (runDecode cmp' inlen cap dec') := by
  have hstart : DecState.Same ⟨1, 0, dec⟩ ⟨1, 0, dec'⟩ := ⟨rfl, rfl, fun a ha => absurd ha (by simp)⟩
  have hs : (startDecode cmp inlen dec).Same (startDecode cmp' inlen dec') := by
    unfold startDecode
    split
    · exact .raised _ _
    · rw [← hc 0 (by omega)]
      cases cmp.read 0 with
      | none => exact .uninit
      | some b =>
        simp only
        split
        · exact .raised _ _
        · exact .go hstart
  unfold runDecode
  generalize startDecode cmp inlen dec = y at hs
  generalize startDecode cmp' inlen dec' = z at hs
  cases hs with
  | go hd => exact decodeLoop_same hc hd cap inlen
  | stop hd => exact .done hd
  | raised x p => exact .raised x p
  | uninit => exact .uninit

/-! ### Encoding -/

/-- Two encodes that end alike: the same stream, the same verified output of n bytes, or the same error. -/
inductive EncodeResult.Same (n : Nat) : EncodeResult → EncodeResult → Prop where
  | ok {x y : Encoded} : x.size = y.size → SameBytes x.size x.cmp y.cmp → SameBytes n x.dec y.dec → Same n (.ok x) (.ok y)
  | failed (e : HwError) : Same n (.failed e) (.failed e)
  | uninit : Same n .uninit .uninit

/-- Two verifications that end alike. -/
inductive VerifyResult.Same (n : Nat) : VerifyResult → VerifyResult → Prop where
  | ok {d e : Memory} : SameBytes n d e → Same n (.ok d) (.ok e)
  | failed (e : HwError) : Same n (.failed e) (.failed e)
  | uninit : Same n .uninit .uninit

theorem verify_same {cmp cmp' : Memory} {len : Nat} (hc : SameBytes len cmp cmp') (input : List Byte) (dec dec' : Memory) :
    (verify cmp len input dec).Same input.length (verify cmp' len input dec') := by
  have hr := runDecode_same hc input.length dec dec'
  unfold verify
  generalize runDecode cmp len input.length dec = y at hr
  generalize runDecode cmp' len input.length dec' = z at hr
  cases hr with
  | uninit => exact .uninit
  | raised x p => exact .failed _
  | @done d e hd =>
    simp only [← hd.op]
    split
    · exact .failed _
    · next hop =>
      have hop : d.op = input.length := by simpa using hop
      have hdec : SameBytes input.length d.dec e.dec := hop ▸ hd.dec
      rw [← readBytes_congr hdec (by omega)]
      cases d.dec.readBytes 0 input.length with
      | none => exact .uninit
      | some out =>
        simp only
        split
        · exact .ok hdec
        · exact .failed _

theorem emitAndVerify_same (cap : Nat) (cmp cmp' dec dec' : Memory) (input stream : List Byte) :
    (emitAndVerify cap cmp dec input stream).Same input.length (emitAndVerify cap cmp' dec' input stream) := by
  have hcmp := sameBytes_writeBytes_zero cmp cmp' stream
  have hv := verify_same hcmp input dec dec'
  simp only [emitAndVerify]
  split
  · exact .failed _
  · generalize verify (cmp.writeBytes 0 stream) stream.length input dec = y at hv
    generalize verify (cmp'.writeBytes 0 stream) stream.length input dec' = z at hv
    cases hv with
    | ok hd => exact .ok rfl hcmp hd
    | failed e => exact .failed e
    | uninit => exact .uninit

/-! ### Attempts of COMPRESS -/

/-- Two attempts that end alike. -/
inductive AttemptResult.Same (n : Nat) : AttemptResult → AttemptResult → Prop where
  | ok {a b : Attempt} : SameBytes n a.wrk b.wrk → a.enc.size = b.enc.size → SameBytes a.enc.size a.enc.cmp b.enc.cmp →
      SameBytes n a.enc.dec b.enc.dec → Same n (.ok a) (.ok b)
  | failed (e : HwError) : Same n (.failed e) (.failed e)
  | uninit : Same n .uninit .uninit

section
variable {s t : State} {n : Nat} (hctrl : s.ctrl = t.ctrl) (hsrc : SameBytes n s.src t.src) (hcap : s.cmpCap = t.cmpCap)
include hctrl hsrc hcap

/-- An attempt depends on SRC, CTRL and CMP_CAP only (47_compress.md R344, R349). -/
theorem attempt_same (len : Nat) (k : Slot) : (attempt s len n k).Same n (attempt t len n k) := by
  unfold attempt
  rw [← loadBytes_congr hsrc, ← hctrl, ← hcap]
  cases hraw : loadBytes s.src len n with
  | none => exact .uninit
  | some raw =>
    have hlen := loadBytes_length hraw
    have hw : SameBytes n (s.wrk.writeBytes 0 raw) (t.wrk.writeBytes 0 raw) := hlen ▸ sameBytes_writeBytes_zero s.wrk t.wrk raw
    have hv := hw.applyVariant (slotVariant s.ctrl k)
    simp only
    generalize applyVariant (slotVariant s.ctrl k) n (s.wrk.writeBytes 0 raw) = y at hv
    generalize applyVariant (slotVariant s.ctrl k) n (t.wrk.writeBytes 0 raw) = z at hv
    cases hv with
    | none => exact .uninit
    | @some a b hab =>
      simp only [← readBytes_congr hab (by omega : 0 + n ≤ n)]
      cases hin : a.readBytes 0 n with
      | none => exact .uninit
      | some input =>
        have hn := (Memory.readBytes_eq_some.mp hin).1
        have he := emitAndVerify_same s.cmpCap s.cmp t.cmp s.dec t.dec input (slotParse k input)
        simp only
        generalize emitAndVerify s.cmpCap s.cmp s.dec input (slotParse k input) = y at he
        generalize emitAndVerify s.cmpCap t.cmp t.dec input (slotParse k input) = z at he
        cases he with
        | ok h1 h2 h3 => exact .ok hab h1 h2 (hn ▸ h3)
        | failed e => exact .failed e
        | uninit => exact .uninit

/-- The run of the slots collects the same sizes, or fails alike. -/
theorem runSlots_congr (len : Nat) (ks : List Slot) (acc : List (Slot × Nat)) : runSlots s len n ks acc = runSlots t len n ks acc := by
  induction ks generalizing acc with
  | nil => rfl
  | cons k ks ih =>
    have ha := attempt_same hctrl hsrc hcap len k
    simp only [runSlots]
    generalize attempt s len n k = y at ha
    generalize attempt t len n k = z at ha
    cases ha with
    | ok _ hsize _ _ => simp only [hsize, ih]
    | failed e => rfl
    | uninit => rfl

end

theorem SameBytes.losersErase {size : Nat} {m x : Memory} (h : SameBytes size m x) (cap : Nat) (sizes : List (Slot × Nat)) :
    SameBytes size (losersErase cap sizes size m) (losersErase cap sizes size x) := by
  unfold Machine.losersErase
  split
  · intro a ha
    rw [Memory.read_undefine, Memory.read_undefine, h a ha]
  · exact h

/-! ### Outcomes -/

variable {s t : State} {i : Instr}

theorem outcomesAgree_uninit (i : Instr) : OutcomesAgree i uninit uninit := rfl

/-- Two completions with the same error and ERR_POS agree. -/
theorem outcomesAgree_failed {s' t' : State} {e : HwError} (hs : s'.status = s.status.completed (some e))
    (ht : t'.status = t.status.completed (some e)) (hp : s'.errPos = t'.errPos) : OutcomesAgree i (.next s') (.next t') := by
  refine ⟨?_, ?_, ?_, hp, fun h => ?_⟩
  · rw [hs, ht]; rfl
  · rw [hs, ht]; rfl
  · rw [hs, ht]; rfl
  · rw [hs] at h; cases h

theorem outcomesAgree_raiseError (e : HwError) (s t : State) : OutcomesAgree i (raiseError e s) (raiseError e t) :=
  outcomesAgree_failed (s := s) (t := t) rfl rfl rfl

/-- Two completions without error agree where the operands written do. -/
theorem outcomesAgree_completed {s' t' : State} (hs : s'.status = s.status.completed none) (ht : t'.status = t.status.completed none)
    (hp : s'.errPos = t'.errPos) (hw : WritesAgree s' t' i) : OutcomesAgree i (.next s') (.next t') := by
  refine ⟨?_, ?_, ?_, hp, fun _ => hw⟩ <;> rw [hs, ht] <;> rfl

/-- A register of a length holds no more than the length. -/
theorem SameBytes.ofNat {w n : Nat} {m x : Memory} (h : SameBytes n m x) : SameBytes (BitVec.ofNat w n).toNat m x :=
  h.mono (by rw [BitVec.toNat_ofNat]; exact Nat.mod_le _ _)

theorem encodeWith_agree {parse : List Byte → List Byte} (hi : i = .encGreedy ∨ i = .encOptimal) (h : ReadsAgree s t i) :
    OutcomesAgree i (encodeWith parse s) (encodeWith parse t) := by
  obtain ⟨hlen, hwrk, hcap⟩ : s.wlen = t.wlen ∧ SameBytes 8192 s.wrk t.wrk ∧ s.cmpCap = t.cmpCap := by rcases hi with rfl | rfl <;> exact h
  simp only [encodeWith, ← hlen, ← hcap]
  split
  · exact outcomesAgree_raiseError _ _ _
  · next hb =>
    have hb := badInputLength_eq_false.mp (Bool.not_eq_true _ ▸ hb)
    rw [← readBytes_congr hwrk (by omega)]
    cases hin : s.wrk.readBytes 0 s.wlen.toNat with
    | none => exact outcomesAgree_uninit i
    | some input =>
      have hn := (Memory.readBytes_eq_some.mp hin).1
      have he := emitAndVerify_same s.cmpCap s.cmp t.cmp s.dec t.dec input (parse input)
      simp only
      generalize emitAndVerify s.cmpCap s.cmp s.dec input (parse input) = y at he
      generalize emitAndVerify s.cmpCap t.cmp t.dec input (parse input) = z at he
      cases he with
      | uninit => exact outcomesAgree_uninit i
      | failed e => exact outcomesAgree_failed (s := s) (t := t) rfl rfl rfl
      | @ok x y hsize hcmp hdec =>
        refine outcomesAgree_completed (s := s) (t := t) rfl rfl rfl ?_
        have hw : WritesAgree (finishEncode s.wlen.toNat x s) (finishEncode s.wlen.toNat y t) .encGreedy :=
          ⟨by simp [hsize], hcmp.ofNat, rfl, (hn ▸ hdec).ofNat⟩
        rcases hi with rfl | rfl <;> exact hw

theorem execLoad_agree (h : ReadsAgree s t .load) : OutcomesAgree .load (execLoad s) (execLoad t) := by
  obtain ⟨hp, hlen, hsrc⟩ := h
  have hcap : s.ctrl.capacity = t.ctrl.capacity := by unfold Ctrl.capacity; rw [hp]
  simp only [execLoad, ← hlen, ← hcap, ← loadBytes_congr (hsrc.mono s.ctrl.capacity_le)]
  split
  · exact outcomesAgree_raiseError _ _ _
  · cases hbs : loadBytes s.src s.srcLen.toNat s.ctrl.capacity with
    | none => exact outcomesAgree_uninit _
    | some bs =>
      have hl := loadBytes_length hbs
      exact outcomesAgree_completed (s := s) (t := t) rfl rfl rfl ⟨rfl, (hl ▸ sameBytes_writeBytes_zero s.wrk t.wrk bs).ofNat⟩

theorem execHoleZero_agree (h : ReadsAgree s t .holeZero) : OutcomesAgree .holeZero (execHoleZero s) (execHoleZero t) := by
  obtain ⟨hlen, hwrk⟩ := h
  simp only [execHoleZero, ← hlen]
  rcases holeLengthError_cases s.wlen.toNat with ⟨-, h'⟩ | ⟨-, h'⟩ | ⟨-, hle, h'⟩ <;> simp only [h']
  · exact outcomesAgree_raiseError _ _ _
  · exact outcomesAgree_raiseError _ _ _
  · exact outcomesAgree_completed (s := s) (t := t) rfl rfl rfl (hwrk.mono hle).zeroFill

theorem execHolePattern_agree (h : ReadsAgree s t .holePattern) :
    OutcomesAgree .holePattern (execHolePattern s) (execHolePattern t) := by
  obtain ⟨hlen, hwrk⟩ := h
  simp only [execHolePattern, ← hlen]
  rcases holeLengthError_cases s.wlen.toNat with ⟨-, h'⟩ | ⟨-, h'⟩ | ⟨-, hle, h'⟩ <;> simp only [h']
  · exact outcomesAgree_raiseError _ _ _
  · exact outcomesAgree_raiseError _ _ _
  · have hf := (hwrk.mono hle).patternFill
    generalize patternFill s.wlen.toNat s.wrk = y at hf
    generalize patternFill s.wlen.toNat t.wrk = z at hf
    cases hf with
    | none => exact outcomesAgree_uninit _
    | some hm => exact outcomesAgree_completed (s := s) (t := t) rfl rfl rfl hm

theorem execMatch_agree (h : ReadsAgree s t .matchCmd) : OutcomesAgree .matchCmd (execMatch s) (execMatch t) := by
  obtain ⟨hlen, hpos, hwrk⟩ := h
  simp only [execMatch, ← hlen, ← hpos, Config.bufSize]
  split
  · exact outcomesAgree_raiseError _ _ _
  · split
    · exact outcomesAgree_raiseError _ _ _
    · rw [← cells_congr hwrk (by omega : 0 + s.wlen.toNat ≤ 8192)]
      cases findInCells (s.wrk.cells 0 s.wlen.toNat) s.pos.toNat with
      | none => exact outcomesAgree_uninit _
      | some r => exact outcomesAgree_completed (s := s) (t := t) rfl rfl rfl ⟨rfl, rfl⟩

theorem execDecode_agree (h : ReadsAgree s t .decode) : OutcomesAgree .decode (execDecode s) (execDecode t) := by
  obtain ⟨hp, hlen, hcmp, hcap⟩ := h
  have hcapac : s.ctrl.capacity = t.ctrl.capacity := by unfold Ctrl.capacity; rw [hp]
  simp only [execDecode, ← hlen, ← hcap, ← hcapac]
  split
  · exact outcomesAgree_raiseError _ _ _
  · have hr := runDecode_same (hcmp.mono (by omega : s.cmpLen.toNat ≤ s.cmpCap)) s.ctrl.capacity s.dec t.dec
    generalize runDecode s.cmp s.cmpLen.toNat s.ctrl.capacity s.dec = y at hr
    generalize runDecode t.cmp s.cmpLen.toNat s.ctrl.capacity t.dec = z at hr
    cases hr with
    | uninit => exact outcomesAgree_uninit _
    | raised x p => exact outcomesAgree_failed (s := s) (t := t) rfl rfl rfl
    | done hd =>
      exact outcomesAgree_completed (s := s) (t := t) rfl rfl rfl ⟨by simp [hd.op], by simp [hd.ip], hd.dec.ofNat⟩

theorem execCompress_agree (h : ReadsAgree s t .compress) : OutcomesAgree .compress (execCompress s) (execCompress t) := by
  obtain ⟨hctrl, hlen, hsrc, hcap⟩ := h
  have hsrc := hsrc.mono s.ctrl.capacity_le
  simp only [execCompress, ← hctrl, ← hlen, ← runSlots_congr hctrl hsrc hcap]
  split
  · exact outcomesAgree_raiseError _ _ _
  · split
    · exact outcomesAgree_raiseError _ _ _
    · cases runSlots s s.srcLen.toNat s.ctrl.capacity (enabledSlots s.ctrl) [] with
      | uninit => exact outcomesAgree_uninit _
      | failed e sizes => exact outcomesAgree_failed (s := s) (t := t) rfl rfl rfl
      | ok sizes =>
        simp only
        cases pickBest sizes none with
        | none => exact outcomesAgree_raiseError _ _ _
        | some r =>
          have ha := attempt_same hctrl hsrc hcap s.srcLen.toNat r.1
          simp only
          generalize attempt s s.srcLen.toNat s.ctrl.capacity r.1 = y at ha
          generalize attempt t s.srcLen.toNat s.ctrl.capacity r.1 = z at ha
          cases ha with
          | uninit => exact outcomesAgree_uninit _
          | failed e => exact outcomesAgree_failed (s := s) (t := t) rfl rfl rfl
          | @ok a b hwrk hsize hcmp hdec =>
            refine outcomesAgree_completed (s := s) (t := t) rfl rfl rfl ?_
            refine ⟨rfl, hwrk.ofNat, by simp [hsize], ?_, rfl, hdec.ofNat, by simp [hctrl], rfl, rfl, rfl, rfl⟩
            simp only [finishCompress_cmp, finishCompress_cmpLen, ← hsize, ← hcap]
            exact (hcmp.losersErase _ _).ofNat

/-- An end chunk does not go on (46_decoder.md R306). -/
theorem runChunk_go_tail {cap : Nat} {c : Chunk} {d d' : DecState} (h : runChunk cap c d = .go d') : c.tail ≠ .endOfData := by
  intro ht
  unfold runChunk at h
  split at h
  · rw [ht] at h; cases h
  · next h1 => exact h1 _ h

/-- A chunk depends on the Decoder's cursors and its output so far (30_encoding.md R124, 46_decoder.md R313). -/
theorem exec_toInstr_agree (c : Chunk) (h : ReadsAgree s t c.toInstr) : OutcomesAgree c.toInstr (exec c.toInstr s) (exec c.toInstr t) := by
  obtain ⟨hp, hip, hop, hdec, hstatus, herr⟩ : s.ctrl.preserveHoles = t.ctrl.preserveHoles ∧ s.hid.ip = t.hid.ip ∧ s.hid.op = t.hid.op ∧
      SameBytes s.hid.op.toNat s.dec t.dec ∧ s.status = t.status ∧ s.errPos = t.errPos := by
    obtain ⟨lits, tail⟩ := c
    cases tail <;> exact h
  have hcap : s.ctrl.capacity = t.ctrl.capacity := by unfold Ctrl.capacity; rw [hp]
  have hr := runChunk_same (d := s.decState) (e := t.decState) ⟨by simp [State.decState, hip], by simp [State.decState, hop], hdec⟩
    s.ctrl.capacity c
  rw [exec_toInstr, exec_toInstr, ← hcap]
  generalize hy : runChunk s.ctrl.capacity c s.decState = y at hr
  generalize runChunk s.ctrl.capacity c t.decState = z at hr
  obtain ⟨lits, tail⟩ := c
  cases hr with
  | uninit => exact outcomesAgree_uninit _
  | raised x p => exact outcomesAgree_failed (s := s) (t := t) rfl rfl rfl
  | stop hd =>
    obtain rfl : tail = .endOfData := (runChunk_stop hy).1
    exact outcomesAgree_completed (s := s) (t := t) rfl rfl rfl ⟨by simp [hd.op], by simp [hd.ip], hd.dec.ofNat⟩
  | @go d e hd =>
    have hw : WritesAgree (s.setDecState d) (t.setDecState e) (.chunkNoMatch lits) := ⟨by simp [hd.ip], by simp [hd.op], hd.dec.ofNat⟩
    refine ⟨by simp [hstatus], by simp [hstatus], by simp [hstatus], herr, fun _ => ?_⟩
    cases tail with
    | matchShort mn off => exact hw
    | matchLong mx off => exact hw
    | noMatch => exact hw
    | endOfData => exact absurd rfl (runChunk_go_tail hy)

/-- Settles O58: each instruction's meaning, and every operation it calls, answers alike on the same operands. -/
theorem instructionsReadOnlyTheirOperands : Obligations.InstructionsReadOnlyTheirOperands := by
  intro i s t h
  cases i with
  | nop => exact outcomesAgree_completed (s := s) (t := t) rfl rfl rfl trivial
  | load => exact execLoad_agree h
  | holeZero => exact execHoleZero_agree h
  | holePattern => exact execHolePattern_agree h
  | matchCmd => exact execMatch_agree h
  | encGreedy => exact encodeWith_agree (.inl rfl) h
  | encOptimal => exact encodeWith_agree (.inr rfl) h
  | decode => exact execDecode_agree h
  | compress => exact execCompress_agree h
  | chunkMatch lits mn off => exact exec_toInstr_agree ⟨lits, .matchShort mn off⟩ h
  | chunkMatchX lits mx off => exact exec_toInstr_agree ⟨lits, .matchLong mx off⟩ h
  | chunkNoMatch lits => exact exec_toInstr_agree ⟨lits, .noMatch⟩ h
  | chunkEnd lits => exact exec_toInstr_agree ⟨lits, .endOfData⟩ h

end Sys2Proof.Machine
end

section
/-! Steps of the host port: what a register access answers, by register, while BUSY and not; how a command completes; and the statements on
reset, the registers, EVENTS, the interrupt output and the order of host writes and completions. -/

namespace Sys2Proof.Machine

open Sys2Proof

variable {s : State} {xs : List Input} {w : Word}

/-! ### A host transaction as a step -/

theorem step_host {op : HostOp} (h : s.inputs = .host op :: xs) : step s = .next (hostAccess op { s with inputs := xs }) := by
  unfold step
  rw [h]
  rfl

theorem hostAccess_write {addr : BitVec 20} {size : Nat} (w : Word) (hr : s.rst = false) :
    hostAccess (.write addr size w) s = hostWrite addr size w s := by
  simp [hostAccess, hr]

theorem hostAccess_read {addr : BitVec 20} {size : Nat} (hr : s.rst = false) : hostAccess (.read addr size) s = hostRead addr size s := by
  simp [hostAccess, hr]

theorem hostAccess_writeReg (r : Reg) (w : Word) (hr : s.rst = false) :
    hostAccess (.write (BitVec.ofNat 20 (regOffset r)) 4 w) s = writeReg r w s :=
  (hostAccess_write w hr).trans (hostWrite_reg r w s)

theorem step_writeReg (r : Reg) (hr : s.rst = false) (h : s.inputs = .host (.write (BitVec.ofNat 20 (regOffset r)) 4 w) :: xs) :
    step s = .next (writeReg r w { s with inputs := xs }) :=
  (step_host h).trans (congrArg _ (hostAccess_writeReg r w hr))

theorem step_readReg (r : Reg) (hr : s.rst = false) (h : s.inputs = .host (.read (BitVec.ofNat 20 (regOffset r)) 4) :: xs) :
    step s = .next (readReg r { s with inputs := xs }) :=
  (step_host h).trans (congrArg _ ((hostAccess_read (s := { s with inputs := xs }) hr).trans (hostRead_reg r _)))

theorem step_engine (hr : s.rst = false) (h : s.inputs = .engine :: xs) : step s = engineMove { s with inputs := xs } := by
  unfold step
  rw [h]
  exact if_neg (by simp [hr])

/-- A host transaction in the cycle of the engine's move comes just before it (log 16). -/
theorem step_sameCycle {op : HostOp} (hr : s.rst = false) (h : s.inputs = .sameCycle op :: xs) :
    step s = engineMove (hostAccess op { s with inputs := xs }) := by
  unfold step
  rw [h]
  exact if_neg (by simp [hr])

/-! ### Registers by offset -/

theorem regOffset_injective {r q : Reg} (h : regOffset r = regOffset q) : r = q :=
  Option.some.inj (by rw [← regAt_regOffset r, h, regAt_regOffset])

/-- Every row of the register table is a register at its offset, with its value (10_state.md R32). -/
theorem registerTable_reg (s : State) :
    ∀ e ∈ registerTable s, ∃ r, e.1 = regOffset r ∧ regValue s r = BitVec.ofNat 32 e.2 := by
  have hwidth : ∀ {n : Nat} (v : BitVec n), v.setWidth 32 = BitVec.ofNat 32 v.toNat := fun v => (BitVec.ofNat_toNat 32 v).symm
  simp only [registerTable, List.cons_append, List.nil_append, List.forall_mem_cons]
  exact ⟨⟨.id, rfl, rfl⟩, ⟨.version, rfl, rfl⟩, ⟨.ctrl, rfl, rfl⟩, ⟨.status, rfl, rfl⟩, ⟨.cmd, rfl, rfl⟩, ⟨.events, rfl, rfl⟩,
    ⟨.srcLen, rfl, hwidth _⟩, ⟨.wlen, rfl, hwidth _⟩, ⟨.cmpLen, rfl, hwidth _⟩, ⟨.decLen, rfl, hwidth _⟩, ⟨.pos, rfl, hwidth _⟩,
    ⟨.matchLen, rfl, hwidth _⟩, ⟨.matchOff, rfl, hwidth _⟩, ⟨.errPos, rfl, hwidth _⟩, ⟨.inUsed, rfl, hwidth _⟩, ⟨.result, rfl, rfl⟩,
    ⟨.attSize0, rfl, hwidth _⟩, ⟨.attSize1, rfl, hwidth _⟩, ⟨.attSize2, rfl, hwidth _⟩, ⟨.attSize3, rfl, hwidth _⟩,
    ⟨.cmpCapReg, rfl, rfl⟩, nofun⟩

/-- The offsets of the read-only registers (10_state.md R32). -/
theorem readOnlyOffset_reg :
    ∀ off ∈ [0x000, 0x004, 0x00C, 0x024, 0x02C, 0x030, 0x034, 0x038, 0x03C, 0x040, 0x044, 0x048, 0x04C, 0x050],
      ∃ r, off = regOffset r ∧ regOffset r ∉ [0x008, 0x018, 0x01C, 0x020, 0x028, 0x010, 0x014] := by
  simp only [List.forall_mem_cons]
  exact ⟨⟨.id, rfl, by decide⟩, ⟨.version, rfl, by decide⟩, ⟨.status, rfl, by decide⟩, ⟨.decLen, rfl, by decide⟩,
    ⟨.matchLen, rfl, by decide⟩, ⟨.matchOff, rfl, by decide⟩, ⟨.errPos, rfl, by decide⟩, ⟨.inUsed, rfl, by decide⟩,
    ⟨.result, rfl, by decide⟩, ⟨.attSize0, rfl, by decide⟩, ⟨.attSize1, rfl, by decide⟩, ⟨.attSize2, rfl, by decide⟩,
    ⟨.attSize3, rfl, by decide⟩, ⟨.cmpCapReg, rfl, by decide⟩, nofun⟩

theorem regAt_reserved {k : Nat} (h : 21 ≤ k) : regAt k = none := by
  obtain ⟨j, rfl⟩ := Nat.exists_eq_add_of_le' h
  rfl

/-- A register that is read by value answers it (10_state.md R32, R52). -/
theorem readReg_of_readable {r : Reg} (h : s.status.busy = false ∨ readableWhileBusy r = true) : readReg r s = s.respond (regValue s r) := by
  unfold readReg
  rcases h with h | h <;> simp [h]

/-- A read changes nothing but the data it returns. -/
theorem readReg_eq (r : Reg) (s : State) : ∃ v d, readReg r s = { s with rdata := v, draws := d } := by
  unfold readReg
  split
  · exact ⟨_, _, rfl⟩
  · exact ⟨_, s.draws, rfl⟩

theorem readableWhileBusy_of_mem {r : Reg} (h : regOffset r ∈ busyReadable) : readableWhileBusy r = true := by
  revert h
  cases r <;> decide

/-- While BUSY, a write to CTRL, SRC_LEN, WLEN, CMP_LEN or POS only sets HOST_ERR (R52). -/
theorem writeReg_busy_rw {r : Reg} (hb : s.status.busy = true) (h : regOffset r ∈ [0x008, 0x018, 0x01C, 0x020, 0x028]) :
    writeReg r w s = { s with events := { s.events with hostErr := true } } := by
  cases r
  case ctrl | srcLen | wlen | cmpLen | pos => exact if_pos hb
  all_goals exact absurd h (by decide)

/-- A register that is neither RW, CMD nor EVENTS ignores a write (R32). -/
theorem writeReg_ro {r : Reg} (s : State) (w : Word) (h : regOffset r ∉ [0x008, 0x018, 0x01C, 0x020, 0x028, 0x010, 0x014]) :
    writeReg r w s = s := by
  cases r
  case ctrl | srcLen | wlen | cmpLen | pos | cmd | events => exact absurd (by decide) h
  all_goals rfl

section
variable (w) (hb : s.status.busy = false)
include hb

theorem guardBusy_idle (upd : State → State) : guardBusy upd s = upd s := by
  unfold guardBusy
  simp [hb]

theorem writeReg_ctrl : writeReg .ctrl w s = { s with ctrl := Ctrl.ofWord w } := by
  rw [writeReg, guardBusy_idle hb]
theorem writeReg_srcLen : writeReg .srcLen w s = { s with srcLen := w.setWidth 14 } := by
  rw [writeReg, guardBusy_idle hb]
theorem writeReg_wlen : writeReg .wlen w s = { s with wlen := w.setWidth 14 } := by
  rw [writeReg, guardBusy_idle hb]
theorem writeReg_cmpLen : writeReg .cmpLen w s = { s with cmpLen := w.setWidth 17 } := by
  rw [writeReg, guardBusy_idle hb]
theorem writeReg_pos : writeReg .pos w s = { s with pos := w.setWidth 14 } := by
  rw [writeReg, guardBusy_idle hb]
theorem writeReg_cmd : writeReg .cmd w s = s.accept w := by simp [writeReg, writeCmd, hb]

end

theorem writeReg_events (s : State) (w : Word) : writeReg .events w s = { s with events := s.events.cleared w } := rfl

theorem writeReg_cmd_busy (w : Word) (hb : s.status.busy = true) :
    writeReg .cmd w s = { s with events := { s.events with cmdRej := true } } := if_pos hb

/-! ### How a command completes -/

/-- What every completion leaves besides the operands (60_exceptions.md R370). -/
structure Completes (s t : State) : Prop where
  engine : t.engine = .idle
  busy   : t.status.busy = false
  events : t.events = { s.events with doneEv := true }
  rst    : t.rst = s.rst
  inputs : t.inputs = s.inputs

/-- A command that answers a next state has completed. -/
theorem exec_completes {t : State} {i : Instr} (hi : isCommand i = true) (h : exec i s = .next t) : Completes s t := by
  cases i with
  | nop => obtain rfl := complete_next.mp h; exact ⟨rfl, rfl, rfl, rfl, rfl⟩
  | load => rcases execLoad_next h with ⟨-, rfl⟩ | ⟨-, -, bs, -, rfl⟩ <;> exact ⟨rfl, rfl, rfl, rfl, rfl⟩
  | holeZero => rcases execHoleZero_next h with ⟨e, -, rfl⟩ | ⟨-, -, rfl⟩ <;> exact ⟨rfl, rfl, rfl, rfl, rfl⟩
  | holePattern => rcases execHolePattern_next h with ⟨e, -, rfl⟩ | ⟨-, -, m, -, rfl⟩ <;> exact ⟨rfl, rfl, rfl, rfl, rfl⟩
  | matchCmd => rcases execMatch_next h with ⟨-, rfl⟩ | ⟨-, -, rfl⟩ | ⟨-, -, l, o, -, rfl⟩ <;> exact ⟨rfl, rfl, rfl, rfl, rfl⟩
  | encGreedy | encOptimal =>
    rcases encodeWith_next h with ⟨-, rfl⟩ | ⟨-, -, input, -, ⟨e, -, rfl⟩ | ⟨x, -, rfl⟩⟩ <;> exact ⟨rfl, rfl, rfl, rfl, rfl⟩
  | decode => rcases execDecode_next h with ⟨-, rfl⟩ | ⟨-, ⟨d, -, rfl⟩ | ⟨e, p, -, rfl⟩⟩ <;> exact ⟨rfl, rfl, rfl, rfl, rfl⟩
  | compress =>
    rcases execCompress_next h with ⟨-, rfl⟩ | ⟨-, -, ⟨-, rfl⟩ | ⟨e, sizes, k, -, rfl⟩ | ⟨k, a, sizes, -, -, -, rfl⟩⟩ <;>
      exact ⟨rfl, rfl, rfl, rfl, rfl⟩
  | chunkMatch | chunkMatchX | chunkNoMatch | chunkEnd => cases hi

theorem decodeCommand_of_decode {i : Instr} {rest : List Byte} (h : decode (.cmdw w) = .ok (i, rest)) : decodeCommand w = .ok i := by
  simp only [decode] at h
  split at h
  · cases h
  · next j hj => cases h; exact hj

/-- The engine's move on an accepted command is its meaning (40_control.md R170). -/
theorem engineMove_busy {i : Instr} (he : s.engine = .busy w) (hw : decodeCommand w = .ok i) : engineMove s = exec i s := by
  unfold engineMove
  rw [he]
  exact runWord_of_ok s hw

/-! ### Reset -/

/-- Settles O11: reset puts a literal into every field but CMP_CAP and the model's own. -/
theorem resetValues : Obligations.ResetValues := by
  refine ⟨⟨rfl, rfl, rfl, rfl, rfl, ⟨rfl, rfl, rfl, rfl, rfl⟩, ⟨rfl, rfl, rfl, rfl⟩, ⟨rfl, rfl, rfl, rfl, rfl⟩,
    fun a => ⟨rfl, rfl, rfl, rfl⟩⟩, rfl, fun s xs h => ⟨({ s with inputs := xs } : State).assertReset, ?_, ?_, rfl, rfl, rfl⟩⟩
  · unfold step
    rw [h]
    rfl
  · exact ⟨rfl, rfl, rfl, rfl, rfl, ⟨rfl, rfl, rfl, rfl, rfl⟩, ⟨rfl, rfl, rfl, rfl⟩, ⟨rfl, rfl, rfl, rfl, rfl⟩,
      fun a => ⟨rfl, rfl, rfl, rfl⟩⟩

/-! ### Registers -/

/-- Settles O13: each row of the table is a register, which a read answers by value. -/
theorem registerReads : Obligations.RegisterReads := by
  intro s xs e hr hb he h
  obtain ⟨r, hoff, hval⟩ := registerTable_reg { s with inputs := xs } e he
  rw [hoff] at h hb
  have hread : s.status.busy = false ∨ readableWhileBusy r = true := hb.imp id fun hc => by
    rw [regOffset_injective (r := r) (q := .cmd) hc]; rfl
  rw [step_readReg r hr h, readReg_of_readable (s := { s with inputs := xs }) hread, hval]
  rfl

/-- Settles O14: the stored bits are the low ones of the word. -/
theorem registerWrites : Obligations.RegisterWrites := by
  intro s w off xs hr hb h
  refine ⟨?_, ?_, ?_, ?_, ?_, fun hoff => ?_⟩
  · rintro rfl
    exact (step_writeReg .ctrl hr h).trans (congrArg _ (writeReg_ctrl w hb))
  · rintro rfl
    rw [← BitVec.setWidth_eq_extractLsb' (by decide)]
    exact (step_writeReg .srcLen hr h).trans (congrArg _ (writeReg_srcLen w hb))
  · rintro rfl
    rw [← BitVec.setWidth_eq_extractLsb' (by decide)]
    exact (step_writeReg .wlen hr h).trans (congrArg _ (writeReg_wlen w hb))
  · rintro rfl
    rw [← BitVec.setWidth_eq_extractLsb' (by decide)]
    exact (step_writeReg .cmpLen hr h).trans (congrArg _ (writeReg_cmpLen w hb))
  · rintro rfl
    rw [← BitVec.setWidth_eq_extractLsb' (by decide)]
    exact (step_writeReg .pos hr h).trans (congrArg _ (writeReg_pos w hb))
  · obtain ⟨r, rfl, hro⟩ := readOnlyOffset_reg off hoff
    rw [step_writeReg r hr h, writeReg_ro _ w hro]

/-- Settles O15: by what a write and a read of each kind of register do while BUSY. -/
theorem busyRegisterAccess : Obligations.BusyRegisterAccess := by
  intro s w e xs hr hb he
  obtain ⟨r, hoff, hval⟩ := registerTable_reg { s with inputs := xs } e he
  simp only [hoff]
  refine ⟨fun h => ?_, fun h => ?_⟩
  · rw [step_writeReg r hr h]
    refine ⟨fun hm => congrArg _ (writeReg_busy_rw hb hm), fun hc => ?_, fun hc => ?_, fun hm => congrArg _ (writeReg_ro _ w hm)⟩
    · rw [regOffset_injective (r := r) (q := .cmd) hc]
      exact congrArg _ (writeReg_cmd_busy w hb)
    · rw [regOffset_injective (r := r) (q := .events) hc]
      exact congrArg _ (writeReg_events _ w)
  · rw [step_readReg r hr h]
    refine ⟨fun hm => ?_, fun _ => ?_⟩
    · rw [readReg_of_readable (.inr (readableWhileBusy_of_mem hm)), hval]
      rfl
    · obtain ⟨v, d, hvd⟩ := readReg_eq r { s with inputs := xs }
      exact ⟨v, d, congrArg _ hvd⟩

/-- Settles O16: the events left are Events.cleared. -/
theorem eventsAreWriteOneToClear : Obligations.EventsAreWriteOneToClear := by
  intro s w xs hr h
  refine ⟨s.events.cleared w, step_writeReg .events hr h, ?_, ?_, ?_⟩ <;> simp [Events.cleared]

/-- Settles O19: at these offsets there is no register. -/
theorem reservedOffsets : Obligations.ReservedOffsets := by
  intro s off w xs hr h1 h2 h4
  have haddr : (BitVec.ofNat 20 off).toNat = off := by rw [BitVec.toNat_ofNat]; omega
  have hreg : regAt (off / 4) = none := regAt_reserved (by omega)
  have hwin : inRegWindow off = true := decide_eq_true (by omega)
  have hok : regAccessOk off 4 = true := by simp [regAccessOk, h4]
  constructor
  · intro h
    rw [step_host h, hostAccess_read (s := { s with inputs := xs }) hr]
    simp only [hostRead, haddr, hreg, hwin, hok, if_true]
    rfl
  · intro h
    rw [step_host h, hostAccess_write (s := { s with inputs := xs }) w hr]
    simp only [hostWrite, haddr, hreg, hwin, hok, if_true]

/-! ### The interrupt output -/

/-- Settles O20: irq is the conjunction of the two bits, each of which a host write clears. -/
theorem interruptOutput : Obligations.InterruptOutput := by
  refine ⟨fun s => by simp [State.irq], fun s c h => rfl, fun s w xs hr h hw => ?_, fun s w xs hr hb h hw => ?_, rfl⟩
  · exact ⟨_, step_writeReg .events hr h, by simp [writeReg_events, State.irq, Events.cleared, hw]⟩
  · refine ⟨_, step_writeReg .ctrl hr h, ?_⟩
    rw [writeReg_ctrl (s := { s with inputs := xs }) w hb]
    have hoff : (Ctrl.ofWord w).irqEn = false := hw
    simp [State.irq, hoff]

/-! ### Host writes and completions -/

/-- Settles O21: a command's meaning does not read EVENTS, and its completion leaves the engine idle and DONE_EV set. -/
theorem hostAgainstCompletion : Obligations.HostAgainstCompletion := by
  intro s w v i rest xs hdec he hb hr
  have hw := decodeCommand_of_decode hdec
  have hi := (decodeCommand_ok hw).1
  have hmove : ∀ (e : Events) (ys : List Input),
      engineMove { s with inputs := ys, events := e } = exec i { s with inputs := ys, events := e } :=
    fun e ys => engineMove_busy (s := { s with inputs := ys, events := e }) he hw
  refine ⟨fun h => ?_, fun t h ht => ?_, fun t h ht => ?_⟩
  · refine ⟨{ s with inputs := .engine :: xs, events := { s.events with cmdRej := true } }, ?_, rfl, ?_⟩
    · exact (step_writeReg .cmd hr h).trans (congrArg _ (writeReg_cmd_busy v hb))
    · exact (step_engine (s := { s with inputs := .engine :: xs, events := { s.events with cmdRej := true } }) hr rfl).trans (hmove _ xs)
  · have hx : exec i { s with inputs := .host (.write 0x10 4 v) :: xs } = .next t := by
      rw [← ht, step_engine hr h]
      exact (hmove s.events _).symm
    have hc := exec_completes hi hx
    refine ⟨({ t with inputs := xs } : State).accept v, ?_, rfl, rfl, rfl⟩
    exact (step_writeReg .cmd (hc.rst.trans hr) hc.inputs).trans (congrArg _ (writeReg_cmd v hc.busy))
  · have hx : exec i { s with inputs := xs, events := s.events.cleared v } = .next t := by
      rw [← ht, step_sameCycle hr h, ← hmove]
      exact congrArg engineMove (hostAccess_writeReg (s := { s with inputs := xs }) .events v hr).symm
    rw [(exec_completes hi hx).events]
    simp [Events.cleared]

end Sys2Proof.Machine
end

section
/-! The cost bound and the field ranges of the OPT table (44_optimal_parser.md R250 to R255). A literal entry is bounded by its run: each
full group of 255 positions before the run costs 3 more than its bytes, and the run 1 more once it needs LX. A match entry saves at least one
byte against its length, so it needs no slack of its own. -/

namespace Sys2Proof.Machine

open Sys2Proof

/-! ### What the bound says of one entry -/

/-- A literal entry m positions before the end (R254). -/
structure OptEntry.LiteralOk (m : Nat) (e : OptEntry) : Prop where
  offset : e.matchOffset = 0
  runMax : e.literalRunLength ≤ 255
  runFit : e.literalRunLength ≤ m
  runPos : 0 < m → 1 ≤ e.literalRunLength
  cost   : e.totalCost ≤ m + 3 * ((m - e.literalRunLength) / 255) + (if 15 ≤ e.literalRunLength then 1 else 0)

/-- A match entry m positions before the end of n bytes (R253). -/
structure OptEntry.MatchOk (n m : Nat) (e : OptEntry) : Prop where
  lenMin : 4 ≤ e.matchLength
  lenMax : e.matchLength ≤ 255
  run    : e.literalRunLength = 0
  offset : e.matchOffset + m < n
  cost   : e.totalCost ≤ m + 3 * ((m - 1) / 255)

/-- An entry m positions before the end of n bytes. -/
structure OptEntry.EntryOk (n m : Nat) (e : OptEntry) : Prop where
  literal : e.matchLength = 0 → e.LiteralOk m
  hit     : e.matchLength ≠ 0 → e.MatchOk n m

/-- The bound of R255, as the recurrence uses it, the sentinel included. -/
theorem OptEntry.EntryOk.cost_le {n m : Nat} {e : OptEntry} (h : e.EntryOk n m) : e.totalCost ≤ m + 1 + 3 * ((m - 1) / 255) := by
  by_cases hz : e.matchLength = 0
  · obtain ⟨-, -, hfit, hpos, hcost⟩ := h.literal hz
    have hle : (m - e.literalRunLength) / 255 ≤ (m - 1) / 255 := Nat.div_le_div_right (by omega)
    split at hcost <;> omega
  · have := (h.hit hz).cost
    omega

theorem optSentinel_ok (n : Nat) : optSentinel.EntryOk n 0 :=
  ⟨fun _ => ⟨rfl, Nat.zero_le _, Nat.le_refl _, nofun, Nat.zero_le _⟩, fun h => absurd rfl h⟩

/-! ### The two branches -/

/-- The literal branch keeps the bound in each of the three cases of R254. -/
theorem literalNode_ok {n m : Nat} {nx : OptEntry} (h : nx.EntryOk n m) : (literalNode nx).EntryOk n (m + 1) := by
  refine ⟨fun _ => ?_, fun hz => absurd rfl hz⟩
  unfold literalNode literalEdge
  split
  · next hm =>
    have := (h.hit (by omega)).cost
    exact ⟨rfl, by simp, by simp, by simp, by simp; omega⟩
  · next hm =>
    obtain ⟨-, hmax, hfit, -, hcost⟩ := h.literal (by omega)
    simp only [Config.litMax]
    split
    · next hr =>
      rw [hr] at hcost hfit
      exact ⟨rfl, by simp, by simp, by simp, by simp at hcost ⊢; omega⟩
    · next hr =>
      have hk : m + 1 - (nx.literalRunLength + 1) = m - nx.literalRunLength := by omega
      refine ⟨rfl, by simp only; omega, by simp only; omega, by simp, ?_⟩
      simp only [hk]
      split at hcost <;> split <;> split <;> omega

/-- The match branch keeps the bound: an edge costs less than the bytes it covers (R253). -/
theorem matchNode_ok {n m l o : Nat} {target : OptEntry} (h1 : 4 ≤ l) (h2 : l ≤ 255) (hm : l ≤ m) (ho : o + m < n)
    (h : target.EntryOk n (m - l)) : (matchNode l o target).EntryOk n m := by
  refine ⟨fun hz => absurd hz (by simp only [matchNode]; omega), fun _ => ⟨h1, h2, rfl, ho, ?_⟩⟩
  have hcost := h.cost_le
  have hedge : matchEdge l + 1 ≤ l := by
    unfold matchEdge
    split <;> omega
  have hle : (m - l - 1) / 255 ≤ (m - 1) / 255 := Nat.div_le_div_right (by omega)
  simp only [matchNode]
  omega

/-- A usable match is at most 255 long, inside the input, and starts before the position. -/
theorem findLongestMatch_usable {b : List Byte} {pos : Nat} (h : 4 ≤ (findLongestMatch b pos).1) :
    (findLongestMatch b pos).1 ≤ 255 ∧ (findLongestMatch b pos).1 ≤ b.length - pos ∧ (findLongestMatch b pos).2 < pos := by
  unfold findLongestMatch at h ⊢
  split at h
  · simp at h
  · next hpos =>
    obtain ⟨-, hcap, -, hr⟩ := scanMatches_spec (cap := matchCap b.length pos) (target := b.drop pos) pos 0 b (0, 0) (Nat.zero_le _)
    rw [if_neg hpos]
    refine ⟨hcap.trans (Nat.min_le_left _ _), hcap.trans (Nat.min_le_right _ _), ?_⟩
    rcases hr with hr | ⟨k, hk, hr, -⟩
    · rw [hr] at h; simp at h
    · rw [hr]; simpa using hk

/-- Whichever branch is cheaper keeps the bound (R255). -/
theorem optNodeAt_ok {b : List Byte} {m : Nat} {nx target : OptEntry} (hm : m + 1 ≤ b.length) (hnx : nx.EntryOk b.length m)
    (htarget : 4 ≤ (findLongestMatch b (b.length - (m + 1))).1 →
      target.EntryOk b.length (m + 1 - (findLongestMatch b (b.length - (m + 1))).1)) :
    (optNodeAt (findLongestMatch b (b.length - (m + 1))) nx target).EntryOk b.length (m + 1) := by
  have hlit := literalNode_ok hnx
  simp only [optNodeAt, Config.matchMin]
  split
  · next hu =>
    obtain ⟨h255, hfit, hoff⟩ := findLongestMatch_usable hu
    split
    · exact matchNode_ok hu h255 (by omega) (by omega) (htarget hu)
    · exact hlit
  · exact hlit

/-! ### The backward pass -/

/-- Entry j of the last `count` entries stands count - j positions before the end. -/
theorem backwardPass_ok {b : List Byte} {count : Nat} (hc : count ≤ b.length) {j : Nat} (hj : j ≤ count) :
    ((backwardPass id id b count).getD j optSentinel).EntryOk b.length (count - j) := by
  induction count generalizing j with
  | zero =>
    obtain rfl : j = 0 := by omega
    exact optSentinel_ok _
  | succ count ih =>
    cases j with
    | succ j => simpa [backwardPass] using ih (by omega) (by omega : j ≤ count)
    | zero =>
      have hhead : ∀ l : List OptEntry, l.headD optSentinel = l.getD 0 optSentinel := by intro l; cases l <;> rfl
      simp only [backwardPass, id_eq, List.getD_cons_zero, hhead]
      refine optNodeAt_ok hc (ih (by omega) (Nat.zero_le _)) fun hu => ?_
      obtain ⟨-, hfit, -⟩ := findLongestMatch_usable hu
      have := ih (by omega) (by omega : (findLongestMatch b (b.length - (count + 1))).1 - 1 ≤ count)
      rwa [show count - ((findLongestMatch b (b.length - (count + 1))).1 - 1) =
        count + 1 - (findLongestMatch b (b.length - (count + 1))).1 by omega] at this

/-- Settles O38: by the bound on each entry of the backward pass. -/
theorem optEntriesFit : Obligations.OptEntriesFit := by
  intro b i nd hi hnd
  have hok : nd.EntryOk b.length (b.length - i) := by
    have := backwardPass_ok (b := b) (Nat.le_refl _) (Nat.le_of_lt hi)
    rwa [List.getD_eq_getElem?_getD, ← optimalTable, hnd] at this
  refine ⟨hok.cost_le, fun hz => ?_, fun hz => ?_⟩
  · obtain ⟨hoff, hmax, -, hpos, -⟩ := hok.literal hz
    exact ⟨hoff, hpos (by omega), hmax⟩
  · obtain ⟨hmin, hmax, hrun, hoff, -⟩ := hok.hit hz
    exact ⟨hmin, hmax, hrun, by omega⟩

end Sys2Proof.Machine
end

section
/-! A DECODE taken chunk by chunk (log 7) against the DECODE in one step: a step of the engine is an iteration of the loop of 46_decoder.md
R301 at the cursors, and neither way to complete keeps what the chunks before it left in the engine, the cursors or DEC[0..cap). -/

namespace Sys2Proof.Machine

open Sys2Proof

/-! ### What a chunk writes is undefined by a failure -/

section
variable {m : Memory} {b n : Nat}

theorem Memory.undefine_cons (c : Host.Cell) :
    Memory.undefine (c :: m) b n = if b ≤ c.1 ∧ c.1 < b + n then m.undefine b n else c :: m.undefine b n := by
  simp only [Memory.undefine, List.filter_cons]
  by_cases h : b ≤ c.1 ∧ c.1 < b + n <;> simp [h]

theorem Memory.undefine_write {a : Nat} (v : Byte) (h1 : b ≤ a) (h2 : a < b + n) : (m.write a v).undefine b n = m.undefine b n := by
  induction m with
  | nil => exact (Memory.undefine_cons _).trans (if_pos ⟨h1, h2⟩)
  | cons c m ih =>
    obtain ⟨k, x⟩ := c
    unfold Memory.write
    split
    · rw [Memory.undefine_cons, if_pos ⟨h1, h2⟩]
    · split
      · next heq =>
        subst heq
        rw [Memory.undefine_cons, Memory.undefine_cons, if_pos ⟨h1, h2⟩, if_pos ⟨h1, h2⟩]
      · rw [Memory.undefine_cons, Memory.undefine_cons, ih]

theorem Memory.undefine_writeBytes_zero {a : Nat} (bs : List Byte) (h : a + bs.length ≤ n) :
    (m.writeBytes a bs).undefine 0 n = m.undefine 0 n := by
  have hlow : (m.filter (fun c => decide (c.1 < a))).filter (fun c => !decide (c.1 < n)) = [] := by
    simp only [List.filter_filter, List.filter_eq_nil_iff]
    intro c _
    simp
    omega
  have hmid : (cellsFrom a bs).filter (fun c => !decide (c.1 < n)) = [] := by
    simp only [List.filter_eq_nil_iff]
    intro c hc
    have := mem_cellsFrom hc
    simp
    omega
  have hhigh : (m.filter (fun c => decide (a + bs.length ≤ c.1))).filter (fun c => !decide (c.1 < n)) =
      m.filter (fun c => !decide (c.1 < n)) := by
    rw [List.filter_filter]
    refine List.filter_congr fun c _ => ?_
    by_cases hc : c.1 < n
    · simp [hc]
    · simp [hc]; omega
  simp only [Memory.undefine, Memory.writeBytes, Nat.zero_le, decide_true, Bool.true_and, Nat.zero_add, List.filter_append, hlow, hmid,
    hhigh, List.nil_append]

theorem Memory.undefine_copyForward {x : Memory} {dst src k : Nat} (h1 : b ≤ dst) (h2 : dst + k ≤ b + n)
    (h : m.copyForward dst src k = some x) : x.undefine b n = m.undefine b n := by
  induction k generalizing m dst src with
  | zero => cases h; rfl
  | succ k ih =>
    unfold Memory.copyForward at h
    split at h
    · cases h
    · next v _ => rw [ih (by omega) (by omega) h, Memory.undefine_write v h1 (by omega)]

end

theorem copyMatch_undefine {cap m off : Nat} {d d' : DecState} (h : copyMatch cap m off d = .go d') :
    d'.dec.undefine 0 cap = d.dec.undefine 0 cap := by
  rcases copyMatch_cases cap m off d with ⟨_, h'⟩ | ⟨_, _, h'⟩ | ⟨_, _, _, h'⟩ | ⟨_, _, _, h'⟩ | ⟨_, hc, x, hx, h'⟩ <;> rw [h'] at h <;>
    cases h
  exact Memory.undefine_copyForward (Nat.zero_le _) (by omega) hx

/-- A chunk that goes on writes nothing but bytes below the capacity (46_decoder.md R302, R309). -/
theorem runChunk_undefine {cap : Nat} {c : Chunk} {d d' : DecState} (h : runChunk cap c d = .go d') :
    d'.dec.undefine 0 cap = d.dec.undefine 0 cap := by
  unfold runChunk at h
  rcases copyLiterals_cases cap c.lits d with ⟨_, h'⟩ | ⟨hc, h'⟩ <;> rw [h'] at h
  · cases h
  · refine Eq.trans ?_ (Memory.undefine_writeBytes_zero c.lits hc)
    simp only [runTail] at h
    split at h
    · exact copyMatch_undefine h
    · exact copyMatch_undefine h
    · cases h; rfl
    · cases h

theorem stepChunk_undefine {cmp : Memory} {inlen cap : Nat} {d d' : DecState} (h : stepChunk cmp inlen cap d = .go d') :
    d'.dec.undefine 0 cap = d.dec.undefine 0 cap := by
  obtain ⟨c, hc, -⟩ := stepChunk_go h
  unfold stepChunk at h
  rw [hc] at h
  exact runChunk_undefine h

/-! ### The Decoder between two chunks -/

/-- The state of an accepted DECODE whose Decoder stands at d between two chunks. -/
def State.atChunk (d : DecState) (s : State) : State := ({ s with engine := .decoding } : State).setDecState d

/-- A failed decode from between two chunks is one from before the DECODE: the engine, the cursors and DEC[0..cap) go (R300, R310). -/
theorem failDecode_atChunk {s : State} {d : DecState} (e : HwError) (p : Nat)
    (hd : d.dec.undefine 0 s.ctrl.capacity = s.dec.undefine 0 s.ctrl.capacity) : failDecode e p (s.atChunk d) = failDecode e p s := by
  simp only [failDecode, State.atChunk, State.setDecState, State.finish, hd]

/-- With no input, a step at d is an iteration of the loop (46_decoder.md R301). -/
theorem step_atChunk {s : State} {d : DecState} (hr : s.rst = false) (hi : s.inputs = [])
    (hd : Decoding s.cmpLen.toNat s.ctrl.capacity s.dec d) :
    step (s.atChunk d) = applyChunk (stepChunk s.cmp s.cmpLen.toNat s.ctrl.capacity d) (s.atChunk d) := by
  have hip : (BitVec.ofNat 17 d.ip).toNat = d.ip := by
    have := hd.input; have := s.cmpLen.isLt; rw [BitVec.toNat_ofNat]; omega
  have hop : (BitVec.ofNat 14 d.op).toNat = d.op := by
    have := hd.output; have := s.ctrl.capacity_le; rw [BitVec.toNat_ofNat]; omega
  have hdec : (s.atChunk d).decState = d := by
    simp only [State.atChunk, State.decState, State.setDecState, hip, hop]
  have hstep : step (s.atChunk d) = runNextChunk (s.atChunk d) := by
    have hi' : (s.atChunk d).inputs = [] := hi
    have hr' : (s.atChunk d).rst = false := hr
    simp only [step, hi', runUnattended, hr']
    rfl
  rw [hstep, runNextChunk_eq, hdec]
  rfl

/-! ### Runs -/

theorem run_succ {u t : State} (k : Nat) (h : step u = .next t) : Host.Core.run core (k + 1) u = Host.Core.run core k t := by
  have h' : core.step u = .next t := h
  simp only [Host.Core.run, h']

theorem run_fault {u : State} {r : Fault} (k : Nat) (h : step u = .fault r) : Host.Core.run core (k + 1) u = .fault r := by
  have h' : core.step u = .fault r := h
  simp only [Host.Core.run, h']

/-- An idle machine with no input stays as it is (70_reset_and_hazards.md R403). -/
theorem run_idle {u : State} (k : Nat) (he : u.engine = .idle) (hi : u.inputs = []) : Host.Core.run core k u = .next u := by
  induction k with
  | zero => rfl
  | succ k ih =>
    have hstep : step u = .next u := by
      simp only [step, hi, runUnattended, engineMove, he, ite_self]
    exact (run_succ k hstep).trans ih

/-- A run whose first step ends a DECODE ends with it. -/
theorem run_applyDecode {u s : State} {r : DecodeResult} (k : Nat) (hi : s.inputs = []) (h : step u = applyDecode r s) :
    Host.Core.run core (k + 1) u = applyDecode r s := by
  cases r with
  | done d => exact (run_succ k h).trans (run_idle k rfl hi)
  | raised e p => exact (run_succ k h).trans (run_idle k rfl hi)
  | uninit => exact run_fault k h

/-- From a Decoder at d, the run is the rest of the loop: with fuel for every byte left the loop never lacks it, as each chunk takes a byte
(46_decoder.md R315). -/
theorem run_atChunk {s : State} (hr : s.rst = false) (hi : s.inputs = []) {d : DecState} {fuel k : Nat}
    (hd : Decoding s.cmpLen.toNat s.ctrl.capacity s.dec d)
    (hu : d.dec.undefine 0 s.ctrl.capacity = s.dec.undefine 0 s.ctrl.capacity) (hfuel : s.cmpLen.toNat < d.ip + fuel) (hk : fuel ≤ k) :
    Host.Core.run core k (s.atChunk d) = applyDecode (decodeLoop s.cmp s.cmpLen.toNat s.ctrl.capacity fuel d) s := by
  induction fuel generalizing d k with
  | zero => have := hd.input; omega
  | succ fuel ih =>
    obtain ⟨k, rfl⟩ : ∃ j, k = j + 1 := ⟨k - 1, by omega⟩
    have hstep := step_atChunk hr hi hd
    simp only [decodeLoop]
    cases hc : stepChunk s.cmp s.cmpLen.toNat s.ctrl.capacity d with
    | go d' =>
      obtain ⟨c, -, ha, hin⟩ := stepChunk_go hc
      have hsize := chunkSize_pos c
      have hip := ha.ip
      rw [hc] at hstep
      exact (run_succ k hstep).trans (ih (hd.advance ha hin) ((stepChunk_undefine hc).trans hu) (by omega) (by omega))
    | raised e p =>
      rw [hc] at hstep
      exact run_applyDecode k hi (hstep.trans (congrArg Host.Outcome.next (failDecode_atChunk e p hu)))
    | stop d' | uninit =>
      rw [hc] at hstep
      exact run_applyDecode k hi hstep

/-- The step that takes an accepted DECODE up chunk by chunk (46_decoder.md R300, R301). -/
theorem step_beginDecode {s : State} (he : s.engine = .busy 7) (hr : s.rst = false) (hi : s.inputs = []) :
    step { s with inputs := [.beginDecode] } =
      if s.cmpLen.toNat > s.cmpCap then raiseError .cmpLenMax s
      else applyChunk (startDecode s.cmp s.cmpLen.toNat s.dec) { s with engine := .decoding } := by
  have hs : ({ s with inputs := [] } : State) = s := by rw [← hi]
  have hword : decodeCommand 7 = .ok .decode := rfl
  have hinput : step { s with inputs := [.beginDecode] } = applyInput .beginDecode s := by
    conv_rhs => rw [← hs]
    rfl
  rw [hinput]
  simp only [applyInput, hr, beginDecode, he, hword, Bool.false_eq_true, if_false]

/-- Settles O9: the run takes the loop's iterations one by one, and completes as the loop does. -/
theorem stepwiseDecodeIsDecode : Obligations.StepwiseDecodeIsDecode := by
  intro s he hr hi
  have hstep := step_beginDecode he hr hi
  simp only [exec, execDecode]
  by_cases hlen : s.cmpLen.toNat > s.cmpCap
  · rw [if_pos hlen] at hstep ⊢
    exact (run_succ _ hstep).trans (run_idle _ rfl hi)
  · rw [if_neg hlen] at hstep ⊢
    unfold runDecode
    cases hc : startDecode s.cmp s.cmpLen.toNat s.dec with
    | go d =>
      obtain ⟨h0, rfl⟩ := startDecode_state (.inl hc)
      rw [hc] at hstep
      exact (run_succ _ hstep).trans (run_atChunk hr hi (Decoding.start h0 _) rfl (by simp only; omega) (by omega))
    | stop d | raised e p | uninit =>
      rw [hc] at hstep
      exact run_applyDecode _ hi hstep

end Sys2Proof.Machine
end

section
/-! Which host accesses are let through (20_memory.md R85, R89 to R93), the byte order of those to a buffer (R82), and what is left of a
host transaction while BUSY. -/

namespace Sys2Proof.Machine

open Sys2Proof

variable {s : State} {xs : List Input} {w : Word}

/-! ### Memory windows -/

/-- The addresses set aside for a buffer in the host address map (20_memory.md R89). -/
def windowSize : Buf → Nat
  | .cmp => 0x10000
  | .src | .wrk | .dec => 0x2000

theorem windowAt_eq_some {a idx : Nat} {b : Buf} :
    windowAt a = some (b, idx) ↔ bufBase b ≤ a ∧ a < bufBase b + windowSize b ∧ idx = a - bufBase b := by
  unfold windowAt
  cases b <;> simp only [bufBase, windowSize] <;> repeat' split
  all_goals simp only [Option.some.injEq, Prod.mk.injEq, reduceCtorEq, false_and, true_and, false_iff]; omega

theorem bufSize_le_windowSize (hc : s.CapInRange) (b : Buf) : s.bufSize b ≤ windowSize b := by
  obtain ⟨-, hmax⟩ := hc
  cases b <;> simp only [State.bufSize, windowSize, Nat.le_refl, hmax]

theorem mappedWindow_iff {a size : Nat} :
    mappedWindow s.cmpCap a size ↔ ∃ b, bufBase b ≤ a ∧ a - bufBase b + size ≤ s.bufSize b := by
  unfold mappedWindow
  constructor
  · rintro (h | h | h | h)
    · exact ⟨.src, by simp only [bufBase, State.bufSize, Config.bufSize]; omega⟩
    · exact ⟨.wrk, by simp only [bufBase, State.bufSize, Config.bufSize]; omega⟩
    · exact ⟨.cmp, by simp only [bufBase, State.bufSize]; omega⟩
    · exact ⟨.dec, by simp only [bufBase, State.bufSize, Config.bufSize]; omega⟩
  · rintro ⟨b, h⟩
    cases b <;> simp only [bufBase, State.bufSize, Config.bufSize] at h <;> omega

theorem memAccessOk_iff {b : Buf} {a idx size : Nat} :
    memAccessOk s b a idx size = true ↔
      (size = 1 ∨ size = 2 ∨ size = 4) ∧ a % size = 0 ∧ idx + size ≤ s.bufSize b ∧ s.status.busy = false := by
  simp only [memAccessOk, Bool.and_eq_true, Bool.or_eq_true, decide_eq_true_eq, Bool.not_eq_true', and_assoc, or_assoc]

/-- With the engine idle no register write raises HOST_ERR. -/
theorem writeReg_hostErr (hb : s.status.busy = false) {r : Reg} (h : (writeReg r w s).events.hostErr = true) : s.events.hostErr = true := by
  cases r
  case events => simp only [writeReg_events, Events.cleared, Bool.and_eq_true] at h; exact h.1
  case ctrl => rwa [writeReg_ctrl w hb] at h
  case srcLen => rwa [writeReg_srcLen w hb] at h
  case wlen => rwa [writeReg_wlen w hb] at h
  case cmpLen => rwa [writeReg_cmpLen w hb] at h
  case pos => rwa [writeReg_pos w hb] at h
  case cmd => rwa [writeReg_cmd w hb] at h
  all_goals exact h

/-! ### Accesses that are allowed, and those that are refused -/

/-- What the claims call allowed is what the host port lets through. -/
theorem accessAllowed_iff (hc : s.CapInRange) {a size : Nat} :
    accessAllowed s a size ↔ if inRegWindow a = true then regAccessOk a size = true
      else ∃ b idx, windowAt a = some (b, idx) ∧ memAccessOk s b a idx size = true := by
  simp only [accessAllowed, mappedWindow_iff, inRegWindow, regAccessOk, decide_eq_true_eq, Bool.and_eq_true, windowAt_eq_some,
    memAccessOk_iff]
  split
  · next hreg =>
    refine ⟨?_, fun ⟨h4, ha⟩ => .inl ⟨hreg, h4, ha⟩⟩
    rintro (⟨-, h4, ha⟩ | ⟨-, -, ⟨b, hbase, -⟩, -⟩)
    · exact ⟨h4, ha⟩
    · cases b <;> simp only [bufBase] at hbase <;> omega
  · next hreg =>
    constructor
    · rintro (⟨hlt, -, -⟩ | ⟨hsize, ha, ⟨b, hbase, hend⟩, hidle⟩)
      · exact absurd hlt hreg
      · have := bufSize_le_windowSize hc b
        exact ⟨b, _, ⟨hbase, by omega, rfl⟩, hsize, ha, hend, hidle⟩
    · rintro ⟨b, idx, ⟨hbase, -, rfl⟩, hsize, ha, hend, hidle⟩
      exact .inr ⟨hsize, ha, ⟨b, hbase, hend⟩, hidle⟩

section
variable {addr : BitVec 20} {size : Nat} (hc : s.CapInRange)
include hc

theorem refused_access (h : ¬ accessAllowed s addr.toNat size) :
    hostRead addr size s = refuseRead s ∧ hostWrite addr size w s = refuseWrite s := by
  rw [accessAllowed_iff hc] at h
  simp only [hostRead, hostWrite]
  cases hreg : inRegWindow addr.toNat with
  | true =>
    rw [hreg, if_pos rfl] at h
    simp [h]
  | false =>
    cases hwin : windowAt addr.toNat with
    | none => exact ⟨rfl, rfl⟩
    | some p =>
      rw [hreg, if_neg Bool.false_ne_true] at h
      have hok : ¬ memAccessOk s p.1 addr.toNat p.2 size = true := fun hok => h ⟨p.1, p.2, hwin, hok⟩
      simp [hok]

/-- A read that is allowed changes nothing but the data it returns. -/
theorem hostRead_allowed (h : accessAllowed s addr.toNat size) : ∃ v d, hostRead addr size s = { s with rdata := v, draws := d } := by
  rw [accessAllowed_iff hc] at h
  simp only [hostRead]
  split at h
  · next hreg =>
    rw [if_pos hreg, if_pos h]
    split
    · exact readReg_eq _ s
    · exact ⟨0, s.draws, rfl⟩
  · next hreg =>
    obtain ⟨b, idx, hwin, hok⟩ := h
    rw [if_neg hreg, hwin]
    exact ⟨_, _, if_pos hok⟩

/-- With the engine idle, a write that is allowed raises no HOST_ERR. -/
theorem hostWrite_allowed (hb : s.status.busy = false) (h : accessAllowed s addr.toNat size)
    (hflag : (hostWrite addr size w s).events.hostErr = true) : s.events.hostErr = true := by
  rw [accessAllowed_iff hc] at h
  simp only [hostWrite] at hflag
  split at h
  · next hreg =>
    rw [if_pos hreg, if_pos h] at hflag
    split at hflag
    · exact writeReg_hostErr hb hflag
    · exact hflag
  · next hreg =>
    obtain ⟨b, idx, hwin, hok⟩ := h
    rw [if_neg hreg, hwin] at hflag
    simp only [hok, if_true] at hflag
    cases b <;> exact hflag

end

theorem rwOffset_reg : ∀ off ∈ [0x008, 0x018, 0x01C, 0x020, 0x028], ∃ r, off = regOffset r := by
  simp only [List.forall_mem_cons]
  exact ⟨⟨.ctrl, rfl⟩, ⟨.srcLen, rfl⟩, ⟨.wlen, rfl⟩, ⟨.cmpLen, rfl⟩, ⟨.pos, rfl⟩, nofun⟩

/-- Settles O17: by which accesses the host port refuses, and the register writes it refuses while BUSY. -/
theorem refusedAccesses : Obligations.RefusedAccesses := by
  intro s addr size w xs hr hc
  have hc' : ({ s with inputs := xs } : State).CapInRange := hc
  refine ⟨fun h => ?_, fun h => ?_⟩
  · rw [step_host h, hostAccess_write (s := { s with inputs := xs }) w hr]
    refine ⟨?_, fun ha hb => ⟨_, rfl, hostWrite_allowed hc' hb ha⟩⟩
    rintro (hn | ⟨hb, rfl, hoff⟩)
    · exact congrArg _ (refused_access hc' hn).2
    · obtain ⟨r, hreg⟩ := rwOffset_reg _ hoff
      have haddr : addr = BitVec.ofNat 20 (regOffset r) := by rw [← hreg, BitVec.ofNat_toNat, BitVec.setWidth_eq]
      rw [haddr, hostWrite_reg]
      exact congrArg _ (writeReg_busy_rw hb (hreg ▸ hoff))
  · rw [step_host h, hostAccess_read (s := { s with inputs := xs }) hr]
    refine ⟨fun hn => ⟨_, _, congrArg _ (refused_access (w := w) hc' hn).1⟩, fun ha => ?_⟩
    obtain ⟨v, d, hread⟩ := hostRead_allowed hc' ha
    exact ⟨v, d, congrArg _ hread⟩

/-- Settles O22: of the ways a host transaction can end, those left while BUSY change EVENTS and the data returned. -/
theorem busyHostDisturbsNothing : Obligations.BusyHostDisturbsNothing := by
  intro s op xs hr hb h
  refine ⟨_, step_host h, ?_⟩
  have heffect := hostAccess_effect op (s := { s with inputs := xs }) hr
  generalize hostAccess op { s with inputs := xs } = t at heffect
  cases heffect with
  | nothing | read | refusedRead | refusedWrite | clear | rejected => rfl
  | accepted _ hidle | ctrl _ hidle | srcLen _ hidle | wlen _ hidle | cmpLen _ hidle | pos _ hidle | memory _ _ _ hidle =>
    exact absurd (hb.symm.trans hidle) (by decide)

/-! ### Byte order -/

theorem ofNat_div_eq_extractLsb {k : Nat} (v : Word) : BitVec.ofNat 8 (v.toNat / 256 ^ k) = v.extractLsb' (8 * k) 8 := by
  rw [BitVec.extractLsb', Nat.shiftRight_eq_div_pow, Nat.pow_mul]

theorem bytesOfWord_getElem? {n k : Nat} (v : Word) (h : k < n) : (bytesOfWord n v)[k]? = some (v.extractLsb' (8 * k) 8) := by
  rw [bytesOfWord, bytesOfNat_getElem? _ h, ofNat_div_eq_extractLsb]

theorem toNat_wordOfBytes_cons {b : Byte} {bs : List Byte} (h : bs.length ≤ 3) (hlt : (wordOfBytes bs).toNat < 256 ^ bs.length) :
    (wordOfBytes (b :: bs)).toNat = b.toNat + 256 * (wordOfBytes bs).toNat := by
  have hpow : 256 ^ bs.length ≤ 256 ^ 3 := Nat.pow_le_pow_right (by decide) h
  have hbyte := b.isLt
  rw [wordOfBytes, BitVec.toNat_ofNat]
  omega

theorem toNat_wordOfBytes_lt {bs : List Byte} (h : bs.length ≤ 4) : (wordOfBytes bs).toNat < 256 ^ bs.length := by
  induction bs with
  | nil => decide
  | cons b bs ih =>
    have hlen : bs.length ≤ 3 := Nat.le_of_succ_le_succ h
    have hlt := ih (by omega)
    have hbyte := b.isLt
    rw [toNat_wordOfBytes_cons hlen hlt, List.length_cons, Nat.pow_succ]
    omega

/-- The bytes of the word that bytes make are these bytes. -/
theorem bytesOfWord_wordOfBytes {bs : List Byte} (h : bs.length ≤ 4) : bytesOfWord bs.length (wordOfBytes bs) = bs := by
  induction bs with
  | nil => rfl
  | cons b bs ih =>
    have hlen : bs.length ≤ 3 := Nat.le_of_succ_le_succ h
    have hbyte := b.isLt
    have hlow : BitVec.ofNat 8 (b.toNat + 256 * (wordOfBytes bs).toNat) = b := by
      apply BitVec.eq_of_toNat_eq
      rw [BitVec.toNat_ofNat]
      omega
    have hhigh : (b.toNat + 256 * (wordOfBytes bs).toNat) / 256 = (wordOfBytes bs).toNat := by omega
    rw [List.length_cons, bytesOfWord, bytesOfNat, toNat_wordOfBytes_cons hlen (toNat_wordOfBytes_lt (by omega)), hlow, hhigh]
    exact congrArg (b :: ·) (ih (by omega))

theorem fillFree_map_some (draw : Nat) (bs : List Byte) : fillFree draw (bs.map some) = bs := by
  induction bs generalizing draw with
  | nil => rfl
  | cons b bs ih => exact congrArg (b :: ·) (ih _)

/-! ### Accesses to a buffer -/

theorem buf_inputs (b : Buf) : State.buf { s with inputs := xs } b = s.buf b := by cases b <;> rfl

theorem bufBase_mod (b : Buf) {size : Nat} (h : size = 1 ∨ size = 2 ∨ size = 4) : bufBase b % size = 0 := by
  rcases h with rfl | rfl | rfl <;> cases b <;> rfl

section
variable {b : Buf} {idx size : Nat} (hb : s.status.busy = false) (hc : s.CapInRange) (hsize : size = 1 ∨ size = 2 ∨ size = 4)
  (halign : idx % size = 0) (hend : idx + size ≤ s.bufSize b)
include hb hc hsize halign hend

/-- An access inside a buffer, aligned and of a legal size, with the engine idle, reaches that buffer (R85, R91). -/
theorem hostAccess_buffer :
    hostRead (BitVec.ofNat 20 (bufBase b + idx)) size s = readMem b idx size s ∧
    hostWrite (BitVec.ofNat 20 (bufBase b + idx)) size w s = writeMem b idx size w s := by
  have hwindow := bufSize_le_windowSize hc b
  have hrange : 0x10000 ≤ bufBase b ∧ bufBase b + windowSize b ≤ 0x42000 := by cases b <;> decide
  have haddr : (BitVec.ofNat 20 (bufBase b + idx)).toNat = bufBase b + idx := by
    rw [BitVec.toNat_ofNat]
    omega
  have hreg : inRegWindow (bufBase b + idx) = false := decide_eq_false (by omega)
  have hwin : windowAt (bufBase b + idx) = some (b, idx) := windowAt_eq_some.mpr ⟨by omega, by omega, by omega⟩
  have hok : memAccessOk s b (bufBase b + idx) idx size = true :=
    memAccessOk_iff.mpr ⟨hsize, by rw [Nat.add_mod, bufBase_mod b hsize, halign]; simp, hend, hb⟩
  simp only [hostRead, hostWrite, haddr, hreg, hwin, hok, if_true, Bool.false_eq_true, if_false, and_self]

end

/-- Settles O18: the access reaches the buffer, and a word and its bytes determine each other. -/
theorem memoryByteOrder : Obligations.MemoryByteOrder := by
  intro s b base idx size w bs xs hr hb hc hbase hsize halign hend
  have hbase : base = bufBase b ∧ (if b = .cmp then s.cmpCap else 8192) = s.bufSize b := by
    simp only [List.mem_cons, Prod.mk.injEq, List.not_mem_nil, or_false] at hbase
    rcases hbase with ⟨rfl, rfl⟩ | ⟨rfl, rfl⟩ | ⟨rfl, rfl⟩ | ⟨rfl, rfl⟩ <;> exact ⟨rfl, rfl⟩
  obtain ⟨rfl, hbuf⟩ := hbase
  have hend : idx + size ≤ State.bufSize { s with inputs := xs } b := by
    rw [hbuf] at hend
    cases b <;> exact hend
  have hreach := hostAccess_buffer (s := { s with inputs := xs }) (w := w) hb hc hsize halign hend
  refine ⟨fun h => ?_, fun h hlen hholds => ?_⟩
  · rw [step_host h, hostAccess_write (s := { s with inputs := xs }) w hr, hreach.2]
    refine ⟨_, rfl, fun a => ?_⟩
    rw [buf_inputs, Memory.read_writeBytes, bytesOfWord_length]
    exact if_ctx_congr Iff.rfl (fun ha => bytesOfWord_getElem? w (by omega)) fun _ => rfl
  · rw [step_host h, hostAccess_read (s := { s with inputs := xs }) hr, hreach.1]
    have h4 : bs.length ≤ 4 := by omega
    have hcells : (State.buf { s with inputs := xs } b).cells idx size = bs.map some := by
      rw [buf_inputs, ← hlen]
      exact Memory.cells_eq_map_some (Memory.holds_iff_readBytes.mp hholds)
    refine ⟨wordOfBytes bs, s.draws + size, ?_, hlen ▸ toNat_wordOfBytes_lt h4, fun k hk => ?_⟩
    · rw [readMem, hcells, fillFree_map_some]
    · rw [← bytesOfWord_getElem? _ hk, ← hlen, bytesOfWord_wordOfBytes h4]

end Sys2Proof.Machine
end

section
/-! The match search meets its closed form (42_match_finder.md R212), and a search over cells that answers gives what the search over any
bytes in their place gives (R216). -/

namespace Sys2Proof.Machine

open Sys2Proof

/-! ### The closed form -/

/-- A candidate offset agrees with the position for exactly its common length, and less (R212). -/
theorem agrees_iff {b : List Byte} {pos o l : Nat} :
    Agrees b pos o l ↔ l ≤ commonLen (matchCap b.length pos) (b.drop o) (b.drop pos) := by
  constructor
  · rintro ⟨hcap, hagree⟩
    refine le_commonLen hcap (by rw [List.length_drop]; omega) fun j hj => ?_
    rw [List.getElem?_drop, List.getElem?_drop]
    exact hagree j hj
  · refine fun hle => ⟨hle.trans (commonLen_le _ _ _), fun j hj => ?_⟩
    rw [← List.getElem?_drop, ← List.getElem?_drop]
    exact commonLen_agrees (Nat.lt_of_lt_of_le hj hle)

/-- The search gives the longest match, at its smallest offset (R210, R212). -/
theorem findLongestMatch_longestMatch (b : List Byte) (pos : Nat) :
    LongestMatch b pos (findLongestMatch b pos).1 (findLongestMatch b pos).2 := by
  unfold findLongestMatch
  split
  · next hpos => exact ⟨nofun, fun s _ hs => by omega, nofun, fun _ => rfl⟩
  · obtain ⟨-, -, hall, hr⟩ := scanMatches_spec (cap := matchCap b.length pos) (target := b.drop pos) pos 0 b (0, 0) (Nat.zero_le _)
    generalize scanMatches (matchCap b.length pos) (b.drop pos) pos 0 b (0, 0) = r at hall hr
    have hlongest : ∀ s l, s < pos → Agrees b pos s l → l ≤ r.1 := fun s l hs hl => (agrees_iff.mp hl).trans (hall s hs)
    rcases hr with rfl | ⟨k, hk, rfl, hlt, hfirst⟩
    · exact ⟨nofun, hlongest, nofun, fun _ => rfl⟩
    · simp only [Nat.zero_add] at *
      refine ⟨fun _ => ⟨hk, agrees_iff.mpr (Nat.le_refl _)⟩, hlongest, fun _ s hs hagree => ?_, fun h0 => by omega⟩
      have := agrees_iff.mp hagree
      have := hfirst s hs
      omega

/-! ### Cells and bytes in their place -/

/-- The bytes xs stand in place of the cells cs: a defined cell holds its byte. -/
abbrev InPlace : List (Option Byte) → List Byte → Prop := List.Forall₂ (fun c x => ∀ v, c = some v → x = v)

theorem inPlace_cells {m : Memory} {b : List Byte} (h : ∀ a v, a < b.length → m.read a = some v → b[a]? = some v) :
    InPlace (m.cells 0 b.length) b := by
  refine List.forall₂_iff_get.mpr ⟨m.cells_length 0 _, fun i h1 h2 v hv => ?_⟩
  have hcell := m.getElem?_cells 0 b.length i
  rw [if_pos h2, Nat.zero_add, List.getElem?_eq_getElem h1, Option.some.injEq] at hcell
  have hbyte := h i v h2 (hcell.symm.trans hv)
  rw [List.getElem?_eq_getElem h2] at hbyte
  exact Option.some.inj hbyte

theorem commonLen_of_cells {cap l : Nat} {cs ds : List (Option Byte)} {xs ys : List Byte} (hc : InPlace cs xs) (hd : InPlace ds ys)
    (h : commonLenCells cap cs ds = some l) : commonLen cap xs ys = l := by
  induction cap generalizing cs ds xs ys l with
  | zero => cases h; rfl
  | succ cap ih =>
    cases hc with
    | nil => cases h; rfl
    | @cons c x cs xs hx hc =>
      cases hd with
      | nil => cases h; rfl
      | @cons d y ds ys hy hd =>
        simp only [commonLenCells] at h
        split at h
        · next u v =>
          rw [hx u rfl, hy v rfl]
          simp only [commonLen]
          split at h
          · next huv =>
            split at h
            · cases h
            · next k hk => cases h; rw [if_pos huv, ih hc hd hk]
          · next huv => cases h; rw [if_neg huv]
        · cases h

theorem InPlace.tail {cs : List (Option Byte)} {xs : List Byte} (h : InPlace cs xs) : InPlace cs.tail xs.tail := by
  cases h with
  | nil => exact .nil
  | cons _ h => exact h

theorem scanMatches_of_cells {cap : Nat} {target : List (Option Byte)} {ys : List Byte} (ht : InPlace target ys) {left start : Nat}
    {suffix : List (Option Byte)} {xs : List Byte} {best r : Nat × Nat} (hs : InPlace suffix xs)
    (h : scanCells cap target left start suffix best = some r) : scanMatches cap ys left start xs best = r := by
  induction left generalizing start suffix xs best with
  | zero => cases h; rfl
  | succ left ih =>
    simp only [scanCells] at h
    split at h
    · cases h
    · next l hl =>
      simp only [scanMatches, commonLen_of_cells hs ht hl]
      split at h
      · next hgt =>
        rw [if_pos hgt]
        split at h
        · next hcap => cases h; exact if_pos hcap
        · next hcap => rw [if_neg hcap]; exact ih hs.tail h
      · next hgt => rw [if_neg hgt]; exact ih hs.tail h

/-- A search over cells that answers gives what the search over any bytes in their place gives (R216). -/
theorem findLongestMatch_of_cells {cs : List (Option Byte)} {b : List Byte} {pos : Nat} {r : Nat × Nat} (hc : InPlace cs b)
    (h : findInCells cs pos = some r) : findLongestMatch b pos = r := by
  unfold findInCells at h
  unfold findLongestMatch
  split at h
  · next h0 => cases h; exact if_pos h0
  · next h0 =>
    rw [if_neg h0, ← hc.length_eq]
    exact scanMatches_of_cells (List.forall₂_drop _ hc) hc h

/-- Settles O30: the search over cells answers what the search over bytes answers, and on a defined buffer it answers. -/
theorem matchReadsOnlyDefinedBytes : Obligations.MatchReadsOnlyDefinedBytes := by
  intro s hn hpos
  refine ⟨fun t b h hlen hb => ?_, fun r h hdef => ?_⟩
  · rcases execMatch_next h with ⟨hlt, -⟩ | ⟨-, hle, -⟩ | ⟨-, -, l, o, hfind, rfl⟩
    · omega
    · omega
    · have hl : (BitVec.ofNat 8 l).toNat = l := by
        rw [BitVec.toNat_ofNat]
        rcases findInCells_range hfind with ⟨_, _⟩ | ⟨_, _, _, _⟩ <;> omega
      have ho : (BitVec.ofNat 13 o).toNat = o := by
        rw [BitVec.toNat_ofNat]
        rcases findInCells_range hfind with ⟨_, _⟩ | ⟨_, _, _, _⟩ <;> omega
      have hmatch := findLongestMatch_longestMatch b s.pos.toNat
      rw [← hlen] at hfind
      rw [findLongestMatch_of_cells (inPlace_cells hb) hfind] at hmatch
      simpa only [finish_matchLen, finish_matchOff, hl, ho] using hmatch
  · obtain ⟨b, hlen, hb⟩ := hdef.exists_holds
    have hfind := findInCells_of_holds hb s.pos.toNat
    rw [hlen] at hfind
    simp only [exec, execMatch, Config.bufSize] at h
    rw [if_neg (by omega), if_neg (by omega), hfind] at h
    cases h

end Sys2Proof.Machine
end

section
/-! Which operands each instruction may change (30_encoding.md R124): completion changes none, so each outcome is held to the table by the
fields its meaning sets. -/

namespace Sys2Proof.Machine

open Sys2Proof

variable {i : Instr} {s t : State}

theorem onlyItsOperands_refl (i : Instr) (s : State) : OnlyItsOperands i s s := by simp [OnlyItsOperands]

/-- Completion changes no operand (60_exceptions.md R370). -/
theorem OnlyItsOperands.finish (h : OnlyItsOperands i s t) (e : Option HwError) : OnlyItsOperands i s (t.finish e) := by
  cases e <;> exact h

theorem raise_onlyItsOperands (i : Instr) (s : State) (e : HwError) : OnlyItsOperands i s (s.finish (some e)) :=
  (onlyItsOperands_refl i s).finish _

/-! ### The encoders -/

theorem encodeWith_onlyItsOperands {parse : List Byte → List Byte} (hi : i = .encGreedy ∨ i = .encOptimal)
    (h : encodeWith parse s = .next t) : OnlyItsOperands i s t := by
  rcases encodeWith_next h with ⟨-, rfl⟩ | ⟨-, -, input, -, ⟨e, -, rfl⟩ | ⟨x, -, rfl⟩⟩
  · exact raise_onlyItsOperands i s _
  · refine OnlyItsOperands.finish ?_ _
    rcases hi with rfl | rfl <;> simp [OnlyItsOperands]
  · refine OnlyItsOperands.finish ?_ _
    rcases hi with rfl | rfl <;> simp [OnlyItsOperands]

/-! ### DECODE and the chunks -/

section
variable (hi : i = .decode ∨ isCommand i = false)
include hi

theorem setDec_onlyItsOperands (s : State) (m : Memory) (n : BitVec 14) : OnlyItsOperands i s { s with dec := m, decLen := n } := by
  rcases hi with rfl | hi
  · simp [OnlyItsOperands]
  · simp [OnlyItsOperands, hi]

theorem finishDecode_onlyItsOperands (d : DecState) (s : State) : OnlyItsOperands i s (finishDecode d s) :=
  (setDec_onlyItsOperands hi s d.dec (BitVec.ofNat 14 d.op)).finish none

theorem failDecode_onlyItsOperands (e : HwError) (p : Nat) (s : State) : OnlyItsOperands i s (failDecode e p s) :=
  (setDec_onlyItsOperands hi s (s.dec.undefine 0 s.ctrl.capacity) 0).finish (some e)

theorem applyChunk_onlyItsOperands {r : ChunkResult} (h : applyChunk r s = .next t) : OnlyItsOperands i s t := by
  rcases applyChunk_next h with ⟨d, -, rfl⟩ | ⟨d, -, rfl⟩ | ⟨e, p, -, rfl⟩
  · exact setDec_onlyItsOperands hi s d.dec s.decLen
  · exact finishDecode_onlyItsOperands hi d s
  · exact failDecode_onlyItsOperands hi e p s

end

/-! ### COMPRESS -/

theorem execCompress_onlyItsOperands (h : execCompress s = .next t) : OnlyItsOperands .compress s t := by
  rcases execCompress_next h with ⟨-, rfl⟩ | ⟨-, -, ⟨-, rfl⟩ | ⟨e, sizes, k, -, rfl⟩ | ⟨k, a, sizes, -, -, -, rfl⟩⟩
  all_goals
    refine OnlyItsOperands.finish ?_ _
    simp [OnlyItsOperands]

/-- Settles O57: by the fields each way an instruction can answer sets. -/
theorem instructionsWriteOnlyTheirOperands : Obligations.InstructionsWriteOnlyTheirOperands := by
  intro i s t h
  cases i with
  | nop => obtain rfl := complete_next.mp h; exact (onlyItsOperands_refl _ s).finish none
  | load =>
    rcases execLoad_next h with ⟨-, rfl⟩ | ⟨-, -, bs, -, rfl⟩
    · exact raise_onlyItsOperands _ s _
    · exact OnlyItsOperands.finish (by simp [OnlyItsOperands]) none
  | holeZero =>
    rcases execHoleZero_next h with ⟨e, -, rfl⟩ | ⟨-, -, rfl⟩
    · exact raise_onlyItsOperands _ s e
    · exact OnlyItsOperands.finish (by simp [OnlyItsOperands]) none
  | holePattern =>
    rcases execHolePattern_next h with ⟨e, -, rfl⟩ | ⟨-, -, m, -, rfl⟩
    · exact raise_onlyItsOperands _ s e
    · exact OnlyItsOperands.finish (by simp [OnlyItsOperands]) none
  | matchCmd =>
    rcases execMatch_next h with ⟨-, rfl⟩ | ⟨-, -, rfl⟩ | ⟨-, -, l, o, -, rfl⟩
    · exact raise_onlyItsOperands _ s _
    · exact raise_onlyItsOperands _ s _
    · exact OnlyItsOperands.finish (by simp [OnlyItsOperands]) none
  | encGreedy => exact encodeWith_onlyItsOperands (.inl rfl) h
  | encOptimal => exact encodeWith_onlyItsOperands (.inr rfl) h
  | decode =>
    rcases execDecode_next h with ⟨-, rfl⟩ | ⟨-, ⟨d, -, rfl⟩ | ⟨e, p, -, rfl⟩⟩
    · exact raise_onlyItsOperands _ s _
    · exact finishDecode_onlyItsOperands (.inl rfl) d s
    · exact failDecode_onlyItsOperands (.inl rfl) e p s
  | compress => exact execCompress_onlyItsOperands h
  | chunkMatch | chunkMatchX | chunkNoMatch | chunkEnd => exact applyChunk_onlyItsOperands (.inr rfl) h

end Sys2Proof.Machine
end

section
/-! The errors the encoders and COMPRESS raise on their arguments, and the input bytes they need defined (60_exceptions.md R364, 20_memory.md
R86). -/

namespace Sys2Proof.Machine

open Sys2Proof

variable {s : State}

/-- A raised error in the claims' terms (60_exceptions.md R370). -/
theorem raiseError_finished (e : HwError) (s : State) : ∃ h d, raiseError e s = .next (s.finished e.code e.detail h d) :=
  ⟨_, _, congrArg Host.Outcome.next (finish_some_eq e s)⟩

/-! ### The encoders -/

section
variable (parse : List Byte → List Byte)

theorem encodeWith_badLength (h : s.wlen.toNat < 8184 ∨ 8192 < s.wlen.toNat) : encodeWith parse s = raiseError .wlen s := by
  simp only [encodeWith, badInputLength_eq_true.mpr h, if_true]

theorem encodeWith_undefined (h1 : 8184 ≤ s.wlen.toNat) (h2 : s.wlen.toNat ≤ 8192) (h : ¬ s.wrk.DefinedOn 0 s.wlen.toNat) :
    encodeWith parse s = uninit := by
  simp only [encodeWith, badInputLength_eq_false.mpr ⟨h1, h2⟩, Memory.readBytes_eq_none.mpr h, Bool.false_eq_true, if_false]

end

/-- Settles O34: both encoders check the length, then read WRK, before they parse. -/
theorem encoderInputErrors : Obligations.EncoderInputErrors := by
  rintro s i hi
  obtain ⟨parse, hexec⟩ : ∃ parse, exec i s = encodeWith parse s := by
    rcases hi with rfl | rfl
    · exact ⟨greedyParse, rfl⟩
    · exact ⟨optimalEncode, rfl⟩
  rw [hexec]
  exact ⟨fun h => encodeWith_badLength parse h ▸ raiseError_finished .wlen s, fun h1 h2 h => encodeWith_undefined parse h1 h2 h⟩

/-! ### COMPRESS -/

theorem enabledSlots_eq_nil {c : Ctrl} : enabledSlots c = [] ↔ ∀ k, ¬ SlotRuns c k := by
  rw [List.eq_nil_iff_forall_not_mem]
  simp only [mem_enabledSlots]
  exact ⟨fun h k hk => h ⟨k, hk.lt⟩ hk, fun h k => h k⟩

/-- An attempt reads SRC first (47_compress.md R344). -/
theorem attempt_undefined {len n : Nat} (k : Slot) (h : ¬ s.src.DefinedOn 0 (min n len)) : attempt s len n k = .uninit := by
  simp only [attempt, loadBytes_eq_none.mpr h]

theorem runSlots_undefined {len n : Nat} {ks : List Slot} (sizes : List (Slot × Nat)) (hks : ks ≠ [])
    (h : ¬ s.src.DefinedOn 0 (min n len)) : runSlots s len n ks sizes = .uninit := by
  cases ks with
  | nil => exact absurd rfl hks
  | cons k ks => simp only [runSlots, attempt_undefined k h]

/-- Settles O53: the length is checked, then the slots, and every attempt reads SRC. -/
theorem compressArgumentErrors : Obligations.CompressArgumentErrors := by
  intro s
  have hraise : ∀ e : HwError, ∃ h d, raiseError e (s.setAttempts RunResult.reset []) = .next { s.finished e.code e.detail h d with
      result := ⟨0, 0, false, false⟩, attSize0 := 0, attSize1 := 0, attSize2 := 0, attSize3 := 0 } :=
    fun e => raiseError_finished e (s.setAttempts RunResult.reset [])
  simp only [exec, execCompress]
  refine ⟨fun h => ?_, fun h1 h2 => ?_⟩
  · rw [if_pos (badInputLength_eq_true.mpr h)]
    exact hraise .srcLen
  · rw [badInputLength_eq_false.mpr ⟨h1, h2⟩, if_neg Bool.false_ne_true]
    refine ⟨fun hnone => ?_, fun ⟨k, hk⟩ hundef => ?_⟩
    · rw [enabledSlots_eq_nil.mpr hnone]
      exact hraise .noSlot
    · have hne : enabledSlots s.ctrl ≠ [] := fun hnil => enabledSlots_eq_nil.mp hnil k hk
      rw [if_neg (by simpa using hne), runSlots_undefined [] hne hundef]
      rfl

end Sys2Proof.Machine
end

section
/-! HOLE_PATTERN by its closed form (41_hole_processor.md R193, R194). Both copies leave a run of period 2 that reaches over the hole's two
neighbours on one side, which fixes each byte of the hole by its parity; and no hole's neighbours lie in another hole, so the bytes the
closed form reads are those before the command. -/

namespace Sys2Proof.Machine

open Sys2Proof

/-! ### Runs of period 2 -/

/-- On a run of period 2 indices of the same parity read the same. -/
theorem eq_of_period_two {α : Type} {f : Nat → α} {c n : Nat} (h : ∀ j, j < n → f (c + j) = f (c + j + 2)) {p q : Nat} (hc : c ≤ p)
    (hpq : p ≤ q) (hq : q < c + n + 2) (hpar : p % 2 = q % 2) : f p = f q := by
  obtain ⟨i, rfl⟩ : ∃ i, q = p + 2 * i := ⟨(q - p) / 2, by omega⟩
  clear hpar hpq
  induction i with
  | zero => rfl
  | succ i ih =>
    have hnext := h (p + 2 * i - c) (by omega)
    rw [show c + (p + 2 * i - c) = p + 2 * i by omega] at hnext
    exact (ih (by omega)).trans hnext

/-- A downward copy at distance two answers when the two bytes above the destination are defined. -/
theorem Memory.copyDownTwo_isSome {m : Memory} {b n : Nat} (h : m.DefinedOn (b + n) 2) : (m.copyDownTwo b n).isSome = true := by
  induction n generalizing m with
  | zero => rfl
  | succ n ih =>
    obtain ⟨v, hv⟩ := Option.isSome_iff_exists.mp (h (b + n + 2) (by omega) (by omega))
    unfold Memory.copyDownTwo
    rw [hv]
    refine ih fun p h1 h2 => ?_
    rw [Memory.read_write]
    split
    · rfl
    · exact h p (by omega) (by omega)

/-! ### One hole -/

/-- The bytes HOLE_PATTERN reads for hole k are defined (R193; log 8). -/
def HoleDefined (m : Memory) (n k : Nat) : Prop :=
  m.DefinedOn (118 + 128 * k) 2 ∧ (131 + 128 * k < n → m.DefinedOn (128 + 128 * k) 4)

/-- The index p lies in hole k (R190). -/
def InHoleAt (n k p : Nat) : Prop := 120 + 128 * k ≤ p ∧ p < 128 + 128 * k ∧ p < n

/-- The test of R194 on the 4 bytes after a hole, at e. -/
def PeriodTwo (m : Memory) (n e : Nat) : Prop := e + 3 < n ∧ m.read e = m.read (e + 2) ∧ m.read (e + 1) = m.read (e + 3)

theorem periodTwoAfter_cases (m : Memory) (n e : Nat) :
    (e + 3 < n ∧ ¬ m.DefinedOn e 4 ∧ periodTwoAfter n e m = none) ∨
    ((e + 3 < n → m.DefinedOn e 4) ∧
      ((PeriodTwo m n e ∧ periodTwoAfter n e m = some true) ∨ (¬ PeriodTwo m n e ∧ periodTwoAfter n e m = some false))) := by
  unfold periodTwoAfter
  by_cases hlt : e + 3 < n
  · rw [if_pos hlt]
    cases hr : m.readBytes e 4 with
    | none => exact .inl ⟨hlt, Memory.readBytes_eq_none.mp hr, rfl⟩
    | some bs =>
      have hdef : m.DefinedOn e 4 := Memory.definedOn_iff_readBytes.mpr (hr ▸ rfl)
      obtain ⟨hlen, hread⟩ := Memory.readBytes_eq_some.mp hr
      match bs, hlen with
      | [b0, b1, b2, b3], _ =>
        have h0 : m.read e = some b0 := hread 0 (by decide)
        have h1 : m.read (e + 1) = some b1 := hread 1 (by decide)
        have h2 : m.read (e + 2) = some b2 := hread 2 (by decide)
        have h3 : m.read (e + 3) = some b3 := hread 3 (by decide)
        refine .inr ⟨fun _ => hdef, ?_⟩
        simp only [PeriodTwo, h0, h1, h2, h3, hlt, true_and, Option.some.injEq]
        by_cases hp : b0 = b2 ∧ b1 = b3
        · exact .inl ⟨hp, by simp [hp]⟩
        · exact .inr ⟨hp, by simpa using hp⟩
  · rw [if_neg hlt]
    exact .inr ⟨fun h => absurd h hlt, .inr ⟨fun h => hlt h.1, rfl⟩⟩

theorem patternByte_of_periodTwo {m : Memory} {n k : Nat} (p : Nat) (h : PeriodTwo m n (128 + 128 * k)) :
    patternByte n k p m.read = m.read (128 + 128 * k + p % 2) := by
  refine (if_pos h).trans ?_
  split <;> congr 1 <;> omega

theorem patternByte_of_not_periodTwo {m : Memory} {n k : Nat} (p : Nat) (h : ¬ PeriodTwo m n (128 + 128 * k)) :
    patternByte n k p m.read = m.read (118 + 128 * k + p % 2) := by
  refine (if_neg h).trans ?_
  split <;> congr 1 <;> omega

theorem lt_holeCount {n k : Nat} : k < holeCount n ↔ 120 + 128 * k < n := by
  unfold holeCount
  omega

/-- PatternFill of one hole stops exactly where a byte it reads is undefined, and otherwise gives the closed form in the hole. -/
theorem patternHole_closed {m : Memory} {n k : Nat} (hk : k < holeCount n) :
    (¬ HoleDefined m n k ∧ patternHole n (holeBegin k) (holeEnd n k) m = none) ∨
    (HoleDefined m n k ∧ ∃ x, patternHole n (holeBegin k) (holeEnd n k) m = some x ∧
      ∀ p, (InHoleAt n k p → x.read p = patternByte n k p m.read) ∧ (¬ InHoleAt n k p → x.read p = m.read p)) := by
  have hlt := lt_holeCount.mp hk
  have hbegin : holeBegin k = 120 + 128 * k := rfl
  have hbefore : holeBegin k - 2 = 118 + 128 * k := by omega
  have hafter : holeBegin k + Config.holeLen = 128 + 128 * k := by simp only [Config.holeLen]; omega
  have hend : holeEnd n k = min (128 + 128 * k) n := congrArg (min · n) hafter
  unfold patternHole
  rw [hbefore, hafter]
  by_cases hdef : m.DefinedOn (118 + 128 * k) 2
  · obtain ⟨bs, hbs⟩ := Option.isSome_iff_exists.mp (Memory.definedOn_iff_readBytes.mp hdef)
    rcases periodTwoAfter_cases m n (128 + 128 * k) with ⟨h3, hundef, hp⟩ | ⟨hdef4, ⟨hper, hp⟩ | ⟨hper, hp⟩⟩ <;> rw [hbs, hp]
    · exact .inl ⟨fun h => hundef (h.2 (by omega)), rfl⟩
    · have hlong := hper.1
      obtain ⟨x, hx⟩ := Option.isSome_iff_exists.mp
        (Memory.copyDownTwo_isSome (b := 120 + 128 * k) (n := 8) ((hdef4 hlong).mono (by omega) (by omega)))
      obtain ⟨-, -, hout, hrun⟩ := Memory.copyDownTwo_spec hx
      refine .inr ⟨⟨hdef, fun _ => hdef4 hlong⟩, x, hx, fun p => ⟨fun ⟨h1, h2, _⟩ => ?_, fun hn => hout p ?_⟩⟩
      · rw [patternByte_of_periodTwo p hper, ← hout _ (by omega)]
        exact eq_of_period_two hrun h1 (by omega) (by omega) (by omega)
      · unfold InHoleAt at hn
        omega
    · obtain ⟨x, hx⟩ := Option.isSome_iff_exists.mp
        (Memory.copyForward_isSome (dst := holeBegin k) (n := holeEnd n k - holeBegin k) (by omega) fun p h1 h2 => hdef p h1 (by omega))
      obtain ⟨-, -, hout, hcopy⟩ := Memory.copyForward_spec hx
      have hrun : ∀ j, j < holeEnd n k - holeBegin k → x.read (118 + 128 * k + j) = x.read (118 + 128 * k + j + 2) := fun j hj => by
        rw [← hcopy (by omega) j hj, hbegin]
        congr 1
        omega
      refine .inr ⟨⟨hdef, fun _ => hdef4 (by omega)⟩, x, hx, fun p => ⟨fun ⟨h1, h2, _⟩ => ?_, fun hn => hout p ?_⟩⟩
      · rw [patternByte_of_not_periodTwo p hper, ← hout _ (by omega)]
        exact (eq_of_period_two hrun (by omega) (by omega) (by omega) (by omega)).symm
      · unfold InHoleAt at hn
        omega
  · rw [Memory.readBytes_eq_none.mpr hdef]
    exact .inl ⟨fun h => hdef h.1, rfl⟩

/-! ### The holes in order -/

/-- The index q is one of those the fill of hole k reads outside the hole: the 2 before it and the 4 after it. -/
def NextToHole (k q : Nat) : Prop := (118 + 128 * k ≤ q ∧ q < 120 + 128 * k) ∨ (128 + 128 * k ≤ q ∧ q < 132 + 128 * k)

theorem NextToHole.not_inHoleAt {k q : Nat} (h : NextToHole k q) (n j : Nat) : ¬ InHoleAt n j q := by
  unfold NextToHole at h
  unfold InHoleAt
  omega

theorem patternByte_congr {α : Type} [DecidableEq α] {f g : Nat → α} {k : Nat} (h : ∀ q, NextToHole k q → f q = g q) (n p : Nat) :
    patternByte n k p f = patternByte n k p g := by
  have hat : ∀ i, i < 4 → f (128 + 128 * k + i) = g (128 + 128 * k + i) := fun i hi => h _ (.inr ⟨by omega, by omega⟩)
  have h9 : f (128 + 128 * k - 9) = g (128 + 128 * k - 9) := h _ (.inl ⟨by omega, by omega⟩)
  have h10 : f (128 + 128 * k - 10) = g (128 + 128 * k - 10) := h _ (.inl ⟨by omega, by omega⟩)
  have h0 : f (128 + 128 * k) = g (128 + 128 * k) := hat 0 (by decide)
  simp only [patternByte, apply_ite f, apply_ite g, h0, hat 1 (by decide), hat 2 (by decide), hat 3 (by decide), h9, h10]

theorem holeDefined_congr {m x : Memory} {k : Nat} (h : ∀ q, NextToHole k q → x.read q = m.read q) (n : Nat) :
    HoleDefined x n k ↔ HoleDefined m n k := by
  have hbefore : x.DefinedOn (118 + 128 * k) 2 ↔ m.DefinedOn (118 + 128 * k) 2 :=
    forall₃_congr fun q h1 h2 => by rw [h q (.inl ⟨h1, by omega⟩)]
  have hafter : x.DefinedOn (128 + 128 * k) 4 ↔ m.DefinedOn (128 + 128 * k) 4 :=
    forall₃_congr fun q h1 h2 => by rw [h q (.inr ⟨h1, by omega⟩)]
  rw [HoleDefined, HoleDefined, hbefore, hafter]

/-- What the fill of the first k holes of m gives: none where one of them lacks a byte, and otherwise the closed form in them. -/
def FirstHolesFilled (n : Nat) (m : Memory) (k : Nat) : Option Memory → Prop
  | none => ∃ j, j < k ∧ ¬ HoleDefined m n j
  | some x => (∀ j, j < k → HoleDefined m n j) ∧
      ∀ p, (∀ j, j < k → InHoleAt n j p → x.read p = patternByte n j p m.read) ∧ ((∀ j, j < k → ¬ InHoleAt n j p) → x.read p = m.read p)

theorem FirstHolesFilled.next {n k : Nat} {m : Memory} {o : Option Memory} (h : FirstHolesFilled n m k o) (hk : k < holeCount n) :
    FirstHolesFilled n m (k + 1) (o.bind (patternHole n (holeBegin k) (holeEnd n k))) := by
  cases o with
  | none =>
    obtain ⟨j, hj, hundef⟩ := h
    exact ⟨j, by omega, hundef⟩
  | some x =>
    obtain ⟨hdef, hread⟩ := h
    have hnear : ∀ q, NextToHole k q → x.read q = m.read q := fun q hq => (hread q).2 fun j _ => hq.not_inHoleAt n j
    rcases patternHole_closed (m := x) hk with ⟨hundef, hy⟩ | ⟨hdefk, y, hy, hready⟩
    · rw [Option.bind_some, hy]
      exact ⟨k, by omega, fun hm => hundef ((holeDefined_congr hnear n).mpr hm)⟩
    · rw [Option.bind_some, hy]
      refine ⟨fun j hj => ?_, fun p => ⟨fun j hj hp => ?_, fun hp => ?_⟩⟩
      · rcases Nat.lt_succ_iff_lt_or_eq.mp hj with hj | rfl
        · exact hdef j hj
        · exact (holeDefined_congr hnear n).mp hdefk
      · rcases Nat.lt_succ_iff_lt_or_eq.mp hj with hj | rfl
        · have hother : ¬ InHoleAt n k p := by
            unfold InHoleAt at hp ⊢
            omega
          rw [(hready p).2 hother, (hread p).1 j hj hp]
        · rw [(hready p).1 hp, patternByte_congr hnear]
      · rw [(hready p).2 (hp k (by omega)), (hread p).2 fun j hj => hp j (by omega)]

theorem patternFill_filled (n : Nat) (m : Memory) : FirstHolesFilled n m (holeCount n) (patternFill n m) := by
  have hfirst : ∀ k, k ≤ holeCount n → FirstHolesFilled n m k
      ((List.range k).foldl (fun acc k => acc.bind (patternHole n (holeBegin k) (holeEnd n k))) (some m)) := by
    intro k
    induction k with
    | zero => exact fun _ => ⟨nofun, fun _ => ⟨nofun, fun _ => rfl⟩⟩
    | succ k ih =>
      intro hk
      rw [List.range_succ, List.foldl_append]
      exact (ih (by omega)).next hk
  exact hfirst _ (Nat.le_refl _)

theorem patternBytesDefined_iff {m : Memory} {n : Nat} : PatternBytesDefined m n ↔ ∀ k, k < holeCount n → HoleDefined m n k :=
  forall_congr' fun _ => by rw [lt_holeCount]; rfl

theorem inHole_iff {n p : Nat} : InHole n p ↔ InHoleAt n (p / 128) p := by
  constructor
  · rintro ⟨k, h1, h2, h3⟩
    obtain rfl : k = p / 128 := by omega
    exact ⟨h1, h2, h3⟩
  · exact fun h => ⟨_, h⟩

/-- Settles O26: the length check, then what the fill of all holes gives. -/
theorem holePatternMeaning : Obligations.HolePatternMeaning := by
  refine ⟨rfl, fun s => ?_⟩
  simp only [exec, execHolePattern]
  rcases holeLengthError_cases s.wlen.toNat with ⟨hlong, he⟩ | ⟨hshort, he⟩ | ⟨hmin, hmax, he⟩ <;> rw [he]
  · exact ⟨fun _ => raiseError_finished .wlenMax s, fun _ => by omega, fun _ _ => by omega⟩
  · exact ⟨fun _ => by omega, fun _ => raiseError_finished .wlenMin s, fun _ _ => by omega⟩
  · refine ⟨fun _ => by omega, fun _ => by omega, fun _ _ => ?_⟩
    have hfilled := patternFill_filled s.wlen.toNat s.wrk
    rw [patternBytesDefined_iff]
    cases hm : patternFill s.wlen.toNat s.wrk with
    | none =>
      rw [hm] at hfilled
      obtain ⟨k, hk, hundef⟩ := hfilled
      exact ⟨fun hdef => absurd (hdef k hk) hundef, fun _ => rfl⟩
    | some m =>
      rw [hm] at hfilled
      obtain ⟨hdef, hread⟩ := hfilled
      refine ⟨fun _ => ⟨_, _, m, rfl, fun p => ⟨fun hp => ?_, fun hp => ?_⟩⟩, fun hundef => absurd hdef hundef⟩
      · have hp := inHole_iff.mp hp
        exact (hread p).1 _ (lt_holeCount.mpr (by unfold InHoleAt at hp; omega)) hp
      · exact (hread p).2 fun k _ hk => hp ⟨k, hk⟩

end Sys2Proof.Machine
end

section
/-! The codes of 30_encoding.md: each reading operation of the decoder undoes, and is undone by, the field the encoder writes. Commands and
chunks then round-trip by assembling their fields, and the length of a chunk (R132) is read off its encoding. -/

namespace Sys2Proof.Machine

open Sys2Proof

/-! ### Nibbles and offsets -/

@[simp] theorem hiNib_append (a b : Nibble) : hiNib (a ++ b) = a := BitVec.extractLsb'_append_eq_left
@[simp] theorem loNib_append (a b : Nibble) : loNib (a ++ b) = b := BitVec.extractLsb'_append_eq_right

theorem hiNib_append_loNib (b : Byte) : hiNib b ++ loNib b = b :=
  (BitVec.extractLsb'_append_extractLsb'_eq_extractLsb' rfl).trans BitVec.extractLsb'_eq_self

theorem toNat_hiNib (b : Byte) : (hiNib b).toNat = b.toNat / 16 := by
  rw [hiNib, BitVec.extractLsb'_toNat, Nat.shiftRight_eq_div_pow]
  omega

theorem toNat_loNib (b : Byte) : (loNib b).toNat = b.toNat % 16 := by
  rw [loNib, BitVec.extractLsb'_toNat, Nat.shiftRight_zero]

theorem toNat_eq_15 {n : Nibble} : n.toNat = 15 ↔ n = 15 := BitVec.toNat_inj (y := 15)

@[simp] theorem offsetOf_bytes (o : BitVec 16) : offsetOf (offsetLo o) (offsetHi o) = o :=
  (BitVec.extractLsb'_append_extractLsb'_eq_extractLsb' rfl).trans BitVec.extractLsb'_eq_self

@[simp] theorem offsetLo_offsetOf (b0 b1 : Byte) : offsetLo (offsetOf b0 b1) = b0 := BitVec.extractLsb'_append_eq_right
@[simp] theorem offsetHi_offsetOf (b0 b1 : Byte) : offsetHi (offsetOf b0 b1) = b1 := BitVec.extractLsb'_append_eq_left

/-! ### Command words (R120, R121) -/

/-- A word without reserved bits is its low byte. -/
theorem word_eq_of_rsvd_zero {w : Word} {k : Nat} (hr : w.extractLsb' 8 24 = 0) (hk : (w.extractLsb' 0 8).toNat = k) :
    w = BitVec.ofNat 32 k := by
  have hr : (w.extractLsb' 8 24).toNat = 0 := congrArg BitVec.toNat hr
  rw [BitVec.extractLsb'_toNat, Nat.shiftRight_eq_div_pow] at hr
  rw [BitVec.extractLsb'_toNat, Nat.shiftRight_zero] at hk
  have hlt := w.isLt
  apply BitVec.eq_of_toNat_eq
  rw [BitVec.toNat_ofNat, ← hk]
  omega

/-- What the decoder of command words answers, by the two checks of R173. -/
theorem decodeCommand_cases (w : Word) :
    (w.extractLsb' 8 24 ≠ 0 ∧ decodeCommand w = .error .rsvd) ∨
    (w.extractLsb' 8 24 = 0 ∧ 9 ≤ (w.extractLsb' 0 8).toNat ∧ decodeCommand w = .error .opcode) ∨
    (w.extractLsb' 8 24 = 0 ∧ (w.extractLsb' 0 8).toNat < 9 ∧ ∃ i, decodeCommand w = .ok i ∧ encode i = .cmdw w) := by
  unfold decodeCommand
  split
  · next hr => exact .inl ⟨hr, rfl⟩
  · next hr =>
    have hr := of_not_not hr
    generalize hk : (w.extractLsb' 0 8).toNat = k
    match k, hk with
    | 0, hk | 1, hk | 2, hk | 3, hk | 4, hk | 5, hk | 6, hk | 7, hk | 8, hk =>
      exact .inr (.inr ⟨hr, by decide, _, rfl, congrArg Code.cmdw (word_eq_of_rsvd_zero hr hk).symm⟩)
    | k + 9, _ => exact .inr (.inl ⟨hr, by omega, rfl⟩)

/-- A word decodes to an instruction exactly when it is its code (R120, R121). -/
theorem decodeCommand_ok_iff {w : Word} {i : Instr} : decodeCommand w = .ok i ↔ encode i = .cmdw w := by
  constructor
  · intro h
    rcases decodeCommand_cases w with ⟨-, he⟩ | ⟨-, -, he⟩ | ⟨-, -, j, hj, hw⟩
    · rw [he] at h; cases h
    · rw [he] at h; cases h
    · rw [hj] at h; cases h; exact hw
  · intro h
    cases i <;> cases h <;> rfl

/-! ### The literal length (R128) -/

theorem toNat_lnField (run : Nat) : (lnField run).toNat = min run 15 := by
  unfold lnField
  split
  · rw [BitVec.toNat_ofNat]; omega
  · rw [Nat.min_eq_right (by omega)]; rfl

theorem lnField_eq_15 {run : Nat} : lnField run = 15 ↔ 15 ≤ run := by
  rw [← toNat_eq_15, toNat_lnField]
  omega

/-- The length is read back from LN and LX, with what follows them. -/
theorem decodeRun_encoded {run : Nat} (h : run ≤ 270) (bs : List Byte) :
    decodeRun (lnField run) (lxBytes run ++ bs) = .ok (hdrSize run, run, bs) := by
  unfold decodeRun hdrSize lxBytes
  by_cases hs : run < 15
  · have hln : lnField run ≠ 15 := fun h15 => absurd (lnField_eq_15.mp h15) (by omega)
    rw [if_pos hln, toNat_lnField, Nat.min_eq_left (by omega), if_pos hs, if_pos hs]
    rfl
  · have hlx : 15 + (BitVec.ofNat 8 (run - 15)).toNat = run := by rw [BitVec.toNat_ofNat]; omega
    rw [if_neg (not_not.mpr (lnField_eq_15.mpr (by omega))), if_neg hs, if_neg hs]
    simp only [List.singleton_append, hlx]

/-- Whatever length is read has this one form. -/
theorem decodeRun_exact {ln : Nibble} {bs body : List Byte} {hdr run : Nat} (h : decodeRun ln bs = .ok (hdr, run, body)) :
    run ≤ 270 ∧ ln = lnField run ∧ bs = lxBytes run ++ body := by
  unfold decodeRun at h
  split at h
  · next hl =>
    cases h
    have hlt : ln.toNat < 15 := by
      have := ln.isLt
      have := mt toNat_eq_15.mp hl
      omega
    exact ⟨by omega, by simp [lnField, hlt], by simp [lxBytes, hlt]⟩
  · next hl =>
    cases bs with
    | nil => cases h
    | cons lx rest =>
      cases h
      have := lx.isLt
      exact ⟨by omega, (of_not_not hl).trans (lnField_eq_15.mpr (by omega)).symm, by simp [lxBytes]⟩

/-! ### The tail (R129 to R131) -/

theorem matchShort_wf_iff {mn : Nibble} {off : BitVec 16} : (Tail.matchShort mn off).wf = true ↔ mn ≠ 15 := decide_eq_true_iff

theorem matchLong_wf_iff {mx : Byte} {off : BitVec 16} :
    (Tail.matchLong mx off).wf = true ↔ mx ≠ Config.sentNoMatch ∧ mx ≠ Config.sentEnd := by
  rw [Tail.wf, Bool.and_eq_true, decide_eq_true_iff, decide_eq_true_iff]

theorem decodeOffset_encoded (hdr run index : Nat) (o : BitVec 16) (rest : List Byte) :
    decodeOffset hdr run index (offsetLo o :: offsetHi o :: rest) = .ok (o, rest) := by simp [decodeOffset]

theorem decodeOffset_exact {hdr run index : Nat} {bs rest : List Byte} {o : BitVec 16}
    (h : decodeOffset hdr run index bs = .ok (o, rest)) : bs = offsetLo o :: offsetHi o :: rest := by
  match bs, h with
  | [], h => cases h
  | [_], h => cases h
  | b0 :: b1 :: r, h => cases h; simp

/-- A well-formed tail is read back from MN and its bytes. -/
theorem decodeTail_encoded {t : Tail} (h : t.wf = true) (hdr run : Nat) (rest : List Byte) :
    decodeTail t.mnField hdr run (t.bytes ++ rest) = .ok (t, rest) := by
  cases t with
  | matchShort mn off =>
    simp only [decodeTail, Tail.mnField, Tail.bytes, if_pos (matchShort_wf_iff.mp h), List.cons_append, List.nil_append,
      decodeOffset_encoded]
  | matchLong mx off =>
    obtain ⟨h253, h254⟩ := matchLong_wf_iff.mp h
    simp only [decodeTail, Tail.mnField, Tail.bytes, ne_eq, not_true_eq_false, if_false, if_neg h253, if_neg h254, List.cons_append,
      List.nil_append, decodeOffset_encoded]
  | noMatch => simp [decodeTail, Tail.mnField, Tail.bytes]
  | endOfData => simp [decodeTail, Tail.mnField, Tail.bytes]

/-- Whatever tail is read is well formed and has these bytes. -/
theorem decodeTail_exact {mn : Nibble} {hdr run : Nat} {bs rest : List Byte} {t : Tail} (h : decodeTail mn hdr run bs = .ok (t, rest)) :
    t.wf = true ∧ mn = t.mnField ∧ bs = t.bytes ++ rest := by
  unfold decodeTail at h
  split at h
  · next hmn =>
    split at h
    · cases h
    · next off r ho =>
      cases h
      exact ⟨matchShort_wf_iff.mpr hmn, rfl, decodeOffset_exact ho⟩
  · next hmn =>
    have hmn := of_not_not hmn
    cases bs with
    | nil => cases h
    | cons mx r =>
      simp only at h
      split at h
      · next h253 => cases h; exact ⟨rfl, hmn, congrArg (· :: rest) h253⟩
      · next h253 =>
        split at h
        · next h254 => cases h; exact ⟨rfl, hmn, congrArg (· :: rest) h254⟩
        · next h254 =>
          split at h
          · cases h
          · next off r' ho =>
            cases h
            exact ⟨matchLong_wf_iff.mpr ⟨h253, h254⟩, hmn, congrArg (mx :: ·) (decodeOffset_exact ho)⟩

/-! ### Chunks (R126) -/

theorem Chunk.wf_iff {c : Chunk} : c.wf = true ↔ c.lits.length ≤ 270 ∧ c.tail.wf = true := by
  simp [Chunk.wf, litsOk]

/-- A well-formed chunk is read back from its bytes, whatever follows them. -/
theorem decodeChunk_encodeChunk {c : Chunk} (h : c.wf = true) (rest : List Byte) : decodeChunk (encodeChunk c ++ rest) = .ok (c, rest) := by
  obtain ⟨hlits, htail⟩ := Chunk.wf_iff.mp h
  simp [decodeChunk, encodeChunk, List.append_assoc, decodeRun_encoded hlits, decodeTail_encoded htail]

/-- Whatever chunk is read is well formed, and the bytes read are its encoding. -/
theorem decodeChunk_exact {bs rest : List Byte} {c : Chunk} (h : decodeChunk bs = .ok (c, rest)) :
    c.wf = true ∧ bs = encodeChunk c ++ rest := by
  cases bs with
  | nil => cases h
  | cons fb bs =>
    simp only [decodeChunk] at h
    split at h
    · cases h
    · next hdr run body hrun =>
      split at h
      · cases h
      · next hlen =>
        split at h
        · cases h
        · next t r ht =>
          cases h
          obtain ⟨h270, hln, rfl⟩ := decodeRun_exact hrun
          obtain ⟨hwf, hmn, hbody⟩ := decodeTail_exact ht
          have hlits : (body.take run).length = run := by simp only [List.length_take] at hlen ⊢; omega
          refine ⟨Chunk.wf_iff.mpr ⟨hlits.trans_le h270, hwf⟩, ?_⟩
          simp only [encodeChunk, hlits, ← hln, ← hmn, hiNib_append_loNib, List.cons_append, List.append_assoc, ← hbody,
            List.take_append_drop]

/-! ### Instructions -/

@[simp] theorem Chunk.toInstr_wf (c : Chunk) : c.toInstr.wf = c.wf := by
  obtain ⟨lits, t⟩ := c
  cases t <;> rfl

@[simp] theorem encode_toInstr (c : Chunk) : encode c.toInstr = .chunk (encodeChunk c) := by
  obtain ⟨lits, t⟩ := c
  cases t <;> rfl

/-- The instructions whose code is a list of bytes are the chunks. -/
theorem exists_chunk_of_encode {i : Instr} {bs : List Byte} (h : encode i = .chunk bs) : ∃ c : Chunk, i = c.toInstr ∧ bs = encodeChunk c := by
  cases i with
  | chunkMatch lits mn off => cases h; exact ⟨⟨lits, .matchShort mn off⟩, rfl, rfl⟩
  | chunkMatchX lits mx off => cases h; exact ⟨⟨lits, .matchLong mx off⟩, rfl, rfl⟩
  | chunkNoMatch lits => cases h; exact ⟨⟨lits, .noMatch⟩, rfl, rfl⟩
  | chunkEnd lits => cases h; exact ⟨⟨lits, .endOfData⟩, rfl, rfl⟩
  | nop | load | holeZero | holePattern | matchCmd | encGreedy | encOptimal | decode | compress => cases h

theorem decode_cmdw_ok_iff {w : Word} {i : Instr} {rest : List Byte} :
    decode (.cmdw w) = .ok (i, rest) ↔ decodeCommand w = .ok i ∧ rest = [] := by
  simp only [decode]
  cases decodeCommand w <;> simp [eq_comm]

theorem decode_chunk_ok_iff {bs rest : List Byte} {i : Instr} :
    decode (.chunk bs) = .ok (i, rest) ↔ ∃ c : Chunk, decodeChunk bs = .ok (c, rest) ∧ i = c.toInstr := by
  simp only [decode]
  rcases decodeChunk bs with e | ⟨c, r⟩ <;> simp [eq_comm, and_comm]

/-- Settles O2: a command by its word, a chunk by its bytes. -/
theorem encodeDecodeRoundTrip : Obligations.EncodeDecodeRoundTrip := by
  intro i hwf
  refine ⟨fun w hw => decode_cmdw_ok_iff.mpr ⟨decodeCommand_ok_iff.mpr hw, rfl⟩, fun bs rest hbs => ?_⟩
  obtain ⟨c, rfl, rfl⟩ := exists_chunk_of_encode hbs
  rw [Chunk.toInstr_wf] at hwf
  exact decode_chunk_ok_iff.mpr ⟨c, decodeChunk_encodeChunk hwf rest, rfl⟩

/-- Settles O3: the exactness of each of the two decoders. -/
theorem decodeIsExact : Obligations.DecodeIsExact := by
  refine ⟨fun w i rest h => ?_, fun bs i rest h => ?_⟩
  · obtain ⟨hi, rfl⟩ := decode_cmdw_ok_iff.mp h
    exact ⟨(decodeCommand_ok hi).2, decodeCommand_ok_iff.mp hi, rfl⟩
  · obtain ⟨c, hc, rfl⟩ := decode_chunk_ok_iff.mp h
    obtain ⟨hwf, rfl⟩ := decodeChunk_exact hc
    exact ⟨(Chunk.toInstr_wf c).trans hwf, _, encode_toInstr c, rfl⟩

/-- Settles O1: the decoder run on each code. -/
theorem decodesHandWrittenCodes : Obligations.DecodesHandWrittenCodes :=
  ⟨rfl, rfl, rfl, rfl, rfl, rfl, rfl, rfl, rfl, rfl, rfl, rfl, rfl, rfl, rfl⟩

/-! ### The length of a chunk (R132) -/

/-- FB of an encoded chunk holds the two nibbles (R127). -/
theorem toNat_framingByte (a b : Nibble) : (a ++ b : Byte).toNat / 16 = a.toNat ∧ (a ++ b : Byte).toNat % 16 = b.toNat := by
  rw [← toNat_hiNib, ← toNat_loNib, hiNib_append, loNib_append]
  exact ⟨rfl, rfl⟩

/-- MX is present iff MN = 15, OFF in a chunk with a match. -/
theorem tail_bytes_length {t : Tail} (h : t.wf = true) :
    t.bytes.length = (if t.mnField.toNat = 15 then 1 else 0) + (if (matchOf t).isSome then 2 else 0) := by
  cases t with
  | matchShort mn off =>
    have hmn : mn.toNat ≠ 15 := mt toNat_eq_15.mp (matchShort_wf_iff.mp h)
    simp [Tail.bytes, Tail.mnField, matchOf, hmn]
  | matchLong | noMatch | endOfData => rfl

/-- MN below 15 is a short match. -/
theorem tail_of_mnField_lt {t : Tail} (h : t.mnField.toNat < 15) : ∃ off, t = .matchShort (BitVec.ofNat 4 t.mnField.toNat) off := by
  cases t with
  | matchShort mn off => exact ⟨off, by simp [Tail.mnField]⟩
  | matchLong | noMatch | endOfData => exact absurd h (Nat.lt_irrefl 15)

/-- MN = 15 is followed by MX, which fixes the kind. -/
theorem tail_of_mnField_eq {t : Tail} (hwf : t.wf = true) (h : t.mnField.toNat = 15) :
    ∃ mx : Byte, t.bytes[0]? = some mx ∧ (mx = 253 → t = .noMatch) ∧ (mx = 254 → t = .endOfData) ∧
      (mx ≠ 253 → mx ≠ 254 → ∃ off, t = .matchLong mx off) := by
  cases t with
  | matchShort mn off => exact absurd (toNat_eq_15.mp h) (matchShort_wf_iff.mp hwf)
  | matchLong mx off =>
    have hmx := matchLong_wf_iff.mp hwf
    exact ⟨mx, rfl, fun h => absurd h hmx.1, fun h => absurd h hmx.2, fun _ _ => ⟨off, rfl⟩⟩
  | noMatch => exact ⟨253, rfl, fun _ => rfl, fun h => absurd h (by decide), fun h => absurd rfl h⟩
  | endOfData => exact ⟨254, rfl, fun h => absurd h (by decide), fun _ => rfl, fun _ h => absurd rfl h⟩

theorem lxBytes_length (run : Nat) : (lxBytes run).length = if (lnField run).toNat = 15 then 1 else 0 := by
  rw [toNat_lnField]
  unfold lxBytes
  by_cases h : run < 15
  · rw [if_pos h, if_neg (by omega)]; rfl
  · rw [if_neg h, if_pos (by omega)]; rfl

/-- Settles O4: the bytes are the encoding of the chunk, whose fields fix its length. -/
theorem chunkLength : Obligations.ChunkLength := by
  intro fb bs rest c h
  obtain ⟨hwf, henc⟩ := decodeChunk_exact h
  obtain ⟨hlits, htail⟩ := Chunk.wf_iff.mp hwf
  rw [encodeChunk, List.cons_append] at henc
  obtain ⟨rfl, rfl⟩ := List.cons.inj henc
  obtain ⟨hhi, hlo⟩ := toNat_framingByte (lnField c.lits.length) c.tail.mnField
  rw [hhi, hlo, ← lxBytes_length]
  have hln := toNat_lnField c.lits.length
  refine ⟨?_, fun h15 => by omega, fun h15 => ?_, tail_of_mnField_lt, fun h15 => ?_⟩
  · have := tail_bytes_length htail
    simp only [List.length_cons, List.length_append]
    omega
  · refine ⟨BitVec.ofNat 8 (c.lits.length - 15), ?_, ?_⟩
    · rw [lxBytes, if_neg (by omega)]; rfl
    · rw [BitVec.toNat_ofNat]; omega
  · obtain ⟨mx, hmx, hkind⟩ := tail_of_mnField_eq htail h15
    refine ⟨mx, ?_, hkind⟩
    rw [← List.length_append, List.append_assoc, List.getElem?_append_right (Nat.le_refl _), Nat.sub_self]
    cases hb : c.tail.bytes with
    | nil => rw [hb] at hmx; cases hmx
    | cons x xs => rw [hb] at hmx; exact hmx

/-! ### Reserved command words -/

/-- A step from an accepted word runs it (40_control.md R170). -/
theorem step_accept {s : State} (w : Word) (hr : s.rst = false) (hi : s.inputs = []) : step (s.accept w) = runWord w (s.accept w) := by
  unfold step runUnattended
  rw [accept_inputs, hi, accept_rst, hr]
  rfl

/-- A word that is no command completes with its error of BAD_CMD (R173). -/
theorem runWord_reserved {w : Word} {e : DecodeError} (s : State) (h : decodeCommand w = .error e) :
    runWord w s = raiseError (reservedWordError e) s := by
  unfold runWord
  rw [h]
  rfl

/-- Settles O5: the two checks of the decoder of command words, in order. -/
theorem reservedCommandWords : Obligations.ReservedCommandWords := by
  intro s w hr hi
  rw [step_accept w hr hi]
  rcases decodeCommand_cases w with ⟨hrsvd, he⟩ | ⟨hrsvd, hop, he⟩ | ⟨hrsvd, hop, i, hi, henc⟩
  · rw [runWord_reserved _ he]
    exact ⟨rfl, fun _ => raiseError_finished .rsvd _, fun h => absurd h hrsvd, fun h => absurd h hrsvd⟩
  · rw [runWord_reserved _ he]
    exact ⟨rfl, fun h => absurd hrsvd h, fun _ _ => raiseError_finished .opcode _, fun _ _ => by omega⟩
  · rw [runWord_of_ok _ hi]
    exact ⟨rfl, fun h => absurd hrsvd h, fun _ _ => by omega, fun _ _ => ⟨i, henc, rfl⟩⟩

end Sys2Proof.Machine
end

section
/-! The parsers' decisions. Both parsers run one loop: at each position a choice of a literal or of the longest match there, written out by
the TokenWriter. What holds of the stream for every such choice, its serialization (30_encoding.md R137) and the stream invariants
(45_token_writer.md R286), is proved once. -/

namespace Sys2Proof.Machine

open Sys2Proof

/-! ### The closed form fixes the search's result (42_match_finder.md R212) -/

/-- No position has two longest matches. -/
theorem LongestMatch.unique {b : List Byte} {pos l o l' o' : Nat} (h : LongestMatch b pos l o) (h' : LongestMatch b pos l' o') :
    l = l' ∧ o = o' := by
  have le {l o l' o'} (h : LongestMatch b pos l o) (h' : LongestMatch b pos l' o') : l ≤ l' := by
    rcases Nat.eq_zero_or_pos l with rfl | hl
    · exact Nat.zero_le _
    · obtain ⟨hpos, hagree⟩ := h.found hl
      exact h'.longest o l hpos hagree
  obtain rfl : l = l' := Nat.le_antisymm (le h h') (le h' h)
  refine ⟨rfl, ?_⟩
  rcases Nat.eq_zero_or_pos l with rfl | hl
  · rw [h.nothing rfl, h'.nothing rfl]
  · rcases Nat.lt_trichotomy o o' with hlt | heq | hlt
    · exact absurd (h.found hl).2 (h'.earliest hl o hlt)
    · exact heq
    · exact absurd (h'.found hl).2 (h.earliest hl o' hlt)

theorem findLongestMatch_eq {b : List Byte} {pos l o : Nat} (h : LongestMatch b pos l o) : findLongestMatch b pos = (l, o) := by
  obtain ⟨hl, ho⟩ := (findLongestMatch_longestMatch b pos).unique h
  exact Prod.ext hl ho

/-! ### Decisions written out by the TokenWriter -/

/-- One decision written out, as both parsers do it (43_greedy_parser.md R230, 44_optimal_parser.md R256). -/
def Token.put (t : Token) (p : Parser) : Parser :=
  match t with
  | .lit x    => { twLiteral x p with pos := p.pos + 1 }
  | .copy l o => { twMatch l o p with pos := p.pos + l }

/-- The decisions written out one after the other. -/
def putAll : List Token → Parser → Parser
  | [], p      => p
  | t :: ts, p => putAll ts (t.put p)

@[simp] theorem put_pos (t : Token) (p : Parser) : (t.put p).pos = p.pos + t.size := by cases t <;> rfl

/-- A full run goes out as a no-match chunk before more literals (45_token_writer.md R284). -/
theorem chunksOf_full {run more : List Byte} (hrun : run.length = 255) (hmore : more ≠ []) (ts : List Token) :
    chunksOf (run ++ more) ts = ⟨run, .noMatch⟩ :: chunksOf more ts := by
  have split (t : Tail) (more : List Byte) (h : more ≠ []) : literals (run ++ more) t = ⟨run, .noMatch⟩ :: literals more t := by
    have hpos := List.length_pos_iff.mpr h
    rw [literals_of_gt t (by rw [List.length_append]; omega), ← hrun, List.take_left, List.drop_left]
  induction ts generalizing more with
  | nil => exact split _ _ hmore
  | cons t ts ih =>
    cases t with
    | lit x => rw [chunksOf, List.append_assoc, ih (by simp), chunksOf]
    | copy l o => rw [chunksOf, split _ _ hmore, chunksOf, List.cons_append]

/-- What the stream of a parser becomes: the chunks of the decisions, with the pending run before them. -/
theorem twEnd_putAll_out (ts : List Token) {p : Parser} (hp : p.pend.length ≤ 255) :
    (twEnd (putAll ts p)).out = p.out ++ ((chunksOf p.pend ts).map encodeChunk).flatten := by
  induction ts generalizing p with
  | nil => simp [putAll, chunksOf, literals_of_le _ hp]
  | cons t ts ih =>
    rw [putAll]
    cases t with
    | lit x =>
      rcases twLiteral_cases x p with ⟨hfull, h⟩ | ⟨hfull, h⟩
      · rw [ih (by simp [Token.put, h])]
        simp [Token.put, h, chunksOf, chunksOf_full hfull]
      · rw [ih (by simp [Token.put, h]; omega)]
        simp [Token.put, h, chunksOf]
    | copy l o =>
      rw [ih (by simp [Token.put])]
      simp [Token.put, chunksOf, literals_of_le _ hp]

/-- The stream of a list of decisions is its serialization (45_token_writer.md R284, R285). -/
theorem twEnd_putAll_begin (ts : List Token) : (twEnd (putAll ts twBegin)).out = streamBytes (chunksOf [] ts) :=
  twEnd_putAll_out ts (Nat.zero_le 255)

/-! ### A parser as a choice at each position -/

/-- At a position with byte x, a parser writes a literal, or the longest match there where it is usable. -/
def ValidChoice (b : List Byte) (choose : Nat → Byte → Token) : Prop :=
  ∀ pos x, pos < b.length → choose pos x = .lit x ∨
    (4 ≤ (findLongestMatch b pos).1 ∧ choose pos x = .copy (findLongestMatch b pos).1 (findLongestMatch b pos).2)

/-- The decisions of a choice from a position on. -/
def decisions (b : List Byte) (choose : Nat → Byte → Token) : Nat → Nat → List Token
  | 0, _          => []
  | fuel + 1, pos =>
    match b[pos]? with
    | none   => []
    | some x => choose pos x :: decisions b choose fuel (pos + (choose pos x).size)

/-- The decisions ts are those of the choice from a position on, to the end of the input. -/
def Follows (b : List Byte) (choose : Nat → Byte → Token) : Nat → List Token → Prop
  | pos, []      => pos = b.length
  | pos, t :: ts => ∃ x, b[pos]? = some x ∧ t = choose pos x ∧ Follows b choose (pos + t.size) ts

section
variable {b : List Byte} {choose : Nat → Byte → Token}

/-- A valid choice moves forward, inside the input. -/
theorem ValidChoice.size (h : ValidChoice b choose) {pos : Nat} (x : Byte) (hpos : pos < b.length) :
    0 < (choose pos x).size ∧ pos + (choose pos x).size ≤ b.length := by
  rcases h pos x hpos with hlit | ⟨hmin, hcopy⟩
  · rw [hlit, Token.size]; omega
  · obtain ⟨-, hfit, -⟩ := findLongestMatch_usable hmin
    rw [hcopy, Token.size]; omega

/-- As much fuel as bytes are left takes the decisions to the end of the input. -/
theorem follows_decisions (h : ValidChoice b choose) {fuel pos : Nat} (hpos : pos ≤ b.length) (hfuel : b.length ≤ pos + fuel) :
    Follows b choose pos (decisions b choose fuel pos) := by
  induction fuel generalizing pos with
  | zero => exact Nat.le_antisymm hpos hfuel
  | succ fuel ih =>
    unfold decisions
    split
    · next hnone => exact Nat.le_antisymm hpos (List.getElem?_eq_none_iff.mp hnone)
    · next x hx =>
      obtain ⟨hpos, -⟩ := List.getElem?_eq_some_iff.mp hx
      obtain ⟨hmove, hfit⟩ := h.size x hpos
      exact ⟨x, hx, rfl, ih hfit (by omega)⟩

/-- The decisions on the whole input. -/
theorem follows_decisions_zero (h : ValidChoice b choose) : Follows b choose 0 (decisions b choose b.length 0) :=
  follows_decisions h (Nat.zero_le _) (Nat.le_add_left _ _)

/-! ### The stream invariants (45_token_writer.md R286) -/

/-- The chunk of a usable match keeps the stream invariants. -/
theorem streamOk_ofMatch {n op l o : Nat} {lits : List Byte} {cs : List Chunk} (hlits : lits.length ≤ 255) (h4 : 4 ≤ l) (h255 : l ≤ 255)
    (hahead : o < op + lits.length) (hoff : o ≤ 8191) (hsrc : o + l ≤ n) (h : StreamOk n (op + lits.length + l) cs) :
    StreamOk n op (⟨lits, Tail.ofMatch l o⟩ :: cs) := by
  have hwf : (⟨lits, Tail.ofMatch l o⟩ : Chunk).wf = true := Chunk.wf_iff.mpr ⟨hlits.trans (by decide), ofMatch_wf h4 h255 o⟩
  have ho : (BitVec.ofNat 16 o).toNat = o := by rw [BitVec.toNat_ofNat]; omega
  refine ⟨hwf, hlits, ?_⟩
  by_cases hshort : l < 19
  · have hl : (BitVec.ofNat 4 (l - 4)).toNat + 4 = l := by rw [BitVec.toNat_ofNat]; omega
    simp only [Tail.ofMatch, if_pos hshort, ho, hl]
    exact ⟨hahead, hoff, hsrc, h⟩
  · have hl : (BitVec.ofNat 8 (l - 19)).toNat + 19 = l := by rw [BitVec.toNat_ofNat]; omega
    simp only [Tail.ofMatch, if_neg hshort, ho, hl]
    exact ⟨by omega, hahead, hoff, hsrc, h⟩

/-- The chunks of a valid choice's decisions keep the stream invariants. -/
theorem Follows.streamOk (hv : ValidChoice b choose) (hb : b.length ≤ 8192) {op : Nat} {run : List Byte} {ts : List Token}
    (hrun : run.length ≤ 255) (h : Follows b choose (op + run.length) ts) : StreamOk b.length op (chunksOf run ts) := by
  induction ts generalizing op run with
  | nil =>
    rw [chunksOf, literals_of_le _ hrun]
    exact ⟨Chunk.wf_iff.mpr ⟨hrun.trans (by decide), rfl⟩, hrun, rfl, h⟩
  | cons t ts ih =>
    obtain ⟨x, hx, rfl, h⟩ := h
    obtain ⟨hpos, -⟩ := List.getElem?_eq_some_iff.mp hx
    rcases hv _ x hpos with hlit | ⟨hmin, hcopy⟩
    · rw [hlit, Token.size] at h
      rw [hlit, chunksOf]
      by_cases hfull : run.length = 255
      · rw [chunksOf_full hfull (List.cons_ne_nil _ _)]
        rw [hfull] at h
        exact ⟨Chunk.wf_iff.mpr ⟨hrun.trans (by decide), rfl⟩, hrun, hfull, ih (run := [x]) (by simp) h⟩
      · refine ih (by simp; omega) ?_
        rwa [List.length_append, List.length_singleton, ← Nat.add_assoc]
    · rw [hcopy, Token.size] at h
      obtain ⟨h255, hfit, hahead⟩ := findLongestMatch_usable hmin
      rw [hcopy, chunksOf, literals_of_le _ hrun, List.singleton_append]
      exact streamOk_ofMatch hrun hmin h255 hahead (by omega) (by omega) (ih (run := []) (Nat.zero_le _) h)

theorem decisions_streamOk (hv : ValidChoice b choose) (hb : b.length ≤ 8192) :
    StreamOk b.length 0 (chunksOf [] (decisions b choose b.length 0)) :=
  Follows.streamOk hv hb (Nat.zero_le _) (follows_decisions_zero hv)

end

/-! ### The greedy parser (43_greedy_parser.md R230) -/

/-- The choice of the greedy parser: the longest match where it is usable. -/
def greedyChoice (b : List Byte) (pos : Nat) (x : Byte) : Token :=
  if 4 ≤ (findLongestMatch b pos).1 then .copy (findLongestMatch b pos).1 (findLongestMatch b pos).2 else .lit x

theorem greedyChoice_valid (b : List Byte) : ValidChoice b (greedyChoice b) := by
  intro pos x _
  unfold greedyChoice
  split
  · next h => exact .inr ⟨h, rfl⟩
  · exact .inl rfl

theorem greedyStep_eq (b : List Byte) (x : Byte) (p : Parser) : greedyStep b x p = (greedyChoice b p.pos x).put p := by
  simp only [greedyStep, greedyChoice, Config.matchMin]
  split <;> rfl

theorem greedyLoop_eq (b : List Byte) (fuel : Nat) (p : Parser) :
    greedyLoop b fuel p = putAll (decisions b (greedyChoice b) fuel p.pos) p := by
  induction fuel generalizing p with
  | zero => rfl
  | succ fuel ih =>
    unfold greedyLoop decisions
    cases b[p.pos]? with
    | none => rfl
    | some x => simp only [greedyStep_eq, ih, put_pos, putAll]

/-- The greedy stream is the serialization of the greedy choice. -/
theorem greedyParse_eq (b : List Byte) : greedyParse b = streamBytes (chunksOf [] (decisions b (greedyChoice b) b.length 0)) := by
  rw [greedyParse, greedyLoop_eq]
  exact twEnd_putAll_begin _

/-- The decisions of the greedy choice are those of R230. -/
theorem greedyTokens_of_follows {b : List Byte} {pos : Nat} {ts : List Token} (h : Follows b (greedyChoice b) pos ts) :
    GreedyTokens b pos ts := by
  induction ts generalizing pos with
  | nil => exact h
  | cons t ts ih =>
    obtain ⟨x, hx, rfl, h⟩ := h
    obtain ⟨hpos, -⟩ := List.getElem?_eq_some_iff.mp hx
    have hts := ih h
    unfold greedyChoice at hts ⊢
    split at hts
    · next hmin => rw [if_pos hmin]; exact ⟨hpos, findLongestMatch_longestMatch b pos, hmin, hts⟩
    · next hmin =>
      rw [if_neg hmin]
      refine ⟨hx, fun l o hl => ?_, hts⟩
      rw [findLongestMatch_eq hl] at hmin
      exact Nat.lt_of_not_le hmin

/-- Settles O35: the decisions of the greedy choice. -/
theorem greedyDecisions : Obligations.GreedyDecisions := fun b =>
  ⟨_, greedyTokens_of_follows (follows_decisions_zero (greedyChoice_valid b)), greedyParse_eq b⟩

/-! ### The optimal table (44_optimal_parser.md R250 to R255) -/

/-- The last entries of the backward pass are the pass over the last positions. -/
theorem backwardPass_drop {α : Type} (put : OptEntry → α) (get : α → OptEntry) (b : List Byte) (count k : Nat) :
    (backwardPass put get b (count + k)).drop k = backwardPass put get b count := by
  induction k with
  | zero => rfl
  | succ k ih => exact ih

theorem backwardPass_length {α : Type} (put : OptEntry → α) (get : α → OptEntry) (b : List Byte) (count : Nat) :
    (backwardPass put get b count).length = count + 1 := by
  induction count with
  | zero => rfl
  | succ count ih => simp [backwardPass, ih]

theorem optimalTable_length (b : List Byte) : (optimalTable b).length = b.length + 1 := backwardPass_length _ _ b _

theorem optimalTable_drop {b : List Byte} {i : Nat} (h : i ≤ b.length) : (optimalTable b).drop i = backwardPass id id b (b.length - i) := by
  have := backwardPass_drop id id b (b.length - i) i
  rwa [Nat.sub_add_cancel h] at this

theorem optimalTable_sentinel (b : List Byte) : (optimalTable b)[b.length]? = some optSentinel := by
  have h := optimalTable_drop (Nat.le_refl b.length)
  rw [Nat.sub_self] at h
  rw [← Nat.add_zero b.length, ← List.getElem?_drop, h]
  rfl

/-- The entry of a position from the later entries it reads (R250). -/
theorem optimalTable_getElem? {b : List Byte} {i : Nat} (h : i < b.length) :
    (optimalTable b)[i]? = some (optNodeAt (findLongestMatch b i) ((optimalTable b).getD (i + 1) optSentinel)
      ((optimalTable b).getD (i + 1 + ((findLongestMatch b i).1 - 1)) optSentinel)) := by
  have hlater : ∀ k, (backwardPass id id b (b.length - (i + 1))).getD k optSentinel = (optimalTable b).getD (i + 1 + k) optSentinel := by
    intro k
    rw [← optimalTable_drop h, List.getD_eq_getElem?_getD, List.getElem?_drop, ← List.getD_eq_getElem?_getD]
  have hhead (l : List OptEntry) : l.headD optSentinel = l.getD 0 optSentinel := by cases l <;> rfl
  have hi : b.length - i = b.length - (i + 1) + 1 := by omega
  have hpos : b.length - (b.length - (i + 1) + 1) = i := by omega
  rw [← Nat.add_zero i, ← List.getElem?_drop, optimalTable_drop (Nat.le_of_lt h), hi, backwardPass]
  simp only [id_eq, hpos, hhead, hlater, List.getElem?_cons_zero, Nat.add_zero]

/-- An entry is the literal branch, or the match branch of a usable match (R255). -/
theorem optNodeAt_cases (r : Nat × Nat) (nx target : OptEntry) :
    optNodeAt r nx target = literalNode nx ∨ (4 ≤ r.1 ∧ optNodeAt r nx target = matchNode r.1 r.2 target) := by
  simp only [optNodeAt, Config.matchMin]
  split
  · next h4 =>
    split
    · exact .inr ⟨h4, rfl⟩
    · exact .inl rfl
  · exact .inl rfl

/-- The literal branch in the claim's terms (R254). -/
theorem LiteralBranch.literalNode_eq {nx : OptEntry} {run edge : Nat} (h : LiteralBranch nx run edge) :
    literalNode nx = ⟨nx.totalCost + edge, 0, 0, run⟩ := by
  have hedge : literalEdge nx = (run, edge) := by
    unfold literalEdge
    simp only [Config.litMax]
    split
    · next hm => obtain ⟨rfl, rfl⟩ := h.afterMatch hm; rfl
    · next hm =>
      split
      · next hr => obtain ⟨rfl, rfl⟩ := h.fullRun (by omega) hr; rfl
      · next hr => obtain ⟨rfl, rfl⟩ := h.extend (by omega) hr; rfl
  rw [literalNode, hedge]

/-- The table meets the recurrence. -/
theorem optimalTable_meets (b : List Byte) : OptTable b (optimalTable b) where
  size := optimalTable_length b
  sentinel := optimalTable_sentinel b
  entry := by
    intro i nd nx run edge l o hi hnd hnx hbranch hmatch
    have hentry := optimalTable_getElem? hi
    rw [hnd, findLongestMatch_eq hmatch, List.getD_eq_getElem?_getD, hnx, Option.some.injEq, Option.getD_some] at hentry
    subst hentry
    simp only [optNodeAt, hbranch.literalNode_eq, Config.matchMin]
    refine ⟨fun target h4 htarget => ?_, fun h4 => if_neg (by omega)⟩
    have hi : i + 1 + (l - 1) = i + l := by omega
    rw [if_pos h4, hi, List.getD_eq_getElem?_getD, htarget]
    simp only [Option.getD_some, matchNode, matchEdge, ge_iff_le, Nat.add_assoc]

/-! ### The optimal parser (44_optimal_parser.md R256) -/

/-- The choice of the forward pass: what the table recorded. -/
def optimalChoice (opt : List OptEntry) (pos : Nat) (x : Byte) : Token :=
  let nd := opt.getD pos optSentinel
  if 0 < nd.matchLength then .copy nd.matchLength nd.matchOffset else .lit x

/-- The table records the longest match, and only where it is usable. -/
theorem optimalChoice_valid (b : List Byte) : ValidChoice b (optimalChoice (optimalTable b)) := by
  intro pos x hpos
  have hnd := optimalTable_getElem? hpos
  simp only [optimalChoice, List.getD_eq_getElem?_getD (i := pos), hnd, Option.getD_some]
  rcases optNodeAt_cases (findLongestMatch b pos) ((optimalTable b).getD (pos + 1) optSentinel)
    ((optimalTable b).getD (pos + 1 + ((findLongestMatch b pos).1 - 1)) optSentinel) with h | ⟨h4, h⟩ <;> rw [h]
  · exact .inl rfl
  · exact .inr ⟨h4, if_pos (by simp only [matchNode]; omega)⟩

theorem optimalStep_eq (opt : List OptEntry) (x : Byte) (p : Parser) :
    optimalStep x (opt.getD p.pos optSentinel) p = (optimalChoice opt p.pos x).put p := by
  simp only [optimalStep, optimalChoice]
  split <;> rfl

theorem optimalLoop_eq (b : List Byte) (opt : List OptEntry) (fuel : Nat) (p : Parser) :
    optimalLoop b opt fuel p = putAll (decisions b (optimalChoice opt) fuel p.pos) p := by
  induction fuel generalizing p with
  | zero => rfl
  | succ fuel ih =>
    unfold optimalLoop decisions
    cases b[p.pos]? with
    | none => rfl
    | some x => simp only [optimalStep_eq, ih, put_pos, putAll]

/-- The optimal stream is the serialization of the table's choice. -/
theorem optimalParse_eq (b : List Byte) :
    optimalParse b = streamBytes (chunksOf [] (decisions b (optimalChoice (optimalTable b)) b.length 0)) := by
  rw [optimalParse, optimalEmit, optimalLoop_eq]
  exact twEnd_putAll_begin _

/-- The decisions of the table's choice are those of R256. -/
theorem optimalTokens_of_follows {b : List Byte} {opt : List OptEntry} (hopt : b.length < opt.length) {pos : Nat} {ts : List Token}
    (h : Follows b (optimalChoice opt) pos ts) : OptimalTokens b opt pos ts := by
  induction ts generalizing pos with
  | nil => exact h
  | cons t ts ih =>
    obtain ⟨x, hx, rfl, h⟩ := h
    obtain ⟨hpos, -⟩ := List.getElem?_eq_some_iff.mp hx
    have hnd : opt[pos]? = some (opt.getD pos optSentinel) := by
      rw [List.getD_eq_getElem _ _ (hpos.trans hopt), List.getElem?_eq_getElem]
    have hts := ih h
    simp only [optimalChoice] at hts ⊢
    split at hts
    · next hm => rw [if_pos hm]; exact ⟨hpos, hm, ⟨_, hnd, rfl, rfl⟩, hts⟩
    · next hm => rw [if_neg hm]; exact ⟨hx, ⟨_, hnd, Nat.eq_zero_of_not_pos hm⟩, hts⟩

/-- Settles O36: the recurrence read off the backward pass, and the decisions of the table's choice. -/
theorem optimalDecisions : Obligations.OptimalDecisions := fun b =>
  ⟨optimalTable_meets b, _, optimalTokens_of_follows (by rw [optimalTable_length]; exact Nat.lt_succ_self _)
    (follows_decisions_zero (optimalChoice_valid b)), optimalParse_eq b⟩

/-- Settles O41: both parsers are valid choices. -/
theorem parserStreamInvariants : Obligations.ParserStreamInvariants := fun b hb =>
  ⟨⟨_, greedyParse_eq b, decisions_streamOk (greedyChoice_valid b) hb⟩,
    ⟨_, optimalParse_eq b, decisions_streamOk (optimalChoice_valid b) hb⟩⟩

end Sys2Proof.Machine
end

section
/-! The control commands (40_control.md): how a command word is issued, how a step runs it, and what NOP and LOAD do. -/

namespace Sys2Proof.Machine

open Sys2Proof

variable {s : State}

/-! ### LOAD (R172) -/

theorem execLoad_badLength (h : s.srcLen.toNat < 8184 ∨ 8192 < s.srcLen.toNat) : execLoad s = raiseError .srcLen s := by
  simp only [execLoad, badInputLength_eq_true.mpr h, if_true]

section
variable (h1 : 8184 ≤ s.srcLen.toNat) (h2 : s.srcLen.toNat ≤ 8192)
include h1 h2

theorem execLoad_undefined (h : ¬ s.src.DefinedOn 0 (min s.ctrl.capacity s.srcLen.toNat)) : execLoad s = uninit := by
  simp only [execLoad, badInputLength_eq_false.mpr ⟨h1, h2⟩, loadBytes_eq_none.mpr h, Bool.false_eq_true, if_false]

theorem execLoad_of_loadBytes {bs : List Byte} (h : loadBytes s.src s.srcLen.toNat s.ctrl.capacity = some bs) :
    execLoad s = complete { s with wrk := s.wrk.writeBytes 0 bs, wlen := BitVec.ofNat 14 s.ctrl.capacity } := by
  simp only [execLoad, badInputLength_eq_false.mpr ⟨h1, h2⟩, h, Bool.false_eq_true, if_false]

end

theorem exists_loadBytes {src : Memory} {len n : Nat} (h : src.DefinedOn 0 (min n len)) : ∃ bs, loadBytes src len n = some bs :=
  Option.ne_none_iff_exists'.mp fun hnone => loadBytes_eq_none.mp hnone h

/-- WRK after LOAD: the bytes of SRC, zeros up to n, and every byte above as it was. -/
theorem read_writeBytes_of_loadBytes {src : Memory} {len n : Nat} {bs : List Byte} (h : loadBytes src len n = some bs) (m : Memory)
    (a : Nat) : (m.writeBytes 0 bs).read a = if a < n then (if a < len then src.read a else some 0) else m.read a := by
  rw [m.overwritten_writeBytes bs a, loadBytes_length h]
  split
  · next ha => exact loadBytes_getElem? h ha
  · rfl

/-- Settles O24: the length check, then whether the bytes LOAD reads are defined. -/
theorem loadMeaning : Obligations.LoadMeaning := by
  refine ⟨rfl, fun s => ⟨fun h => ?_, fun h1 h2 => ⟨fun hdef => ?_, fun hundef => execLoad_undefined h1 h2 hundef⟩⟩⟩
  · obtain ⟨hid, d, hraise⟩ := raiseError_finished .srcLen s
    exact ⟨hid, d, (execLoad_badLength h).trans hraise⟩
  · obtain ⟨bs, hbs⟩ := exists_loadBytes hdef
    exact ⟨_, _, s.wrk.writeBytes 0 bs, execLoad_of_loadBytes h1 h2 hbs, read_writeBytes_of_loadBytes hbs s.wrk⟩

/-! ### A step of a busy engine (R170, R173) -/

/-- With no input left the engine moves (log 6). -/
theorem step_unattended (hr : s.rst = false) (hi : s.inputs = []) : step s = engineMove s := by
  unfold step runUnattended
  rw [hi, hr]
  rfl

/-- Settles O6: with or without an input the engine moves, and its move on the accepted word is the command's meaning. -/
theorem stepRunsCommand : Obligations.StepRunsCommand := by
  intro s w i rest hd he hr
  have hw := decodeCommand_of_decode hd
  refine ⟨fun hi => ?_, fun xs hi => ?_⟩
  · rw [step_unattended hr hi, engineMove_busy he hw]
  · rw [step_engine hr hi, engineMove_busy (s := { s with inputs := xs }) he hw]

/-- Settles O10: the two ways a write to CMD ends. -/
theorem commandIssue : Obligations.CommandIssue := by
  intro s w xs hr hi
  have hstep : step s = .next (writeReg .cmd w { s with inputs := xs }) := step_writeReg .cmd hr hi
  rw [hstep]
  exact ⟨fun hb => congrArg _ (writeReg_cmd_busy w hb), fun hb => congrArg _ (writeReg_cmd w hb)⟩

/-! ### NOP (R171) -/

/-- What the host reads from STATUS stands in the register table at 0x00C (10_state.md R36). -/
theorem status_mem_registerTable (s : State) :
    (0x00C, s.status.busy.toNat + 2 * s.status.done.toNat + 4 * s.status.err.toNat + 256 * s.status.errCode.toNat
      + 65536 * s.status.errDetail.toNat + 16777216 * s.status.lastOpc.toNat) ∈ registerTable s :=
  .tail _ (.tail _ (.tail _ (.head _)))

/-- Settles O23: NOP only completes; DONE is then the one bit of STATUS besides LAST_OPC. -/
theorem nopCompletes : Obligations.NopCompletes := by
  refine ⟨rfl, fun s => ⟨_, _, congrArg Host.Outcome.next (finish_none_eq s), fun hopc => ?_⟩⟩
  have hrow := status_mem_registerTable (s.finished 0 0 (Config.freeHidden s.draws) (s.draws + 1))
  simpa [State.finished, hopc] using hrow

end Sys2Proof.Machine
end

section
/-! The two hole fills as wholes: what ZeroFill leaves in each byte (41_hole_processor.md R192), that the holes may be processed in any order
(R195), and that a second fill is a no-op (R196). Buffers in canonical form are equal where they read the same, so each claim is one about
single bytes; for PatternFill it turns on no hole's fill changing a byte the fill of another hole reads. -/

namespace Sys2Proof.Machine

open Sys2Proof

/-- A fold takes a permuted list to the same value when its steps keep P and commute on the values with P. -/
theorem foldl_eq_of_perm {α β : Type} (P : β → Prop) {f : β → α → β} {l₁ l₂ : List α} (h : l₁.Perm l₂) {b : β} (hb : P b)
    (hkeep : ∀ b a, a ∈ l₁ → P b → P (f b a))
    (hcomm : ∀ b x y, x ∈ l₁ → y ∈ l₁ → P b → f (f b x) y = f (f b y) x) : l₁.foldl f b = l₂.foldl f b := by
  induction h generalizing b with
  | nil => rfl
  | cons a _ ih =>
    exact ih (hkeep _ _ (.head _) hb) (fun b x hx => hkeep b x (.tail _ hx)) fun b x y hx hy => hcomm b x y (.tail _ hx) (.tail _ hy)
  | swap x y l => exact congrArg (l.foldl f) (hcomm b y x (.head _) (.tail _ (.head _)) hb)
  | trans h₁ _ ih₁ ih₂ =>
    exact (ih₁ hb hkeep hcomm).trans (ih₂ hb (fun b x hx => hkeep b x (h₁.mem_iff.mpr hx))
      fun b x y hx hy => hcomm b x y (h₁.mem_iff.mpr hx) (h₁.mem_iff.mpr hy))

/-! ### ZeroFill -/

/-- ZeroFill of hole k alone (R192). -/
def zeroHole (n : Nat) (m : Memory) (k : Nat) : Memory := m.writeBytes (holeBegin k) (List.replicate (holeEnd n k - holeBegin k) 0)

theorem zeroFill_eq_foldl (n : Nat) (m : Memory) : zeroFill n m = (List.range (holeCount n)).foldl (zeroHole n) m := rfl

theorem zeroHole_wf {m : Memory} (h : m.wf) (n k : Nat) : (zeroHole n m k).wf := Memory.wf_writeBytes h _ _

theorem read_zeroHole_inside {n k p : Nat} (h : InHoleAt n k p) (m : Memory) : (zeroHole n m k).read p = some 0 := by
  obtain ⟨h1, h2, h3⟩ := h
  have hlt : p - holeBegin k < holeEnd n k - holeBegin k := by
    simp only [holeEnd, holeBegin, Config.holeStart, Config.holePeriod, Config.holeLen]
    omega
  rw [zeroHole, Memory.read_writeBytes, List.length_replicate, if_pos ⟨h1, by omega⟩, List.getElem?_replicate, if_pos hlt]

theorem read_zeroHole_outside {n k p : Nat} (h : ¬ InHoleAt n k p) (m : Memory) : (zeroHole n m k).read p = m.read p := by
  rw [zeroHole, Memory.read_writeBytes, List.length_replicate, if_neg]
  simp only [holeEnd, holeBegin, Config.holeStart, Config.holePeriod, Config.holeLen]
  unfold InHoleAt at h
  omega

theorem zeroHole_comm {m : Memory} (h : m.wf) (n j k : Nat) : zeroHole n (zeroHole n m j) k = zeroHole n (zeroHole n m k) j := by
  refine Memory.ext_of_read (zeroHole_wf (zeroHole_wf h n j) n k) (zeroHole_wf (zeroHole_wf h n k) n j) fun p => ?_
  by_cases hj : InHoleAt n j p <;> by_cases hk : InHoleAt n k p <;>
    simp only [hj, hk, not_false_eq_true, read_zeroHole_inside, read_zeroHole_outside]

/-- ZeroFill byte by byte, whatever is undefined (R192). -/
theorem zeroFill_read (n : Nat) (m : Memory) (p : Nat) :
    (InHole n p → (zeroFill n m).read p = some 0) ∧ (¬ InHole n p → (zeroFill n m).read p = m.read p) := by
  have hfold : ∀ c, ((∃ k, k < c ∧ InHoleAt n k p) → ((List.range c).foldl (zeroHole n) m).read p = some 0) ∧
      ((¬ ∃ k, k < c ∧ InHoleAt n k p) → ((List.range c).foldl (zeroHole n) m).read p = m.read p) := by
    intro c
    induction c with
    | zero => exact ⟨fun ⟨_, hk, _⟩ => absurd hk (Nat.not_lt_zero _), fun _ => rfl⟩
    | succ c ih =>
      rw [List.range_succ, List.foldl_append, List.foldl_cons, List.foldl_nil]
      by_cases hc : InHoleAt n c p
      · exact ⟨fun _ => read_zeroHole_inside hc _, fun hn => absurd ⟨c, Nat.lt_succ_self c, hc⟩ hn⟩
      · have hiff : (∃ k, k < c + 1 ∧ InHoleAt n k p) ↔ ∃ k, k < c ∧ InHoleAt n k p :=
          Nat.exists_lt_succ_right.trans (or_iff_left hc)
        rwa [read_zeroHole_outside hc, hiff]
  have hhole : (∃ k, k < holeCount n ∧ InHoleAt n k p) ↔ InHole n p :=
    exists_congr fun k => and_iff_right_of_imp fun hk => lt_holeCount.mpr (by unfold InHoleAt at hk; omega)
  rw [zeroFill_eq_foldl, ← hhole]
  exact hfold _

theorem zeroFill_idempotent {m : Memory} (h : m.wf) (n : Nat) : zeroFill n (zeroFill n m) = zeroFill n m := by
  refine Memory.ext_of_read (zeroFill_wf (zeroFill_wf h n) n) (zeroFill_wf h n) fun p => ?_
  by_cases hp : InHole n p
  · rw [(zeroFill_read n _ p).1 hp, (zeroFill_read n m p).1 hp]
  · exact (zeroFill_read n _ p).2 hp

/-- Settles O25: the length check, then what ZeroFill leaves in each byte. -/
theorem holeZeroMeaning : Obligations.HoleZeroMeaning := by
  refine ⟨rfl, fun s => ?_⟩
  simp only [exec, execHoleZero]
  rcases holeLengthError_cases s.wlen.toNat with ⟨hlong, he⟩ | ⟨hshort, he⟩ | ⟨hmin, hmax, he⟩ <;> rw [he]
  · exact ⟨fun _ => raiseError_finished .wlenMax s, fun _ => by omega, fun _ _ => by omega⟩
  · exact ⟨fun _ => by omega, fun _ => raiseError_finished .wlenMin s, fun _ _ => by omega⟩
  · exact ⟨fun _ => by omega, fun _ => by omega, fun _ _ => ⟨_, _, _, rfl, zeroFill_read _ _⟩⟩

/-! ### PatternFill -/

/-- What the fill of hole k reads is unchanged in a buffer x that differs from m in one hole j only. -/
theorem patternHole_reads_congr {m x : Memory} {n j : Nat} (h : ∀ p, ¬ InHoleAt n j p → x.read p = m.read p) (k : Nat) :
    (HoleDefined x n k ↔ HoleDefined m n k) ∧ ∀ p, patternByte n k p x.read = patternByte n k p m.read :=
  have hnear : ∀ q, NextToHole k q → x.read q = m.read q := fun q hq => h q (hq.not_inHoleAt n j)
  ⟨holeDefined_congr hnear n, patternByte_congr hnear n⟩

/-- The fill of hole j and then of hole k gives in each of the two the closed form on the bytes before both. -/
theorem patternHole_bind_closed {m : Memory} {n j k : Nat} (hm : m.wf) (hj : j < holeCount n) (hk : k < holeCount n) (hne : j ≠ k) :
    (¬ (HoleDefined m n j ∧ HoleDefined m n k) ∧
      (patternHole n (holeBegin j) (holeEnd n j) m).bind (patternHole n (holeBegin k) (holeEnd n k)) = none) ∨
    (HoleDefined m n j ∧ HoleDefined m n k ∧ ∃ x, x.wf ∧
      (patternHole n (holeBegin j) (holeEnd n j) m).bind (patternHole n (holeBegin k) (holeEnd n k)) = some x ∧
      ∀ p, (InHoleAt n j p → x.read p = patternByte n j p m.read) ∧ (InHoleAt n k p → x.read p = patternByte n k p m.read) ∧
        (¬ InHoleAt n j p → ¬ InHoleAt n k p → x.read p = m.read p)) := by
  rcases patternHole_closed (m := m) hj with ⟨hundef, hnone⟩ | ⟨hdefj, y, hy, hyread⟩
  · rw [hnone]
    exact .inl ⟨fun h => hundef h.1, rfl⟩
  · obtain ⟨hdef, hbyte⟩ := patternHole_reads_congr (fun p => (hyread p).2) k
    rw [hy, Option.bind_some]
    rcases patternHole_closed (m := y) hk with ⟨hundef, hnone⟩ | ⟨hdefk, x, hx, hxread⟩
    · exact .inl ⟨fun h => hundef (hdef.mpr h.2), hnone⟩
    · have hwf : x.wf := (patternHole_spec hk hx).1 ((patternHole_spec hj hy).1 hm)
      refine .inr ⟨hdefj, hdef.mp hdefk, x, hwf, hx, fun p => ⟨fun hp => ?_, fun hp => ?_, fun hpj hpk => ?_⟩⟩
      · have hother : ¬ InHoleAt n k p := by
          unfold InHoleAt at hp ⊢
          omega
        rw [(hxread p).2 hother, (hyread p).1 hp]
      · rw [(hxread p).1 hp, hbyte]
      · rw [(hxread p).2 hpk, (hyread p).2 hpj]

theorem patternHole_comm {m : Memory} {n j k : Nat} (hm : m.wf) (hj : j < holeCount n) (hk : k < holeCount n) :
    (patternHole n (holeBegin j) (holeEnd n j) m).bind (patternHole n (holeBegin k) (holeEnd n k)) =
      (patternHole n (holeBegin k) (holeEnd n k) m).bind (patternHole n (holeBegin j) (holeEnd n j)) := by
  rcases eq_or_ne j k with rfl | hne
  · rfl
  rcases patternHole_bind_closed hm hj hk hne with ⟨hundef, hx⟩ | ⟨hdefj, hdefk, x, hxwf, hx, hxread⟩ <;>
    rcases patternHole_bind_closed hm hk hj hne.symm with ⟨hundef', hy⟩ | ⟨hdefk', hdefj', y, hywf, hy, hyread⟩
  · rw [hx, hy]
  · exact absurd ⟨hdefj', hdefk'⟩ hundef
  · exact absurd ⟨hdefk, hdefj⟩ hundef'
  · rw [hx, hy]
    refine congrArg some (Memory.ext_of_read hxwf hywf fun p => ?_)
    obtain ⟨hxj, hxk, hxout⟩ := hxread p
    obtain ⟨hyk, hyj, hyout⟩ := hyread p
    by_cases hpj : InHoleAt n j p
    · rw [hxj hpj, hyj hpj]
    · by_cases hpk : InHoleAt n k p
      · rw [hxk hpk, hyk hpk]
      · rw [hxout hpj hpk, hyout hpk hpj]

/-- Settles O28: the fills of two holes commute, on buffers in canonical form. -/
theorem holesInAnyOrder : Obligations.HolesInAnyOrder := by
  intro n m order hm hperm
  have hlt : ∀ {k}, k ∈ order → k < holeCount n := fun hk => List.mem_range.mp (hperm.mem_iff.mp hk)
  constructor
  · exact foldl_eq_of_perm (f := zeroHole n) Memory.wf hperm hm (fun x k _ hx => zeroHole_wf hx n k)
      fun x j k _ _ hx => zeroHole_comm hx n j k
  · refine foldl_eq_of_perm (fun o => ∀ x, o = some x → x.wf) hperm (fun x hx => Option.some.inj hx ▸ hm) ?_ ?_
    · intro o k hk ho x hx
      obtain ⟨y, hy, hyx⟩ := Option.bind_eq_some_iff.mp hx
      exact (patternHole_spec (hlt hk) hyx).1 (ho y hy)
    · intro o j k hj hk ho
      cases o with
      | none => rfl
      | some x => exact patternHole_comm (ho x rfl) (hlt hj) (hlt hk)

theorem patternFill_idempotent {m x : Memory} {n : Nat} (hm : m.wf) (h : patternFill n m = some x) : patternFill n x = some x := by
  have hx := patternFill_filled n m
  have hy := patternFill_filled n x
  rw [h] at hx
  obtain ⟨hdef, hxread⟩ := hx
  have hnear : ∀ k q, NextToHole k q → x.read q = m.read q := fun k q hq => (hxread q).2 fun j _ => hq.not_inHoleAt n j
  cases hfill : patternFill n x with
  | none =>
    rw [hfill] at hy
    obtain ⟨k, hk, hundef⟩ := hy
    exact absurd ((holeDefined_congr (hnear k) n).mpr (hdef k hk)) hundef
  | some y =>
    rw [hfill] at hy
    obtain ⟨-, hyread⟩ := hy
    have hxwf := patternFill_wf hm h
    refine congrArg some (Memory.ext_of_read (patternFill_wf hxwf hfill) hxwf fun p => ?_)
    by_cases hp : ∃ k, k < holeCount n ∧ InHoleAt n k p
    · obtain ⟨k, hk, hpk⟩ := hp
      rw [(hyread p).1 k hk hpk, (hxread p).1 k hk hpk, patternByte_congr (hnear k)]
    · exact (hyread p).2 fun k hk hpk => hp ⟨k, hk, hpk⟩

/-- Settles O27: the second fill leaves each byte of a hole the value the first gave it. -/
theorem holeFillsAreIdempotent : Obligations.HoleFillsAreIdempotent :=
  fun n _ _ hm => ⟨zeroFill_idempotent hm n, patternFill_idempotent hm⟩

end Sys2Proof.Machine
end

section
/-! The match finder's result in its closed form with its ranges (42_match_finder.md R212, R215), and the command MATCH, which stores it
(R211). -/

namespace Sys2Proof.Machine

open Sys2Proof

/-- A longest match lies in the ranges of R215. -/
theorem LongestMatch.range {b : List Byte} {pos l o : Nat} (h : LongestMatch b pos l o) (hpos : pos < b.length) :
    l ≤ min 255 (b.length - pos) ∧ (0 < l → o < pos) ∧ (l = 0 → o = 0) ∧ o + l < b.length := by
  rcases Nat.eq_zero_or_pos l with rfl | hl
  · have ho := h.nothing rfl
    exact ⟨Nat.zero_le _, nofun, h.nothing, by omega⟩
  · obtain ⟨hearlier, hcap, -⟩ := h.found hl
    exact ⟨hcap, fun _ => hearlier, h.nothing, by omega⟩

/-- Settles O31: the search gives a longest match, no position has two, and a longest match is in range. -/
theorem matchFinderResult : Obligations.MatchFinderResult := fun b pos hpos =>
  ⟨findLongestMatch_longestMatch b pos, fun _ _ h => ⟨findLongestMatch_eq h, h.range hpos⟩⟩

/-! ### MATCH (R211) -/

section
variable {s : State}

theorem execMatch_wlenMax (h : 8192 < s.wlen.toNat) : execMatch s = raiseError .wlenMax s := if_pos h

theorem execMatch_posRange (h1 : s.wlen.toNat ≤ 8192) (h2 : s.wlen.toNat ≤ s.pos.toNat) : execMatch s = raiseError .posRange s :=
  (if_neg (Nat.not_lt.mpr h1)).trans (if_pos h2)

theorem execMatch_of_findInCells {l o : Nat} (h1 : s.wlen.toNat ≤ 8192) (h2 : s.pos.toNat < s.wlen.toNat)
    (h : findInCells (s.wrk.cells 0 s.wlen.toNat) s.pos.toNat = some (l, o)) :
    execMatch s = complete { s with matchLen := BitVec.ofNat 8 l, matchOff := BitVec.ofNat 13 o } := by
  simp only [execMatch, Config.bufSize, gt_iff_lt, Nat.not_lt.mpr h1, ge_iff_le, Nat.not_le.mpr h2, if_false, h]

end

/-- At position 0 there is no earlier offset, and the search reads no byte. -/
theorem findInCells_zero {pos : Nat} (cs : List (Option Byte)) (h : pos = 0) : findInCells cs pos = some (0, 0) := if_pos h

/-- Settles O29: the two checks in order, then the pair the search finds; at position 0 no byte need be defined. -/
theorem matchMeaning : Obligations.MatchMeaning := by
  refine ⟨rfl, fun s => ?_⟩
  simp only [exec]
  refine ⟨fun hlong => execMatch_wlenMax hlong ▸ raiseError_finished .wlenMax s,
    fun hn hpos => execMatch_posRange hn hpos ▸ raiseError_finished .posRange s, fun hn hpos b hlen hb => ?_, fun hn hpos h0 => ?_⟩
  · have hfind := findInCells_of_holds hb s.pos.toNat
    rw [hlen] at hfind
    have hmatch := findLongestMatch_longestMatch b s.pos.toNat
    obtain ⟨hcap, -, -, hend⟩ := hmatch.range (by omega)
    exact ⟨_, _, _, _, hmatch, by omega, by omega, execMatch_of_findInCells hn hpos hfind⟩
  · exact ⟨_, _, execMatch_of_findInCells hn (by omega) (findInCells_zero _ h0)⟩

end Sys2Proof.Machine
end

section
/-! The Decoder on the stream of a chunk list: where the list replays (46_decoder.md R302 to R306, R309, R311), the Decoder stops behind the
stream's last chunk, with the replayed output in DEC and every byte above it as it was. -/

namespace Sys2Proof.Machine

open Sys2Proof

/-! ### The overlapping copy (R311) -/

/-- A run of bytes each equal to the one a fixed distance before it repeats the bytes of that distance. -/
theorem eq_of_periodic {α : Type} {f : Nat → α} {off pos m k : Nat} (hlt : off < pos) (h : ∀ j, j < m → f (pos + j) = f (off + j))
    (hk : k < m) : f (pos + k) = f (off + k % (pos - off)) := by
  induction k using Nat.strongRecOn with
  | ind k ih =>
    rw [h k hk]
    by_cases hshort : k < pos - off
    · rw [Nat.mod_eq_of_lt hshort]
    · have hback := ih (k - (pos - off)) (by omega) (by omega)
      rwa [show pos + (k - (pos - off)) = off + k by omega, ← Nat.mod_eq_sub_mod (by omega)] at hback

@[simp] theorem copied_length (out : List Byte) (off m : Nat) : (copied out off m).length = m := by simp [copied]

theorem copied_source_lt {n off : Nat} (h : off < n) (k : Nat) : off + k % (n - off) < n := by
  have := Nat.mod_lt k (Nat.sub_pos_of_lt h)
  omega

theorem copied_getElem? {out : List Byte} {off m k : Nat} (hoff : off < out.length) (hk : k < m) :
    (copied out off m)[k]? = out[off + k % (out.length - off)]? := by
  simp [copied, hk, List.getElem?_eq_getElem (copied_source_lt hoff k)]

/-! ### What a chunk appends to the output -/

/-- A chunk other than the end chunk appends its literal run, and the bytes of its match, inside the capacity. -/
inductive Appends (cap : Nat) (c : Chunk) (out : List Byte) : List Byte → Prop where
  | noMatch : c.tail = .noMatch → (out ++ c.lits).length ≤ cap → Appends cap c out (out ++ c.lits)
  | hit {m off : Nat} : matchOf c.tail = some (m, off) → off < (out ++ c.lits).length → (out ++ c.lits).length + m ≤ cap →
      Appends cap c out (out ++ c.lits ++ copied (out ++ c.lits) off m)

theorem replay_of_appends {cap : Nat} {c : Chunk} {out out' : List Byte} (cs : List Chunk) (h : Appends cap c out out') :
    replay cap (c :: cs) out = replay cap cs out' := by
  obtain ⟨lits, t⟩ := c
  cases h with
  | noMatch ht hcap =>
    simp only at ht hcap
    simp only [replay, ht, if_neg (Nat.not_lt.mpr hcap)]
  | hit hm hoff hcap =>
    have hrun := Nat.not_lt.mpr (Nat.le_of_add_right_le hcap)
    cases t <;> cases hm <;> exact (if_neg hrun).trans (if_pos ⟨hoff, hcap⟩)

/-- The first chunk of a list that replays is the end chunk and the last, or it appends and the rest replays. -/
theorem replay_cons_eq_some {cap : Nat} {c : Chunk} {cs : List Chunk} {out final : List Byte} (h : replay cap (c :: cs) out = some final) :
    (c.tail = .endOfData ∧ cs = [] ∧ (out ++ c.lits).length ≤ cap ∧ final = out ++ c.lits) ∨
    ∃ out', Appends cap c out out' ∧ replay cap cs out' = some final := by
  obtain ⟨lits, t⟩ := c
  simp only [replay] at h
  split at h
  · cases h
  · next hcap =>
    have hcap := Nat.not_lt.mp hcap
    cases t with
    | endOfData =>
      simp only at h
      split at h
      · next hcs => cases h; exact .inl ⟨rfl, hcs, hcap, rfl⟩
      · cases h
    | noMatch => exact .inr ⟨_, .noMatch rfl hcap, h⟩
    | matchShort | matchLong =>
      simp only at h
      split at h
      · next hm => exact .inr ⟨_, .hit rfl hm.1 hm.2, h⟩
      · cases h

/-! ### One chunk of the Decoder -/

/-- The Decoder, started on a DEC, has produced the output: its output cursor stands behind it, and DEC holds it over what was there. -/
structure Produced (start : Memory) (out : List Byte) (d : DecState) : Prop where
  op  : d.op = out.length
  dec : start.Overwritten out d.dec

section
variable {start : Memory} {out out' : List Byte} {d : DecState} {cap : Nat}

theorem Produced.setIp (h : Produced start out d) (n : Nat) : Produced start out { d with ip := n } := ⟨h.op, h.dec⟩

/-- A move that leaves new bytes between the two output cursors has produced them. -/
theorem Produced.advance {d' : DecState} {n : Nat} {bs : List Byte} (h : Produced start out d) (ha : Advance cap n d d')
    (hop : d'.op = d.op + bs.length) (hnew : d'.dec.Holds d.op bs) : Produced start (out ++ bs) d' where
  op := by rw [hop, h.op, List.length_append]
  dec a := by
    have hstart := h.op
    rw [List.length_append]
    rcases Nat.lt_or_ge a out.length with hlow | hge
    · rw [ha.outside a (.inl (by omega)), h.dec a, if_pos hlow, if_pos (by omega), List.getElem?_append_left hlow]
    · obtain ⟨k, rfl⟩ := Nat.exists_eq_add_of_le hge
      rw [List.getElem?_append_right hge, Nat.add_sub_cancel_left]
      by_cases hk : k < bs.length
      · rw [if_pos (by omega), ← hstart, hnew k hk]
      · rw [if_neg (by omega), ha.outside _ (.inr (by omega)), h.dec.above hge]

theorem Produced.copyLiterals_go {lits : List Byte} (h : Produced start out d) (hcap : (out ++ lits).length ≤ cap) :
    ∃ d', copyLiterals cap lits d = .go d' ∧ Produced start (out ++ lits) d' := by
  rw [List.length_append, ← h.op] at hcap
  rcases copyLiterals_cases cap lits d with ⟨hlt, -⟩ | ⟨-, h'⟩
  · omega
  · exact ⟨_, h', h.advance (copyLiterals_advance h').1 rfl (Memory.holds_writeBytes _ _ _)⟩

/-- The byte-wise copy produces the period from off on (46_decoder.md R309, R311). -/
theorem Produced.copyMatch_go {m off : Nat} (h : Produced start out d) (hoff : off < out.length) (hcap : out.length + m ≤ cap) :
    ∃ d', copyMatch cap m off d = .go d' ∧ Produced start (out ++ copied out off m) d' := by
  have hop := h.op
  have hdef : d.dec.DefinedOn 0 out.length := h.dec.holds.definedOn
  rcases copyMatch_cases cap m off d with ⟨_, _⟩ | ⟨_, _, _⟩ | ⟨_, _, _, _⟩ | ⟨hlt, -, hnone, -⟩ | ⟨-, -, x, -, h'⟩
  · omega
  · omega
  · omega
  · have := Memory.copyForward_isSome (n := m) hlt fun p _ hp => hdef p (Nat.zero_le _) (by omega)
    rw [hnone] at this
    cases this
  · obtain ⟨ha, hend, hlt, hrepeat⟩ := copyMatch_advance h'
    refine ⟨_, h', h.advance ha (by rw [hend, copied_length]) fun k hk => ?_⟩
    rw [copied_length] at hk
    have hsource := copied_source_lt hoff k
    rw [eq_of_periodic hlt hrepeat hk, hop, copied_getElem? hoff hk, ha.outside _ (.inl (by omega)), h.dec, if_pos hsource]

theorem runTail_of_matchOf {t : Tail} {m off : Nat} (h : matchOf t = some (m, off)) (d : DecState) :
    runTail cap t d = copyMatch cap m off { d with ip := d.ip + t.size } := by
  cases t <;> cases h <;> rfl

theorem Produced.runChunk_go {c : Chunk} (h : Produced start out d) (ha : Appends cap c out out') :
    ∃ d', runChunk cap c d = .go d' ∧ Produced start out' d' := by
  unfold runChunk
  cases ha with
  | noMatch ht hcap =>
    obtain ⟨d1, h1, hp⟩ := h.copyLiterals_go hcap
    rw [h1, ht]
    exact ⟨_, rfl, hp.setIp _⟩
  | hit hm hoff hcap =>
    obtain ⟨d1, h1, hp⟩ := h.copyLiterals_go (Nat.le_of_add_right_le hcap)
    rw [h1]
    simp only [runTail_of_matchOf hm]
    exact (hp.setIp _).copyMatch_go hoff hcap

theorem Produced.runChunk_stop {c : Chunk} (h : Produced start out d) (ht : c.tail = .endOfData) (hcap : (out ++ c.lits).length ≤ cap) :
    ∃ d', runChunk cap c d = .stop d' ∧ Produced start (out ++ c.lits) d' := by
  obtain ⟨d1, h1, hp⟩ := h.copyLiterals_go hcap
  unfold runChunk
  rw [h1, ht]
  exact ⟨_, rfl, hp.setIp _⟩

end

/-! ### The whole stream -/

theorem Memory.Holds.of_append {m : Memory} {a : Nat} {xs ys : List Byte} (h : m.Holds a (xs ++ ys)) :
    m.Holds a xs ∧ m.Holds (a + xs.length) ys := by
  refine ⟨fun k hk => ?_, fun k hk => ?_⟩
  · rw [h k (by rw [List.length_append]; omega), List.getElem?_append_left hk]
  · rw [Nat.add_assoc, h _ (by rw [List.length_append]; omega), List.getElem?_append_right (Nat.le_add_right _ _),
      Nat.add_sub_cancel_left]

/-- At the bytes of a chunk the Decoder runs that chunk (46_decoder.md R301). -/
theorem stepChunk_encodeChunk {cmp : Memory} {inlen cap : Nat} {c : Chunk} {d : DecState} (hwf : c.wf = true)
    (hcmp : cmp.Holds d.ip (encodeChunk c)) (hin : d.ip + (encodeChunk c).length ≤ inlen) :
    stepChunk cmp inlen cap d = runChunk cap c d := by
  have hrun := Memory.definedRun_of_holds (n := inlen - d.ip) hcmp (by omega)
  simp only [stepChunk, fetchChunk, hrun, decodeChunk_encodeChunk hwf]

section
variable {cmp : Memory} {inlen cap : Nat} {cs : List Chunk} {final : List Byte} (hwf : ∀ c ∈ cs, c.wf = true)
include hwf

/-- The loop of 46_decoder.md R301 on chunks that replay: each appends what its replay does, to the end chunk. -/
theorem Produced.decodeLoop_done {start : Memory} {out : List Byte} {d : DecState} {fuel : Nat} (h : Produced start out d)
    (hr : replay cap cs out = some final) (hcmp : cmp.Holds d.ip (cs.map encodeChunk).flatten)
    (hin : d.ip + (cs.map encodeChunk).flatten.length ≤ inlen) (hfuel : inlen ≤ d.ip + fuel) :
    ∃ d', decodeLoop cmp inlen cap fuel d = .done d' ∧ Produced start final d' ∧ d'.ip = d.ip + (cs.map encodeChunk).flatten.length := by
  induction cs generalizing out d fuel with
  | nil => cases hr
  | cons c cs ih =>
    obtain ⟨hc, hcs⟩ := List.forall_mem_cons.mp hwf
    have hsize := Laws.length_encodeChunk_size c
    have hpos := chunkSize_pos c
    rw [List.map_cons, List.flatten_cons] at hcmp hin ⊢
    rw [List.length_append] at hin ⊢
    obtain ⟨hhere, hrest⟩ := Memory.Holds.of_append hcmp
    have hstep := stepChunk_encodeChunk (cap := cap) hc hhere (by omega : d.ip + (encodeChunk c).length ≤ inlen)
    obtain ⟨fuel, rfl⟩ : ∃ k, fuel = k + 1 := ⟨fuel - 1, by omega⟩
    simp only [decodeLoop, hstep]
    rcases replay_cons_eq_some hr with ⟨ht, rfl, hcap, rfl⟩ | ⟨out', happ, hr⟩
    · obtain ⟨d', hrun, hp⟩ := h.runChunk_stop ht hcap
      have hip := (Machine.runChunk_stop hrun).2.ip
      rw [hrun]
      exact ⟨d', rfl, hp, by rw [hip, hsize]; rfl⟩
    · obtain ⟨d', hrun, hp⟩ := h.runChunk_go happ
      have hip := (Machine.runChunk_go hrun).ip
      rw [← hsize] at hip
      rw [hrun]
      obtain ⟨e, hloop, hpe, hipe⟩ := ih (fuel := fuel) hcs hp hr (hip ▸ hrest) (by omega) (by omega)
      exact ⟨e, hloop, hpe, by omega⟩

/-- The stream of chunks that replay decodes to what they replay to, whatever DEC held (46_decoder.md R301, R313). -/
theorem runDecode_of_replay (dec : Memory) (hr : replay cap cs [] = some final) (hcmp : cmp.Holds 0 (streamBytes cs))
    (hin : (streamBytes cs).length ≤ inlen) :
    ∃ d, runDecode cmp inlen cap dec = .done d ∧ Produced dec final d ∧ d.ip = (streamBytes cs).length := by
  have hlen : (streamBytes cs).length = 1 + (cs.map encodeChunk).flatten.length := by rw [streamBytes, List.length_cons, Nat.add_comm]
  have hmagic : cmp.read 0 = some 0x66 := hcmp 0 (streamBytes_length_pos cs)
  have hchunks : cmp.Holds 1 (cs.map encodeChunk).flatten := (Memory.Holds.of_append (xs := [Config.magic]) hcmp).2
  have hstart : Produced dec [] ⟨1, 0, dec⟩ := ⟨rfl, fun _ => rfl⟩
  obtain ⟨d, hloop, hp, hip⟩ := hstart.decodeLoop_done hwf hr hchunks (hlen ▸ hin) (Nat.le_add_left inlen 1)
  refine ⟨d, ?_, hp, hip.trans hlen.symm⟩
  unfold runDecode
  rcases startDecode_cases cmp inlen dec with ⟨_, _⟩ | ⟨_, h, _⟩ | ⟨_, ⟨v, h, hv⟩, _⟩ | ⟨_, _, h⟩
  · omega
  · rw [hmagic] at h; cases h
  · rw [hmagic] at h; cases h; exact absurd rfl hv
  · rw [h]; exact hloop

end

end Sys2Proof.Machine
end

section
/-! ENC_GREEDY completes (43_greedy_parser.md R231). What it rests on holds for every parser that is a valid choice of literals and longest
matches: its chunks replay to the input, as a longest match copies the bytes that follow, and its stream is at most 100 bytes longer
than the input. So the verification succeeds (47_compress.md R340). -/

namespace Sys2Proof.Machine

open Sys2Proof

/-! ### The expansion bound (45_token_writer.md R288) -/

theorem matchOf_ofMatch {l o : Nat} (h4 : 4 ≤ l) (h255 : l ≤ 255) (ho : o < 65536) : matchOf (Tail.ofMatch l o) = some (l, o) := by
  unfold Tail.ofMatch
  split <;> simp only [matchOf, BitVec.toNat_ofNat, Option.some.injEq, Prod.mk.injEq] <;> omega

/-- The chunks of decisions, with a pending run before them: each full run of 255 costs 3 more than its bytes, the end chunk at most 3 more,
and the chunk of a match no more than the bytes it covers. -/
theorem chunksOf_length_le {run : List Byte} {ts : List Token} (hrun : run.length ≤ 255)
    (hts : ∀ l o, Token.copy l o ∈ ts → 4 ≤ l ∧ l ≤ 255) :
    ((chunksOf run ts).map encodeChunk).flatten.length ≤
      run.length + (ts.map Token.size).sum + 3 + 3 * ((run.length + (ts.map Token.size).sum - 1) / 255) := by
  induction ts generalizing run with
  | nil =>
    have hend : (encodeChunk ⟨run, .endOfData⟩).length ≤ run.length + 3 := by
      rw [Laws.length_encodeChunk]
      simp only [Tail.bytes, List.length_singleton]
      split <;> omega
    rw [chunksOf, literals_of_le _ hrun]
    simp only [List.map_cons, List.map_nil, List.flatten_singleton, List.sum_nil]
    omega
  | cons t ts ih =>
    have hts' : ∀ l o, Token.copy l o ∈ ts → 4 ≤ l ∧ l ≤ 255 := fun l o h => hts l o (List.mem_cons_of_mem _ h)
    rw [List.map_cons, List.sum_cons]
    cases t with
    | lit x =>
      rw [chunksOf, Token.size]
      by_cases hfull : run.length = 255
      · have hchunk : (encodeChunk ⟨run, .noMatch⟩).length = 258 := by
          rw [Laws.length_encodeChunk]
          simp [hfull, Tail.bytes]
        have hrest := ih (run := [x]) (by simp) hts'
        rw [List.length_singleton] at hrest
        rw [chunksOf_full hfull (List.cons_ne_nil _ _), List.map_cons, List.flatten_cons, List.length_append, hchunk]
        omega
      · have hrest := ih (run := run ++ [x]) (by simp; omega) hts'
        rwa [List.length_append, List.length_singleton, Nat.add_assoc run.length] at hrest
    | copy l o =>
      obtain ⟨h4, -⟩ := hts l o List.mem_cons_self
      have hchunk : (encodeChunk ⟨run, Tail.ofMatch l o⟩).length ≤ run.length + l := by
        rw [length_encodeChunk_ofMatch]
        split <;> split <;> omega
      have hrest := ih (run := []) (Nat.zero_le _) hts'
      rw [List.length_nil] at hrest
      rw [chunksOf, literals_of_le _ hrun, List.singleton_append, List.map_cons, List.flatten_cons, List.length_append, Token.size]
      omega

/-- The bound of R288 on the stream of any decisions with matches of 4..255. -/
theorem streamBytes_chunksOf_length_le {ts : List Token} (hts : ∀ l o, Token.copy l o ∈ ts → 4 ≤ l ∧ l ≤ 255) :
    (streamBytes (chunksOf [] ts)).length ≤ (ts.map Token.size).sum + 1 + 3 * (((ts.map Token.size).sum - 1) / 255) + 3 := by
  have hchunks := chunksOf_length_le (run := []) (Nat.zero_le _) hts
  rw [List.length_nil, Nat.zero_add] at hchunks
  rw [streamBytes, List.length_cons]
  omega

/-! ### The chunks of a valid choice (45_token_writer.md R286, 42_match_finder.md R212) -/

theorem StreamOk.wf {n op : Nat} {cs : List Chunk} (h : StreamOk n op cs) : ∀ c ∈ cs, c.wf = true := by
  induction cs generalizing op with
  | nil => exact nofun
  | cons c cs ih =>
    obtain ⟨lits, t⟩ := c
    obtain ⟨hwf, -, ht⟩ := h
    refine List.forall_mem_cons.mpr ⟨hwf, ?_⟩
    cases t with
    | endOfData => obtain ⟨rfl, -⟩ := ht; exact nofun
    | noMatch => exact ih ht.2
    | matchShort mn off => obtain ⟨-, -, -, ht⟩ := ht; exact ih ht
    | matchLong mx off => obtain ⟨-, -, -, -, ht⟩ := ht; exact ih ht

/-- Where an earlier offset agrees with the position, the copy from it gives the bytes at the position (R212, 46_decoder.md R311). -/
theorem copied_of_agrees {b : List Byte} {pos o l : Nat} (hpos : pos ≤ b.length) (ho : o < pos) (h : Agrees b pos o l) :
    copied (b.take pos) o l = (b.drop pos).take l := by
  obtain ⟨hfit, hagree⟩ := h
  have hlen : (b.take pos).length = pos := List.length_take_of_le hpos
  refine List.ext_getElem? fun k => ?_
  by_cases hk : k < l
  · rw [copied_getElem? (by omega) hk, hlen, List.getElem?_take_of_lt (copied_source_lt ho k), List.getElem?_take_of_lt hk,
      List.getElem?_drop]
    exact (eq_of_periodic (f := (b[·]?)) ho (fun j hj => (hagree j hj).symm) hk).symm
  · rw [List.getElem?_eq_none (by rw [copied_length]; omega), List.getElem?_eq_none (by rw [List.length_take]; omega)]

section
variable {b : List Byte} {choose : Nat → Byte → Token} {pos : Nat} {ts : List Token}

/-- The decisions cover the rest of the input. -/
theorem Follows.size_sum (h : Follows b choose pos ts) : pos + (ts.map Token.size).sum = b.length := by
  induction ts generalizing pos with
  | nil => exact h
  | cons t ts ih =>
    obtain ⟨x, -, -, h⟩ := h
    rw [List.map_cons, List.sum_cons, ← Nat.add_assoc]
    exact ih h

theorem Follows.copy_usable (hv : ValidChoice b choose) (h : Follows b choose pos ts) :
    ∀ l o, Token.copy l o ∈ ts → 4 ≤ l ∧ l ≤ 255 := by
  induction ts generalizing pos with
  | nil => exact nofun
  | cons t ts ih =>
    obtain ⟨x, hx, rfl, h⟩ := h
    obtain ⟨hpos, -⟩ := List.getElem?_eq_some_iff.mp hx
    intro l o hmem
    rcases List.mem_cons.mp hmem with heq | hmem
    · rcases hv pos x hpos with hlit | ⟨hmin, hcopy⟩
      · rw [hlit] at heq; cases heq
      · rw [hcopy] at heq; cases heq; exact ⟨hmin, (findLongestMatch_usable hmin).1⟩
    · exact ih h l o hmem

/-- From an output and a pending run that make up the input so far, the chunks of a valid choice's decisions replay to the whole input. -/
theorem Follows.replay_eq (hv : ValidChoice b choose) (hb : b.length ≤ 8192) {out run : List Byte} (hrun : run.length ≤ 255)
    (hsofar : out ++ run = b.take pos) (h : Follows b choose pos ts) : replay b.length (chunksOf run ts) out = some b := by
  induction ts generalizing pos out run with
  | nil =>
    obtain rfl : pos = b.length := h
    rw [List.take_length] at hsofar
    simp [chunksOf, literals_of_le _ hrun, replay, hsofar]
  | cons t ts ih =>
    obtain ⟨x, hx, rfl, h⟩ := h
    obtain ⟨hpos, hbyte⟩ := List.getElem?_eq_some_iff.mp hx
    have hlen : (out ++ run).length = pos := by rw [hsofar, List.length_take_of_le (by omega)]
    rcases hv pos x hpos with hlit | ⟨hmin, hcopy⟩
    · rw [hlit, Token.size] at h
      have hnext : out ++ run ++ [x] = b.take (pos + 1) := by rw [hsofar, ← hbyte, List.take_concat_get']
      rw [hlit, chunksOf]
      by_cases hfull : run.length = 255
      · rw [chunksOf_full hfull (List.cons_ne_nil _ _), replay_of_appends _ (.noMatch rfl (hlen.trans_le (Nat.le_of_lt hpos)))]
        exact ih (by simp) hnext h
      · exact ih (by simp; omega) ((List.append_assoc _ _ _).symm.trans hnext) h
    · rw [hcopy, Token.size] at h
      have hlongest := findLongestMatch_longestMatch b pos
      obtain ⟨h255, hfit, -⟩ := findLongestMatch_usable hmin
      rw [hcopy, chunksOf, literals_of_le _ hrun, List.singleton_append]
      generalize (findLongestMatch b pos).1 = l at *
      generalize (findLongestMatch b pos).2 = o at *
      obtain ⟨ho, hagree⟩ := hlongest.found (by omega)
      have happ : Appends b.length ⟨run, Tail.ofMatch l o⟩ out (out ++ run ++ copied (out ++ run) o l) :=
        .hit (matchOf_ofMatch hmin h255 (by omega)) (by rw [hlen]; exact ho) (by rw [hlen]; omega)
      rw [replay_of_appends _ happ]
      refine ih (run := []) (Nat.zero_le _) ?_ h
      rw [List.append_nil, hsofar, copied_of_agrees (Nat.le_of_lt hpos) ho hagree, List.take_add]

end

/-! ### Encoding -/

/-- A stream that fits, of chunks that replay to the input, is verified (47_compress.md R340). -/
theorem emitAndVerify_of_replay {cap : Nat} {input : List Byte} {cs : List Chunk} (cmp dec : Memory) (hwf : ∀ c ∈ cs, c.wf = true)
    (hr : replay input.length cs [] = some input) (hfit : (streamBytes cs).length ≤ cap) :
    ∃ e, dec.Overwritten input e ∧
      emitAndVerify cap cmp dec input (streamBytes cs) = .ok ⟨cmp.writeBytes 0 (streamBytes cs), e, (streamBytes cs).length⟩ := by
  obtain ⟨d, hrun, ⟨hop, hdec⟩, -⟩ := runDecode_of_replay hwf dec hr (Memory.holds_writeBytes cmp 0 _) (Nat.le_refl _)
  have hverify : verify (cmp.writeBytes 0 (streamBytes cs)) (streamBytes cs).length input dec = .ok d.dec := by
    simp [verify, hrun, hop, Memory.holds_iff_readBytes.mp hdec.holds]
  exact ⟨d.dec, hdec, by simp only [emitAndVerify, if_neg (Nat.not_lt.mpr hfit), hverify]⟩

theorem encodeWith_of_emitAndVerify {parse : List Byte → List Byte} {s : State} {b : List Byte} {x : Encoded} (h1 : 8184 ≤ b.length)
    (h2 : b.length ≤ 8192) (hlen : s.wlen.toNat = b.length) (hb : s.wrk.Holds 0 b)
    (hx : emitAndVerify s.cmpCap s.cmp s.dec b (parse b) = .ok x) : encodeWith parse s = .next (finishEncode b.length x s) := by
  simp only [encodeWith, hlen, badInputLength_eq_false.mpr ⟨h1, h2⟩, Memory.holds_iff_readBytes.mp hb, hx, Bool.false_eq_true, if_false]

/-- An encoder whose parser is a valid choice completes on every defined buffer of a legal length (43_greedy_parser.md R231,
44_optimal_parser.md R251). -/
theorem encodeWith_completes {parse : List Byte → List Byte} {s : State} {b : List Byte} {choose : Nat → Byte → Token}
    (hv : ValidChoice b choose) (hparse : parse b = streamBytes (chunksOf [] (decisions b choose b.length 0))) (hcap : s.CapInRange)
    (h1 : 8184 ≤ b.length) (h2 : b.length ≤ 8192) (hlen : s.wlen.toNat = b.length) (hb : s.wrk.Holds 0 b) :
    (parse b).length ≤ b.length + 100 ∧
    ∃ h d c e, s.cmp.Overwritten (parse b) c ∧ s.dec.Overwritten b e ∧
      encodeWith parse s = .next { s.finished 0 0 h d with
        cmp := c, cmpLen := BitVec.ofNat 17 (parse b).length, dec := e, decLen := BitVec.ofNat 14 b.length } := by
  have hf := follows_decisions_zero hv
  have hbound : (parse b).length ≤ b.length + 100 := by
    have hstream := streamBytes_chunksOf_length_le (hf.copy_usable hv)
    have hsum := hf.size_sum
    rw [hparse]
    omega
  have hfit : (parse b).length ≤ s.cmpCap := by
    have := hcap.1
    omega
  obtain ⟨e, hdec, hemit⟩ := emitAndVerify_of_replay s.cmp s.dec (decisions_streamOk hv h2).wf
    (hf.replay_eq hv h2 (Nat.zero_le _) rfl) (hparse ▸ hfit)
  rw [← hparse] at hemit
  exact ⟨hbound, _, _, _, e, Memory.overwritten_writeBytes _ _, hdec, encodeWith_of_emitAndVerify h1 h2 hlen hb hemit⟩

/-- Settles O32: the greedy parser is a valid choice. -/
theorem encGreedyCompletes : Obligations.EncGreedyCompletes := fun _ b hcap h1 h2 hlen hb =>
  encodeWith_completes (greedyChoice_valid b) (greedyParse_eq b) hcap h1 h2 hlen hb

end Sys2Proof.Machine
end

section
/-! ENC_OPTIMAL completes (44_optimal_parser.md R251), and its stream has the size the table counts (R257). The two sides of R257 split a
literal run into segments of 255 from opposite ends, the table from the run's end and the TokenWriter from its start. Both pay the same
closed form of the run's length, `literalCost`, so the induction follows the decisions with the run still to come counted by
`leadingLits`. -/

namespace Sys2Proof.Machine

open Sys2Proof

/-- Settles O33: the table's choice is valid, and on a legal input the stored table gives it. -/
theorem encOptimalCompletes : Obligations.EncOptimalCompletes := by
  intro s b hcap h1 h2 hlen hb
  have hstored := optimalEncode_eq h2
  rw [← hstored]
  exact encodeWith_completes (optimalChoice_valid b) (hstored.trans (optimalParse_eq b)) hcap h1 h2 hlen hb

/-! ### The bytes of a literal run (R257) -/

/-- The length of the last segment of a run of r literals: 1..255, and 0 for no literals. -/
def lastSegment (r : Nat) : Nat := r - 255 * ((r - 1) / 255)

theorem lastSegment_zero : lastSegment 0 = 0 := rfl

/-- The bytes of a run of r literals beside the framing byte and the match or marker of its last chunk: 3 more for each full segment
before the last, and LX of the last where it needs one. -/
def literalCost (r : Nat) : Nat := r + 3 * ((r - 1) / 255) + if 15 ≤ lastSegment r then 1 else 0

@[simp] theorem literalCost_zero : literalCost 0 = 0 := rfl

theorem literalCost_of_le {r : Nat} (h : r ≤ 255) : literalCost r = r + if 15 ≤ r then 1 else 0 := by
  have hq : (r - 1) / 255 = 0 := by omega
  simp [literalCost, lastSegment, hq]

/-- A full segment in front of a run that is not empty costs 258 bytes. -/
theorem literalCost_add_full {r : Nat} (h : 0 < r) : literalCost (255 + r) = 258 + literalCost r := by
  have hseg : lastSegment (255 + r) = lastSegment r := by simp only [lastSegment]; omega
  simp only [literalCost, hseg]
  omega

/-- The chunks of a run and its tail, cut from the run's start (45_token_writer.md R284, 30_encoding.md R137). -/
theorem length_encode_literals (bs : List Byte) (t : Tail) :
    ((literals bs t).map encodeChunk).flatten.length = literalCost bs.length + 1 + t.bytes.length := by
  induction hn : bs.length using Nat.strong_induction_on generalizing bs with
  | h n ih =>
    by_cases hle : n ≤ 255
    · rw [literals_of_le t (by omega), literalCost_of_le hle]
      simp only [List.map_cons, List.map_nil, List.flatten_singleton, Laws.length_encodeChunk, hn]
      split <;> split <;> omega
    · have hchunk : (encodeChunk ⟨bs.take 255, .noMatch⟩).length = 258 := by
        have htake : (bs.take 255).length = 255 := List.length_take_of_le (by omega)
        simp [Laws.length_encodeChunk, htake, Tail.bytes]
      have hrest := ih (n - 255) (by omega) (bs.drop 255) (by rw [List.length_drop, hn])
      have hcost := literalCost_add_full (r := n - 255) (by omega)
      rw [Nat.add_sub_cancel' (by omega)] at hcost
      rw [literals_of_gt t (by omega), List.map_cons, List.flatten_cons, List.length_append, hchunk, hrest, hcost]
      omega

/-- The literal edge extends a run of r literals at its front, cut from the run's end (R254). -/
theorem literalEdge_extends {nx : OptEntry} {r : Nat} (hrun : nx.literalRunLength = lastSegment r) (hm : 0 < nx.matchLength → r = 0) :
    (literalEdge nx).1 = lastSegment (r + 1) ∧ literalCost r + (literalEdge nx).2 = literalCost (r + 1) := by
  simp only [literalEdge, Config.litMax, hrun]
  split
  · next h => rw [hm h]; exact ⟨rfl, rfl⟩
  · split
    · next hfull =>
      have hseg : lastSegment (r + 1) = 1 := by simp only [lastSegment] at *; omega
      simp only [literalCost, hfull, hseg, true_and, Nat.reduceLeDiff, if_true, if_false]
      simp only [lastSegment] at hfull
      omega
    · next hfull =>
      have hseg : lastSegment (r + 1) = lastSegment r + 1 := by simp only [lastSegment] at *; omega
      have hq : (r + 1 - 1) / 255 = (r - 1) / 255 := by simp only [lastSegment] at *; omega
      simp only [literalCost, hseg, hq, true_and]
      split <;> split <;> split <;> omega

/-! ### The decisions against the table (R257) -/

/-- The literals before the first match of a list of decisions. -/
def leadingLits : List Token → Nat
  | []             => 0
  | .lit _ :: ts   => leadingLits ts + 1
  | .copy _ _ :: _ => 0

/-- The entry counts the stream of the decisions: it records the last segment of their first literal run, and a pending run adds to the
chunks what it adds to that run's cost. The 2 is the end chunk's framing byte and marker. -/
structure OptEntry.Counts (nd : OptEntry) (ts : List Token) : Prop where
  run   : nd.literalRunLength = lastSegment (leadingLits ts)
  fresh : 0 < nd.matchLength → leadingLits ts = 0
  size  : ∀ pend, ((chunksOf pend ts).map encodeChunk).flatten.length + literalCost (leadingLits ts) =
    nd.totalCost + literalCost (pend.length + leadingLits ts) + 2

theorem optSentinel_counts : optSentinel.Counts [] where
  run := rfl
  fresh := nofun
  size pend := by
    simp only [chunksOf, length_encode_literals, leadingLits, literalCost_zero, Tail.bytes, optSentinel, List.length_singleton,
      Nat.add_zero]
    omega

theorem literalNode_counts {nx : OptEntry} {ts : List Token} (h : nx.Counts ts) (x : Byte) : (literalNode nx).Counts (.lit x :: ts) := by
  obtain ⟨hrun, hcost⟩ := literalEdge_extends h.run h.fresh
  refine ⟨hrun, nofun, fun pend => ?_⟩
  have hpend : (pend ++ [x]).length + leadingLits ts = pend.length + (leadingLits ts + 1) := by simp; omega
  have hsize := h.size (pend ++ [x])
  rw [hpend] at hsize
  simp only [chunksOf, leadingLits, literalNode]
  omega

theorem matchNode_counts {target : OptEntry} {ts : List Token} (h : target.Counts ts) (l o : Nat) :
    (matchNode l o target).Counts (.copy l o :: ts) := by
  refine ⟨lastSegment_zero.symm, fun _ => rfl, fun pend => ?_⟩
  have hsize := h.size []
  rw [List.length_nil, Nat.zero_add] at hsize
  simp only [chunksOf, List.map_append, List.flatten_append, List.length_append, length_encode_literals, ofMatch_bytes_length, leadingLits,
    literalCost_zero, matchNode, matchEdge, Nat.add_zero]
  split <;> split <;> omega

/-- The entry the table records at a position (R250). -/
def tableEntry (b : List Byte) (pos : Nat) : OptEntry := (optimalTable b).getD pos optSentinel

theorem tableEntry_length (b : List Byte) : tableEntry b b.length = optSentinel := by
  rw [tableEntry, List.getD_eq_getElem?_getD, optimalTable_sentinel, Option.getD_some]

theorem optimalTable_getElem?_zero (b : List Byte) : (optimalTable b)[0]? = some (tableEntry b 0) := by
  have hlen : 0 < (optimalTable b).length := by rw [optimalTable_length]; exact Nat.succ_pos _
  rw [tableEntry, List.getD_eq_getElem _ _ hlen, List.getElem?_eq_getElem]

section
variable {b : List Byte} {pos : Nat}

/-- The table records one of the two edges, to the next position or over a match (R255). -/
theorem tableEntry_cases (hpos : pos < b.length) :
    tableEntry b pos = literalNode (tableEntry b (pos + 1)) ∨
    ∃ l o, 0 < l ∧ tableEntry b pos = matchNode l o (tableEntry b (pos + l)) := by
  have hentry : tableEntry b pos = optNodeAt (findLongestMatch b pos) (tableEntry b (pos + 1))
      (tableEntry b (pos + 1 + ((findLongestMatch b pos).1 - 1))) := by
    rw [tableEntry, List.getD_eq_getElem?_getD, optimalTable_getElem? hpos]
    rfl
  rw [hentry]
  rcases optNodeAt_cases (findLongestMatch b pos) (tableEntry b (pos + 1)) _ with h | ⟨h4, h⟩
  · exact .inl h
  · have hl : pos + 1 + ((findLongestMatch b pos).1 - 1) = pos + (findLongestMatch b pos).1 := by omega
    rw [hl] at h ⊢
    exact .inr ⟨_, _, by omega, h⟩

theorem optimalChoice_of_literal {nx : OptEntry} (h : tableEntry b pos = literalNode nx) (x : Byte) :
    optimalChoice (optimalTable b) pos x = .lit x := by
  rw [tableEntry] at h
  simp only [optimalChoice, h, literalNode, Nat.lt_irrefl, if_false]

theorem optimalChoice_of_match {l o : Nat} {target : OptEntry} (hl : 0 < l) (h : tableEntry b pos = matchNode l o target) (x : Byte) :
    optimalChoice (optimalTable b) pos x = .copy l o := by
  rw [tableEntry] at h
  simp only [optimalChoice, h, matchNode, hl, if_true]

/-- At every position the forward pass visits, the table counts the stream it emits from there. -/
theorem Follows.counts {ts : List Token} (h : Follows b (optimalChoice (optimalTable b)) pos ts) : (tableEntry b pos).Counts ts := by
  induction ts generalizing pos with
  | nil =>
    obtain rfl : pos = b.length := h
    exact tableEntry_length b ▸ optSentinel_counts
  | cons t ts ih =>
    obtain ⟨x, hx, rfl, h⟩ := h
    obtain ⟨hpos, -⟩ := List.getElem?_eq_some_iff.mp hx
    have hrest := ih h
    rcases tableEntry_cases hpos with hentry | ⟨l, o, hl, hentry⟩
    · rw [optimalChoice_of_literal hentry] at hrest ⊢
      exact hentry ▸ literalNode_counts hrest x
    · rw [optimalChoice_of_match hl hentry] at hrest ⊢
      exact hentry ▸ matchNode_counts hrest l o

end

/-- Settles O37: the entry of position 0 counts the whole stream but the magic byte and the end chunk. -/
theorem costEqualsSize : Obligations.CostEqualsSize := by
  intro b
  have hsize := (follows_decisions_zero (optimalChoice_valid b)).counts.size []
  rw [List.length_nil, Nat.zero_add] at hsize
  refine ⟨tableEntry b 0, optimalTable_getElem?_zero b, ?_⟩
  rw [optimalParse_eq, streamBytes, List.length_cons]
  omega

end Sys2Proof.Machine
end

section
/-! The size of the stream (45_token_writer.md R288, R289): the expansion bound for every list of decisions, and the stream of an input
without a usable match, where every decision is a literal and both parsers write the pseudo-instruction `literals` of the whole input. -/

namespace Sys2Proof.Machine

open Sys2Proof

/-! ### The expansion bound (R288) -/

/-- Every decision covers a byte, so only no decision covers none. -/
theorem eq_nil_of_size_sum_eq_zero {ts : List Token} (hts : ∀ l o, Token.copy l o ∈ ts → 4 ≤ l ∧ l ≤ 255)
    (h : (ts.map Token.size).sum = 0) : ts = [] := by
  cases ts with
  | nil => rfl
  | cons t ts =>
    rw [List.map_cons, List.sum_cons] at h
    cases t with
    | lit x => simp only [Token.size] at h; omega
    | copy l o =>
      have hl := hts l o List.mem_cons_self
      simp only [Token.size] at h
      omega

/-- Settles O39: no decisions are written as the end chunk alone, and the bound of R288 is n + 100 at both lengths. -/
theorem expansionBound : Obligations.ExpansionBound := by
  intro ts hts
  have hbound := streamBytes_chunksOf_length_le hts
  refine ⟨fun hn => ?_, fun _ => hbound, fun hn => ?_⟩
  · rw [eq_nil_of_size_sum_eq_zero hts hn]
    rfl
  · omega

/-! ### No usable match (R289) -/

section
variable {b : List Byte} {choose : Nat → Byte → Token} (hv : ValidChoice b choose) (hb : NoUsableMatch b)
include hv hb

theorem ValidChoice.eq_lit {pos : Nat} (x : Byte) (hpos : pos < b.length) : choose pos x = .lit x := by
  rcases hv pos x hpos with hlit | ⟨hmin, -⟩
  · exact hlit
  · have := hb pos _ _ hpos (findLongestMatch_longestMatch b pos)
    omega

theorem Follows.eq_map_lit {pos : Nat} {ts : List Token} (h : Follows b choose pos ts) : ts = (b.drop pos).map .lit := by
  induction ts generalizing pos with
  | nil =>
    obtain rfl : pos = b.length := h
    rw [List.drop_length, List.map_nil]
  | cons t ts ih =>
    obtain ⟨x, hx, rfl, h⟩ := h
    obtain ⟨hpos, rfl⟩ := List.getElem?_eq_some_iff.mp hx
    rw [hv.eq_lit hb _ hpos] at h ⊢
    rw [List.drop_eq_getElem_cons hpos, List.map_cons, ih h]
    rfl

end

theorem chunksOf_map_lit (run bs : List Byte) : chunksOf run (bs.map .lit) = literals (run ++ bs) .endOfData := by
  induction bs generalizing run with
  | nil => rw [List.map_nil, chunksOf, List.append_nil]
  | cons x bs ih => rw [List.map_cons, chunksOf, ih, List.append_assoc, List.singleton_append]

/-- The decisions of every valid choice are then the literals of the input. -/
theorem chunksOf_decisions_of_noUsableMatch {b : List Byte} {choose : Nat → Byte → Token} (hv : ValidChoice b choose)
    (hb : NoUsableMatch b) : chunksOf [] (decisions b choose b.length 0) = literals b .endOfData := by
  rw [(follows_decisions_zero hv).eq_map_lit hv hb, List.drop_zero, chunksOf_map_lit, List.nil_append]

/-- The pseudo-instruction `literals` cut into its chunks (30_encoding.md R137): no-match chunks of 255 literals, and the rest with the
tail. -/
theorem literals_eq_segments (bs : List Byte) (t : Tail) :
    literals bs t = (List.range ((bs.length - 1) / 255)).map (fun k => ⟨(bs.drop (255 * k)).take 255, .noMatch⟩) ++
      [⟨bs.drop (255 * ((bs.length - 1) / 255)), t⟩] := by
  induction hn : bs.length using Nat.strong_induction_on generalizing bs with
  | h n ih =>
    by_cases hle : n ≤ 255
    · have hq : (n - 1) / 255 = 0 := by omega
      rw [literals_of_le t (hn.trans_le hle), hq]
      rfl
    · have hrest := ih (n - 255) (by omega) (bs.drop 255) (by rw [List.length_drop, hn])
      have hq : (n - 1) / 255 = (n - 255 - 1) / 255 + 1 := by omega
      have hdrop (k : Nat) : (bs.drop 255).drop (255 * k) = bs.drop (255 * (k + 1)) := by
        rw [List.drop_drop, Nat.mul_succ, Nat.add_comm]
      rw [literals_of_gt t (by omega), hrest, hq, List.range_succ_eq_map, List.map_cons, List.map_map, hdrop]
      simp only [hdrop]
      rfl

/-- Settles O40: both parsers are valid choices, so both write the literals of the input. -/
theorem noUsableMatchStream : Obligations.NoUsableMatchStream := by
  intro b hlen hb n q r
  have hgreedy : greedyParse b = streamBytes (literals b .endOfData) := by
    rw [greedyParse_eq, chunksOf_decisions_of_noUsableMatch (greedyChoice_valid b) hb]
  have hoptimal : optimalParse b = streamBytes (literals b .endOfData) := by
    rw [optimalParse_eq, chunksOf_decisions_of_noUsableMatch (optimalChoice_valid b) hb]
  have hsize : (greedyParse b).length = n + 3 * q + (if 15 ≤ r then 1 else 0) + 3 := by
    rw [hgreedy, streamBytes, List.length_cons, length_encode_literals]
    rfl
  obtain ⟨hmin, hmax⟩ : 1 ≤ r ∧ r ≤ 255 := by omega
  exact ⟨hgreedy, hoptimal.trans hgreedy.symm, hmin, hmax, ⟨_, literals_eq_segments b .endOfData, List.length_drop⟩,
    by omega, by omega⟩

end Sys2Proof.Machine
end

section
/-! With every buffer byte defined no instruction stops, and no encode fails (20_memory.md R86, 46_decoder.md R314, 47_compress.md R340). A
Decoder on a defined stream ends at the declared length where a chunk is cut short, before any undefined byte; a defined WRK stays defined
under both hole fills; and the stream of either parser is verified. -/

namespace Sys2Proof.Machine

open Sys2Proof

/-- The first bytes of a defined buffer. -/
theorem Memory.DefinedOn.shorten {m : Memory} {n k : Nat} (h : m.DefinedOn 0 n) (hk : k ≤ n) : m.DefinedOn 0 k :=
  h.mono (Nat.le_refl _) (Nat.add_le_add_left hk 0)

/-! ### Where the decoder of chunks stops (30_encoding.md R126) -/

/-- The error is that of a chunk with n bytes there: the first byte it misses is the one after them. -/
def MissesByteAt (n : Nat) : DecodeError → Prop
  | .frame                  => n = 0
  | .litExt                 => n = 1
  | .litIn hdr run          => n < hdr + run
  | .matchExt hdr run       => n = hdr + run
  | .offset _ _ missing     => n = missing
  | .rsvd | .opcode         => False

theorem decodeRun_error {ln : Nibble} {bs : List Byte} {e : DecodeError} (h : decodeRun ln bs = .error e) : e = .litExt ∧ bs = [] := by
  unfold decodeRun at h
  split at h
  · cases h
  · cases bs <;> cases h
    exact ⟨rfl, rfl⟩

theorem decodeOffset_error {hdr run index : Nat} {bs : List Byte} {e : DecodeError} (h : decodeOffset hdr run index bs = .error e) :
    e = .offset hdr run (index + bs.length) := by
  match bs, h with
  | [], h => cases h; rfl
  | [_], h => cases h; rfl

theorem decodeTail_error {mn : Nibble} {hdr run : Nat} {bs : List Byte} {e : DecodeError} (h : decodeTail mn hdr run bs = .error e) :
    MissesByteAt (hdr + run + bs.length) e := by
  unfold decodeTail at h
  split at h
  · split at h
    · next ho =>
      cases h
      rw [decodeOffset_error ho]
      rfl
    · cases h
  · cases bs with
    | nil => cases h; rfl
    | cons mx rest =>
      simp only at h
      split at h
      · cases h
      · split at h
        · cases h
        · split at h
          · next ho =>
            cases h
            rw [decodeOffset_error ho, List.length_cons]
            simp only [MissesByteAt]
            omega
          · cases h

theorem decodeChunk_error {bs : List Byte} {e : DecodeError} (h : decodeChunk bs = .error e) : MissesByteAt bs.length e := by
  cases bs with
  | nil => cases h; rfl
  | cons fb bs =>
    simp only [decodeChunk] at h
    split at h
    · next hr =>
      cases h
      obtain ⟨rfl, rfl⟩ := decodeRun_error hr
      rfl
    · next hdr run body hr =>
      obtain ⟨-, hlen⟩ := decodeRun_ok hr
      split at h
      · next hshort =>
        cases h
        simp only [MissesByteAt, List.length_cons, List.length_take] at hshort ⊢
        omega
      · next hrun =>
        split at h
        · next ht =>
          cases h
          have hmiss := decodeTail_error ht
          rw [List.length_take] at hrun
          have hall : hdr + run + (body.drop run).length = (fb :: bs).length := by
            rw [List.length_drop, List.length_cons]
            omega
          rwa [hall] at hmiss
        · cases h

/-! ### The Decoder on a defined stream (46_decoder.md R308, R314) -/

/-- A chunk cut short by the declared length, and not by an undefined byte, fails a check. -/
theorem shortChunk_of_missesByteAt {inlen : Nat} (cap : Nat) {d : DecState} {e : DecodeError} (hip : d.ip ≤ inlen)
    (h : MissesByteAt (inlen - d.ip) e) : ∃ x p, shortChunk inlen cap d e = .raised x p ∧ x ≠ .encFull := by
  cases e with
  | frame =>
    have h : inlen - d.ip = 0 := h
    exact ⟨_, _, if_neg (by omega), nofun⟩
  | litExt =>
    have h : inlen - d.ip = 1 := h
    exact ⟨_, _, if_neg (by omega), nofun⟩
  | litIn hdr run =>
    have h : inlen - d.ip < hdr + run := h
    exact ⟨_, _, if_pos (by omega), nofun⟩
  | matchExt hdr run =>
    have h : inlen - d.ip = hdr + run := h
    by_cases hcap : d.op + run > cap
    · exact ⟨_, _, if_pos hcap, nofun⟩
    · exact ⟨_, _, (if_neg hcap).trans (if_neg (by omega)), nofun⟩
  | offset hdr run missing =>
    have h : inlen - d.ip = missing := h
    by_cases hcap : d.op + run > cap
    · exact ⟨_, _, if_pos hcap, nofun⟩
    · exact ⟨_, _, (if_neg hcap).trans (if_neg (by omega)), nofun⟩
  | rsvd | opcode => cases h

section
variable {cmp : Memory} {inlen : Nat} (hcmp : cmp.DefinedOn 0 inlen)
include hcmp

theorem stepChunk_of_definedOn {cap : Nat} {start : Memory} {d : DecState} (hd : Decoding inlen cap start d) :
    stepChunk cmp inlen cap d ≠ .uninit ∧ ∀ p, stepChunk cmp inlen cap d ≠ .raised .encFull p := by
  have hip := hd.input
  have hlen : (cmp.definedRun d.ip (inlen - d.ip)).length = inlen - d.ip :=
    Memory.definedRun_length_of_definedOn (hcmp.mono (Nat.zero_le _) (by omega))
  unfold stepChunk fetchChunk
  cases hc : decodeChunk (cmp.definedRun d.ip (inlen - d.ip)) with
  | error e =>
    obtain ⟨x, p, hshort, hx⟩ := shortChunk_of_missesByteAt cap hip (hlen ▸ decodeChunk_error hc)
    simp only [hshort]
    exact ⟨nofun, fun q hq => by cases hq; exact hx rfl⟩
  | ok r =>
    refine ⟨fun h => runChunk_uninit h hd.written, fun p h => ?_⟩
    rcases (runChunk_raised h).1 with h | h | h | h <;> cases h

theorem runDecode_of_definedOn (cap : Nat) (dec : Memory) :
    runDecode cmp inlen cap dec ≠ .uninit ∧ ∀ p, runDecode cmp inlen cap dec ≠ .raised .encFull p := by
  unfold runDecode
  rcases startDecode_cases cmp inlen dec with ⟨-, h⟩ | ⟨h0, hnone, -⟩ | ⟨-, -, h⟩ | ⟨h0, -, h⟩
  · rw [h]; exact ⟨nofun, nofun⟩
  · have hread := hcmp 0 (Nat.le_refl _) (by omega)
    rw [hnone] at hread
    cases hread
  · rw [h]; exact ⟨nofun, nofun⟩
  · rw [h]
    refine ⟨fun hloop => ?_, fun p hloop => ?_⟩
    · obtain ⟨d, hd, hstep⟩ := decodeLoop_uninit Decoding.step (Decoding.start h0 dec) hloop
      exact (stepChunk_of_definedOn hcmp hd).1 hstep
    · rcases decodeLoop_raised Decoding.step (Decoding.start h0 dec) hloop with ⟨d, hd, hstep⟩ | ⟨he, -⟩
      · exact (stepChunk_of_definedOn hcmp hd).2 p hstep
      · cases he

end

/-- A chunk whose output starts past the capacity fails before it reads DEC (46_decoder.md R302). -/
theorem op_le_of_runChunk_uninit {cap : Nat} {c : Chunk} {d : DecState} (h : runChunk cap c d = .uninit) : d.op ≤ cap := by
  unfold runChunk at h
  rcases copyLiterals_cases cap c.lits d with ⟨-, hlits⟩ | ⟨hle, -⟩
  · rw [hlits] at h; cases h
  · exact Nat.le_of_add_right_le hle

/-! ### The hole fills on a defined buffer (41_hole_processor.md R193) -/

section
variable {m : Memory} {n : Nat} (hm : m.DefinedOn 0 n)
include hm

theorem zeroFill_definedOn : (zeroFill n m).DefinedOn 0 n := by
  intro p h0 hp
  by_cases hhole : InHole n p
  · rw [(zeroFill_read n m p).1 hhole]; rfl
  · rw [(zeroFill_read n m p).2 hhole]; exact hm p h0 hp

theorem holeDefined_of_definedOn {k : Nat} (hk : k < holeCount n) : HoleDefined m n k := by
  have hk := lt_holeCount.mp hk
  exact ⟨hm.mono (Nat.zero_le _) (by omega), fun _ => hm.mono (Nat.zero_le _) (by omega)⟩

/-- The byte PatternFill puts into a hole is one of the defined bytes beside it. -/
theorem patternByte_isSome {k p : Nat} (hp : InHoleAt n k p) : (patternByte n k p m.read).isSome = true := by
  unfold InHoleAt at hp
  by_cases hperiod : PeriodTwo m n (128 + 128 * k)
  · have hfit := hperiod.1
    rw [patternByte_of_periodTwo p hperiod]
    exact hm _ (Nat.zero_le _) (by omega)
  · rw [patternByte_of_not_periodTwo p hperiod]
    exact hm _ (Nat.zero_le _) (by omega)

theorem patternFill_of_definedOn : ∃ x, patternFill n m = some x ∧ x.DefinedOn 0 n := by
  have hfilled := patternFill_filled n m
  cases hx : patternFill n m with
  | none =>
    rw [hx] at hfilled
    obtain ⟨k, hk, hundef⟩ := hfilled
    exact absurd (holeDefined_of_definedOn hm hk) hundef
  | some x =>
    rw [hx] at hfilled
    obtain ⟨-, hread⟩ := hfilled
    refine ⟨x, rfl, fun p h0 hp => ?_⟩
    by_cases hhole : ∃ k, k < holeCount n ∧ InHoleAt n k p
    · obtain ⟨k, hk, hin⟩ := hhole
      rw [(hread p).1 k hk hin]
      exact patternByte_isSome hm hin
    · rw [(hread p).2 fun k hk hin => hhole ⟨k, hk, hin⟩]
      exact hm p h0 hp

theorem applyVariant_of_definedOn (v : BitVec 2) : ∃ x, applyVariant v n m = some x ∧ x.DefinedOn 0 n := by
  unfold applyVariant
  split
  · exact ⟨_, rfl, zeroFill_definedOn hm⟩
  · split
    · exact patternFill_of_definedOn hm
    · exact ⟨_, rfl, hm⟩

end

/-! ### The attempts of COMPRESS (47_compress.md R340, R344) -/

/-- The stream of a valid choice fits and is verified. -/
theorem emitAndVerify_of_validChoice {b : List Byte} {choose : Nat → Byte → Token} (hv : ValidChoice b choose) {cap : Nat}
    (hcap : 8292 ≤ cap) (hb : b.length ≤ 8192) (cmp dec : Memory) :
    ∃ x, emitAndVerify cap cmp dec b (streamBytes (chunksOf [] (decisions b choose b.length 0))) = .ok x := by
  have hf := follows_decisions_zero hv
  have hbound := streamBytes_chunksOf_length_le (hf.copy_usable hv)
  have hsum := hf.size_sum
  obtain ⟨e, -, hemit⟩ := emitAndVerify_of_replay (cap := cap) cmp dec (decisions_streamOk hv hb).wf
    (hf.replay_eq hv hb (Nat.zero_le _) rfl) (by omega)
  exact ⟨_, hemit⟩

/-- Both parsers of the slots are valid choices. -/
theorem emitAndVerify_slotParse (k : Slot) {b : List Byte} {cap : Nat} (hcap : 8292 ≤ cap) (hb : b.length ≤ 8192) (cmp dec : Memory) :
    ∃ x, emitAndVerify cap cmp dec b (slotParse k b) = .ok x := by
  unfold slotParse
  split
  · rw [optimalEncode_eq hb, optimalParse_eq]
    exact emitAndVerify_of_validChoice (optimalChoice_valid b) hcap hb cmp dec
  · rw [greedyParse_eq]
    exact emitAndVerify_of_validChoice (greedyChoice_valid b) hcap hb cmp dec

section
variable {s : State} {len n : Nat}

theorem attempt_of_definedOn (hcap : s.CapInRange) (hsrc : s.src.DefinedOn 0 8192) (hn : n ≤ 8192) (k : Slot) :
    ∃ a, attempt s len n k = .ok a := by
  obtain ⟨raw, hraw⟩ := exists_loadBytes (len := len) (n := n) (hsrc.shorten (by omega))
  have hwrk : (s.wrk.writeBytes 0 raw).DefinedOn 0 n := loadBytes_length hraw ▸ (Memory.holds_writeBytes _ _ _).definedOn
  obtain ⟨wrk, hvariant, hdef⟩ := applyVariant_of_definedOn hwrk (slotVariant s.ctrl k)
  obtain ⟨input, rfl, hinput⟩ := hdef.exists_holds
  obtain ⟨x, hx⟩ := emitAndVerify_slotParse k hcap.1 hn s.cmp s.dec
  exact ⟨⟨wrk, x⟩, by simp only [attempt, hraw, hvariant, Memory.holds_iff_readBytes.mp hinput, hx]⟩

theorem runSlots_of_attempts (h : ∀ k, ∃ a, attempt s len n k = .ok a) (ks : List Slot) (acc : List (Slot × Nat)) :
    ∃ sizes, runSlots s len n ks acc = .ok sizes := by
  induction ks generalizing acc with
  | nil => exact ⟨acc, rfl⟩
  | cons k ks ih =>
    obtain ⟨a, ha⟩ := h k
    simp only [runSlots, ha]
    exact ih _

end

/-! ### The commands -/

/-- The outcome is a next state that records neither VERIFY nor OVERRUN(10) (60_exceptions.md R361, R362). -/
def Answers (o : Host.Outcome State Fault Refusal) : Prop :=
  ∃ t, o = .next t ∧ t.status.errCode.toNat ≠ 4 ∧ (t.status.errCode.toNat, t.status.errDetail.toNat) ≠ (2, 10)

/-- FORMAT and OVERRUN are not VERIFY, and ENC_FULL is the one OVERRUN(10). -/
theorem HwError.decoder_pair {e : HwError} (h : e.code = 1 ∨ e.code = 2) (hne : e ≠ .encFull) :
    e.code.toNat ≠ 4 ∧ (e.code.toNat, e.detail.toNat) ≠ (2, 10) := by
  revert h hne
  cases e <;> decide

theorem finish_none_answers (s : State) : Answers (.next (s.finish none)) := ⟨_, rfl, nofun, nofun⟩

theorem raiseError_answers {e : HwError} (s : State) (h : e.code.toNat ≠ 4 ∧ (e.code.toNat, e.detail.toNat) ≠ (2, 10)) :
    Answers (raiseError e s) := ⟨_, rfl, h⟩

section
variable {s : State}

theorem execLoad_answers (hsrc : s.src.DefinedOn 0 8192) : Answers (execLoad s) := by
  by_cases hlen : s.srcLen.toNat < 8184 ∨ 8192 < s.srcLen.toNat
  · rw [execLoad_badLength hlen]
    exact raiseError_answers s (by decide)
  · obtain ⟨bs, hbs⟩ := exists_loadBytes (len := s.srcLen.toNat) (n := s.ctrl.capacity) (hsrc.shorten (by omega))
    rw [execLoad_of_loadBytes (by omega) (by omega) hbs]
    exact finish_none_answers _

theorem execHoleZero_answers (s : State) : Answers (execHoleZero s) := by
  simp only [execHoleZero]
  rcases holeLengthError_cases s.wlen.toNat with ⟨-, he⟩ | ⟨-, he⟩ | ⟨-, -, he⟩ <;> rw [he]
  · exact raiseError_answers s (by decide)
  · exact raiseError_answers s (by decide)
  · exact finish_none_answers _

section
variable (hwrk : s.wrk.DefinedOn 0 8192)
include hwrk

theorem execHolePattern_answers : Answers (execHolePattern s) := by
  simp only [execHolePattern]
  rcases holeLengthError_cases s.wlen.toNat with ⟨-, he⟩ | ⟨-, he⟩ | ⟨-, hle, he⟩ <;> rw [he]
  · exact raiseError_answers s (by decide)
  · exact raiseError_answers s (by decide)
  · obtain ⟨x, hx, -⟩ := patternFill_of_definedOn (hwrk.shorten hle)
    rw [hx]
    exact finish_none_answers _

theorem execMatch_answers : Answers (execMatch s) := by
  by_cases hlong : 8192 < s.wlen.toNat
  · rw [execMatch_wlenMax hlong]
    exact raiseError_answers s (by decide)
  by_cases hpos : s.wlen.toNat ≤ s.pos.toNat
  · rw [execMatch_posRange (by omega) hpos]
    exact raiseError_answers s (by decide)
  obtain ⟨b, hlen, hb⟩ := (hwrk.shorten (k := s.wlen.toNat) (by omega)).exists_holds
  have hfind := findInCells_of_holds hb s.pos.toNat
  rw [hlen] at hfind
  rw [execMatch_of_findInCells (by omega) (by omega) hfind]
  exact finish_none_answers _

/-- An encoder whose stream is verified on every legal input answers. -/
theorem encodeWith_answers {parse : List Byte → List Byte}
    (hparse : ∀ b : List Byte, b.length ≤ 8192 → ∃ x, emitAndVerify s.cmpCap s.cmp s.dec b (parse b) = .ok x) :
    Answers (encodeWith parse s) := by
  by_cases hlen : s.wlen.toNat < 8184 ∨ 8192 < s.wlen.toNat
  · rw [encodeWith_badLength parse hlen]
    exact raiseError_answers s (by decide)
  · obtain ⟨b, hb, hholds⟩ := (hwrk.shorten (k := s.wlen.toNat) (by omega)).exists_holds
    obtain ⟨x, hx⟩ := hparse b (by omega)
    rw [encodeWith_of_emitAndVerify (by omega) (by omega) hb.symm hholds hx]
    exact finish_none_answers _

end

theorem execDecode_answers (hcmp : s.cmp.DefinedOn 0 s.cmpCap) : Answers (execDecode s) := by
  simp only [execDecode]
  split
  · exact raiseError_answers s (by decide)
  · next hlen =>
    obtain ⟨hinit, hfull⟩ := runDecode_of_definedOn (inlen := s.cmpLen.toNat) (hcmp.shorten (by omega)) s.ctrl.capacity s.dec
    cases hr : runDecode s.cmp s.cmpLen.toNat s.ctrl.capacity s.dec with
    | done d => exact ⟨_, rfl, nofun, nofun⟩
    | raised e p => exact ⟨_, rfl, HwError.decoder_pair (runDecode_raised hr) fun he => hfull p (he ▸ hr)⟩
    | uninit => exact absurd hr hinit

theorem execCompress_answers (hcap : s.CapInRange) (hsrc : s.src.DefinedOn 0 8192) : Answers (execCompress s) := by
  have hattempt := attempt_of_definedOn (len := s.srcLen.toNat) hcap hsrc s.ctrl.capacity_le
  obtain ⟨sizes, hsizes⟩ := runSlots_of_attempts hattempt (enabledSlots s.ctrl) []
  simp only [execCompress, hsizes]
  split
  · exact raiseError_answers _ (by decide)
  split
  · exact raiseError_answers _ (by decide)
  split
  · exact raiseError_answers _ (by decide)
  · next k _ _ =>
    obtain ⟨a, ha⟩ := hattempt k
    rw [ha]
    exact finish_none_answers _

theorem exec_command_answers {i : Instr} (hs : s.AllDefined) (hcap : s.CapInRange) (hi : isCommand i = true) : Answers (exec i s) := by
  obtain ⟨hsrc, hwrk, hcmp, -⟩ := hs
  cases i with
  | nop => exact finish_none_answers s
  | load => exact execLoad_answers hsrc
  | holeZero => exact execHoleZero_answers s
  | holePattern => exact execHolePattern_answers hwrk
  | matchCmd => exact execMatch_answers hwrk
  | encGreedy => exact encodeWith_answers hwrk fun b hb => emitAndVerify_slotParse 0 hcap.1 hb s.cmp s.dec
  | encOptimal => exact encodeWith_answers hwrk fun b hb => emitAndVerify_slotParse 1 hcap.1 hb s.cmp s.dec
  | decode => exact execDecode_answers hcmp
  | compress => exact execCompress_answers hcap hsrc
  | chunkMatch | chunkMatchX | chunkNoMatch | chunkEnd => cases hi

/-! ### The chunks -/

theorem exists_chunk_of_not_command {i : Instr} (hi : isCommand i = false) : ∃ c : Chunk, i = c.toInstr := by
  cases i with
  | chunkMatch lits mn off => exact ⟨⟨lits, .matchShort mn off⟩, rfl⟩
  | chunkMatchX lits mx off => exact ⟨⟨lits, .matchLong mx off⟩, rfl⟩
  | chunkNoMatch lits => exact ⟨⟨lits, .noMatch⟩, rfl⟩
  | chunkEnd lits => exact ⟨⟨lits, .endOfData⟩, rfl⟩
  | nop | load | holeZero | holePattern | matchCmd | encGreedy | encOptimal | decode | compress => cases hi

theorem exec_toInstr_next (hdec : s.dec.DefinedOn 0 8192) (c : Chunk) : ∃ t, exec c.toInstr s = .next t := by
  rw [exec_toInstr]
  cases hr : runChunk s.ctrl.capacity c s.decState with
  | go d => exact ⟨_, rfl⟩
  | stop d => exact ⟨_, rfl⟩
  | raised e p => exact ⟨_, rfl⟩
  | uninit =>
    have hop := op_le_of_runChunk_uninit hr
    exact absurd (hdec.shorten (hop.trans s.ctrl.capacity_le)) (runChunk_uninit hr)

end

/-- Settles O60: each command's meaning answers, and a chunk reads DEC only below an output cursor inside the capacity. -/
theorem definedBuffersNeverStop : Obligations.DefinedBuffersNeverStop := by
  intro i s hs hcap
  cases hi : isCommand i with
  | true =>
    obtain ⟨t, ht, hpair⟩ := exec_command_answers hs hcap hi
    exact ⟨t, ht, fun _ => hpair⟩
  | false =>
    obtain ⟨c, rfl⟩ := exists_chunk_of_not_command hi
    obtain ⟨-, -, -, hdec⟩ := hs
    obtain ⟨t, ht⟩ := exec_toInstr_next hdec c
    exact ⟨t, ht, nofun⟩

end Sys2Proof.Machine
end

section
/-! What a chunk does at the cursors, by its checks in order (46_decoder.md R302 to R306, R309), and what DECODE answers by how its decode
ends (R300). The obligations on the Decoder below are read off these equations. -/

namespace Sys2Proof.Machine

open Sys2Proof

/-! ### The four chunk kinds -/

theorem headBytes_eq_hdrSize (run : Nat) : headBytes run = hdrSize run := by
  unfold headBytes hdrSize
  split <;> split <;> omega

section
variable {cap m off : Nat} {c : Chunk} {d : DecState}

/-- A run past the capacity fails at its first literal byte. -/
theorem runChunk_litOut (h : cap < d.op + c.lits.length) :
    runChunk cap c d = .raised .litOut (d.ip + hdrSize c.lits.length) := by
  rcases copyLiterals_cases cap c.lits d with ⟨-, hlits⟩ | ⟨hle, -⟩
  · unfold runChunk
    rw [hlits]
  · omega

/-- A run inside the capacity is copied, and the tail follows. -/
theorem runChunk_eq_runTail (h : d.op + c.lits.length ≤ cap) :
    runChunk cap c d = runTail cap c.tail
      ⟨d.ip + hdrSize c.lits.length + c.lits.length, d.op + c.lits.length, d.dec.writeBytes d.op c.lits⟩ := by
  rcases copyLiterals_cases cap c.lits d with ⟨hlt, -⟩ | ⟨-, hlits⟩
  · omega
  · unfold runChunk
    rw [hlits]

theorem runChunk_noMatch (ht : c.tail = .noMatch) (h : d.op + c.lits.length ≤ cap) :
    runChunk cap c d = .go ⟨d.ip + c.size, d.op + c.lits.length, d.dec.writeBytes d.op c.lits⟩ := by
  rw [runChunk_eq_runTail h, Chunk.size, ht, ← Nat.add_assoc, ← Nat.add_assoc]
  rfl

theorem runChunk_endOfData (ht : c.tail = .endOfData) (h : d.op + c.lits.length ≤ cap) :
    runChunk cap c d = .stop ⟨d.ip + c.size, d.op + c.lits.length, d.dec.writeBytes d.op c.lits⟩ := by
  rw [runChunk_eq_runTail h, Chunk.size, ht, ← Nat.add_assoc, ← Nat.add_assoc]
  rfl

/-- With the run copied, both match kinds are a match at the end of the chunk. -/
theorem runChunk_eq_copyMatch (hm : matchOf c.tail = some (m, off)) (h : d.op + c.lits.length ≤ cap) :
    runChunk cap c d = copyMatch cap m off ⟨d.ip + c.size, d.op + c.lits.length, d.dec.writeBytes d.op c.lits⟩ := by
  rw [runChunk_eq_runTail h, runTail_of_matchOf hm, Chunk.size, ← Nat.add_assoc, ← Nat.add_assoc]

/-! ### The checks of a match (R309) -/

theorem copyMatch_ahead (h : d.op ≤ off) : copyMatch cap m off d = .raised .ahead d.ip := if_pos h

theorem copyMatch_mSrc (h1 : off < d.op) (h2 : cap < off + m) : copyMatch cap m off d = .raised .mSrc d.ip :=
  (if_neg (Nat.not_le.mpr h1)).trans (if_pos h2)

theorem copyMatch_mDst (h1 : off < d.op) (h2 : off + m ≤ cap) (h3 : cap < d.op + m) : copyMatch cap m off d = .raised .mDst d.ip :=
  (if_neg (Nat.not_le.mpr h1)).trans ((if_neg (Nat.not_lt.mpr h2)).trans (if_pos h3))

/-- A match whose checks hold and whose source below the run is defined goes on: DEC gets the run, then the period from off on (R311). -/
theorem runChunk_match_go (hm : matchOf c.tail = some (m, off)) (hoff : off < d.op + c.lits.length)
    (hcap : d.op + c.lits.length + m ≤ cap) (hdef : d.dec.DefinedOn off (d.op - off)) :
    ∃ x, runChunk cap c d = .go ⟨d.ip + c.size, d.op + c.lits.length + m, x⟩ ∧
      (∀ a, a < d.op ∨ d.op + c.lits.length + m ≤ a → x.read a = d.dec.read a) ∧
      (∀ k, k < c.lits.length → x.read (d.op + k) = c.lits[k]?) ∧
      ∀ k, k < m → x.read (d.op + c.lits.length + k) = x.read (off + k % (d.op + c.lits.length - off)) := by
  have hlits := Memory.read_writeBytes d.dec d.op c.lits
  rw [runChunk_eq_copyMatch hm (Nat.le_of_add_right_le hcap)]
  generalize hd1 : (⟨d.ip + c.size, d.op + c.lits.length, d.dec.writeBytes d.op c.lits⟩ : DecState) = d1
  obtain ⟨hip, hop, hdec⟩ : d1.ip = d.ip + c.size ∧ d1.op = d.op + c.lits.length ∧ d1.dec = d.dec.writeBytes d.op c.lits :=
    hd1 ▸ ⟨rfl, rfl, rfl⟩
  rcases copyMatch_cases cap m off d1 with ⟨_, _⟩ | ⟨_, _, _⟩ | ⟨_, _, _, _⟩ | ⟨hlt, -, hnone, -⟩ | ⟨-, -, x, -, hgo⟩
  · omega
  · omega
  · omega
  · have hsome : (d1.dec.copyForward d1.op off m).isSome = true := by
      refine Memory.copyForward_isSome hlt fun p h1 h2 => ?_
      rw [hdec, hlits]
      split
      · rw [List.getElem?_eq_getElem (by omega)]; rfl
      · exact hdef p h1 (by omega)
    rw [hnone] at hsome
    cases hsome
  · obtain ⟨ha, -, hbelow, hrepeat⟩ := copyMatch_advance hgo
    rw [← hip, ← hop]
    refine ⟨x, hgo, fun a ha' => ?_, fun k hk => ?_, fun k hk => eq_of_periodic hbelow hrepeat hk⟩
    · rw [ha.outside a (ha'.imp_left fun h => by omega), hdec, hlits, if_neg (by omega)]
    · rw [ha.outside _ (.inl (by omega)), hdec, hlits, if_pos (by omega), Nat.add_sub_cancel_left]

end

/-! ### Failed decodes -/

/-- A check that fails in a chunk fails the decode. -/
theorem applyChunk_raised (e : HwError) (p : Nat) (s : State) :
    ∃ t, applyChunk (.raised e p) s = .next t ∧ s.DecodeFailed e.code e.detail p t := ⟨_, rfl, failDecode_decodeFailed e p s⟩

theorem exec_toInstr_raised {s : State} {c : Chunk} {e : HwError} {p : Nat} (h : runChunk s.ctrl.capacity c s.decState = .raised e p) :
    ∃ t, exec c.toInstr s = .next t ∧ s.DecodeFailed e.code e.detail p t := by
  rw [exec_toInstr, h]
  exact applyChunk_raised e p s

/-! ### DECODE by how its decode ends -/

/-- Behind the magic byte the decode is the loop (R301). -/
theorem runDecode_of_magic {cmp dec : Memory} {inlen cap : Nat} (h0 : 0 < inlen) (hmagic : cmp.read 0 = some 0x66) :
    runDecode cmp inlen cap dec = decodeLoop cmp inlen cap inlen ⟨1, 0, dec⟩ := by
  have hstart : startDecode cmp inlen dec = .go ⟨1, 0, dec⟩ := by simp [startDecode, hmagic, h0.ne']
  simp only [runDecode, hstart]

section
variable {s : State}

theorem exec_decode_tooLong (h : s.cmpCap < s.cmpLen.toNat) : exec .decode s = raiseError .cmpLenMax s := if_pos h

theorem exec_decode_eq (h : s.cmpLen.toNat ≤ s.cmpCap) :
    exec .decode s = applyDecode (runDecode s.cmp s.cmpLen.toNat s.ctrl.capacity s.dec) s := if_neg (Nat.not_lt.mpr h)

theorem exec_decode_done {d : DecState} (h : s.cmpLen.toNat ≤ s.cmpCap)
    (hr : runDecode s.cmp s.cmpLen.toNat s.ctrl.capacity s.dec = .done d) : exec .decode s = .next (finishDecode d s) := by
  rw [exec_decode_eq h, hr]
  rfl

theorem exec_decode_raised {e : HwError} {p : Nat} (h : s.cmpLen.toNat ≤ s.cmpCap)
    (hr : runDecode s.cmp s.cmpLen.toNat s.ctrl.capacity s.dec = .raised e p) : exec .decode s = .next (failDecode e p s) := by
  rw [exec_decode_eq h, hr]
  rfl

end

end Sys2Proof.Machine
end

section
/-! DECODE of a whole stream of chunks (46_decoder.md R301, R314): what replays is decoded, and a stream written for a larger capacity fails
at the first chunk that passes the smaller one. -/

namespace Sys2Proof.Machine

open Sys2Proof

/-- Settles O42: the loop takes the chunks one by one, each appending what its replay does. -/
theorem decodeReplaysChunks : Obligations.DecodeReplaysChunks := by
  intro s cs out hwf hr hcmp hlen hcap
  obtain ⟨d, hrun, ⟨hop, hdec⟩, hip⟩ := runDecode_of_replay hwf s.dec hr hcmp hlen
  rw [← hop, ← hip]
  exact ⟨_, _, d.dec, hdec, exec_decode_done hcap hrun⟩

/-! ### A larger capacity -/

section
variable {n cap : Nat} {c : Chunk} {cs : List Chunk} {out out' final : List Byte}

theorem Appends.mono (h : Appends n c out out') (hle : n ≤ cap) : Appends cap c out out' := by
  cases h with
  | noMatch ht hn => exact .noMatch ht (hn.trans hle)
  | hit hm hoff hn => exact .hit hm hoff (hn.trans hle)

theorem replay_mono (hle : n ≤ cap) (h : replay n cs out = some final) : replay cap cs out = some final := by
  induction cs generalizing out with
  | nil => cases h
  | cons c cs ih =>
    rcases replay_cons_eq_some h with ⟨ht, rfl, hn, rfl⟩ | ⟨out', happ, hr⟩
    · simp only [replay, ht, if_neg (Nat.not_lt.mpr (hn.trans hle)), if_true]
    · rw [replay_of_appends cs (happ.mono hle)]
      exact ih hr

/-! ### A smaller capacity -/

/-- The errors of a chunk whose run, source or destination lies past the capacity: OVERRUN(4), (8) and (9) (R302, R309). -/
def HwError.PastCapacity (e : HwError) : Prop := e = .litOut ∨ e = .mSrc ∨ e = .mDst

theorem HwError.PastCapacity.pair {e : HwError} (h : e.PastCapacity) : e.code = 2 ∧ (e.detail = 4 ∨ e.detail = 8 ∨ e.detail = 9) := by
  rcases h with rfl | rfl | rfl <;> decide

variable {start : Memory} {d : DecState}

/-- A chunk that appends inside one capacity does so inside another too, or passes that one. -/
theorem Produced.runChunk_go_or_raised (h : Produced start out d) (ha : Appends n c out out') :
    (∃ d', runChunk cap c d = .go d' ∧ Produced start out' d') ∨ ∃ e p, runChunk cap c d = .raised e p ∧ e.PastCapacity := by
  have hlen : (out ++ c.lits).length = d.op + c.lits.length := by rw [List.length_append, h.op]
  by_cases hrun : cap < d.op + c.lits.length
  · exact .inr ⟨_, _, runChunk_litOut hrun, .inl rfl⟩
  · have hrun := Nat.not_lt.mp hrun
    cases ha with
    | noMatch ht _ => exact .inl (h.runChunk_go (.noMatch ht (hlen ▸ hrun)))
    | @hit m off hm hoff _ =>
      by_cases hdst : (out ++ c.lits).length + m ≤ cap
      · exact .inl (h.runChunk_go (.hit hm hoff hdst))
      · rw [hlen] at hoff hdst
        rw [runChunk_eq_copyMatch hm hrun]
        by_cases hsrc : cap < off + m
        · exact .inr ⟨_, _, copyMatch_mSrc hoff hsrc, .inr (.inl rfl)⟩
        · exact .inr ⟨_, _, copyMatch_mDst hoff (Nat.not_lt.mp hsrc) (Nat.not_le.mp hdst), .inr (.inr rfl)⟩

section
variable {cmp : Memory} {inlen : Nat} (hwf : ∀ c ∈ cs, c.wf = true)
include hwf

/-- Chunks that replay to more bytes than the capacity fail at the first one that passes it, the end chunk at the latest. -/
theorem Produced.decodeLoop_raised {fuel : Nat} (h : Produced start out d) (hr : replay n cs out = some final)
    (hlong : cap < final.length) (hcmp : cmp.Holds d.ip (cs.map encodeChunk).flatten)
    (hin : d.ip + (cs.map encodeChunk).flatten.length ≤ inlen) (hfuel : inlen ≤ d.ip + fuel) :
    ∃ e p, decodeLoop cmp inlen cap fuel d = .raised e p ∧ e.PastCapacity := by
  induction cs generalizing out d fuel with
  | nil => cases hr
  | cons c cs ih =>
    obtain ⟨hc, hcs⟩ := List.forall_mem_cons.mp hwf
    have hsize := Laws.length_encodeChunk_size c
    have hpos := chunkSize_pos c
    rw [List.map_cons, List.flatten_cons] at hcmp hin
    rw [List.length_append] at hin
    obtain ⟨hhere, hrest⟩ := Memory.Holds.of_append hcmp
    have hstep := stepChunk_encodeChunk (cap := cap) hc hhere (by omega : d.ip + (encodeChunk c).length ≤ inlen)
    obtain ⟨fuel, rfl⟩ : ∃ k, fuel = k + 1 := ⟨fuel - 1, by omega⟩
    simp only [decodeLoop, hstep]
    rcases replay_cons_eq_some hr with ⟨-, -, -, rfl⟩ | ⟨out', happ, hr⟩
    · rw [List.length_append, ← h.op] at hlong
      rw [runChunk_litOut hlong]
      exact ⟨_, _, rfl, .inl rfl⟩
    · rcases h.runChunk_go_or_raised (cap := cap) happ with ⟨d', hrun, hp⟩ | ⟨e, p, hrun, he⟩
      · have hip := (Machine.runChunk_go hrun).ip
        rw [← hsize] at hip
        rw [hrun]
        exact ih (fuel := fuel) hcs hp hr (hip ▸ hrest) (by omega) (by omega)
      · rw [hrun]
        exact ⟨e, p, rfl, he⟩

theorem runDecode_raised_of_replay (dec : Memory) (hr : replay n cs [] = some final) (hlong : cap < final.length)
    (hcmp : cmp.Holds 0 (streamBytes cs)) (hin : (streamBytes cs).length ≤ inlen) :
    ∃ e p, runDecode cmp inlen cap dec = .raised e p ∧ e.PastCapacity := by
  have hlen : (streamBytes cs).length = 1 + (cs.map encodeChunk).flatten.length := by rw [streamBytes, List.length_cons, Nat.add_comm]
  have hmagic : cmp.read 0 = some 0x66 := hcmp 0 (streamBytes_length_pos cs)
  have hchunks : cmp.Holds 1 (cs.map encodeChunk).flatten := (Memory.Holds.of_append (xs := [Config.magic]) hcmp).2
  have hstart : Produced dec [] ⟨1, 0, dec⟩ := ⟨rfl, fun _ => rfl⟩
  rw [runDecode_of_magic (by omega) hmagic]
  exact hstart.decodeLoop_raised hwf hr hlong hchunks (hlen ▸ hin) (Nat.le_add_left inlen 1)

end

end

/-! ### A decode behind an encode (R314, 70_reset_and_hazards.md R417, R419) -/

/-- DECODE behind an encoder whose parser is a valid choice: its stream replays to the input, which has n bytes. -/
theorem encodeWith_then_decode {parse : List Byte → List Byte} {s : State} {b : List Byte} {choose : Nat → Byte → Token}
    (hv : ValidChoice b choose) (hparse : parse b = streamBytes (chunksOf [] (decisions b choose b.length 0))) (hcap : s.CapInRange)
    (h1 : 8184 ≤ b.length) (h2 : b.length ≤ 8192) (hlen : s.wlen.toNat = b.length) (hb : s.wrk.Holds 0 b) :
    ∃ t u, encodeWith parse s = .next t ∧ exec .decode t = .next u ∧
      (b.length ≤ s.ctrl.capacity → u.status.err = false ∧ u.decLen.toNat = b.length ∧ u.inUsed = t.cmpLen ∧ u.dec.Holds 0 b) ∧
      (s.ctrl.capacity < b.length →
        u.status.errCode = 2 ∧ (u.status.errDetail = 4 ∨ u.status.errDetail = 8 ∨ u.status.errDetail = 9)) := by
  obtain ⟨hbound, h, d, c, e, hcmp, -, hencode⟩ := encodeWith_completes hv hparse hcap h1 h2 hlen hb
  rw [hparse] at hbound hcmp hencode
  have hwf := (decisions_streamOk hv h2).wf
  have hreplay := (follows_decisions_zero hv).replay_eq hv h2 (out := []) (run := []) (Nat.zero_le _) rfl
  generalize chunksOf [] (decisions b choose b.length 0) = cs at *
  generalize ht : ({ s.finished 0 0 h d with
    cmp := c, cmpLen := BitVec.ofNat 17 (streamBytes cs).length, dec := e, decLen := BitVec.ofNat 14 b.length } : State) = t at hencode
  obtain ⟨hctrl, hcmpCap, htcmp, hcmpLen⟩ : t.ctrl = s.ctrl ∧ t.cmpCap = s.cmpCap ∧ t.cmp = c ∧
      t.cmpLen = BitVec.ofNat 17 (streamBytes cs).length := ht ▸ ⟨rfl, rfl, rfl, rfl⟩
  have hstream : t.cmpLen.toNat = (streamBytes cs).length := by rw [hcmpLen, BitVec.toNat_ofNat]; omega
  have hfit : t.cmpLen.toNat ≤ t.cmpCap := by have := hcap.1; omega
  have hholds : t.cmp.Holds 0 (streamBytes cs) := htcmp ▸ hcmp.holds
  rcases Nat.lt_or_ge s.ctrl.capacity b.length with hlong | hle
  · obtain ⟨x, p, hrun, hpast⟩ := runDecode_raised_of_replay hwf t.dec hreplay (hctrl ▸ hlong) hholds hstream.ge
    exact ⟨t, _, hencode, exec_decode_raised hfit hrun, fun hle => absurd hlong (Nat.not_lt.mpr hle), fun _ => hpast.pair⟩
  · obtain ⟨h', d', m, hdec, hdecode⟩ :=
      decodeReplaysChunks t cs b hwf (replay_mono (hctrl ▸ hle) hreplay) hholds hstream.ge hfit
    refine ⟨t, _, hencode, hdecode, fun _ => ⟨rfl, ?_, hcmpLen.symm, hdec.holds⟩, fun hlong => absurd hlong (Nat.not_lt.mpr hle)⟩
    exact (BitVec.toNat_ofNat _ _).trans (by omega)

/-- Settles O50: both parsers are valid choices. -/
theorem encodeThenDecode : Obligations.EncodeThenDecode := by
  intro s i hi hcap h1 h2 hdef
  obtain ⟨b, hlen, hb⟩ := hdef.exists_holds
  have hsame : ∀ m : Memory, m.Holds 0 b → SameBytes s.wlen.toNat m s.wrk := fun m hm a ha => by
    have hread := (hm a (by omega)).trans (hb a (by omega)).symm
    rwa [Nat.zero_add] at hread
  rw [← hlen] at h1 h2 hsame ⊢
  have hparser : ∃ parse choose, exec i s = encodeWith parse s ∧ ValidChoice b choose ∧
      parse b = streamBytes (chunksOf [] (decisions b choose b.length 0)) := by
    rcases hi with rfl | rfl
    · exact ⟨_, _, rfl, greedyChoice_valid b, greedyParse_eq b⟩
    · exact ⟨_, _, rfl, optimalChoice_valid b, (optimalEncode_eq h2).trans (optimalParse_eq b)⟩
  obtain ⟨parse, choose, hexec, hv, hparse⟩ := hparser
  obtain ⟨t, u, ht, hu, hok, hover⟩ := encodeWith_then_decode hv hparse hcap h1 h2 hlen.symm hb
  exact ⟨t, u, hexec.trans ht, hu, fun hle => (hok hle).imp_right (.imp_right (.imp_right (hsame _))), hover⟩

end Sys2Proof.Machine
end

section
/-! One chunk as an instruction (46_decoder.md R302 to R306, R309 to R311): each kind where its checks hold, the bounds checks, and the
step that runs the chunk at the input cursor. -/

namespace Sys2Proof.Machine

open Sys2Proof

theorem exec_toInstr_go {s : State} {c : Chunk} {d : DecState} (h : runChunk s.ctrl.capacity c s.decState = .go d) :
    exec c.toInstr s = .next (s.setDecState d) := by
  rw [exec_toInstr, h]
  rfl

theorem exec_toInstr_stop {s : State} {c : Chunk} {d : DecState} (h : runChunk s.ctrl.capacity c s.decState = .stop d) :
    exec c.toInstr s = .next (finishDecode d s) := by
  rw [exec_toInstr, h]
  rfl

/-- The end of a chunk by the size of its tail (R132). -/
theorem add_chunk_size (ip : Nat) (lits : List Byte) (t : Tail) :
    ip + Chunk.size ⟨lits, t⟩ = ip + headBytes lits.length + lits.length + t.size := by
  rw [headBytes_eq_hdrSize]
  simp only [Chunk.size]
  omega

/-- Settles O48: with its checks holding, a chunk with a match goes on. -/
theorem chunkMatchCompletes : Obligations.ChunkMatchCompletes := by
  intro s i lits m off tailBytes hi op out hoff hcap hdef
  obtain ⟨t, rfl, hm, rfl⟩ : ∃ t, i = Chunk.toInstr ⟨lits, t⟩ ∧ matchOf t = some (m, off) ∧ tailBytes = t.size := by
    rcases hi with ⟨mn, o, rfl, rfl, rfl, rfl⟩ | ⟨mx, o, rfl, rfl, rfl, rfl⟩
    · exact ⟨.matchShort mn o, rfl, rfl, rfl⟩
    · exact ⟨.matchLong mx o, rfl, rfl, rfl⟩
  obtain ⟨x, hgo, houtside, hlits, hperiod⟩ := runChunk_match_go (c := ⟨lits, t⟩) (d := s.decState) hm hoff hcap hdef
  refine ⟨x, ?_, houtside, hlits, hperiod⟩
  rw [exec_toInstr_go hgo, add_chunk_size]
  rfl

/-- Settles O49: with the run inside the capacity, a chunk without a match goes on, or stops. -/
theorem chunkNoMatchAndEndComplete : Obligations.ChunkNoMatchAndEndComplete := by
  intro s lits hcap
  have hgo := exec_toInstr_go (runChunk_noMatch (c := ⟨lits, .noMatch⟩) (d := s.decState) rfl hcap)
  have hstop := exec_toInstr_stop (runChunk_endOfData (c := ⟨lits, .endOfData⟩) (d := s.decState) rfl hcap)
  rw [add_chunk_size] at hgo hstop
  exact ⟨s.dec.writeBytes s.hid.op.toNat lits, Memory.read_writeBytes _ _ _, hgo, _, _, hstop⟩

/-- Settles O47: the check of the run, then the three of the match, in order. -/
theorem chunkBoundsChecks : Obligations.ChunkBoundsChecks := by
  intro s c _ ip out
  rw [headBytes_eq_hdrSize, Laws.length_encodeChunk_size]
  refine ⟨fun hlong => exec_toInstr_raised (runChunk_litOut (d := s.decState) hlong), fun hrun m off hm => ?_⟩
  have hmatch := runChunk_eq_copyMatch (d := s.decState) hm hrun
  exact ⟨fun hahead => exec_toInstr_raised (hmatch.trans (copyMatch_ahead hahead)),
    fun hoff hsrc => exec_toInstr_raised (hmatch.trans (copyMatch_mSrc hoff hsrc)),
    fun hoff hsrc hdst => exec_toInstr_raised (hmatch.trans (copyMatch_mDst hoff hsrc hdst))⟩

/-! ### The step between two chunks (R301; log 7) -/

section
variable {s : State} (he : s.engine = .decoding)
include he

theorem engineMove_decoding : engineMove s = applyChunk (stepChunk s.cmp s.cmpLen.toNat s.ctrl.capacity s.decState) s := by
  unfold engineMove
  rw [he]
  exact runNextChunk_eq s

theorem engineMove_chunk {c : Chunk} (hwf : c.wf = true) (hcmp : s.cmp.Holds s.hid.ip.toNat (encodeChunk c))
    (hin : s.hid.ip.toNat + (encodeChunk c).length ≤ s.cmpLen.toNat) : engineMove s = exec c.toInstr s := by
  rw [engineMove_decoding he, stepChunk_encodeChunk (d := s.decState) hwf hcmp hin, exec_toInstr]

end

/-- Settles O7: the bytes are a chunk's code, and the Decoder runs the chunk whose code stands at its input cursor. -/
theorem stepRunsChunk : Obligations.StepRunsChunk := by
  intro s bs i hd he hr hcmp hin
  obtain ⟨c, hc, rfl⟩ := decode_chunk_ok_iff.mp hd
  obtain ⟨hwf, rfl⟩ := decodeChunk_exact hc
  rw [List.append_nil] at hcmp hin
  exact ⟨fun hi => (step_unattended hr hi).trans (engineMove_chunk he hwf hcmp hin),
    fun xs hi => (step_engine hr hi).trans (engineMove_chunk (s := { s with inputs := xs }) he hwf hcmp hin)⟩

end Sys2Proof.Machine
end

section
/-! DECODE from its checks to its end (46_decoder.md R300, R301, R312, R315): what it leaves whichever way it ends, and that on a defined
stream it ends. -/

namespace Sys2Proof.Machine

open Sys2Proof

/-! ### The checks before the first chunk -/

section
variable {cmp dec : Memory} {inlen cap : Nat}

theorem runDecode_empty (hempty : inlen = 0) : runDecode cmp inlen cap dec = .raised .empty 0 := by
  rw [hempty]
  rfl

variable (h0 : 0 < inlen)
include h0

theorem runDecode_magic {v : Byte} (hv : cmp.read 0 = some v) (hne : v ≠ 0x66) : runDecode cmp inlen cap dec = .raised .magic 0 := by
  have hstart : startDecode cmp inlen dec = .raised .magic 0 := by
    unfold startDecode
    rw [if_neg h0.ne', hv]
    exact if_pos hne
  simp only [runDecode, hstart]

theorem runDecode_undefined (hnone : cmp.read 0 = none) : runDecode cmp inlen cap dec = .uninit := by
  simp [runDecode, startDecode, h0.ne', hnone]

end

/-- Settles O43: the length, then that there is a first byte, then its value. -/
theorem decodeStartErrors : Obligations.DecodeStartErrors := by
  intro s
  refine ⟨fun hlong => exec_decode_tooLong hlong ▸ raiseError_finished .cmpLenMax s, fun hempty => ?_,
    fun h0 hfit => ⟨fun v hv hne => ?_, fun hnone => ?_⟩⟩
  · exact ⟨_, exec_decode_raised (by omega) (runDecode_empty hempty), failDecode_decodeFailed .empty 0 s⟩
  · exact ⟨_, exec_decode_raised hfit (runDecode_magic h0 hv hne), failDecode_decodeFailed .magic 0 s⟩
  · rw [exec_decode_eq hfit, runDecode_undefined h0 hnone]
    rfl

/-! ### ERR_POS lies inside the declared length (R310) -/

/-- The FB and LX the error counts are among n bytes. -/
def HeaderWithin (n : Nat) : DecodeError → Prop
  | .litIn hdr _ | .matchExt hdr _ | .offset hdr _ _ => hdr ≤ n
  | .frame | .litExt | .rsvd | .opcode               => True

theorem decodeTail_error_header {mn : Nibble} {hdr run n : Nat} {bs : List Byte} {e : DecodeError}
    (h : decodeTail mn hdr run bs = .error e) (hn : hdr ≤ n) : HeaderWithin n e := by
  unfold decodeTail at h
  split at h
  · split at h
    · next ho => cases h; rw [decodeOffset_error ho]; exact hn
    · cases h
  · cases bs with
    | nil => cases h; exact hn
    | cons mx rest =>
      simp only at h
      split at h
      · cases h
      · split at h
        · cases h
        · split at h
          · next ho => cases h; rw [decodeOffset_error ho]; exact hn
          · cases h

theorem decodeChunk_error_header {bs : List Byte} {e : DecodeError} (h : decodeChunk bs = .error e) : HeaderWithin bs.length e := by
  cases bs with
  | nil => cases h; trivial
  | cons fb bs =>
    simp only [decodeChunk] at h
    split at h
    · next hr => cases h; rw [(decodeRun_error hr).1]; trivial
    · next hdr run body hr =>
      have hhdr : hdr ≤ (fb :: bs).length := by
        obtain ⟨-, hlen⟩ := decodeRun_ok hr
        rw [List.length_cons]
        omega
      split at h
      · cases h; exact hhdr
      · split at h
        · next ht => cases h; exact decodeTail_error_header ht hhdr
        · cases h

theorem HeaderWithin.mono {n k : Nat} {e : DecodeError} (h : HeaderWithin n e) (hnk : n ≤ k) : HeaderWithin k e := by
  cases e with
  | litIn | matchExt | offset => exact Nat.le_trans h hnk
  | frame | litExt | rsvd | opcode => trivial

theorem fetchChunk_error {cmp : Memory} {inlen ip : Nat} {e : DecodeError} (h : fetchChunk cmp inlen ip = .error e) :
    decodeChunk (cmp.definedRun ip (inlen - ip)) = .error e := by
  unfold fetchChunk at h
  split at h
  · next hd => cases h; exact hd
  · cases h

section
variable {inlen cap p : Nat} {d : DecState} {x : HwError} (hip : d.ip ≤ inlen)
include hip

theorem shortChunk_raised_le {e : DecodeError} (he : HeaderWithin (inlen - d.ip) e) (h : shortChunk inlen cap d e = .raised x p) :
    p ≤ inlen := by
  cases e with
  | frame | litExt =>
    simp only [shortChunk] at h
    split at h
    · cases h
    · cases h; exact Nat.le_refl _
  | litIn hdr run | matchExt hdr run | offset hdr run missing =>
    have he : hdr ≤ inlen - d.ip := he
    simp only [shortChunk] at h
    split at h
    · cases h; omega
    · split at h <;> cases h
      omega
  | rsvd | opcode => cases h

theorem stepChunk_raised_le {cmp : Memory} (h : stepChunk cmp inlen cap d = .raised x p) : p ≤ inlen := by
  unfold stepChunk at h
  cases hc : fetchChunk cmp inlen d.ip with
  | error e =>
    rw [hc] at h
    exact shortChunk_raised_le hip ((decodeChunk_error_header (fetchChunk_error hc)).mono (Memory.definedRun_length_le _ _ _)) h
  | ok c =>
    rw [hc] at h
    exact (runChunk_raised h).2.trans (fetchChunk_size hc)

end

theorem runDecode_raised_le {cmp dec : Memory} {inlen cap p : Nat} {x : HwError} (h : runDecode cmp inlen cap dec = .raised x p) :
    p ≤ inlen := by
  unfold runDecode at h
  rcases startDecode_cases cmp inlen dec with ⟨-, hstart⟩ | ⟨-, -, hstart⟩ | ⟨-, -, hstart⟩ | ⟨h0, -, hstart⟩ <;> rw [hstart] at h
  · cases h; exact Nat.zero_le _
  · cases h
  · cases h; exact Nat.zero_le _
  · rcases decodeLoop_raised Decoding.step (Decoding.start h0 dec) h with ⟨d, hd, hstep⟩ | ⟨-, rfl⟩
    · exact stepChunk_raised_le hd.input hstep
    · exact Nat.le_refl _

/-! ### The end of a DECODE (R312, R315) -/

/-- A decode that succeeds has written DEC below its output cursor and nothing above, and stops inside the declared length. -/
theorem finishDecode_allOrNothing {s : State} {d : DecState}
    (hrun : runDecode s.cmp s.cmpLen.toNat s.ctrl.capacity s.dec = .done d) :
    let t := finishDecode d s
    t.decLen.toNat ≤ s.ctrl.capacity ∧ t.dec.DefinedOn 0 t.decLen.toNat ∧ (∀ a, t.decLen.toNat ≤ a → t.dec.read a = s.dec.read a) ∧
      3 ≤ t.inUsed.toNat ∧ t.inUsed.toNat ≤ s.cmpLen.toNat := by
  obtain ⟨hd, h3, -, -⟩ := runDecode_done hrun
  have hcap := s.ctrl.capacity_le
  have hlt := s.cmpLen.isLt
  have hin := hd.input
  have hout := hd.output
  have hop : (BitVec.ofNat 14 d.op).toNat = d.op := by rw [BitVec.toNat_ofNat]; omega
  have hip : (BitVec.ofNat 17 d.ip).toNat = d.ip := by rw [BitVec.toNat_ofNat]; omega
  simp only [finishDecode_decLen, finishDecode_dec, finishDecode_inUsed, hop, hip]
  exact ⟨hout, hd.written, hd.above, h3, hin⟩

/-- Settles O44: by the three ways DECODE ends. -/
theorem decodeAllOrNothing : Obligations.DecodeAllOrNothing := by
  intro s t ht
  rcases execDecode_next ht with ⟨hlong, rfl⟩ | ⟨-, ⟨d, hrun, rfl⟩ | ⟨e, p, hrun, rfl⟩⟩
  · exact .inr (.inl ⟨rfl, rfl, rfl, hlong, rfl, rfl, rfl, rfl⟩)
  · exact .inl ⟨rfl, rfl, finishDecode_allOrNothing hrun⟩
  · have hle := runDecode_raised_le hrun
    have hpos : (BitVec.ofNat 17 p).toNat = p := by rw [BitVec.toNat_ofNat]; omega
    refine .inr (.inr ⟨rfl, runDecode_raised hrun, ?_, ?_⟩)
    · rwa [failDecode_errPos, hpos]
    · rw [failDecode_errPos, hpos]
      exact failDecode_decodeFailed e p s

/-- Settles O45: a defined stream is decoded to an end, and each end completes DECODE. -/
theorem decodeAlwaysCompletes : Obligations.DecodeAlwaysCompletes := by
  intro s hs
  by_cases hlong : s.cmpCap < s.cmpLen.toNat
  · exact ⟨_, exec_decode_tooLong hlong, rfl, rfl, Nat.zero_le _⟩
  · have hfit := Nat.not_lt.mp hlong
    have hdef := hs.resolve_right hlong
    cases hrun : runDecode s.cmp s.cmpLen.toNat s.ctrl.capacity s.dec with
    | done d =>
      obtain ⟨-, -, -, -, hused⟩ := finishDecode_allOrNothing hrun
      exact ⟨_, exec_decode_done hfit hrun, rfl, rfl, hused⟩
    | raised e p => exact ⟨_, exec_decode_raised hfit hrun, rfl, rfl, Nat.zero_le _⟩
    | uninit => exact absurd hrun (runDecode_of_definedOn hdef _ _).1

end Sys2Proof.Machine
end

section
/-! A chunk of which only some bytes lie below CMP_LEN (46_decoder.md R302, R308, R310): which byte the decoder of chunks misses, by the
part of the chunk the cut is in, and the check that fails there. -/

namespace Sys2Proof.Machine

open Sys2Proof

/-! ### The decoder on the first bytes of a chunk (30_encoding.md R126) -/

theorem hdrSize_eq (run : Nat) : hdrSize run = (lxBytes run).length + 1 := by
  unfold hdrSize lxBytes
  split <;> rfl

/-- Behind FB and LX the bytes of a chunk are the run and the tail. -/
theorem encodeChunk_take (c : Chunk) (k : Nat) :
    (encodeChunk c).take (hdrSize c.lits.length + k) =
      (lnField c.lits.length ++ c.tail.mnField) :: (lxBytes c.lits.length ++ (c.lits ++ c.tail.bytes).take k) := by
  rw [hdrSize_eq, encodeChunk, Nat.add_right_comm, List.take_succ_cons, List.append_assoc, List.take_length_add_append]

/-- A tail cut before MX. -/
theorem decodeTail_nil {t : Tail} (h : ∀ mn off, t ≠ .matchShort mn off) (hdr run : Nat) :
    decodeTail t.mnField hdr run [] = .error (.matchExt hdr run) := by
  cases t with
  | matchShort mn off => exact absurd rfl (h mn off)
  | matchLong | noMatch | endOfData => rfl

/-- A tail cut before one of its offset bytes: the first byte missing is the one after those that are there. -/
theorem decodeTail_take {t : Tail} (hwf : t.wf = true) (hdr run : Nat) {k : Nat} (hk : k < t.bytes.length)
    (h : (∃ mn off, t = .matchShort mn off) ∨ 0 < k) :
    decodeTail t.mnField hdr run (t.bytes.take k) = .error (.offset hdr run (hdr + run + k)) := by
  cases t with
  | matchShort mn off =>
    have hmn := matchShort_wf_iff.mp hwf
    obtain rfl | rfl : k = 0 ∨ k = 1 := by have hk : k < 2 := hk; omega
    all_goals exact if_pos hmn
  | matchLong mx off =>
    obtain ⟨h253, h254⟩ := matchLong_wf_iff.mp hwf
    have h0 : 0 < k := h.resolve_left nofun
    obtain rfl | rfl : k = 1 ∨ k = 2 := by have hk : k < 3 := hk; omega
    all_goals
      simp only [decodeTail, Tail.mnField, Tail.bytes, ne_eq, not_true_eq_false, if_false, List.take_succ_cons, List.take_zero,
        if_neg h253, if_neg h254, decodeOffset]
  | noMatch | endOfData =>
    have h0 : 0 < k := h.resolve_left nofun
    have hk : k < 1 := hk
    omega

section
variable {c : Chunk}

theorem length_encodeChunk_parts (c : Chunk) :
    (encodeChunk c).length = hdrSize c.lits.length + c.lits.length + c.tail.bytes.length := by
  rw [Laws.length_encodeChunk, hdrSize]
  split <;> rfl

theorem decodeChunk_take_one (hlx : 15 ≤ c.lits.length) : decodeChunk ((encodeChunk c).take 1) = .error .litExt := by
  simp [decodeChunk, encodeChunk, decodeRun, lnField_eq_15.mpr hlx]

variable (hwf : c.wf = true)
include hwf

theorem decodeChunk_take_lits {k : Nat} (hk : k < c.lits.length) :
    decodeChunk ((encodeChunk c).take (hdrSize c.lits.length + k)) = .error (.litIn (hdrSize c.lits.length) c.lits.length) := by
  have hshort : (((c.lits ++ c.tail.bytes).take k).take c.lits.length).length < c.lits.length := by
    rw [List.length_take, List.length_take]; omega
  rw [encodeChunk_take]
  simp only [decodeChunk, hiNib_append, decodeRun_encoded (Chunk.wf_iff.mp hwf).1, if_pos hshort]

theorem decodeChunk_take_tail {k : Nat} {e : DecodeError}
    (h : decodeTail c.tail.mnField (hdrSize c.lits.length) c.lits.length (c.tail.bytes.take k) = .error e) :
    decodeChunk ((encodeChunk c).take (hdrSize c.lits.length + (c.lits.length + k))) = .error e := by
  rw [encodeChunk_take, List.take_length_add_append]
  simp [decodeChunk, decodeRun_encoded (Chunk.wf_iff.mp hwf).1, h]

end

/-! ### The check that fails (R302, R308, R310) -/

section
variable {inlen cap hdr run : Nat} {d : DecState}

theorem shortChunk_frame (h : inlen ≤ d.ip) : shortChunk inlen cap d .frame = .raised .frame inlen := if_neg (Nat.not_lt.mpr h)

theorem shortChunk_litExt (h : inlen ≤ d.ip + 1) : shortChunk inlen cap d .litExt = .raised .litExt inlen := if_neg (Nat.not_lt.mpr h)

theorem shortChunk_litIn (h : inlen < d.ip + hdr + run) : shortChunk inlen cap d (.litIn hdr run) = .raised .litIn (d.ip + hdr) := if_pos h

/-- Behind the run, its output bound comes before the reads of MX and OFF. -/
theorem shortChunk_litOut {e : DecodeError} (he : e = .matchExt hdr run ∨ ∃ missing, e = .offset hdr run missing)
    (h : cap < d.op + run) : shortChunk inlen cap d e = .raised .litOut (d.ip + hdr) := by
  rcases he with rfl | ⟨missing, rfl⟩
  · exact if_pos h
  · exact if_pos h

theorem shortChunk_matchExt (hout : d.op + run ≤ cap) (h : inlen ≤ d.ip + hdr + run) :
    shortChunk inlen cap d (.matchExt hdr run) = .raised .matchExt inlen :=
  (if_neg (Nat.not_lt.mpr hout)).trans (if_neg (Nat.not_lt.mpr h))

theorem shortChunk_offset {missing : Nat} (hout : d.op + run ≤ cap) (h : inlen ≤ d.ip + missing) :
    shortChunk inlen cap d (.offset hdr run missing) = .raised .offset inlen :=
  (if_neg (Nat.not_lt.mpr hout)).trans (if_neg (Nat.not_lt.mpr h))

end

/-- A step on the declared bytes of a chunk that is cut short fails as the cut says. -/
theorem step_cut {s : State} {bs : List Byte} {e : DecodeError} {x : HwError} {p : Nat} (he : s.engine = .decoding) (hr : s.rst = false)
    (hi : s.inputs = []) (hcmp : s.cmp.Holds s.hid.ip.toNat bs) (hlen : bs.length = s.cmpLen.toNat - s.hid.ip.toNat)
    (hd : decodeChunk bs = .error e) (hx : shortChunk s.cmpLen.toNat s.ctrl.capacity s.decState e = .raised x p) :
    ∃ t, step s = .next t ∧ s.DecodeFailed x.code x.detail p t := by
  have hrun : s.cmp.definedRun s.hid.ip.toNat (s.cmpLen.toNat - s.hid.ip.toNat) = bs := by
    rw [Memory.definedRun_of_holds hcmp hlen.le, ← hlen, Nat.sub_self]
    exact List.append_nil bs
  have hfetch : fetchChunk s.cmp s.cmpLen.toNat s.decState.ip = .error e := by
    unfold fetchChunk
    rw [show s.decState.ip = s.hid.ip.toNat from rfl, hrun, hd]
  rw [step_unattended hr hi, engineMove_decoding he]
  simp only [stepChunk, hfetch, hx]
  exact applyChunk_raised x p s

/-- Settles O46: by the part of the chunk that the declared length cuts. -/
theorem truncatedChunk : Obligations.TruncatedChunk := by
  intro s c hwf he hr hi
  simp only [headBytes_eq_hdrSize]
  intro hip hcut hcmp
  have hfails : ∀ {e x p}, decodeChunk ((encodeChunk c).take (s.cmpLen.toNat - s.hid.ip.toNat)) = .error e →
      shortChunk s.cmpLen.toNat s.ctrl.capacity s.decState e = .raised x p →
      ∃ t, step s = .next t ∧ s.DecodeFailed x.code x.detail p t :=
    fun hd hx => step_cut he hr hi hcmp (List.length_take_of_le hcut.le) hd hx
  rw [length_encodeChunk_parts] at hcut
  generalize hleft : s.cmpLen.toNat - s.hid.ip.toNat = left at *
  refine ⟨fun h0 => ?_, fun h1 hlx => ?_, fun hge hlt => ?_, fun hge => ?_⟩
  · have hin : s.cmpLen.toNat ≤ s.hid.ip.toNat := by omega
    exact hfails (by rw [h0]; rfl) (shortChunk_frame hin)
  · have hin : s.cmpLen.toNat ≤ s.hid.ip.toNat + 1 := by omega
    exact hfails (h1 ▸ decodeChunk_take_one hlx) (shortChunk_litExt hin)
  · obtain ⟨k, rfl⟩ := Nat.exists_eq_add_of_le hge
    have hin : s.cmpLen.toNat < s.hid.ip.toNat + hdrSize c.lits.length + c.lits.length := by omega
    exact hfails (decodeChunk_take_lits hwf (by omega)) (shortChunk_litIn hin)
  · obtain ⟨k, rfl⟩ := Nat.exists_eq_add_of_le hge
    rw [Nat.add_assoc] at hfails
    have htail : c.tail.wf = true := (Chunk.wf_iff.mp hwf).2
    have hoffset (h : (∃ mn off, c.tail = .matchShort mn off) ∨ 0 < k) :=
      decodeChunk_take_tail hwf (decodeTail_take htail (hdrSize c.lits.length) c.lits.length (k := k) (by omega) h)
    have hext (h : ∀ mn off, c.tail ≠ .matchShort mn off) :=
      decodeChunk_take_tail (k := 0) hwf (decodeTail_nil h (hdrSize c.lits.length) c.lits.length)
    refine ⟨fun hout => ?_, fun hout => ⟨fun h => ?_, fun hlong h => ?_⟩⟩
    · by_cases h : (∃ mn off, c.tail = .matchShort mn off) ∨ 0 < k
      · exact hfails (hoffset h) (shortChunk_litOut (.inr ⟨_, rfl⟩) hout)
      · obtain ⟨hlong, hk⟩ := not_or.mp h
        obtain rfl : k = 0 := by omega
        exact hfails (hext fun mn off ht => hlong ⟨mn, off, ht⟩) (shortChunk_litOut (.inl rfl) hout)
    · have hin : s.cmpLen.toNat ≤ s.hid.ip.toNat + (hdrSize c.lits.length + c.lits.length + k) := by omega
      exact hfails (hoffset (h.imp_right fun h => by omega)) (shortChunk_offset hout hin)
    · obtain rfl : k = 0 := by omega
      have hin : s.cmpLen.toNat ≤ s.hid.ip.toNat + hdrSize c.lits.length + c.lits.length := by omega
      exact hfails (hext hlong) (shortChunk_matchExt hout hin)

end Sys2Proof.Machine
end

section
/-! The attempts of COMPRESS in the claims' terms (47_compress.md R342, R344): on a defined SRC the attempt of every slot succeeds. It leaves
the slot's variant in WRK and DEC, and the slot's stream in front of CMP. -/

namespace Sys2Proof.Machine

open Sys2Proof

/-! ### The variants byte by byte (41_hole_processor.md R192, R194, R197) -/

theorem inHole_iff_mod {n p : Nat} : InHole n p ↔ p < n ∧ ¬ p % 128 < 120 := by
  rw [inHole_iff]
  unfold InHoleAt
  omega

section
variable {preserve : Bool} {k p : Nat} {raw : List Byte}

@[simp] theorem variantBytes_length (preserve : Bool) (k : Nat) (raw : List Byte) : (variantBytes preserve k raw).length = raw.length :=
  List.length_mapIdx

theorem variantBytes_outside (h : preserve = true ∨ ¬ InHole raw.length p) : (variantBytes preserve k raw)[p]? = raw[p]? := by
  rw [variantBytes, List.getElem?_mapIdx]
  cases hx : raw[p]? with
  | none => rfl
  | some x =>
    obtain ⟨hp, -⟩ := List.getElem?_eq_some_iff.mp hx
    have houtside : preserve = true ∨ p % 128 < 120 := h.imp_right fun hn => by_contra fun hmod => hn (inHole_iff_mod.mpr ⟨hp, hmod⟩)
    rw [Option.map_some, if_pos houtside]

theorem variantBytes_preserved : variantBytes true k raw = raw := List.ext_getElem? fun _ => variantBytes_outside (.inl rfl)

theorem variantBytes_inHole (h : InHole raw.length p) :
    (variantBytes false k raw)[p]? =
      some (if k < 2 then 0 else patternByte raw.length (p / 128) p fun i => (raw[i]?).getD 0) := by
  obtain ⟨hp, hmod⟩ := inHole_iff_mod.mp h
  simp [variantBytes, hp, hmod]

end

/-- PatternFill byte by byte (R194). -/
theorem patternFill_read {n : Nat} {m x : Memory} (h : patternFill n m = some x) (p : Nat) :
    (InHole n p → x.read p = patternByte n (p / 128) p m.read) ∧ (¬ InHole n p → x.read p = m.read p) := by
  have hfilled := patternFill_filled n m
  rw [h] at hfilled
  obtain ⟨-, hread⟩ := hfilled
  refine ⟨fun hp => ?_, fun hp => (hread p).2 fun k _ hk => hp ⟨k, hk⟩⟩
  have hp := inHole_iff.mp hp
  exact (hread p).1 _ (lt_holeCount.mpr (by unfold InHoleAt at hp; omega)) hp

/-- On defined bytes PatternFill's closed form answers a byte. -/
theorem patternByte_some {n k p : Nat} {f : Nat → Option Byte} {g : Nat → Byte} (h : ∀ q, q < n → f q = some (g q))
    (hp : InHoleAt n k p) : patternByte n k p f = some (patternByte n k p g) := by
  unfold InHoleAt at hp
  have h9 : f (128 + 128 * k - 9) = some (g (128 + 128 * k - 9)) := h _ (by omega)
  have h10 : f (128 + 128 * k - 10) = some (g (128 + 128 * k - 10)) := h _ (by omega)
  simp only [patternByte, apply_ite f, apply_ite g, apply_ite some, h9, h10]
  by_cases hlong : 128 + 128 * k + 3 < n
  · simp only [h (128 + 128 * k) (by omega), h (128 + 128 * k + 1) (by omega), h (128 + 128 * k + 2) (by omega), h _ hlong,
      Option.some.injEq]
  · simp only [hlong, false_and, if_false]

/-- A fill of the raw buffer leaves the variant where it puts the variant's bytes into the holes. -/
theorem overwritten_variantBytes {m x : Memory} {k : Nat} {raw : List Byte}
    (hole : ∀ p, InHole raw.length p → x.read p = (variantBytes false k raw)[p]?)
    (outside : ∀ p, ¬ InHole raw.length p → x.read p = (m.writeBytes 0 raw).read p) : m.Overwritten (variantBytes false k raw) x := by
  intro p
  rw [variantBytes_length]
  by_cases hp : InHole raw.length p
  · rw [if_pos (inHole_iff_mod.mp hp).1, hole p hp]
  · rw [outside p hp, variantBytes_outside (.inr hp), Memory.overwritten_writeBytes m raw p]

/-- WRK after the raw buffer and the hole command of a slot (47_compress.md R344). -/
theorem applyVariant_overwritten {c : Ctrl} {raw : List Byte} (m : Memory) (k : Slot) :
    ∃ w, applyVariant (slotVariant c k) raw.length (m.writeBytes 0 raw) = some w ∧
      m.Overwritten (variantBytes c.preserveHoles k raw) w := by
  have hraw := Memory.holds_writeBytes m 0 raw
  unfold slotVariant
  cases c.preserveHoles with
  | true => exact ⟨_, rfl, variantBytes_preserved ▸ Memory.overwritten_writeBytes m raw⟩
  | false =>
    simp only [Bool.false_eq_true, if_false]
    by_cases hk : k.val < 2
    · rw [if_pos hk]
      refine ⟨_, rfl, overwritten_variantBytes (fun p hp => ?_) fun p hp => (zeroFill_read _ _ p).2 hp⟩
      rw [variantBytes_inHole hp, if_pos hk, (zeroFill_read _ _ p).1 hp]
    · rw [if_neg hk]
      obtain ⟨w, hw, -⟩ := patternFill_of_definedOn hraw.definedOn
      refine ⟨w, hw, overwritten_variantBytes (fun p hp => ?_) fun p hp => (patternFill_read hw p).2 hp⟩
      have hread : ∀ q, q < raw.length → (m.writeBytes 0 raw).read q = some ((raw[q]?).getD 0) := fun q hq => by
        have hheld := hraw q hq
        rw [Nat.zero_add] at hheld
        simp [hheld, hq]
      rw [variantBytes_inHole hp, if_neg hk, (patternFill_read hw p).1 hp, patternByte_some hread (inHole_iff.mp hp)]

/-! ### The stream of a slot -/

section
variable {preserve : Bool} {raw : List Byte} (hraw : raw.length ≤ 8192)
include hraw

theorem slotParse_variantBytes (k : Slot) : slotParse k (variantBytes preserve k raw) = slotStream preserve raw k := by
  rcases Nat.mod_two_eq_zero_or_one k.val with hk | hk
  · simp [slotParse, slotOptimal, slotStream, hk]
  · simp [slotParse, slotOptimal, slotStream, hk, optimalEncode_eq ((variantBytes_length preserve k raw).trans_le hraw)]

/-- Both parsers are valid choices, so the stream's chunks replay to the variant, and it obeys the expansion bound (45_token_writer.md R286,
R288). -/
theorem slotStream_chunks (k : Nat) :
    ∃ cs, slotStream preserve raw k = streamBytes cs ∧ (∀ c ∈ cs, c.wf = true) ∧
      replay raw.length cs [] = some (variantBytes preserve k raw) ∧ (streamBytes cs).length ≤ raw.length + 100 := by
  have hlen := variantBytes_length preserve k raw
  unfold slotStream
  generalize variantBytes preserve k raw = b at hlen
  obtain ⟨choose, hv, hstream⟩ : ∃ choose, ValidChoice b choose ∧
      (if k % 2 = 0 then greedyParse b else optimalParse b) = streamBytes (chunksOf [] (decisions b choose b.length 0)) := by
    split
    · exact ⟨_, greedyChoice_valid b, greedyParse_eq b⟩
    · exact ⟨_, optimalChoice_valid b, optimalParse_eq b⟩
  have hf := follows_decisions_zero hv
  have hbound := streamBytes_chunksOf_length_le (hf.copy_usable hv)
  have hsum := hf.size_sum
  rw [← hlen] at hraw ⊢
  exact ⟨_, hstream, (decisions_streamOk hv hraw).wf, hf.replay_eq hv hraw (Nat.zero_le _) rfl, by omega⟩

theorem slotStream_length_le (k : Nat) : (slotStream preserve raw k).length ≤ raw.length + 100 := by
  obtain ⟨cs, hstream, -, -, hbound⟩ := slotStream_chunks (preserve := preserve) hraw k
  rwa [hstream]

end

/-! ### One attempt -/

/-- What an attempt that leaves e in DEC leaves in CMP and DEC. -/
def slotEncoded (s : State) (raw : List Byte) (k : Nat) (e : Memory) : Encoded :=
  let stream := slotStream s.ctrl.preserveHoles raw k
  { cmp := s.cmp.writeBytes 0 stream, dec := e, size := stream.length }

/-- The work of slot k on the raw buffer leaves w in WRK and e in DEC (R344). -/
structure SlotAttempt (s : State) (raw : List Byte) (k : Slot) (w e : Memory) : Prop where
  filled  : applyVariant (slotVariant s.ctrl k) raw.length (s.wrk.writeBytes 0 raw) = some w
  encoded : emitAndVerify s.cmpCap s.cmp s.dec (variantBytes s.ctrl.preserveHoles k raw)
    (slotParse k (variantBytes s.ctrl.preserveHoles k raw)) = .ok (slotEncoded s raw k e)
  wrk     : s.wrk.Overwritten (variantBytes s.ctrl.preserveHoles k raw) w
  dec     : s.dec.Overwritten (variantBytes s.ctrl.preserveHoles k raw) e

section
variable {s : State} {raw : List Byte}

theorem exists_slotAttempt (hcap : s.CapInRange) (hraw : raw.length ≤ 8192) (k : Slot) : ∃ w e, SlotAttempt s raw k w e := by
  have hlen := variantBytes_length s.ctrl.preserveHoles k raw
  obtain ⟨w, hfilled, hwrk⟩ := applyVariant_overwritten (c := s.ctrl) (raw := raw) s.wrk k
  obtain ⟨cs, hstream, hwf, hreplay, hbound⟩ := slotStream_chunks (preserve := s.ctrl.preserveHoles) hraw k
  have hfit : (streamBytes cs).length ≤ s.cmpCap := by have := hcap.1; omega
  obtain ⟨e, hdec, hemit⟩ := emitAndVerify_of_replay s.cmp s.dec hwf (hlen.symm ▸ hreplay) hfit
  refine ⟨w, e, hfilled, ?_, hwrk, hdec⟩
  rw [slotParse_variantBytes hraw, slotEncoded, hstream]
  exact hemit

theorem SlotAttempt.attempt_eq {k : Slot} {w e : Memory} {len : Nat} (h : SlotAttempt s raw k w e)
    (hload : loadBytes s.src len raw.length = some raw) : attempt s len raw.length k = .ok ⟨w, slotEncoded s raw k e⟩ := by
  have hinput := Memory.holds_iff_readBytes.mp h.wrk.holds
  rw [variantBytes_length] at hinput
  simp only [attempt, hload, h.filled, hinput, h.encoded]

/-- The raw buffer is what LOAD reads (R344, 40_control.md R172). -/
theorem RawBuffer.loadBytes_eq (h : RawBuffer s raw) : loadBytes s.src s.srcLen.toNat raw.length = some raw := by
  obtain ⟨-, hread⟩ := h
  have hdef : s.src.DefinedOn 0 (min raw.length s.srcLen.toNat) := fun p _ hp => by
    have hbyte := hread p (by omega)
    rw [if_pos (by omega)] at hbyte
    rw [← hbyte, List.getElem?_eq_getElem (by omega)]
    rfl
  obtain ⟨bs, hbs⟩ := exists_loadBytes hdef
  have hlen := loadBytes_length hbs
  rw [hbs]
  refine congrArg some (List.ext_getElem? fun p => ?_)
  by_cases hp : p < raw.length
  · rw [loadBytes_getElem? hbs hp, hread p hp]
  · rw [List.getElem?_eq_none (by omega), List.getElem?_eq_none (by omega)]

theorem RawBuffer.length_le (h : RawBuffer s raw) : raw.length ≤ 8192 := h.1.trans_le s.ctrl.capacity_le

end

end Sys2Proof.Machine
end

section
/-! COMPRESS from its slots to its final state (47_compress.md R343 to R346): with every attempt a success, the run of the slots collects the
sizes of their streams, and the winner is the smallest, the earliest of equals. -/

namespace Sys2Proof.Machine

open Sys2Proof

/-! ### The sizes of the slots -/

/-- The slots that run, each with the size of its stream. -/
def slotSizes (c : Ctrl) (raw : List Byte) : List (Slot × Nat) :=
  (enabledSlots c).map fun k => (k, (slotStream c.preserveHoles raw k).length)

section
variable {c : Ctrl} {raw : List Byte}

theorem mem_slotSizes {x : Slot × Nat} :
    x ∈ slotSizes c raw ↔ SlotRuns c x.1 ∧ x.2 = (slotStream c.preserveHoles raw x.1).length := by
  obtain ⟨k, size⟩ := x
  simp only [slotSizes, List.mem_map, mem_enabledSlots, Prod.mk.injEq]
  constructor
  · rintro ⟨k, hk, rfl, rfl⟩
    exact ⟨hk, rfl⟩
  · rintro ⟨hk, rfl⟩
    exact ⟨k, hk, rfl, rfl⟩

theorem SlotRuns.mem_slotSizes {k : Nat} (h : SlotRuns c k) :
    ((⟨k, h.lt⟩ : Slot), (slotStream c.preserveHoles raw k).length) ∈ slotSizes c raw := Machine.mem_slotSizes.mpr ⟨h, rfl⟩

theorem slotSizes_sorted (c : Ctrl) (raw : List Byte) : (slotSizes c raw).Pairwise fun x y => x.1 < y.1 :=
  List.pairwise_map.mpr (enabledSlots_sorted c)

theorem sizeOf_slotSizes (k : Slot) :
    (SlotRuns c k → sizeOf (slotSizes c raw) k = BitVec.ofNat 17 (slotStream c.preserveHoles raw k).length) ∧
    (¬ SlotRuns c k → sizeOf (slotSizes c raw) k = 0) := by
  unfold sizeOf
  cases hfind : (slotSizes c raw).find? fun x => decide (x.1 = k) with
  | none =>
    refine ⟨fun hk => ?_, fun _ => rfl⟩
    exact absurd (decide_eq_true rfl) (List.find?_eq_none.mp hfind _ hk.mem_slotSizes)
  | some x =>
    have hfound := List.find?_some hfind
    obtain rfl : x.1 = k := of_decide_eq_true hfound
    obtain ⟨hk, hsize⟩ := mem_slotSizes.mp (List.mem_of_find?_eq_some hfind)
    exact ⟨fun _ => congrArg (BitVec.ofNat 17) hsize, fun hn => absurd hk hn⟩

end

theorem finishCompress_attSize (best : Slot) (a : Attempt) (n : Nat) (sizes : List (Slot × Nat)) (s : State) (k : Slot) :
    (finishCompress best a n sizes s).attSize k = sizeOf sizes k :=
  match k with
  | 0 | 1 | 2 | 3 => rfl

theorem runSlots_eq {s : State} {len n : Nat} {size : Slot → Nat} (h : ∀ k, ∃ a, attempt s len n k = .ok a ∧ a.enc.size = size k)
    (ks : List Slot) (acc : List (Slot × Nat)) : runSlots s len n ks acc = .ok (acc ++ ks.map fun k => (k, size k)) := by
  induction ks generalizing acc with
  | nil => rw [runSlots, List.map_nil, List.append_nil]
  | cons k ks ih =>
    obtain ⟨a, ha, hsize⟩ := h k
    rw [List.map_cons, ← hsize, List.append_cons, ← ih]
    simp only [runSlots, ha]

/-! ### The winner (R345) -/

/-- Of slots in increasing order, those before the one picked are larger. -/
theorem pickBest_earliest {xs : List (Slot × Nat)} {best r : Slot × Nat} (hsorted : (best :: xs).Pairwise fun x y => x.1 < y.1)
    (h : pickBest xs (some best) = some r) : ∀ x ∈ best :: xs, x.1 < r.1 → r.2 < x.2 := by
  induction xs generalizing best with
  | nil =>
    cases h
    intro x hx hlt
    obtain rfl := List.mem_singleton.mp hx
    exact absurd hlt (lt_irrefl _)
  | cons y ys ih =>
    obtain ⟨hbest, hys⟩ := List.pairwise_cons.mp hsorted
    have hby := hbest y List.mem_cons_self
    rw [pickBest] at h
    intro x hx hlt
    split at h
    · next hless =>
      rcases List.mem_cons.mp hx with rfl | hx
      · obtain ⟨-, -, hle, -⟩ := (pickBest_spec ys (some y)).2 r h
        exact (hle y rfl).trans_lt hless
      · exact ih hys h x hx hlt
    · next hge =>
      have hlarger := ih (hsorted.sublist (.cons_cons best (List.sublist_cons_self y ys))) h
      rcases List.mem_cons.mp hx with rfl | hx
      · exact hlarger _ List.mem_cons_self hlt
      · rcases List.mem_cons.mp hx with rfl | hx
        · exact (hlarger best List.mem_cons_self (hby.trans hlt)).trans_le (Nat.not_lt.mp hge)
        · exact hlarger x (List.mem_cons_of_mem _ hx) hlt

/-- The slot runs with the least size, the earliest of equals. -/
def Wins (c : Ctrl) (raw : List Byte) (best : Nat) : Prop :=
  SlotRuns c best ∧ ∀ k, SlotRuns c k →
    (slotStream c.preserveHoles raw best).length ≤ (slotStream c.preserveHoles raw k).length ∧
    (k < best → (slotStream c.preserveHoles raw best).length < (slotStream c.preserveHoles raw k).length)

theorem pickBest_slotSizes {c : Ctrl} {raw : List Byte} (hrun : ∃ k, SlotRuns c k) :
    ∃ best : Slot, Wins c raw best ∧
      pickBest (slotSizes c raw) none = some (best, (slotStream c.preserveHoles raw best).length) := by
  obtain ⟨k, hk⟩ := hrun
  have hsorted := slotSizes_sorted c raw
  cases hsizes : slotSizes c raw with
  | nil => exact absurd hk.mem_slotSizes (hsizes ▸ List.not_mem_nil)
  | cons x xs =>
    obtain ⟨hnone, hsome⟩ := pickBest_spec (x :: xs) none
    cases hpick : pickBest (x :: xs) none with
    | none => exact absurd (hnone.mp hpick).1 (List.cons_ne_nil _ _)
    | some r =>
      obtain ⟨hr, hleast, -, -⟩ := hsome r hpick
      have hr : r ∈ x :: xs := by simpa using hr
      rw [← hsizes] at hr
      obtain ⟨hruns, hsize⟩ := mem_slotSizes.mp hr
      have hearliest := pickBest_earliest (hsizes ▸ hsorted) hpick
      rw [← hsizes] at hleast hearliest
      refine ⟨r.1, ⟨hruns, fun j hj => ?_⟩, congrArg some (Prod.ext rfl hsize)⟩
      rw [← hsize]
      exact ⟨hleast _ hj.mem_slotSizes, fun hlt => hearliest _ hj.mem_slotSizes hlt⟩

/-! ### CMP behind the stream (R346) -/

theorem read_losersErase_below {cap size a : Nat} (sizes : List (Slot × Nat)) (m : Memory) (ha : a < size) :
    (losersErase cap sizes size m).read a = m.read a := by
  unfold losersErase
  split
  · rw [Memory.read_undefine, if_neg (by omega)]
  · rfl

theorem read_losersErase_above {cap size a : Nat} {sizes : List (Slot × Nat)} (m : Memory) (ha : size ≤ a) (ha' : a < cap) :
    ((∃ x ∈ sizes, size < x.2) → (losersErase cap sizes size m).read a = none) ∧
    ((∀ x ∈ sizes, x.2 = size) → (losersErase cap sizes size m).read a = m.read a) := by
  unfold losersErase
  refine ⟨fun ⟨x, hx, hlt⟩ => ?_, fun hall => ?_⟩
  · rw [if_pos (List.any_eq_true.mpr ⟨x, hx, decide_eq_true hlt⟩), Memory.read_undefine, if_pos (by omega)]
  · rw [if_neg]
    simpa using fun k n hx => (hall (k, n) hx).le

/-! ### The command -/

theorem toNat_ofNat_of_lt {w n : Nat} (h : n < 2 ^ w) : (BitVec.ofNat w n).toNat = n := by
  rw [BitVec.toNat_ofNat, Nat.mod_eq_of_lt h]

section
variable {s : State} {raw : List Byte}

/-- What a COMPRESS that slot k wins leaves, with w in WRK and e in DEC. -/
def compressed (s : State) (raw : List Byte) (k : Slot) (w e : Memory) : State :=
  finishCompress k ⟨w, slotEncoded s raw k e⟩ s.ctrl.capacity (slotSizes s.ctrl raw) s

theorem compressed_attSize (best : Slot) (w e : Memory) (k : Nat) :
    (SlotRuns s.ctrl k → (compressed s raw best w e).attSize k = BitVec.ofNat 17 (slotStream s.ctrl.preserveHoles raw k).length) ∧
    (¬ SlotRuns s.ctrl k → (compressed s raw best w e).attSize k = 0) := by
  rcases Nat.lt_or_ge k 4 with hk | hk
  · have hsize : (compressed s raw best w e).attSize k = _ := finishCompress_attSize best _ _ _ s ⟨k, hk⟩
    rw [hsize]
    exact sizeOf_slotSizes ⟨k, hk⟩
  · refine ⟨fun hrun => absurd hrun.lt (Nat.not_lt.mpr hk), fun _ => ?_⟩
    obtain ⟨j, rfl⟩ := Nat.exists_eq_add_of_le' hk
    rfl

theorem compressed_slot (k : Slot) (w e : Memory) : (compressed s raw k w e).result.slot.toNat = k := toNat_ofNat_of_lt k.isLt

/-- On a legal defined input every attempt succeeds, so COMPRESS completes with the winner's (R343, R345). -/
theorem execCompress_completes (hcap : s.CapInRange) (h1 : 8184 ≤ s.srcLen.toNat) (h2 : s.srcLen.toNat ≤ 8192) (hraw : RawBuffer s raw)
    (hrun : ∃ k, SlotRuns s.ctrl k) :
    ∃ (best : Slot) (w e : Memory), Wins s.ctrl raw best ∧ SlotAttempt s raw best w e ∧
      exec .compress s = .next (compressed s raw best w e) := by
  have hattempt (k : Slot) : ∃ w e, SlotAttempt s raw k w e ∧
      attempt s s.srcLen.toNat s.ctrl.capacity k = .ok ⟨w, slotEncoded s raw k e⟩ := by
    obtain ⟨w, e, hslot⟩ := exists_slotAttempt hcap hraw.length_le k
    exact ⟨w, e, hslot, hraw.1 ▸ hslot.attempt_eq hraw.loadBytes_eq⟩
  have hsizes : runSlots s s.srcLen.toNat s.ctrl.capacity (enabledSlots s.ctrl) [] = .ok (slotSizes s.ctrl raw) :=
    runSlots_eq (fun k => let ⟨_, _, _, ha⟩ := hattempt k; ⟨_, ha, rfl⟩) _ []
  obtain ⟨best, hwins, hpick⟩ := pickBest_slotSizes (raw := raw) hrun
  obtain ⟨w, e, hslot, ha⟩ := hattempt best
  have henabled : (enabledSlots s.ctrl).isEmpty = false :=
    List.isEmpty_eq_false_iff_exists_mem.mpr ⟨best, mem_enabledSlots.mpr hwins.1⟩
  refine ⟨best, w, e, hwins, hslot, ?_⟩
  simp only [exec, execCompress, badInputLength_eq_false.mpr ⟨h1, h2⟩, henabled, hsizes, hpick, ha, Bool.false_eq_true, if_false]
  rfl

end

/-- Settles O51: the winner's attempt is the final state, and CMP behind its stream is erased where another slot's stream is longer. -/
theorem compressCompletes : Obligations.CompressCompletes := by
  intro s raw hcap h1 h2 hraw hrun n variant stream
  obtain ⟨best, w, e, ⟨hbest, hleast⟩, hslot, hexec⟩ := execCompress_completes hcap h1 h2 hraw hrun
  have hcmp : s.cmp.Overwritten (stream best) (s.cmp.writeBytes 0 (stream best)) := Memory.overwritten_writeBytes s.cmp _
  refine ⟨best, _, _, w, _, e, (compressed s raw best w e).attSize, hbest, hleast, compressed_attSize best w e,
    (slotStream_length_le hraw.length_le best).trans_eq (congrArg (· + 100) hraw.1), hslot.wrk, hslot.dec,
    fun a ha => ?_, fun a ha ha' => ?_, hexec⟩
  · exact (read_losersErase_below _ _ ha).trans ((hcmp a).trans (if_pos ha))
  · obtain ⟨hlonger, hequal⟩ := read_losersErase_above (sizes := slotSizes s.ctrl raw) (s.cmp.writeBytes 0 (stream best)) ha ha'
    refine ⟨fun ⟨k, hk, hlt⟩ => hlonger ⟨_, hk.mem_slotSizes, hlt⟩, fun hall => (hequal fun x hx => ?_).trans (hcmp.above ha)⟩
    obtain ⟨hx, hsize⟩ := mem_slotSizes.mp hx
    exact hsize.trans (hall _ hx)

end Sys2Proof.Machine
end

section
/-! COMPRESS against the unit commands (47_compress.md R348, R349). LOAD, the hole command and the encoder of a slot do the work of its
attempt one after the other; and DECODE behind COMPRESS replays the winner's chunks to its variant. -/

namespace Sys2Proof.Machine

open Sys2Proof

/-! ### The unit commands of a slot -/

/-- Without preserved holes the hole command of a slot applies its variant (R342). -/
theorem exec_hole_of_applyVariant {t : State} {n k : Nat} {w : Memory} (hn : t.wlen.toNat = n) (h1 : 128 ≤ n) (h2 : n ≤ 8192)
    (hw : applyVariant (if k < 2 then 1 else 2) n t.wrk = some w) :
    exec (if k < 2 then .holeZero else .holePattern) t = complete { t with wrk := w } := by
  have hlength : holeLengthError n = none := by
    rcases holeLengthError_cases n with ⟨_, -⟩ | ⟨_, -⟩ | ⟨-, -, h⟩
    · omega
    · omega
    · exact h
  split at hw
  · next hk =>
    cases hw
    simp only [hk, if_true, exec, execHoleZero, hn, hlength]
  · next hk =>
    have hw : patternFill n t.wrk = some w := hw
    simp only [hk, if_false, exec, execHolePattern, hn, hlength, hw]

theorem exec_encoder (k : Slot) (t : State) :
    exec (if k.val % 2 = 0 then .encGreedy else .encOptimal) t = encodeWith (slotParse k) t := by
  rcases Nat.mod_two_eq_zero_or_one k.val with hk | hk <;> simp [slotParse, slotOptimal, hk, exec, execEncGreedy, execEncOptimal]

/-- LOAD and, unless holes are preserved, the hole command of slot k. -/
def prepareSlot (k : Nat) (s : State) : Host.Outcome State Fault Refusal :=
  if s.ctrl.preserveHoles = true then exec .load s
  else andThen (exec .load s) (exec (if k < 2 then .holeZero else .holePattern))

theorem unitSequence_eq_andThen (k : Slot) (s : State) : unitSequence k s = andThen (prepareSlot k s) (encodeWith (slotParse k)) := by
  rw [← funext (exec_encoder k)]
  simp only [unitSequence, prepareSlot]
  by_cases hp : s.ctrl.preserveHoles = true
  · rw [if_pos hp, if_pos hp]
  · rw [if_neg hp, if_neg hp]

section
variable {s : State} {raw : List Byte} {k : Slot} {w e : Memory}

theorem SlotAttempt.prepareSlot_eq (h : SlotAttempt s raw k w e) (h1 : 8184 ≤ s.srcLen.toNat) (h2 : s.srcLen.toNat ≤ 8192)
    (hraw : RawBuffer s raw) :
    ∃ hid d, prepareSlot k s = .next { s.finished 0 0 hid d with wrk := w, wlen := BitVec.ofNat 14 raw.length } := by
  have hlen := hraw.1
  have hload : exec .load s = complete { s with wrk := s.wrk.writeBytes 0 raw, wlen := BitVec.ofNat 14 raw.length } :=
    hlen ▸ execLoad_of_loadBytes h1 h2 (hlen ▸ hraw.loadBytes_eq)
  have hfilled := h.filled
  unfold slotVariant at hfilled
  unfold prepareSlot
  rw [hload]
  rcases s.ctrl.capacity_cases with ⟨hp, -⟩ | ⟨hp, hcap⟩ <;> rw [hp] at hfilled ⊢
  · obtain rfl : s.wrk.writeBytes 0 raw = w := Option.some.inj hfilled
    exact ⟨_, _, rfl⟩
  · have hwlen : (BitVec.ofNat 14 raw.length).toNat = raw.length := toNat_ofNat_of_lt (by omega)
    exact ⟨_, _, exec_hole_of_applyVariant
      (t := ({ s with wrk := s.wrk.writeBytes 0 raw, wlen := BitVec.ofNat 14 raw.length } : State).finish none)
      hwlen (by omega) (by omega) hfilled⟩

/-- The unit commands of a slot leave what its attempt leaves (R349). -/
theorem SlotAttempt.unitSequence_eq (h : SlotAttempt s raw k w e) (h1 : 8184 ≤ s.srcLen.toNat) (h2 : s.srcLen.toNat ≤ 8192)
    (hraw : RawBuffer s raw) :
    ∃ hid d, unitSequence k s = .next { s.finished 0 0 hid d with
      wrk := w, wlen := BitVec.ofNat 14 s.ctrl.capacity
      cmp := s.cmp.writeBytes 0 (slotStream s.ctrl.preserveHoles raw k)
      cmpLen := BitVec.ofNat 17 (slotStream s.ctrl.preserveHoles raw k).length
      dec := e, decLen := BitVec.ofNat 14 s.ctrl.capacity } := by
  obtain ⟨hid, d, hprepare⟩ := h.prepareSlot_eq h1 h2 hraw
  have hlen := hraw.1
  have hvariant := variantBytes_length s.ctrl.preserveHoles k raw
  have hrange : 8184 ≤ raw.length ∧ raw.length ≤ 8192 := by rcases s.ctrl.capacity_cases with ⟨-, _⟩ | ⟨-, _⟩ <;> omega
  have hwlen : (BitVec.ofNat 14 raw.length).toNat = raw.length := toNat_ofNat_of_lt (by omega)
  have hencode := encodeWith_of_emitAndVerify (s := { s.finished 0 0 hid d with wrk := w, wlen := BitVec.ofNat 14 raw.length })
    (hrange.1.trans_eq hvariant.symm) (hvariant.trans_le hrange.2) (hwlen.trans hvariant.symm) h.wrk.holds h.encoded
  rw [hvariant] at hencode
  rw [unitSequence_eq_andThen, hprepare, ← hlen]
  exact ⟨_, _, hencode⟩

end

/-- Settles O52: the unit commands of a slot leave what its attempt leaves, the winner's being the final state of COMPRESS. -/
theorem compressIsUnitCommands : Obligations.CompressIsUnitCommands := by
  intro s raw hcap h1 h2 hraw hrun
  obtain ⟨best, w, e, ⟨hbest, -⟩, hslot, hexec⟩ := execCompress_completes hcap h1 h2 hraw hrun
  refine ⟨_, hexec, fun k hk => ?_, ?_⟩
  · obtain ⟨_, _, hk'⟩ := exists_slotAttempt hcap hraw.length_le ⟨k, hk.lt⟩
    obtain ⟨_, _, hunit⟩ := hk'.unitSequence_eq h1 h2 hraw
    exact ⟨_, hunit, rfl, (compressed_attSize best w e k).1 hk⟩
  · obtain ⟨_, _, hunit⟩ := hslot.unitSequence_eq h1 h2 hraw
    rw [compressed_slot]
    exact ⟨_, hbest, hunit, fun a ha => read_losersErase_below _ _ (ha.trans_le (toNat_ofNat_le (Nat.le_refl _))), rfl⟩

/-! ### DECODE behind COMPRESS -/

section
variable {s : State} {raw : List Byte}

theorem compressed_cmp_holds (k : Slot) (w e : Memory) :
    (compressed s raw k w e).cmp.Holds 0 (slotStream s.ctrl.preserveHoles raw k) := fun a ha =>
  (read_losersErase_below _ _ ((Nat.zero_add a).trans_lt ha)).trans (Memory.holds_writeBytes s.cmp 0 _ a ha)

/-- DECODE reads the winner's stream, whose chunks replay to its variant (46_decoder.md R314). -/
theorem exec_decode_compressed (hcap : s.CapInRange) (hraw : RawBuffer s raw) (k : Slot) (w e : Memory) :
    ∃ hid d m, m.Holds 0 (variantBytes s.ctrl.preserveHoles k raw) ∧
      exec .decode (compressed s raw k w e) = .next { (compressed s raw k w e).finished 0 0 hid d with
        dec := m, decLen := BitVec.ofNat 14 raw.length, inUsed := (compressed s raw k w e).cmpLen } := by
  have hlen := hraw.1
  have hmax := hraw.length_le
  have hcmp := compressed_cmp_holds (s := s) (raw := raw) k w e
  obtain ⟨cs, hstream, hwf, hreplay, hbound⟩ := slotStream_chunks (preserve := s.ctrl.preserveHoles) hmax k
  have hcmpLen : (compressed s raw k w e).cmpLen = BitVec.ofNat 17 (streamBytes cs).length := hstream ▸ rfl
  have hsize : (compressed s raw k w e).cmpLen.toNat = (streamBytes cs).length := hcmpLen ▸ toNat_ofNat_of_lt (by omega)
  have hfit : (streamBytes cs).length ≤ s.cmpCap := by have := hcap.1; omega
  rw [hstream] at hcmp
  obtain ⟨hid, d, m, hdec, hdecode⟩ := decodeReplaysChunks (compressed s raw k w e) cs _ hwf (hlen ▸ hreplay) hcmp hsize.ge
    (hsize.trans_le hfit)
  rw [variantBytes_length, ← hcmpLen] at hdecode
  exact ⟨hid, d, m, hdec.holds, hdecode⟩

end

/-- Settles O54: WRK and what DECODE gives both hold the winner's variant, which differs from the raw buffer only inside the holes. -/
theorem compressThenDecode : Obligations.CompressThenDecode := by
  intro s raw hcap h1 h2 hraw hrun n
  obtain ⟨best, w, e, -, hslot, hexec⟩ := execCompress_completes hcap h1 h2 hraw hrun
  obtain ⟨_, _, m, hm, hdecode⟩ := exec_decode_compressed hcap hraw best w e
  have hlen : raw.length = n := hraw.1
  have hmax := hraw.length_le
  have hvariant := variantBytes_length s.ctrl.preserveHoles best raw
  have hread (p : Nat) (hp : p < n) : w.read p = (variantBytes s.ctrl.preserveHoles best raw)[p]? :=
    (hslot.wrk p).trans (if_pos (by omega))
  rw [hlen] at hdecode
  refine ⟨_, _, hexec, hdecode, rfl, toNat_ofNat_of_lt (by omega), rfl, fun p hp => ?_, ?_, fun p hp hout => ?_⟩
  · have hdec := hm p (by omega)
    rw [Nat.zero_add] at hdec
    exact hdec.trans (hread p hp).symm
  · rw [compressed_slot]
    exact hslot.wrk.holds
  · exact (hread p hp).trans (variantBytes_outside (hlen ▸ hout))

end Sys2Proof.Machine
end

section
/-! While the engine may not move: with the reset pin asserted (70_reset_and_hazards.md R400), and with no command accepted (R403). -/

namespace Sys2Proof.Machine

open Sys2Proof

variable {s : State} {x : Input} {xs : List Input}

theorem step_cons (h : s.inputs = x :: xs) : step s = applyInput x { s with inputs := xs } := by
  unfold step
  rw [h]

/-! ### The reset pin asserted (R400) -/

section
variable (hr : s.rst = true)
include hr

theorem hostAccess_write_held (addr : BitVec 20) (size : Nat) (w : Word) : hostAccess (.write addr size w) s = s := if_pos hr

theorem hostAccess_read_held (addr : BitVec 20) (size : Nat) :
    hostAccess (.read addr size) s = { s with rdata := Config.freeWord s.draws, draws := s.draws + 1 } := if_pos hr

/-- A host transaction in the cycle of an engine move is the transaction alone. -/
theorem applyInput_host_held {op : HostOp} (hx : x = .host op ∨ x = .sameCycle op) : applyInput x s = .next (hostAccess op s) := by
  rcases hx with rfl | rfl
  · rfl
  · exact if_pos hr

theorem applyInput_engine_held (hx : x = .engine ∨ x = .beginDecode) : applyInput x s = .next s := by
  rcases hx with rfl | rfl <;> exact if_pos hr

end

/-- Settles O12: a held host transaction changes at most the data returned, and a held engine move nothing. -/
theorem resetHeld : Obligations.ResetHeld := by
  intro s x xs hr hi
  have hr' : ({ s with inputs := xs } : State).rst = true := hr
  rw [step_cons hi]
  refine ⟨fun addr size w hx => ?_, fun addr size hx => ?_, applyInput_engine_held hr', ?_⟩
  · rw [applyInput_host_held hr' hx, hostAccess_write_held hr']
  · rw [applyInput_host_held hr' hx, hostAccess_read_held hr']
    exact ⟨_, _, rfl⟩
  · rintro rfl
    rfl

/-! ### The engine idle (R403) -/

section
variable (he : s.engine = .idle)
include he

theorem engineMove_idle : engineMove s = .next s := by
  unfold engineMove
  rw [he]

/-- Whether or not the reset pin lets the engine move. -/
theorem runUnattended_idle : runUnattended s = .next s := by
  unfold runUnattended
  rw [engineMove_idle he, ite_self]

theorem applyInput_engine_idle : applyInput .engine s = .next s := runUnattended_idle he

end

/-- Settles O8: an idle engine's move changes nothing, whether an input asks for it or none is left. -/
theorem idleEngineWaits : Obligations.IdleEngineWaits := by
  intro s he
  refine ⟨fun hi => ?_, fun xs hi => ?_⟩
  · unfold step
    rw [hi]
    exact runUnattended_idle he
  · rw [step_cons hi]
    exact applyInput_engine_idle he

end Sys2Proof.Machine
end

section
/-! How every instruction ends (60_exceptions.md R363, R370): which errors the Decoder can raise, the one operation every command but DECODE
completes through, and the three ways a chunk answers. -/

namespace Sys2Proof.Machine

open Sys2Proof

/-! ### The errors of the Decoder (R363) -/

/-- ENC_FULL belongs to the TokenWriter: no cut chunk raises it. -/
theorem shortChunk_ne_encFull {inlen cap p : Nat} {d : DecState} (e : DecodeError) : shortChunk inlen cap d e ≠ .raised .encFull p := by
  cases e with
  | rsvd | opcode => exact nofun
  | frame | litExt => simp only [shortChunk]; split <;> exact nofun
  | litIn | matchExt | offset =>
    simp only [shortChunk]
    split
    · exact nofun
    · split <;> exact nofun

theorem stepChunk_ne_encFull {cmp : Memory} {inlen cap p : Nat} {d : DecState} : stepChunk cmp inlen cap d ≠ .raised .encFull p := by
  unfold stepChunk
  split
  · exact shortChunk_ne_encFull _
  · intro h
    rcases (runChunk_raised h).1 with h | h | h | h <;> cases h

theorem runDecode_ne_encFull {cmp dec : Memory} {inlen cap p : Nat} : runDecode cmp inlen cap dec ≠ .raised .encFull p := by
  unfold runDecode
  rcases startDecode_cases cmp inlen dec with ⟨-, h⟩ | ⟨-, -, h⟩ | ⟨-, -, h⟩ | ⟨-, -, h⟩ <;> rw [h]
  · exact nofun
  · exact nofun
  · exact nofun
  · intro hloop
    rcases decodeLoop_raised (P := fun _ => True) (fun _ _ _ _ => trivial) trivial hloop with ⟨d, -, hstep⟩ | ⟨he, -⟩
    · exact stepChunk_ne_encFull hstep
    · cases he

/-- Every FORMAT and OVERRUN error but ENC_FULL is one of DECODE. -/
theorem HwError.mem_errorsOf_decode {e : HwError} (h : e.code = 1 ∨ e.code = 2) (hne : e ≠ .encFull) :
    (e.code.toNat, e.detail.toNat) ∈ errorsOf .decode := by
  revert h hne
  cases e <;> decide

/-- The checks of the literal run and of the match (46_decoder.md R302, R309). -/
theorem HwError.pair_of_chunk {e : HwError} (h : e = .litOut ∨ e = .ahead ∨ e = .mSrc ∨ e = .mDst) :
    (e.code.toNat, e.detail.toNat) ∈ [(2, 4), (2, 7), (2, 8), (2, 9)] := by
  rcases h with rfl | rfl | rfl | rfl <;> decide

/-- A chunk without a match can fail the output bound of its run only (46_decoder.md R302, R305, R306). -/
theorem runChunk_raised_litOut {cap p : Nat} {c : Chunk} {d : DecState} {e : HwError} (ht : c.tail = .noMatch ∨ c.tail = .endOfData)
    (h : runChunk cap c d = .raised e p) : e = .litOut := by
  by_cases hfit : d.op + c.lits.length ≤ cap
  · rcases ht with ht | ht
    · rw [runChunk_noMatch ht hfit] at h; cases h
    · rw [runChunk_endOfData ht hfit] at h; cases h
  · rw [runChunk_litOut (Nat.lt_of_not_le hfit)] at h
    cases h
    rfl

/-- A chunk fails with an error of its own kind. -/
theorem runChunk_raised_mem {cap p : Nat} {c : Chunk} {d : DecState} {e : HwError} (h : runChunk cap c d = .raised e p) :
    (e.code.toNat, e.detail.toNat) ∈ errorsOf c.toInstr := by
  obtain ⟨lits, tail⟩ := c
  cases tail with
  | matchShort | matchLong => exact HwError.pair_of_chunk (runChunk_raised h).1
  | noMatch => obtain rfl := runChunk_raised_litOut (.inl rfl) h; exact List.mem_singleton_self _
  | endOfData => obtain rfl := runChunk_raised_litOut (.inr rfl) h; exact List.mem_singleton_self _

/-! ### Completion (R370) -/

/-- The instruction may complete so: without error, or with an error of its list. -/
def MayEnd (i : Instr) (o : Option HwError) : Prop := ∀ e ∈ o, (e.code.toNat, e.detail.toNat) ∈ errorsOf i

theorem mayEnd_none (i : Instr) : MayEnd i none := nofun

theorem mayEnd_some {i : Instr} {e : HwError} (h : (e.code.toNat, e.detail.toNat) ∈ errorsOf i) : MayEnd i (some e) := by
  rintro _ ⟨⟩
  exact h

@[simp] theorem Status.completed_done (o : Option HwError) (st : Status) : (st.completed o).done = true := by
  cases o <;> rfl

@[simp] theorem Status.completed_lastOpc (o : Option HwError) (st : Status) : (st.completed o).lastOpc = st.lastOpc := by
  cases o <;> rfl

/-- The class and the detail that completion records. -/
theorem MayEnd.errorFields {i : Instr} {o : Option HwError} (h : MayEnd i o) (st : Status) :
    ((st.completed o).err = false ∧ (st.completed o).errCode = 0 ∧ (st.completed o).errDetail = 0) ∨
    ((st.completed o).err = true ∧ ((st.completed o).errCode.toNat, (st.completed o).errDetail.toNat) ∈ errorsOf i) := by
  cases o with
  | none => exact .inl ⟨rfl, rfl, rfl⟩
  | some e => exact .inr ⟨rfl, h e rfl⟩

/-! ### The commands -/

section
variable {i : Instr} {s t : State}

/-- t is completion, as the instruction may end, of a state whose STATUS is that of s. -/
def Finishes (i : Instr) (s t : State) : Prop := ∃ u o, t = State.finish o u ∧ u.status = s.status ∧ MayEnd i o

theorem holeLengthError_mem {n : Nat} {e : HwError} (h : holeLengthError n = some e) :
    (e.code.toNat, e.detail.toNat) ∈ errorsOf .holeZero := by
  rcases holeLengthError_cases n with ⟨-, he⟩ | ⟨-, he⟩ | ⟨-, -, he⟩ <;> rw [he] at h <;> cases h <;> decide

theorem emitAndVerify_failed_mem {cap : Nat} {cmp dec : Memory} {input stream : List Byte} {e : HwError}
    (h : emitAndVerify cap cmp dec input stream = .failed e) : (e.code.toNat, e.detail.toNat) ∈ [(2, 10), (4, 1), (4, 2), (4, 3)] := by
  rcases emitAndVerify_failed h with ⟨rfl, -⟩ | rfl | rfl | rfl <;> decide

theorem encodeWith_finishes {parse : List Byte → List Byte} (h : encodeWith parse s = .next t) : Finishes .encGreedy s t := by
  rcases encodeWith_next h with ⟨-, rfl⟩ | ⟨-, -, input, -, ⟨e, he, rfl⟩ | ⟨x, -, rfl⟩⟩
  · exact ⟨_, _, rfl, rfl, mayEnd_some (by decide)⟩
  · exact ⟨_, _, rfl, rfl, mayEnd_some (.tail _ (emitAndVerify_failed_mem he))⟩
  · exact ⟨_, _, rfl, rfl, mayEnd_none _⟩

theorem execCompress_finishes (h : execCompress s = .next t) : Finishes .compress s t := by
  rcases execCompress_next h with ⟨-, rfl⟩ | ⟨-, -, ⟨-, rfl⟩ | ⟨e, sizes, k, hk, rfl⟩ | ⟨k, a, sizes, -, -, -, rfl⟩⟩
  · exact ⟨_, _, rfl, rfl, mayEnd_some (by decide)⟩
  · exact ⟨_, _, rfl, rfl, mayEnd_some (by decide)⟩
  · obtain ⟨input, he⟩ := attempt_failed hk
    exact ⟨_, _, rfl, rfl, mayEnd_some (.tail _ (.tail _ (emitAndVerify_failed_mem he)))⟩
  · exact ⟨_, _, rfl, rfl, mayEnd_none _⟩

/-- Every command but DECODE ends by `finish`. -/
theorem exec_finishes (hi : isCommand i = true) (hne : i ≠ .decode) (h : exec i s = .next t) : Finishes i s t := by
  cases i with
  | nop => exact ⟨_, _, complete_next.mp h, rfl, mayEnd_none _⟩
  | load =>
    rcases execLoad_next h with ⟨-, rfl⟩ | ⟨-, -, bs, -, rfl⟩
    · exact ⟨_, _, rfl, rfl, mayEnd_some (by decide)⟩
    · exact ⟨_, _, rfl, rfl, mayEnd_none _⟩
  | holeZero =>
    rcases execHoleZero_next h with ⟨e, he, rfl⟩ | ⟨-, -, rfl⟩
    · exact ⟨_, _, rfl, rfl, mayEnd_some (holeLengthError_mem he)⟩
    · exact ⟨_, _, rfl, rfl, mayEnd_none _⟩
  | holePattern =>
    rcases execHolePattern_next h with ⟨e, he, rfl⟩ | ⟨-, -, m, -, rfl⟩
    · exact ⟨_, _, rfl, rfl, mayEnd_some (holeLengthError_mem he)⟩
    · exact ⟨_, _, rfl, rfl, mayEnd_none _⟩
  | matchCmd =>
    rcases execMatch_next h with ⟨-, rfl⟩ | ⟨-, -, rfl⟩ | ⟨-, -, l, o, -, rfl⟩
    · exact ⟨_, _, rfl, rfl, mayEnd_some (by decide)⟩
    · exact ⟨_, _, rfl, rfl, mayEnd_some (by decide)⟩
    · exact ⟨_, _, rfl, rfl, mayEnd_none _⟩
  | encGreedy | encOptimal => exact encodeWith_finishes h
  | compress => exact execCompress_finishes h
  | decode => exact absurd rfl hne
  | chunkMatch | chunkMatchX | chunkNoMatch | chunkEnd => cases hi

theorem execDecode_status (h : execDecode s = .next t) : ∃ o, t.status = s.status.completed o ∧ MayEnd .decode o := by
  rcases execDecode_next h with ⟨-, rfl⟩ | ⟨-, ⟨d, -, rfl⟩ | ⟨e, p, hrun, rfl⟩⟩
  · exact ⟨_, rfl, mayEnd_some (by decide)⟩
  · exact ⟨_, rfl, mayEnd_none _⟩
  · exact ⟨_, rfl, mayEnd_some (HwError.mem_errorsOf_decode (runDecode_raised hrun) fun he => runDecode_ne_encFull (he ▸ hrun))⟩

/-- A command that answers has completed STATUS, and only DECODE leaves ERR_POS or IN_USED. -/
theorem exec_command_ends (hi : isCommand i = true) (h : exec i s = .next t) :
    (∃ o, t.status = s.status.completed o ∧ MayEnd i o) ∧ (i ≠ .decode → t.errPos = 0 ∧ t.inUsed = 0) := by
  by_cases hd : i = .decode
  · subst hd
    exact ⟨execDecode_status h, fun hne => absurd rfl hne⟩
  · obtain ⟨u, o, rfl, hu, ho⟩ := exec_finishes hi hd h
    exact ⟨⟨o, congrArg (Status.completed o) hu, ho⟩, fun _ => ⟨rfl, rfl⟩⟩

end

/-! ### The chunks -/

/-- CHUNK_END is the chunk with the end marker (30_encoding.md R131). -/
theorem toInstr_eq_chunkEnd {c : Chunk} : (∃ lits, c.toInstr = .chunkEnd lits) ↔ c.tail = .endOfData := by
  obtain ⟨lits, tail⟩ := c
  cases tail <;> simp [Chunk.toInstr]

/-- A chunk goes on, ends the decode where it is CHUNK_END, or fails it with an error of its own kind. -/
theorem exec_toInstr_ends {c : Chunk} {s t : State} (h : exec c.toInstr s = .next t) :
    (t.status = s.status ∧ t.events = s.events ∧ t.engine = s.engine ∧ ∀ lits, c.toInstr ≠ .chunkEnd lits) ∨
    (t.status.done = true ∧ t.status.err = false ∧ t.engine = .idle ∧ ∃ lits, c.toInstr = .chunkEnd lits) ∨
    (t.status.done = true ∧ t.status.err = true ∧ t.engine = .idle ∧
      (t.status.errCode.toNat, t.status.errDetail.toNat) ∈ errorsOf c.toInstr) := by
  rw [exec_toInstr] at h
  rcases applyChunk_next h with ⟨d, hr, rfl⟩ | ⟨d, hr, rfl⟩ | ⟨e, p, hr, rfl⟩
  · exact .inl ⟨rfl, rfl, rfl, fun lits hl => runChunk_go_tail hr (toInstr_eq_chunkEnd.mp ⟨lits, hl⟩)⟩
  · exact .inr (.inl ⟨rfl, rfl, rfl, toInstr_eq_chunkEnd.mpr (runChunk_stop hr).1⟩)
  · exact .inr (.inr ⟨rfl, rfl, rfl, runChunk_raised_mem hr⟩)

/-- Settles O59: by how commands and chunks end; no meaning is refused, and UNINIT_READ is the one fault there is. -/
theorem commandsFinish : Obligations.CommandsFinish := by
  refine fun i s => ⟨fun t hi h => ?_, fun t hi h => ?_, exec_ne_refused i s, fun r _ => ?_⟩
  · obtain ⟨⟨o, hst, ho⟩, hpos⟩ := exec_command_ends hi h
    have hc := exec_completes hi h
    rw [hst, hc.events]
    exact ⟨Status.completed_busy .., Status.completed_done .., Status.completed_lastOpc .., rfl, hc.engine, hpos, ho.errorFields _⟩
  · obtain ⟨c, rfl⟩ := exists_chunk_of_not_command hi
    exact exec_toInstr_ends h
  · cases r
    rfl

end Sys2Proof.Machine
end
